-- ==== Sys2Proof/Word.lean ====
section
/-! DEFINITION. The plainest types of the LW24: a byte of a station link, a sector index, a mix class. -/

namespace Sys2Proof

/-- One byte on a station port (R181). -/
abbrev Byte := BitVec 8

/-- A sector index 0..23. Group g serves sector g, so it is a group index too (00_scope.md section 5). -/
abbrev Sector := Fin 24

/-- A mix class 0..7 (R50). -/
abbrev MixClass := Fin 8

end Sys2Proof
end

