-- ==== Sys2Proof/Config.lean ====
section
/-! DEFINITION. What no rule fixes. The LW24 needs no free value: every point the spec leaves open is a choice named in the assumption log, and a figure a rule gives no value for is sent as absent (R191, log 8). -/
end

