-- ==== Sys2Proof/Syntax.lean ====
section
/-! DEFINITION. The commands of the LW24: one constructor of Instr per row of spec/opcode_table.json, in the table's order. -/

namespace Sys2Proof

/-- The three station ports (R181 to R185). -/
inductive PortId where
  | console | supply | placing
  deriving DecidableEq, Repr

/-- The two switches of a jack group (R84). -/
inductive SwitchId where
  | strokeEnd | retracted
  deriving DecidableEq, Repr

/-- The commands the part takes, from its ports, its field interface, its time base and its resets.

A request row is a complete frame of that kind, its CRC right, that arrives on `port` (R181, log 1); `payload` is the frame's payload.
The four PROFILE WRITE rows share one kind: their payload is the block byte (0 to 3), the `index` byte and the `fields` (R184).
An event row says that the event reaches the part; it acts where the state says that the event can occur (log 3). -/
inductive Instr where
  | powerOnReset
  | warmReset
  | restart (port : PortId) (payload : List Byte)
  | requestHeld (port : PortId) (kind : Byte) (payload : List Byte)
  | answerSent (port : PortId)
  | frameDiscarded (port : PortId) (bytes : List Byte)
  | frameByteTimeout (port : PortId)
  | unknownRequest (port : PortId) (kind : Byte) (payload : List Byte)
  | deckWrite (port : PortId) (index : Byte) (fields : List Byte)
  | sectorWrite (port : PortId) (index : Byte) (fields : List Byte)
  | mixWrite (port : PortId) (index : Byte) (fields : List Byte)
  | sweepWrite (port : PortId) (index : Byte) (fields : List Byte)
  | profileRead (port : PortId) (payload : List Byte)
  | setRate (port : PortId) (payload : List Byte)
  | setGoal (port : PortId) (payload : List Byte)
  | setPlane (port : PortId) (payload : List Byte)
  | setCreepSet (port : PortId) (payload : List Byte)
  | establish (port : PortId) (payload : List Byte)
  | adjust (port : PortId) (payload : List Byte)
  | clearFlags (port : PortId) (payload : List Byte)
  | clearFault (port : PortId) (payload : List Byte)
  | start (port : PortId) (payload : List Byte)
  | hold (port : PortId) (payload : List Byte)
  | park (port : PortId) (payload : List Byte)
  | stop (port : PortId) (payload : List Byte)
  | resume (port : PortId) (payload : List Byte)
  | survey (port : PortId) (payload : List Byte)
  | endSurvey (port : PortId) (payload : List Byte)
  | trimSector (port : PortId) (payload : List Byte)
  | layerRestore (port : PortId) (payload : List Byte)
  | setLayerCursor (port : PortId) (payload : List Byte)
  | readLayer (port : PortId) (payload : List Byte)
  | readReleaseLog (port : PortId) (payload : List Byte)
  | writeArbTable (port : PortId) (payload : List Byte)
  | loadArbTable (port : PortId) (payload : List Byte)
  | readArbTable (port : PortId) (payload : List Byte)
  | readFeed (port : PortId) (payload : List Byte)
  | sectorStatus (port : PortId) (payload : List Byte)
  | deckStatus (port : PortId) (payload : List Byte)
  | readAlerts (port : PortId) (payload : List Byte)
  | ackAlerts (port : PortId) (payload : List Byte)
  | supplyState (port : PortId) (payload : List Byte)
  | requestFeed (port : PortId) (payload : List Byte)
  | placed (port : PortId) (payload : List Byte)
  | abandon (port : PortId) (payload : List Byte)
  | ticketQuery (port : PortId) (payload : List Byte)
  | switchInputChange (group : Sector) (switch : SwitchId) (level : Bool)
  | switchFirstState (group : Sector) (switch : SwitchId) (level : Bool)
  | strokeEndTaken (group : Sector)
  | strokeEndLost (group : Sector)
  | retractedTaken (group : Sector)
  | retractedLost (group : Sector)
  | pressurizeWindowExpiry (group : Sector)
  | settleTimeExpiry (group : Sector)
  | ventWindowExpiry (group : Sector)
  | secondEvent
  | minuteEvent
  | paceCounterExpiry
  | dwellLimitReached
  | bondRisk
  | supplyLapse
  | probeAnswer (halfDegrees : Int) (corrupt : Bool)
  | receiverAnswer (tenths : BitVec 16) (corrupt : Bool)
  | sensorTryTimeout
  | ticketExpiry
  | expiredEntryAging
  | startByte (port : PortId) (byte : Byte)
  | inputReturnsToDebouncedState (group : Sector) (switch : SwitchId)
  deriving DecidableEq, Repr

end Sys2Proof
end

