-- ==== Sys2Proof/Decode.lean ====
section
/-! DEFINITION. Reading and writing bytes: byte order, the CRC and the frame (R181, R190), the message catalogue (R184, R185) and the payload of each request; decodeTableWord over the table's rows, which have no bits. -/

namespace Sys2Proof

/-! ### Byte order (R181: most significant byte first, signed fields in two's complement) -/

/-- The low byte of a number. -/
def byteOf (n : Nat) : Byte := BitVec.ofNat 8 n

/-- A two-byte field. -/
def be16 (n : Nat) : List Byte := [byteOf (n / 256), byteOf n]

/-- A four-byte field. -/
def be32 (n : Nat) : List Byte := [byteOf (n / 16777216), byteOf (n / 65536), byteOf (n / 256), byteOf n]

/-- The unsigned value of two bytes. -/
def u16 (a b : Byte) : Nat := a.toNat * 256 + b.toNat

/-- The unsigned value of four bytes. -/
def u32 (a b c d : Byte) : Nat := a.toNat * 16777216 + b.toNat * 65536 + c.toNat * 256 + d.toNat

/-- A 16-bit number read as two's complement. -/
def signed16 (n : Nat) : Int := if n < 32768 then (n : Int) else (n : Int) - 65536

/-- A 32-bit number read as two's complement. -/
def signed32 (n : Nat) : Int := if n < 2147483648 then (n : Int) else (n : Int) - 4294967296

/-! ### CRC and frame (R181, R190) -/

/-- One bit of the CRC with generator x^16 + x^12 + x^5 + 1, most significant bit first. -/
def crcShift (c : BitVec 16) : BitVec 16 :=
  if c.msb then (c <<< 1) ^^^ 0x1021#16 else c <<< 1

/-- One byte of the CRC. -/
def crcByte (c : BitVec 16) (b : Byte) : BitVec 16 :=
  crcShift (crcShift (crcShift (crcShift (crcShift (crcShift (crcShift (crcShift
    (c ^^^ (b.setWidth 16 <<< 8)))))))))

/-- The CRC of a run of bytes: it starts from all ones, with no inversion at the end (R181). -/
def crc16 (bytes : List Byte) : BitVec 16 := bytes.foldl crcByte 0xFFFF#16

/-- The two CRC bytes of a run of bytes, high byte first. -/
def crcBytes (bytes : List Byte) : List Byte := be16 (crc16 bytes).toNat

/-- The bytes of a frame after its start byte: length, kind, payload, CRC (R190). -/
def frameTail (kind : Byte) (payload : List Byte) : List Byte :=
  let body := byteOf payload.length :: kind :: payload
  body ++ crcBytes body

/-- A whole frame (R190). -/
def frameBytes (kind : Byte) (payload : List Byte) : List Byte := 0xA5#8 :: frameTail kind payload

/-- What the bytes received after a start byte amount to (R181). -/
inductive FrameCheck where
  /-- More bytes are to come. -/
  | incomplete
  /-- The length byte is above 250, or the CRC does not match: the frame is discarded. -/
  | bad
  /-- A complete frame that passes R181. -/
  | good (kind : Byte) (payload : List Byte)
  deriving DecidableEq, Repr

/-- R181 on the bytes received after a start byte. -/
def checkFrame (bytes : List Byte) : FrameCheck :=
  match bytes with
  | [] => .incomplete
  | len :: rest =>
    if 250 < len.toNat then .bad
    else if rest.length < len.toNat + 3 then .incomplete
    else
      match rest with
      | [] => .incomplete
      | kind :: body =>
        let payload := body.take len.toNat
        if body.drop len.toNat = crcBytes (len :: kind :: payload) then .good kind payload else .bad

/-! ### The message catalogue (R184, R185) -/

/-- The kinds of request. -/
inductive ReqKind where
  | profileWrite | profileRead | setRate | setGoal | setPlane | setCreepSet | establish | adjust
  | clearFlags | clearFault | start | hold | park | stop | resume | restart | survey | endSurvey
  | trimSector | layerRestore | setLayerCursor | readLayer | readReleaseLog | writeArbTable
  | loadArbTable | readArbTable | readFeed | sectorStatus | deckStatus | readAlerts | ackAlerts
  | supplyState | requestFeed | placed | abandon | ticketQuery
  deriving DecidableEq, Repr

/-- The kind byte of each request (R184, R185). -/
def kindByte : ReqKind → Byte
  | .profileWrite => 0x01 | .profileRead => 0x02 | .setRate => 0x03 | .setGoal => 0x04
  | .setPlane => 0x05 | .setCreepSet => 0x06 | .establish => 0x07 | .adjust => 0x08
  | .clearFlags => 0x09 | .clearFault => 0x0A | .start => 0x0B | .hold => 0x0C | .park => 0x0D
  | .stop => 0x0E | .resume => 0x0F | .restart => 0x10 | .survey => 0x11 | .endSurvey => 0x12
  | .trimSector => 0x13 | .layerRestore => 0x14 | .setLayerCursor => 0x15 | .readLayer => 0x16
  | .readReleaseLog => 0x17 | .writeArbTable => 0x18 | .loadArbTable => 0x19
  | .readArbTable => 0x1A | .readFeed => 0x1B | .sectorStatus => 0x1C | .deckStatus => 0x1D
  | .readAlerts => 0x1E | .ackAlerts => 0x1F | .supplyState => 0x20 | .requestFeed => 0x30
  | .placed => 0x31 | .abandon => 0x32 | .ticketQuery => 0x33

/-- Every kind of the catalogue, in the order of its bytes. -/
def allKinds : List ReqKind :=
  [.profileWrite, .profileRead, .setRate, .setGoal, .setPlane, .setCreepSet, .establish, .adjust,
   .clearFlags, .clearFault, .start, .hold, .park, .stop, .resume, .restart, .survey, .endSurvey,
   .trimSector, .layerRestore, .setLayerCursor, .readLayer, .readReleaseLog, .writeArbTable,
   .loadArbTable, .readArbTable, .readFeed, .sectorStatus, .deckStatus, .readAlerts, .ackAlerts,
   .supplyState, .requestFeed, .placed, .abandon, .ticketQuery]

/-- The kind a byte names, if it is in the catalogue (R183 row 1). -/
def kindOf (b : Byte) : Option ReqKind := allKinds.find? fun k => kindByte k == b

/-- The port a kind belongs to (R183 row 2). -/
def roleOf : ReqKind → PortId
  | .supplyState => .supply
  | .requestFeed => .placing | .placed => .placing | .abandon => .placing | .ticketQuery => .placing
  | .profileWrite => .console | .profileRead => .console | .setRate => .console
  | .setGoal => .console | .setPlane => .console | .setCreepSet => .console
  | .establish => .console | .adjust => .console | .clearFlags => .console
  | .clearFault => .console | .start => .console | .hold => .console | .park => .console
  | .stop => .console | .resume => .console | .restart => .console | .survey => .console
  | .endSurvey => .console | .trimSector => .console | .layerRestore => .console
  | .setLayerCursor => .console | .readLayer => .console | .readReleaseLog => .console
  | .writeArbTable => .console | .loadArbTable => .console | .readArbTable => .console
  | .readFeed => .console | .sectorStatus => .console | .deckStatus => .console
  | .readAlerts => .console | .ackAlerts => .console

/-! ### Requests: the fields of a payload -/

/-- The fifteen fields of the DECK block, in the order of R171. -/
structure DeckBlock where
  /-- H, form height, mm -/
  height : Nat
  /-- F, freeboard, mm -/
  freeboard : Nat
  /-- M, minimum embed, mm -/
  embed : Nat
  /-- C, creep tolerance, mm -/
  creepTol : Nat
  /-- T, tilt limit, mm -/
  tilt : Nat
  /-- W, pressurize window, s -/
  window : Nat
  /-- S, settle time, s -/
  settle : Nat
  /-- V, vent window, s -/
  vent : Nat
  /-- D, dwell limit, s -/
  dwell : Nat
  /-- pace band, m; 1023 disables -/
  band : Nat
  /-- debounce time, ms -/
  debounce : Nat
  /-- supply lapse time, s -/
  lapse : Nat
  /-- cold default, degrees C -/
  cold : Int
  /-- feed timeout, min -/
  feedTimeout : Nat
  /-- drift limit, mm -/
  driftLimit : Nat
  deriving DecidableEq, Repr

/-- The fields of a SECTOR write as they travel (R174, R184). -/
structure SectorFields where
  enable : Nat
  len : Nat
  offset : Int
  mix : Nat
  nbrs : List Nat
  deriving DecidableEq, Repr

/-- The fields of a MIX write as they travel (R176, R184). -/
structure MixFields where
  threshold : Nat
  coldAge : Nat
  thickness : Nat
  line : Nat
  deriving DecidableEq, Repr

/-- The fields of a SWEEP write as they travel (R177, R184). -/
structure SweepFields where
  start : Nat
  mode : Nat
  order : List Nat
  deriving DecidableEq, Repr

/-- The fields of a LAYER RESTORE (R33, R184). -/
structure RestoreFields where
  sector : Nat
  base : Int
  thickness : Nat
  mix : Nat
  age : Nat
  maturity : Nat
  flags : Byte
  batch : Option Nat
  deriving DecidableEq, Repr

/-- A request whose payload length is right, with its fields (R184, R185). -/
inductive Request where
  | deckWrite (f : DeckBlock)
  | sectorWrite (index : Nat) (f : SectorFields)
  | mixWrite (index : Nat) (f : MixFields)
  | sweepWrite (f : SweepFields)
  | profileRead (block index : Nat)
  | setRate (rate : Nat)
  | setGoal (elev : Nat)
  | setPlane (elev : Nat)
  | setCreepSet (sectors : List Nat)
  | establish (sector elev : Nat)
  | adjust (sector c : Nat)
  | clearFlags (sector : Nat) (flags : Byte)
  | clearFault (sector : Nat)
  | start
  | hold
  | park
  | stop
  | resume
  | restart
  | survey
  | endSurvey
  | trimSector (sector : Nat)
  | layerRestore (f : RestoreFields)
  | setLayerCursor (sector slot : Nat)
  | readLayer
  | readReleaseLog (index count : Nat)
  | writeArbTable (slots : List Nat)
  | loadArbTable
  | readArbTable (table : Nat)
  | readFeed (part fromSector : Nat)
  | sectorStatus (sector : Nat)
  | deckStatus
  | readAlerts (index count : Nat)
  | ackAlerts (count : Nat)
  | supplyState (state capacity : Nat) (pressure : Option Nat)
  | requestFeed (line count : Nat)
  | placed (ticket thickness : Nat) (batch : Option Nat)
  | abandon (ticket : Nat)
  | ticketQuery (ticket : Nat)
  deriving DecidableEq, Repr

/-- The numbers that bytes name. -/
def byteNats (bytes : List Byte) : List Nat := bytes.map BitVec.toNat

/-- A run of two-byte fields. -/
def words16 : List Byte → List Nat
  | a :: b :: rest => u16 a b :: words16 rest
  | _ => []

/-- The DECK fields: thirty bytes, fifteen fields of two bytes each, the cold default signed (R184). -/
def parseDeck (p : List Byte) : Option DeckBlock :=
  if p.length = 30 then
    match words16 p with
    | [h, f, m, c, t, w, s, v, d, band, deb, lapse, cold, feed, drift] =>
      some { height := h, freeboard := f, embed := m, creepTol := c, tilt := t, window := w,
             settle := s, vent := v, dwell := d, band := band, debounce := deb, lapse := lapse,
             cold := signed16 cold, feedTimeout := feed, driftLimit := drift }
    | _ => none
  else none

/-- PROFILE WRITE: block, index and the block's fields; a length that does not match, and a block that is none of the four, give none (R170). -/
def parseProfileWrite (p : List Byte) : Option Request :=
  match p with
  | block :: index :: fields =>
    if block = 0 then (parseDeck fields).map .deckWrite
    else if block = 1 then
      match fields with
      | en :: l1 :: l0 :: o1 :: o0 :: mix :: n :: nbrs =>
        if nbrs.length = n.toNat then
          some (.sectorWrite index.toNat { enable := en.toNat, len := u16 l1 l0, offset := signed16 (u16 o1 o0), mix := mix.toNat, nbrs := byteNats nbrs })
        else none
      | _ => none
    else if block = 2 then
      match fields with
      | [t1, t0, a1, a0, k1, k0, line] =>
        some (.mixWrite index.toNat { threshold := u16 t1 t0, coldAge := u16 a1 a0, thickness := u16 k1 k0, line := line.toNat })
      | _ => none
    else if block = 3 then
      match fields with
      | st :: mode :: n :: order =>
        if order.length = n.toNat then some (.sweepWrite { start := st.toNat, mode := mode.toNat, order := byteNats order })
        else none
      | _ => none
    else none
  | _ => none

/-- LAYER RESTORE: 15 bytes, or 17 with a batch reference. -/
def parseRestore (p : List Byte) : Option Request :=
  match p with
  | g :: b3 :: b2 :: b1 :: b0 :: k1 :: k0 :: mix :: a3 :: a2 :: a1 :: a0 :: m1 :: m0 :: fl :: rest =>
    let f : RestoreFields :=
      { sector := g.toNat, base := signed32 (u32 b3 b2 b1 b0), thickness := u16 k1 k0, mix := mix.toNat,
        age := u32 a3 a2 a1 a0, maturity := u16 m1 m0, flags := fl, batch := none }
    match rest with
    | [] => some (.layerRestore f)
    | [r1, r0] => some (.layerRestore { f with batch := some (u16 r1 r0) })
    | _ => none
  | _ => none

/-- A request without fields. -/
def parseNone (r : Request) (p : List Byte) : Option Request := if p = [] then some r else none

/-- A request with one byte. -/
def parseOne (r : Nat → Request) (p : List Byte) : Option Request :=
  match p with
  | [a] => some (r a.toNat)
  | _ => none

/-- A request with two one-byte fields. -/
def parseTwo (r : Nat → Nat → Request) (p : List Byte) : Option Request :=
  match p with
  | [a, b] => some (r a.toNat b.toNat)
  | _ => none

/-- A request with one two-byte field. -/
def parseWord (r : Nat → Request) (p : List Byte) : Option Request :=
  match p with
  | [a, b] => some (r (u16 a b))
  | _ => none

/-- A request with one four-byte field; only fields marked signed in R184 are signed (log 18). -/
def parseLong (r : Nat → Request) (p : List Byte) : Option Request :=
  match p with
  | [a, b, c, d] => some (r (u32 a b c d))
  | _ => none

/-- R183 row 3: the request a payload spells, none where its length is wrong for the kind. -/
def parsePayload (k : ReqKind) (p : List Byte) : Option Request :=
  match k with
  | .profileWrite => parseProfileWrite p
  | .profileRead => parseTwo .profileRead p
  | .setRate => parseWord .setRate p
  | .setGoal => parseLong .setGoal p
  | .setPlane => parseLong .setPlane p
  | .setCreepSet =>
    match p with
    | n :: ss => if ss.length = n.toNat then some (.setCreepSet (byteNats ss)) else none
    | [] => none
  | .establish =>
    match p with
    | [g, a, b, c, d] => some (.establish g.toNat (u32 a b c d))
    | _ => none
  | .adjust =>
    match p with
    | [g, a, b] => some (.adjust g.toNat (u16 a b))
    | _ => none
  | .clearFlags =>
    match p with
    | [g, fl] => some (.clearFlags g.toNat fl)
    | _ => none
  | .clearFault => parseOne .clearFault p
  | .start => parseNone .start p
  | .hold => parseNone .hold p
  | .park => parseNone .park p
  | .stop => parseNone .stop p
  | .resume => parseNone .resume p
  | .restart => parseNone .restart p
  | .survey => parseNone .survey p
  | .endSurvey => parseNone .endSurvey p
  | .trimSector => parseOne .trimSector p
  | .layerRestore => parseRestore p
  | .setLayerCursor => parseTwo .setLayerCursor p
  | .readLayer => parseNone .readLayer p
  | .readReleaseLog => parseTwo .readReleaseLog p
  | .writeArbTable => if p.length = 32 then some (.writeArbTable (byteNats p)) else none
  | .loadArbTable => parseNone .loadArbTable p
  | .readArbTable => parseOne .readArbTable p
  | .readFeed => parseTwo .readFeed p
  | .sectorStatus => parseOne .sectorStatus p
  | .deckStatus => parseNone .deckStatus p
  | .readAlerts => parseTwo .readAlerts p
  | .ackAlerts => parseOne .ackAlerts p
  | .supplyState =>
    match p with
    | [st, k] => some (.supplyState st.toNat k.toNat none)
    | [st, k, a, b] => some (.supplyState st.toNat k.toNat (some (u16 a b)))
    | _ => none
  | .requestFeed => parseTwo .requestFeed p
  | .placed =>
    match p with
    | [a, b, c, d] => some (.placed (u16 a b) (u16 c d) none)
    | [a, b, c, d, e, f] => some (.placed (u16 a b) (u16 c d) (some (u16 e f)))
    | _ => none
  | .abandon => parseWord .abandon p
  | .ticketQuery => parseWord .ticketQuery p

/-! ### The opcode table -/

/-- The command a word of the opcode table spells: no row of spec/opcode_table.json has any bits, so no word spells a command (log 20). -/
def decodeTableWord (_nbits _w : Nat) : Option Instr := none

end Sys2Proof
end

