-- ==== Sys2Proof/Machine/State.lean ====
section
/-! DEFINITION. State: every piece of state the spec gives the LW24, as plain data, and the state right after power-on reset. -/

namespace Sys2Proof.Machine

/-! ### Stopping -/

/-- Reasons for which the part stops. The spec gives none (R183: a refused request changes nothing and is answered; R99: a group's FAULT is a state of that group), so the type has no constructor: no step can end in a fault. Safe. -/
inductive Fault where
  deriving DecidableEq, Repr

/-- Reasons for which a command has no meaning. -/
inductive Refusal where
  /-- Raised by exec's arm of a command that has no meaning yet; every command has one, so nothing raises it. Safe. -/
  | notModelled (mnemonic : String)
  deriving DecidableEq, Repr

/-! ### Named sets (R191 sends each as its place in the list) -/

/-- The deck modes, in the order of the table of 9.1. -/
inductive DeckMode where
  | unset | standby | survey | climb | hold | halt
  deriving DecidableEq, Repr

/-- The status codes (R183). -/
inductive Status where
  | ok | clamped | acceptedLate | none | role | unknown | length | mode | busy | notSet | notEmpty
  | tilt | stackFull | unknownTicket | suspect | exposed | incomplete | notRetracted | index
  deriving DecidableEq, Repr

/-- The alert kinds (11.6). -/
inductive AlertKind where
  | powerOn | warmRestart | groupFault | marginalStroke | switchFault | bondRisk | paceSlip
  | suspectPosition | probeStale | coldJoint | latePlacement | overfill | discrepant | ticketExpired
  | unservedMix | goalReached | supplyLapse | driftLimit | trimRejected | surveyDone
  | clampedSetting
  deriving DecidableEq, Repr

/-- Jack group states (R84). -/
inductive GroupState where
  | idle | pressurizing | stalled | holding | venting | fault
  deriving DecidableEq, Repr

/-- Fault kinds (R84, R99). -/
inductive FaultKind where
  | stall | vent | switch
  deriving DecidableEq, Repr

/-- Stroke kinds (R84). -/
inductive StrokeKind where
  | paced | creep | survey
  deriving DecidableEq, Repr

/-- The timers of a group (R84). -/
inductive TimerKind where
  | window | settle | vent
  deriving DecidableEq, Repr

/-- Probe states (R45). -/
inductive ProbeState where
  | unknown | live | held | stale
  deriving DecidableEq, Repr

/-- Where a temperature in use comes from (R48). -/
inductive TempSource where
  | own | substitute (sector : Sector) | default
  deriving DecidableEq, Repr

/-- Hold reasons, in the order of R64. -/
inductive HoldReason where
  | fault | suspect | goal | supply | tilt | fill | cure | none
  deriving DecidableEq, Repr

/-- Supply states, numbered as 11.4 and R191 give: NOT_READY, READY, LAPSED (R105). -/
inductive SupplyMode where
  | notReady | ready | lapsed
  deriving DecidableEq, Repr

/-- Feed lines and NONE (R125, 11.4). -/
inductive FeedLine where
  | a | b | none
  deriving DecidableEq, Repr

/-- Sweep modes (R120). -/
inductive SweepMode where
  | rotate | alternate
  deriving DecidableEq, Repr

/-- Trim requests (R144). -/
inductive TrimRequest where
  | none | waiting | reading | held
  deriving DecidableEq, Repr

/-- Whether a trim result is of a short trim or of a survey (R144). -/
inductive TrimKind where
  | short | survey
  deriving DecidableEq, Repr

/-- Trim codes (R144, R146). -/
inductive TrimCode where
  | applied | clamped | rejected
  deriving DecidableEq, Repr

/-- Visit outcomes, in the order of R151. -/
inductive VisitOutcome where
  | pending | skipped | blocked | applied | clamped | rejected | fault | aborted
  deriving DecidableEq, Repr

/-- Survey states (R144). -/
inductive SurveyState where
  | none | running | ending
  deriving DecidableEq, Repr

/-- How far the visit under way has come: the steps of R152. -/
inductive VisitPhase where
  /-- step 2: the before-readings are being taken -/
  | reading
  /-- step 3: the survey stroke is asked for and not yet granted -/
  | requested
  /-- step 4: the stroke is granted and no trim result is made yet -/
  | stroke
  /-- step 5: the trim result is made, the group is not home yet -/
  | resultMade
  deriving DecidableEq, Repr

/-- What a try on the sensor line reads, and for whom: a poll of the probe (R44), a drift check (R145), a before-reading or an after-reading (R149, R150, R152). -/
inductive TryKind where
  | probe | drift | before | after
  deriving DecidableEq, Repr

/-! ### The deck profile -/

/-- A MIX block with its written-flag (R176, R179). -/
structure MixBlock where
  written : Bool := false
  threshold : Nat := 0
  coldAge : Nat := 0
  thickness : Nat := 0
  line : FeedLine := .none
  deriving DecidableEq, Repr

/-- The SWEEP block with its written-flag (R177, R179). -/
structure SweepBlock where
  written : Bool := false
  order : List Sector := []
  start : Nat := 0
  mode : SweepMode := .rotate
  deriving DecidableEq, Repr

/-- The DECK block while it is unwritten (R171, R179). -/
def unwrittenDeck : DeckBlock :=
  { height := 0, freeboard := 0, embed := 0, creepTol := 0, tilt := 0, window := 0, settle := 0, vent := 0,
    dwell := 0, band := 0, debounce := 50, lapse := 10, cold := -10, feedTimeout := 0, driftLimit := 0 }

/-! ### The sector records -/

/-- The seven sticky flags (R14). -/
structure StickyFlags where
  marginal : Bool := false
  switchFault : Bool := false
  paceSlip : Bool := false
  bondRisk : Bool := false
  probeMarginal : Bool := false
  drift : Bool := false
  discrepant : Bool := false
  deriving DecidableEq, Repr

/-- The sector table's record, with the rest of the SECTOR block (R1, R174). -/
structure SectorRec where
  enabled : Bool := false
  nbrs : List Sector := []
  /-- L, tenths; none while not set -/
  len : Option Nat := none
  /-- E, tenths; none while unset, which is while the sector is not established (R6) -/
  elev : Option Int := none
  /-- suspect margin, tenths -/
  margin : Nat := 0
  flags : StickyFlags := {}
  /-- written-flag of the SECTOR block (R170) -/
  written : Bool := false
  /-- sector offset, tenths (R143) -/
  offset : Int := 0
  /-- current mix class (R125) -/
  mix : MixClass := 0
  deriving DecidableEq, Repr

/-- The flags of a layer (R18). -/
structure LayerFlags where
  ready : Bool := false
  late : Bool := false
  coldJoint : Bool := false
  overfill : Bool := false
  short : Bool := false
  clamped : Bool := false
  deriving DecidableEq, Repr

/-- A layer record (R18). -/
structure Layer where
  serial : Nat
  ticket : Nat
  base : Int
  top : Int
  mix : MixClass
  placed : Nat
  maturity : Nat
  flags : LayerFlags
  batch : Option Nat
  deriving DecidableEq, Repr

/-- A sector's part of the layer table: stack (slot 0 first), concrete top, wall base, next serial (R19 to R23). -/
structure LayerTable where
  stack : List Layer := []
  top : Option Int := none
  wallBase : Option Int := none
  nextSerial : Nat := 1
  deriving DecidableEq, Repr

/-- A probe record (R45, R57). The reference minute is the last good minute while there is a last good reading, and otherwise `enabledMinute`, the minute the sector was last enabled, 0 after power-on reset (R45). -/
structure Probe where
  state : ProbeState := .unknown
  lastGood : Option Int := none
  lastMinute : Option Nat := none
  refMinute : Nat := 0
  enabledMinute : Nat := 0
  temp : Int := -20
  source : TempSource := .default
  deriving DecidableEq, Repr

/-- The pacing and dwell unit's counters for a group (R69 to R76). -/
structure Pace where
  running : Bool := false
  counter : Nat := 0
  count : Nat := 0
  dwell : Nat := 0
  atGoal : Bool := false
  deriving DecidableEq, Repr

/-- A running timer and its seconds left (R84). -/
structure Timer where
  kind : TimerKind
  left : Nat
  deriving DecidableEq, Repr

/-- A debounce timing under way: the level being timed and the debounce time, in ms, it started with (R86). -/
structure Timing where
  level : Bool
  ms : Nat
  deriving DecidableEq, Repr

/-- A switch: its debounced state, none while unknown after power-on (R103), and the timing under way (R86). -/
structure Switch where
  state : Option Bool := none
  timing : Option Timing := none
  deriving DecidableEq, Repr

/-- A group record (R84, R103). -/
structure Group where
  state : GroupState := .idle
  fault : Option FaultKind := none
  isOpen : Bool := false
  latched : Option Nat := none
  kind : Option StrokeKind := none
  windows : Nat := 0
  failed : Bool := false
  timer : Option Timer := none
  strokes : Nat := 0
  endSw : Switch := {}
  retSw : Switch := {}
  deriving DecidableEq, Repr

/-- An open ticket (R128). -/
structure Ticket where
  number : Nat
  base : Int
  target : Nat
  mix : MixClass
  line : FeedLine
  issue : Nat
  deadline : Nat
  deriving DecidableEq, Repr

/-- A trim result (R144). -/
structure TrimResult where
  kind : TrimKind
  code : TrimCode
  oldLen : Nat
  newLen : Nat
  diff : Option Int
  minute : Nat
  deriving DecidableEq, Repr

/-- The level trim unit's record of a sector (R144). -/
structure Trim where
  drift : Option (Int × Nat) := none
  beyond : Bool := false
  request : TrimRequest := .none
  /-- the before-readings taken so far, in order; none stands for a missing one -/
  before : List (Option Nat) := []
  underWay : Bool := false
  /-- the after-readings taken so far, in order -/
  after : List (Option Nat) := []
  result : Option TrimResult := none
  outcome : Option VisitOutcome := none
  deriving DecidableEq, Repr

/-- Everything the part holds for one sector. -/
structure SectorState where
  table : SectorRec := {}
  layers : LayerTable := {}
  probe : Probe := {}
  pace : Pace := {}
  group : Group := {}
  ticket : Option Ticket := none
  trim : Trim := {}
  deriving DecidableEq, Repr

/-! ### Deck-wide records -/

/-- The supply record (R105); the capacity in force is computed. -/
structure Supply where
  state : SupplyMode := .notReady
  cap : Nat := 0
  pressure : Option Nat := none
  lapse : Nat := 0
  lapseRunning : Bool := false
  deriving DecidableEq, Repr

/-- A creep list entry (R114). -/
structure CreepEntry where
  sector : Sector
  minute : Nat
  deriving DecidableEq, Repr

/-- A release record (R30). -/
structure ReleaseRec where
  sector : Sector
  serial : Nat
  ticket : Nat
  mix : MixClass
  flags : LayerFlags
  exitMinute : Nat
  maturity : Nat
  deriving DecidableEq, Repr

/-- An expired-list entry (R138). -/
structure Expired where
  number : Nat
  sector : Sector
  mix : MixClass
  target : Nat
  deadline : Nat
  deriving DecidableEq, Repr

/-- A try of the sensor line (R43). `live` is clear when its reading has been abandoned and its answer is to be disregarded. -/
structure Try where
  kind : TryKind
  sector : Sector
  /-- 1 to 3: which try of its poll or reading this is -/
  attempt : Nat
  live : Bool := true
  deriving DecidableEq, Repr

/-- An alert list entry (R187). -/
structure Alert where
  kind : AlertKind
  sector : Option Sector
  firstMinute : Nat
  count : Nat
  deriving DecidableEq, Repr

/-- What an answer carries after its kind: the status code and, after the port flags, the fields (R181). -/
structure Reply where
  status : Status
  body : List Byte := []
  deriving DecidableEq, Repr

/-- A complete frame that passed R181. -/
structure Frame where
  kind : Byte
  payload : List Byte
  deriving DecidableEq, Repr

/-- A request in service: its kind and the answer being sent, with OVERRUN as its port flags show it (R182). -/
structure Service where
  kind : Byte
  reply : Reply
  overrun : Bool
  deriving DecidableEq, Repr

/-- Whether a port is inside a frame, with the bytes received after the start byte (R181). -/
inductive Reception where
  | hunting
  | receiving (bytes : List Byte)
  deriving DecidableEq, Repr

/-- A station port (R182). -/
structure Port where
  reception : Reception := .hunting
  service : Option Service := none
  held : Option Frame := none
  overrun : Bool := false
  deriving DecidableEq, Repr

/-- The MODEL's own record of the steps that the last second or minute event has made due and that no command has taken yet (log 2). -/
structure Due where
  /-- expired entries to age out (R138) -/
  aging : Bool := false
  /-- open tickets to expire (R137) -/
  expiry : Bool := false
  /-- sectors whose dwell counter rose to twice the dwell limit (R79) -/
  bond : List Sector := []
  /-- the lapse counter reached the supply lapse time (R107) -/
  lapse : Bool := false
  /-- a dwell counter stands at or above the dwell limit and the demand is to be raised (R77) -/
  dwell : Bool := false
  /-- a pace counter reached 0 (R70) -/
  pace : Bool := false
  deriving DecidableEq, Repr

/-- The arbitration tables after power-on reset: sectors 0 to 23, then EMPTY (R116). -/
def powerOnTable : Vector (Option Sector) 32 :=
  #v[some 0, some 1, some 2, some 3, some 4, some 5, some 6, some 7, some 8, some 9, some 10, some 11,
     some 12, some 13, some 14, some 15, some 16, some 17, some 18, some 19, some 20, some 21, some 22,
     some 23, none, none, none, none, none, none, none, none]

/-- The state of the LW24: INVENTORY.md's '## State' lists each field with its rule. -/
structure State where
  mode : DeckMode := .unset
  beforeHalt : Option DeckMode := none
  /-- the creep set, ascending, no repeats (log 19) -/
  creepSet : List Sector := []
  second : Nat := 0
  minute : Nat := 0
  deck : DeckBlock := unwrittenDeck
  deckWritten : Bool := false
  mixes : Vector MixBlock 8 := Vector.replicate 8 {}
  sweep : SweepBlock := {}
  rate : Nat := 150
  goal : Nat := 0
  plane : Nat := 0
  sectors : Vector SectorState 24 := Vector.replicate 24 {}
  supply : Supply := {}
  pressureOrder : List Sector := []
  creepList : List CreepEntry := []
  active : Vector (Option Sector) 32 := powerOnTable
  shadow : Vector (Option Sector) 32 := powerOnTable
  scanPtr : Nat := 0
  loadPending : Bool := false
  surveyReq : Option Sector := none
  /-- newest first -/
  releaseLog : List ReleaseRec := []
  releaseCount : Nat := 0
  cursorSector : Sector := 0
  cursorSlot : Nat := 0
  queue : List Sector := []
  expired : List Expired := []
  sweepCount : Nat := 0
  lastSweep : Option Nat := none
  nextTicket : Nat := 1
  surveyState : SurveyState := .none
  visit : Option (Sector × VisitPhase) := none
  line : Option Try := none
  waiting : List Try := []
  alerts : List Alert := [⟨.powerOn, none, 0, 1⟩]
  alertFull : Bool := false
  consolePort : Port := {}
  supplyPort : Port := {}
  placingPort : Port := {}
  due : Due := {}
  passDue : Bool := false
  pending : List Instr := []
  deriving DecidableEq, Repr

/-- The machine right after power-on reset: every field at the value its rule gives (R157 and the reset rule of each chapter), the queue of commands empty. -/
def State.reset : State := {}

end Sys2Proof.Machine
end

