-- ==== Sys2Proof/Machine/Operands.lean ====
section
/-! DEFINITION. Reading a request's operands: range clamps, indices, and the encodings of the named fields (00_scope.md 7.1, 11.4). -/

namespace Sys2Proof.Machine

/-- A value clamped to a range: below it the lowest value, above it the highest (00_scope.md 7.1). -/
def clampNat (lo hi n : Nat) : Nat := max lo (min hi n)

/-- The clamp on signed values. -/
def clampInt (lo hi n : Int) : Int := max lo (min hi n)

/-- A sector index, if it is one. -/
def toSector (n : Nat) : Option Sector := if h : n < 24 then some ⟨n, h⟩ else none

/-- A mix class, if it is one. -/
def toMix (n : Nat) : Option MixClass := if h : n < 8 then some ⟨n, h⟩ else none

/-- A list of sector indices, none where some entry is above 23. -/
def toSectors : List Nat → Option (List Sector)
  | [] => some []
  | n :: rest =>
    match toSector n, toSectors rest with
    | some g, some gs => some (g :: gs)
    | _, _ => none

/-- A slot of an arbitration table: a sector, or EMPTY as 0xFF (11.4); none for anything else. -/
def toSlot (n : Nat) : Option (Option Sector) :=
  if n = 255 then some none else (toSector n).map some

/-- The slots of WRITE ARB TABLE. -/
def toSlots : List Nat → Option (List (Option Sector))
  | [] => some []
  | n :: rest =>
    match toSlot n, toSlots rest with
    | some x, some xs => some (x :: xs)
    | _, _ => none

/-- The feed line of a MIX block (11.4). -/
def toLine : Nat → Option FeedLine
  | 0 => some .a
  | 1 => some .b
  | 2 => some .none
  | _ => none

/-- The sweep mode of a SWEEP block (11.4). -/
def toSweepMode : Nat → Option SweepMode
  | 0 => some .rotate
  | 1 => some .alternate
  | _ => none

/-- Every sector, in ascending index. -/
def allSectors : List Sector :=
  [0, 1, 2, 3, 4, 5, 6, 7, 8, 9, 10, 11, 12, 13, 14, 15, 16, 17, 18, 19, 20, 21, 22, 23]

/-- A set of sectors in its one canonical form, ascending without repeats (log 19). -/
def sectorSet (gs : List Sector) : List Sector := allSectors.filter fun g => gs.contains g

end Sys2Proof.Machine
end

