-- ==== Sys2Proof/Machine/Flags.lean ====
section
/-! DEFINITION. The flag bytes (R190), the codes of the named sets (R183, R191, 11.6) and the encodings of an answer's figures (R191). -/

namespace Sys2Proof.Machine

/-! ### Codes -/

/-- The value of a status code on the wire (R183). -/
def Status.code : Status → Byte
  | .ok => 0x00 | .clamped => 0x01 | .acceptedLate => 0x02 | .none => 0x03 | .role => 0x10
  | .unknown => 0x11 | .length => 0x12 | .mode => 0x13 | .busy => 0x14 | .notSet => 0x15
  | .notEmpty => 0x16 | .tilt => 0x17 | .stackFull => 0x18 | .unknownTicket => 0x19
  | .suspect => 0x1A | .exposed => 0x1B | .incomplete => 0x1C | .notRetracted => 0x1D | .index => 0x1E

/-- The code of an alert kind (11.6); code 11 is not used. -/
def AlertKind.code : AlertKind → Byte
  | .powerOn => 1 | .warmRestart => 2 | .groupFault => 3 | .marginalStroke => 4 | .switchFault => 5
  | .bondRisk => 6 | .paceSlip => 7 | .suspectPosition => 8 | .probeStale => 9 | .coldJoint => 10
  | .latePlacement => 12 | .overfill => 13 | .discrepant => 14 | .ticketExpired => 15
  | .unservedMix => 16 | .goalReached => 17 | .supplyLapse => 18 | .driftLimit => 19
  | .trimRejected => 20 | .surveyDone => 21 | .clampedSetting => 22

/-- Deck modes in the order of the table of 9.1 (R191). -/
def DeckMode.code : DeckMode → Byte
  | .unset => 0 | .standby => 1 | .survey => 2 | .climb => 3 | .hold => 4 | .halt => 5

/-- Group states in the order of R84 (R191). -/
def GroupState.code : GroupState → Byte
  | .idle => 0 | .pressurizing => 1 | .stalled => 2 | .holding => 3 | .venting => 4 | .fault => 5

/-- Fault kinds in the order of R84 (R191). -/
def FaultKind.code : FaultKind → Byte
  | .stall => 0 | .vent => 1 | .switch => 2

/-- Stroke kinds in the order of R84 (R191). -/
def StrokeKind.code : StrokeKind → Byte
  | .paced => 0 | .creep => 1 | .survey => 2

/-- Timers in the order of R84 (R191). -/
def TimerKind.code : TimerKind → Byte
  | .window => 0 | .settle => 1 | .vent => 2

/-- Probe states in the order of R45 (R191). -/
def ProbeState.code : ProbeState → Byte
  | .unknown => 0 | .live => 1 | .held => 2 | .stale => 3

/-- Hold reasons in the order of R64 (R191). -/
def HoldReason.code : HoldReason → Byte
  | .fault => 0 | .suspect => 1 | .goal => 2 | .supply => 3 | .tilt => 4 | .fill => 5 | .cure => 6 | .none => 7

/-- Supply states: the encodings of 11.4, LAPSED sent as 2 (R191). -/
def SupplyMode.code : SupplyMode → Byte
  | .notReady => 0 | .ready => 1 | .lapsed => 2

/-- Feed lines (11.4). -/
def FeedLine.code : FeedLine → Byte
  | .a => 0 | .b => 1 | .none => 2

/-- Sweep modes (11.4). -/
def SweepMode.code : SweepMode → Byte
  | .rotate => 0 | .alternate => 1

/-- Trim requests in the order of R144 (R191). -/
def TrimRequest.code : TrimRequest → Byte
  | .none => 0 | .waiting => 1 | .reading => 2 | .held => 3

/-- Trim kinds in the order of R144 (R191). -/
def TrimKind.code : TrimKind → Byte
  | .short => 0 | .survey => 1

/-- Trim codes in the order of R144 (R191). -/
def TrimCode.code : TrimCode → Byte
  | .applied => 0 | .clamped => 1 | .rejected => 2

/-- Visit outcomes in the order of R151 (R191). -/
def VisitOutcome.code : VisitOutcome → Byte
  | .pending => 0 | .skipped => 1 | .blocked => 2 | .applied => 3 | .clamped => 4 | .rejected => 5
  | .fault => 6 | .aborted => 7

/-- Survey states in the order of R144 (R191). -/
def SurveyState.code : SurveyState → Byte
  | .none => 0 | .running => 1 | .ending => 2

/-! ### Flag bytes (R190) -/

/-- One bit of a flag byte. -/
def bit (n : Nat) (b : Bool) : Nat := if b then 2 ^ n else 0

/-- The sticky flags as one byte. -/
def StickyFlags.toByte (f : StickyFlags) : Byte :=
  byteOf (bit 0 f.marginal + bit 1 f.switchFault + bit 2 f.paceSlip + bit 3 f.bondRisk
    + bit 4 f.probeMarginal + bit 5 f.drift + bit 6 f.discrepant)

/-- CLEAR FLAGS: each flag named in the byte is cleared, the others stay; bit 7 is disregarded (R15, R190). -/
def StickyFlags.clear (f : StickyFlags) (b : Byte) : StickyFlags :=
  { marginal := f.marginal && !b.getLsbD 0
    switchFault := f.switchFault && !b.getLsbD 1
    paceSlip := f.paceSlip && !b.getLsbD 2
    bondRisk := f.bondRisk && !b.getLsbD 3
    probeMarginal := f.probeMarginal && !b.getLsbD 4
    drift := f.drift && !b.getLsbD 5
    discrepant := f.discrepant && !b.getLsbD 6 }

/-- The flags of a layer as one byte; bit 7 says whether a batch reference is present. -/
def LayerFlags.toByte (f : LayerFlags) (hasBatch : Bool) : Byte :=
  byteOf (bit 0 f.ready + bit 1 f.late + bit 2 f.coldJoint + bit 3 f.overfill + bit 4 f.short
    + bit 5 f.clamped + bit 7 hasBatch)

/-! ### Figures of an answer (R191) -/

/-- Yes or no. -/
def boolB (b : Bool) : List Byte := [if b then 1 else 0]

/-- A sector or group index. -/
def sectorB (g : Sector) : List Byte := [byteOf g.val]

/-- A two-byte figure that is never negative; it saturates at 65 535. -/
def figB (n : Nat) : List Byte := be16 (min n 65535)

/-- A two-byte signed figure; it saturates at its ends. -/
def sfigB (z : Int) : List Byte := be16 (clampInt (-32768) 32767 z % 65536).toNat

/-- A deck minute or a counter of four bytes; it saturates at 4 294 967 295. -/
def longB (n : Nat) : List Byte := be32 (min n 4294967295)

/-- An elevation: four bytes, signed; it saturates at its ends. -/
def elevB (z : Int) : List Byte := be32 (clampInt (-2147483648) 2147483647 z % 4294967296).toNat

/-- A figure that may be absent: a byte 1 and the figure, or a byte 0 and as many zeros. -/
def optB (width : Nat) (x : Option (List Byte)) : List Byte :=
  match x with
  | some bytes => 1 :: bytes
  | none => 0 :: List.replicate width 0

/-- A list: a count byte and the members. -/
def listB (members : List (List Byte)) : List Byte := byteOf members.length :: members.flatten

/-- The layer record of R190. -/
def layerB (l : Layer) : List Byte :=
  be16 l.serial ++ be16 l.ticket ++ elevB l.base ++ elevB l.top ++ [byteOf l.mix.val] ++ longB l.placed
    ++ figB l.maturity ++ [l.flags.toByte l.batch.isSome] ++ be16 (l.batch.getD 0)

/-- The ticket record of R190. -/
def ticketB (g : Sector) (t : Ticket) : List Byte :=
  be16 t.number ++ sectorB g ++ elevB t.base ++ figB t.target ++ [byteOf t.mix.val] ++ [t.line.code]
    ++ longB t.issue ++ longB t.deadline

/-- A release record of R190; it holds no batch reference, so bit 7 of its flags is 0 (log 9). -/
def releaseB (r : ReleaseRec) : List Byte :=
  sectorB r.sector ++ be16 r.serial ++ be16 r.ticket ++ [byteOf r.mix.val] ++ [r.flags.toByte false]
    ++ longB r.exitMinute ++ figB r.maturity

/-- An expired-list entry: number, then the figures of R140. -/
def expiredFieldsB (e : Expired) : List Byte :=
  sectorB e.sector ++ figB e.mix.val ++ figB e.target ++ longB e.deadline

/-- An alert's sector, 0xFF for none (R189). -/
def alertSectorB (g : Option Sector) : List Byte :=
  match g with
  | some g => sectorB g
  | none => [0xFF]

/-- An alert entry as READ ALERTS sends it (R189). -/
def alertB (a : Alert) : List Byte :=
  [a.kind.code] ++ alertSectorB a.sector ++ longB a.firstMinute ++ [byteOf a.count]

/-- An alert entry as ACK ALERTS sends it: kind, sector and repeat count (R189). R189 gives the bytes of an entry for READ ALERTS alone; the model sends the sector and the count with the same bytes here, where R191 read alone would give a presence byte and a two-byte count: the model's choice (log 9). -/
def ackedB (a : Alert) : List Byte := [a.kind.code] ++ alertSectorB a.sector ++ [byteOf a.count]

/-- The DECK fields in the layout of the write (R184, R191). -/
def deckB (d : DeckBlock) : List Byte :=
  be16 d.height ++ be16 d.freeboard ++ be16 d.embed ++ be16 d.creepTol ++ be16 d.tilt ++ be16 d.window
    ++ be16 d.settle ++ be16 d.vent ++ be16 d.dwell ++ be16 d.band ++ be16 d.debounce ++ be16 d.lapse
    ++ sfigB d.cold ++ be16 d.feedTimeout ++ be16 d.driftLimit

/-- The SECTOR fields in the layout of the write: the neighbour list as written, L in force, 0 while not set (R3, R179). -/
def sectorBlockB (r : SectorRec) : List Byte :=
  boolB r.enabled ++ be16 (r.len.getD 0) ++ sfigB r.offset ++ [byteOf r.mix.val] ++ listB (r.nbrs.map sectorB)

/-- The MIX fields in the layout of the write. -/
def mixB (m : MixBlock) : List Byte :=
  be16 m.threshold ++ be16 m.coldAge ++ be16 m.thickness ++ [m.line.code]

/-- The SWEEP fields in the layout of the write. -/
def sweepB (w : SweepBlock) : List Byte :=
  [byteOf w.start] ++ [w.mode.code] ++ listB (w.order.map sectorB)

end Sys2Proof.Machine
end

