-- ==== Sys2Proof/Machine/Ops.lean ====
section
/-! DEFINITION. The named operations on State: one sector's records, the derived elevations (R8), the alert list (R187), the sensor line (R43). -/

namespace Sys2Proof.Machine

/-! ### One sector's records -/

/-- Everything held for one sector. -/
def State.sector (s : State) (g : Sector) : SectorState := s.sectors.get g

/-- Change one sector's records. -/
def State.modSector (s : State) (g : Sector) (f : SectorState → SectorState) : State :=
  { s with sectors := s.sectors.set g.val (f (s.sector g)) }

/-- Change every sector's records alike. -/
def State.mapSectors (s : State) (f : SectorState → SectorState) : State :=
  { s with sectors := s.sectors.map f }

/-- Change a sector's record of the sector table. -/
def State.modTable (s : State) (g : Sector) (f : SectorRec → SectorRec) : State :=
  s.modSector g fun x => { x with table := f x.table }

/-- Change a sector's part of the layer table. -/
def State.modLayers (s : State) (g : Sector) (f : LayerTable → LayerTable) : State :=
  s.modSector g fun x => { x with layers := f x.layers }

/-- Change a sector's probe record. -/
def State.modProbe (s : State) (g : Sector) (f : Probe → Probe) : State :=
  s.modSector g fun x => { x with probe := f x.probe }

/-- Change a group's pacing counters. -/
def State.modPace (s : State) (g : Sector) (f : Pace → Pace) : State :=
  s.modSector g fun x => { x with pace := f x.pace }

/-- Change a group record. -/
def State.modGroup (s : State) (g : Sector) (f : Group → Group) : State :=
  s.modSector g fun x => { x with group := f x.group }

/-- Change a sector's trim record. -/
def State.modTrim (s : State) (g : Sector) (f : Trim → Trim) : State :=
  s.modSector g fun x => { x with trim := f x.trim }

/-- Set or close a sector's open ticket. -/
def State.setTicket (s : State) (g : Sector) (t : Option Ticket) : State :=
  s.modSector g fun x => { x with ticket := t }

/-- Set sticky flags (R14). -/
def State.modFlags (s : State) (g : Sector) (f : StickyFlags → StickyFlags) : State :=
  s.modTable g fun r => { r with flags := f r.flags }

/-- Apply an operation to the sectors of a list, in its order. -/
def forEach (gs : List Sector) (f : Sector → State → State) (s : State) : State :=
  gs.foldl (fun s g => f g s) s

/-! ### Readings of the records -/

/-- The sector takes part (R1, R2). -/
def State.enabled (s : State) (g : Sector) : Bool := (s.sector g).table.enabled

/-- E has been set (R6). -/
def State.established (s : State) (g : Sector) : Bool := (s.sector g).table.elev.isSome

/-- E, 0 while unset (R16). -/
def State.elev (s : State) (g : Sector) : Int := (s.sector g).table.elev.getD 0

/-- L, 0 while not set (R16). -/
def State.len (s : State) (g : Sector) : Nat := (s.sector g).table.len.getD 0

/-- The sector is SUSPECT (R10). -/
def State.suspect (s : State) (g : Sector) : Bool := 0 < (s.sector g).table.margin

/-- The state of a group. -/
def State.groupState (s : State) (g : Sector) : GroupState := (s.sector g).group.state

/-- The stack of a sector, slot 0 first. -/
def State.stack (s : State) (g : Sector) : List Layer := (s.sector g).layers.stack

/-- The concrete top, 0 while unset (R21). -/
def State.concreteTop (s : State) (g : Sector) : Int := (s.sector g).layers.top.getD 0

/-- The MIX block of a class. -/
def State.mix (s : State) (m : MixClass) : MixBlock := s.mixes.get m

/-- H10, form height in tenths. -/
def State.h10 (s : State) : Int := 10 * (s.deck.height : Int)
/-- F10, freeboard in tenths. -/
def State.f10 (s : State) : Int := 10 * (s.deck.freeboard : Int)
/-- M10, minimum embed in tenths. -/
def State.m10 (s : State) : Int := 10 * (s.deck.embed : Int)
/-- C10, creep tolerance in tenths. -/
def State.c10 (s : State) : Int := 10 * (s.deck.creepTol : Int)
/-- T, tilt limit in tenths. -/
def State.t10 (s : State) : Int := 10 * (s.deck.tilt : Int)

/-- Form bottom, E − H10 (R8). -/
def State.bottom (s : State) (g : Sector) : Int := s.elev g - s.h10

/-- The latched length while the group holds an open stroke, else 0 (R8). -/
def Group.openLen (r : Group) : Nat := if r.isOpen then r.latched.getD 0 else 0

/-- Reach: E, plus the latched length of an open stroke, plus the suspect margin (R8). -/
def State.reach (s : State) (g : Sector) : Int :=
  s.elev g + ((s.sector g).group.openLen : Int) + ((s.sector g).table.margin : Int)

/-- Reach bottom: reach − H10 (R25). -/
def State.reachBottom (s : State) (g : Sector) : Int := s.reach g - s.h10

/-- The neighbour set: the symmetric closure of the neighbour lists, without the sector itself (R3); listed in ascending index (log 19). -/
def State.nbrSet (s : State) (g : Sector) : List Sector :=
  allSectors.filter fun b =>
    b != g && ((s.sector g).table.nbrs.contains b || (s.sector b).table.nbrs.contains g)

/-- PRESSURIZING, STALLED, HOLDING or VENTING (R84). -/
def GroupState.inFlight : GroupState → Bool
  | .pressurizing => true | .stalled => true | .holding => true | .venting => true
  | .idle => false | .fault => false

/-- Some group is in flight. -/
def State.anyInFlight (s : State) : Bool := allSectors.any fun g => (s.groupState g).inFlight

/-- The extend valve as the group state drives it (R85). -/
def GroupState.extendValve : GroupState → Bool
  | .pressurizing => true | .holding => true
  | .idle => false | .stalled => false | .venting => false | .fault => false

/-- The return valve as the group state drives it (R85). -/
def GroupState.returnValve : GroupState → Bool
  | .venting => true
  | .idle => false | .pressurizing => false | .stalled => false | .holding => false | .fault => false

/-- The groups PRESSURIZING. -/
def State.numPressurizing (s : State) : Nat :=
  (allSectors.filter fun g => s.groupState g == .pressurizing).length

/-- The capacity in force: k while the supply is READY, 0 otherwise (R105). -/
def State.capacity (s : State) : Nat := if s.supply.state = .ready then s.supply.cap else 0

/-- The stalled list: the STALLED groups in the order of the pressure order (R109). -/
def State.stalledList (s : State) : List Sector :=
  s.pressureOrder.filter fun g => s.groupState g == .stalled

/-- The number of groups STALLED (R118). -/
def State.numStalled (s : State) : Nat :=
  (allSectors.filter fun g => s.groupState g == .stalled).length

/-- The enabled sectors, ascending. -/
def State.enabledSectors (s : State) : List Sector := allSectors.filter fun g => s.enabled g

/-- A sector has a demand on the creep list (R114). -/
def State.demanded (s : State) (g : Sector) : Bool := s.creepList.any fun e => e.sector == g

/-- Remove a sector's creep demand (R78). -/
def removeDemand (g : Sector) (s : State) : State :=
  { s with creepList := s.creepList.filter fun e => e.sector != g }

/-- The ATTN line: active while the alert list holds an entry (R188). -/
def State.attn (s : State) : Bool := !s.alerts.isEmpty

/-! ### The alert list (R187) -/

/-- The entry of a kind and sector is held. -/
def holdsAlert (k : AlertKind) (g : Option Sector) (as : List Alert) : Bool :=
  as.any fun a => a.kind == k && a.sector == g

/-- Raise the repeat count of the entry of a kind and sector, saturating at 255. -/
def mergeAlert (k : AlertKind) (g : Option Sector) (as : List Alert) : List Alert :=
  as.map fun a => if a.kind == k && a.sector == g then { a with count := min 255 (a.count + 1) } else a

/-- Enter an alert: merged into the entry of the same kind and sector, or joined as the newest, or lost with ALERT_FULL set (R187). -/
def enterAlert (k : AlertKind) (g : Option Sector) (s : State) : State :=
  if holdsAlert k g s.alerts then { s with alerts := mergeAlert k g s.alerts }
  else if s.alerts.length < 16 then { s with alerts := s.alerts ++ [⟨k, g, s.minute, 1⟩] }
  else { s with alertFull := true }

/-! ### The sensor line (R43) -/

/-- Put the first waiting try on the line when the line is free. -/
def serveLine (s : State) : State :=
  match s.line, s.waiting with
  | none, t :: rest => { s with line := some t, waiting := rest }
  | _, _ => s

/-- Request a try: it waits its turn, in order of request. -/
def requestTry (k : TryKind) (g : Sector) (attempt : Nat) (s : State) : State :=
  serveLine { s with waiting := s.waiting ++ [⟨k, g, attempt, true⟩] }

/-- Abandon the tries that p picks: a waiting one is withdrawn, the one on the line runs out and its answer is disregarded (R47, R149, R150; log 11). -/
def abandonTries (p : Try → Bool) (s : State) : State :=
  { s with
    line := s.line.map fun t => if p t then { t with live := false } else t
    waiting := s.waiting.filter fun t => !p t }

/-- Some try of that kind and sector is on the line or waiting, not abandoned. -/
def State.tryUnderWay (s : State) (k : TryKind) (g : Sector) : Bool :=
  (s.line.toList ++ s.waiting).any fun t => t.kind == k && t.sector == g && t.live

end Sys2Proof.Machine
end

