-- ==== Sys2Proof/Machine/Pacing.lean ====
section
/-! DEFINITION. The allowance terms and tests, the hold reason, the pace interval, the goal and the creep demands (chapters 1.6 and 4); the arbitration table load (R117), which a fall of the paced request counts can bring about. -/

namespace Sys2Proof.Machine

/-! ### Tilt (R9) and the allowance tests (R59 to R63) -/

/-- The tilt test of R9 for a stroke of g of length len. -/
def State.tiltTest (s : State) (g : Sector) (len : Nat) : Bool :=
  (s.nbrSet g).all (fun n => !(s.enabled n && s.established n) || decide (s.reach g + len ≤ s.elev n + s.t10))
    && decide (s.reach g + len ≤ 2500000)

/-- The lowest layer that is not READY. -/
def lowestUnready (stack : List Layer) : Option Layer := stack.find? fun l => !l.flags.ready

/-- The cure term X: the base of the lowest layer that is not READY; none stands for unbounded (R59). -/
def State.cureTerm (s : State) (g : Sector) : Option Int := (lowestUnready (s.stack g)).map Layer.base

/-- An elevation is at or below a term, which may be unbounded. -/
def atMost (z : Int) (term : Option Int) : Bool :=
  match term with
  | some x => decide (z ≤ x)
  | none => true

/-- The cure condition of R60: bottom + L ≤ X. -/
def State.cureOk (s : State) (g : Sector) : Bool := atMost (s.bottom g + s.len g) (s.cureTerm g)

/-- The fill condition of R60: bottom + L ≤ ct − M10. -/
def State.fillOk (s : State) (g : Sector) : Bool := decide (s.bottom g + s.len g ≤ s.concreteTop g - s.m10)

/-- The concrete condition of R61 and R62: the stack is empty, or bottom + L ≤ ct. -/
def State.concreteOk (s : State) (g : Sector) : Bool :=
  (s.stack g).isEmpty || decide (s.bottom g + s.len g ≤ s.concreteTop g)

/-- The paced test (R60); it fails while the sector is not established (R59). -/
def State.pacedTest (s : State) (g : Sector) : Bool := s.established g && s.cureOk g && s.fillOk g

/-- The creep test (R61). -/
def State.creepTest (s : State) (g : Sector) : Bool :=
  s.established g && atMost (s.bottom g + s.len g) ((s.cureTerm g).map (· + s.c10)) && s.concreteOk g

/-- The survey test (R62). -/
def State.surveyTest (s : State) (g : Sector) : Bool := s.established g && s.cureOk g && s.concreteOk g

/-- The paced allowance before it saturates: min(X, ct − M10) − bottom (R63). -/
def State.allowance (s : State) (g : Sector) : Int :=
  let fill := s.concreteTop g - s.m10
  (match s.cureTerm g with
    | some x => min x fill
    | none => fill) - s.bottom g

/-- The paced allowance as reported: 0..65 535, 0 for a sector not enabled or not established (R63). -/
def State.shownAllowance (s : State) (g : Sector) : Nat :=
  if s.enabled g && s.established g then (clampInt 0 65535 (s.allowance g)).toNat else 0

/-! ### The pace interval (R67, R68) -/

/-- The pace band applies to the group (R68). -/
def State.inBand (s : State) (g : Sector) : Bool :=
  s.established g && decide (s.deck.band ≠ 1023) && decide ((s.deck.band : Int) * 10000 ≤ s.elev g)

/-- The pace interval of a group from L, R and the band (R67). -/
def State.interval (s : State) (g : Sector) : Nat :=
  let base := (720 * s.len g + s.rate) / (2 * s.rate)
  clampNat 5 65535 (if s.inBand g then 2 * base else base)

/-! ### The goal (R73) -/

/-- The group is at goal: one more stroke of its length would carry it above the goal (R73). -/
def State.isAtGoal (s : State) (g : Sector) : Bool :=
  decide (s.goal ≠ 0) && s.established g && decide ((s.goal : Int) < s.elev g + s.len g)

/-! ### The arbitration table load (R117) -/

/-- The shadow table becomes the active table. -/
def takeLoad (s : State) : State := { s with active := s.shadow, scanPtr := 0, loadPending := false }

/-- No group has a paced request count above 0. -/
def State.noRequests (s : State) : Bool := allSectors.all fun g => (s.sector g).pace.count == 0

/-- After a count has fallen to 0: a pending load is taken when no group has a count above 0, and the event runs a grant pass (R117). -/
def checkLoad (s : State) : State :=
  if s.loadPending && s.noRequests then { takeLoad s with passDue := true } else s

/-- Set a group's paced request count, with the load of R117 when it falls to 0. -/
def setCount (g : Sector) (n : Nat) (s : State) : State :=
  let s' := s.modPace g fun p => { p with count := n }
  if decide (0 < (s.sector g).pace.count) && n == 0 then checkLoad s' else s'

/-- A commit consumes one paced request (R71). -/
def consumeRequest (g : Sector) (s : State) : State := setCount g ((s.sector g).pace.count - 1) s

/-- Every pace counter stopped at 0 (R69). -/
def stopCounters (s : State) : State :=
  s.mapSectors fun x => { x with pace := { x.pace with running := false, counter := 0 } }

/-- Every paced request count 0 (R71), with the load of R117 if one fell. -/
def clearCounts (s : State) : State :=
  let s' := s.mapSectors fun x => { x with pace := { x.pace with count := 0 } }
  if s.noRequests then s' else checkLoad s'

/-- Start a group's pace counter, loaded with its interval (R69). -/
def startCounter (g : Sector) (s : State) : State :=
  s.modPace g fun p => { p with running := true, counter := s.interval g }

/-- Derive a group's at-goal state again: becoming at goal stops its counter and clears its count, ceasing to be at goal in CLIMB starts its counter (R73, R74). -/
def updateGoal (g : Sector) (s : State) : State :=
  let was := (s.sector g).pace.atGoal
  let now := s.isAtGoal g
  let s1 := s.modPace g fun p => { p with atGoal := now }
  if now && !was then setCount g 0 (s1.modPace g fun p => { p with running := false, counter := 0 })
  else if was && !now && decide (s.mode = .climb) && s.enabled g && s.established g then startCounter g s1
  else s1

/-! ### Creep demands (R77, R78) -/

/-- The mode permits a demand of the sector (R77). -/
def State.permitsDemand (s : State) (g : Sector) : Bool :=
  match s.mode with
  | .climb => true
  | .hold => s.creepSet.contains g
  | .unset => false | .standby => false | .survey => false | .halt => false

/-- The conditions of R77 hold together. -/
def State.wantsDemand (s : State) (g : Sector) : Bool :=
  s.enabled g && !(s.stack g).isEmpty && decide (s.deck.dwell ≤ (s.sector g).pace.dwell) && !s.demanded g
    && s.permitsDemand g

/-- Insert a sector before the sectors whose dwell counter is not above its own. -/
def insertByDwell (s : State) (g : Sector) : List Sector → List Sector
  | [] => [g]
  | h :: rest =>
    if (s.sector g).pace.dwell < (s.sector h).pace.dwell then h :: insertByDwell s g rest else g :: h :: rest

/-- Descending order of dwell counter, equal counters in ascending index (R77). -/
def sortByDwell (s : State) (gs : List Sector) : List Sector := gs.foldr (insertByDwell s) []

/-- Raise every demand whose conditions hold: each joins the creep list at the tail, and the event runs a grant pass (R77, R114). -/
def raiseDemands (s : State) : State :=
  match sortByDwell s (allSectors.filter fun g => s.wantsDemand g) with
  | [] => s
  | gs => { s with creepList := s.creepList ++ gs.map (fun g => ⟨g, s.minute⟩), passDue := true }

/-! ### Eligibility (R66) and the hold reason (R64) -/

/-- IDLE and not SUSPECT, in an enabled sector, and the tilt test passes: what every kind of grant needs (R2, R66). Whether the first debounced states are known (R103) is not asked: the model's choice (log 23). -/
def State.grantable (s : State) (g : Sector) : Bool :=
  s.enabled g && decide (s.groupState g = .idle) && !s.suspect g && s.tiltTest g (s.len g)

/-- Eligible for a paced grant (R66). -/
def State.pacedEligible (s : State) (g : Sector) : Bool :=
  s.grantable g && !s.isAtGoal g && decide (0 < (s.sector g).pace.count) && s.pacedTest g
    && decide ((s.sector g).trim.request = .none ∨ (s.sector g).trim.request = .held)

/-- Eligible for a creep grant (R66). -/
def State.creepEligible (s : State) (g : Sector) : Bool := s.grantable g && s.demanded g && s.creepTest g

/-- Eligible for a survey grant (R66). -/
def State.surveyEligible (s : State) (g : Sector) : Bool := s.grantable g && s.surveyTest g

/-- The hold reason of a group in IDLE or FAULT: the first of R64's table that holds. -/
def State.restReason (s : State) (g : Sector) : HoldReason :=
  if s.groupState g = .fault then .fault
  else if s.suspect g then .suspect
  else if s.isAtGoal g then .goal
  else if s.supply.state ≠ .ready ∨ s.capacity ≤ s.numPressurizing then .supply
  else if !s.tiltTest g (s.len g) then .tilt
  else if !s.fillOk g then .fill
  else if !s.cureOk g then .cure
  else .none

/-- The hold reason (R64). A sector that is SUSPECT while its group is VENTING, which a warm reset can bring about, or while it is disabled, shows NONE by R64's last paragraph, where R10 and R83 say that a SUSPECT sector shows SUSPECT: the model's choice (log 22). -/
def State.holdReason (s : State) (g : Sector) : HoldReason :=
  if s.enabled g && s.established g then
    match s.groupState g with
    | .idle => s.restReason g
    | .fault => s.restReason g
    | .stalled => .supply
    | .pressurizing => .none
    | .holding => .none
    | .venting => .none
  else .none

end Sys2Proof.Machine
end

