-- ==== Sys2Proof/Machine/Layers.lean ====
section
/-! DEFINITION. The layer table: a raise of E with its releases and the follow rule (R7, R22, R29 to R31), a layer joining a stack (R19, R20), the flags and base of a placement (R25, R26). -/

namespace Sys2Proof.Machine

/-- The layers the form leaves: from slot 0 up, those whose top is at or below the new form bottom (R29). -/
def leaving (bottom : Int) (stack : List Layer) : List Layer := stack.takeWhile fun l => decide (l.top ≤ bottom)

/-- The layers that stay. -/
def staying (bottom : Int) (stack : List Layer) : List Layer := stack.dropWhile fun l => decide (l.top ≤ bottom)

/-- The release record of a layer (R30). -/
def releaseRec (g : Sector) (minute : Nat) (l : Layer) : ReleaseRec :=
  { sector := g, serial := l.serial, ticket := l.ticket, mix := l.mix, flags := l.flags, exitMinute := minute,
    maturity := l.maturity }

/-- Write the layers that leave to the release log, lowest first, the newest record at the head, 32 records kept (R31). -/
def logReleases (g : Sector) (ls : List Layer) (s : State) : State :=
  { s with
    releaseLog := ((ls.map (releaseRec g s.minute)).reverse ++ s.releaseLog).take 32
    releaseCount := (s.releaseCount + ls.length) % 4294967296 }

/-- The layer table takes a new form bottom: release (R29), then the follow rule on an empty stack (R22). -/
def takeBottom (g : Sector) (s : State) : State :=
  let b := s.bottom g
  let out := leaving b (s.stack g)
  let left := staying b (s.stack g)
  let s1 := (logReleases g out s).modLayers g fun t =>
    { t with stack := left, top := if left.isEmpty then t.top.map (max · b) else t.top }
  if left.isEmpty then removeDemand g (s1.modPace g fun p => { p with dwell := 0 }) else s1

/-- E rises by n tenths, and the layer table takes the new form bottom (R7 step 1, R11). -/
def raiseElev (g : Sector) (n : Nat) (s : State) : State :=
  takeBottom g (s.modTable g fun r => { r with elev := r.elev.map (· + (n : Int)) })

/-- The serial after a serial: 0 is never given (R19). -/
def nextSerial (n : Nat) : Nat := if n = 65535 then 1 else n + 1

/-- A layer joins on top of its stack: ct becomes its top and the next serial is raised (R19, R20, R21). -/
def joinLayer (g : Sector) (l : Layer) (s : State) : State :=
  s.modLayers g fun t =>
    { t with stack := t.stack ++ [l], top := some l.top, nextSerial := nextSerial t.nextSerial }

/-- The base of a layer that joins by placement commit (R24, R25). -/
def State.placementBase (s : State) (g : Sector) : Int :=
  if (s.stack g).isEmpty then max (s.concreteTop g) (s.reachBottom g) else s.concreteTop g

/-- The COLD_JOINT test of a placement, on the state before it joins (R26). -/
def State.coldJoint (s : State) (g : Sector) : Bool :=
  match (s.stack g).getLast? with
  | some l => decide (((s.mix l.mix).coldAge : Int) < (s.minute : Int) - (l.placed : Int))
  | none => decide ((s.sector g).layers.wallBase.getD 0 < s.concreteTop g)

/-- The layer a placement commit builds (R24 to R26). -/
def State.placementLayer (s : State) (g : Sector) (number : Nat) (mix : MixClass) (target thickness : Nat)
    (clamped late : Bool) (batch : Option Nat) : Layer :=
  let base := s.placementBase g
  let top := base + 10 * (thickness : Int)
  { serial := (s.sector g).layers.nextSerial
    ticket := number
    base := base
    top := top
    mix := mix
    placed := s.minute
    maturity := 0
    flags :=
      { ready := decide ((s.mix mix).threshold ≤ 0)
        late := late
        coldJoint := s.coldJoint g
        overfill := decide (s.elev g - s.f10 < top)
        short := decide (2 * thickness < target)
        clamped := clamped }
    batch := batch }

/-- ESTABLISH and the geometry re-base set the concrete top and the wall base to the form bottom (R13, R23). -/
def rebase (g : Sector) (s : State) : State :=
  s.modLayers g fun t => { t with top := some (s.bottom g), wallBase := some (s.bottom g) }

end Sys2Proof.Machine
end

