-- ==== Sys2Proof/Machine/Modes.lean ====
section
/-! DEFINITION. Climb mode control: the entries to HOLD, CLIMB, STANDBY and UNSET with their handing on (R157 to R162), the goal test (R75), the completeness test (R158). A mode change marks the event's one grant pass as due (log 7). -/

namespace Sys2Proof.Machine

/-- Entry to HOLD (R161): counters stopped, counts cleared, the creep list sorted by the creep set. -/
def enterHold (s : State) : State :=
  let s1 := clearCounts (stopCounters { s with mode := .hold })
  let s2 := { s1 with creepList := s1.creepList.filter fun e => s1.creepSet.contains e.sector }
  { raiseDemands s2 with passDue := true }

/-- The goal is reached: a goal is set, some enabled group is not in FAULT, and every such group is at goal (R75). -/
def State.goalReached (s : State) : Bool :=
  decide (s.goal ≠ 0) && (s.enabledSectors.any fun g => s.groupState g != .fault)
    && s.enabledSectors.all fun g => s.groupState g == .fault || s.isAtGoal g

/-- The goal test, made in CLIMB only: GOAL_REACHED is entered, and the deck enters HOLD (R75, R162). -/
def goalTest (s : State) : State :=
  if decide (s.mode = .climb) && s.goalReached then enterHold (enterAlert .goalReached none s) else s

/-- Derive a group's at-goal state again and make the goal test when it changed (R65, R74, R75). -/
def rederive (g : Sector) (s : State) : State :=
  let s' := updateGoal g s
  if (s.sector g).pace.atGoal = (s'.sector g).pace.atGoal then s' else goalTest s'

/-- The counter of a group runs in CLIMB: enabled, established, not at goal (R69). -/
def State.paced (s : State) (g : Sector) : Bool := s.enabled g && s.established g && !s.isAtGoal g

/-- Entry to CLIMB (R160): pace counters loaded, creep demands raised, the goal test. -/
def enterClimb (s : State) : State :=
  let s1 := { s with mode := .climb }
  let s2 := forEach (allSectors.filter fun g => s.paced g) startCounter s1
  goalTest { raiseDemands s2 with passDue := true }

/-- Every trim request becomes NONE, its readings abandoned (R149). -/
def dropTrimRequests (s : State) : State :=
  let reading := allSectors.filter fun g => (s.sector g).trim.request == .reading
  (abandonTries (fun t => t.kind == .before && reading.contains t.sector) s).mapSectors fun x =>
    { x with trim := { x.trim with
        request := .none
        before := if x.trim.request = .reading ∨ x.trim.request = .held then [] else x.trim.before } }

/-- Entry to STANDBY, other than by warm reset (R159): the creep list emptied, trim requests NONE, no survey request (R113). -/
def enterStandby (s : State) : State :=
  dropTrimRequests { s with mode := .standby, creepList := [], surveyReq := none, passDue := true }

/-- Entry to UNSET from STANDBY (R158). -/
def enterUnset (s : State) : State := { s with mode := .unset, passDue := true }

/-- The profile is complete (R158). -/
def State.complete (s : State) : Bool :=
  s.deckWritten && s.sweep.written && !s.enabledSectors.isEmpty
    && s.enabledSectors.all fun g => (s.sector g).table.written && (s.mix (s.sector g).table.mix).written

/-- Every enabled sector is established. -/
def State.allEstablished (s : State) : Bool := s.enabledSectors.all fun g => s.established g

/-- The completeness test, the last step of a profile write and of ESTABLISH (R158, R170). -/
def completenessTest (s : State) : State :=
  match s.mode with
  | .unset => if s.complete && s.allEstablished then enterStandby s else s
  | .standby => if s.complete && s.allEstablished then s else enterUnset s
  | .survey => s | .climb => s | .hold => s | .halt => s

end Sys2Proof.Machine
end

