-- ==== Sys2Proof/Machine/LevelTrim.lean ====
section
/-! DEFINITION. The level trim unit: the drift check (R145), trim results (R146, R147), the trim request (R148, R149), trims under way (R150) and the survey (R151 to R153). -/

namespace Sys2Proof.Machine

/-! ### Trim results -/

/-- The sum of four readings, none where one is missing or there are not four. -/
def fourSum : List (Option Nat) → Option Nat
  | [some a, some b, some c, some d] => some (a + b + c + d)
  | _ => none

/-- The new L of a level difference: limited to a tenth about old L, then to 150..400, then to at most T (R146 step 4). -/
def limitLen (oldLen : Nat) (tilt : Int) (diff : Int) : Int :=
  min tilt (clampInt 150 400 (clampInt ((oldLen : Int) - (oldLen / 10 : Nat)) ((oldLen : Int) + (oldLen / 10 : Nat)) diff))

/-- Code, new L and level difference of a trim from its readings (R146). -/
def trimOutcome (oldLen : Nat) (tilt : Int) (before after : List (Option Nat)) : TrimCode × Nat × Option Int :=
  match fourSum before, fourSum after with
  | some b, some a =>
    let diff : Int := ((a / 4 : Nat) : Int) - ((b / 4 : Nat) : Int)
    if diff ≤ 0 then (.rejected, oldLen, some diff)
    else
      let new := limitLen oldLen tilt diff
      (if new = diff then .applied else .clamped, new.toNat, some diff)
  | _, _ => (.rejected, oldLen, none)

/-- Write a trim result; TRIM_REJECTED is entered with REJECTED (R147). -/
def writeResult (g : Sector) (kind : TrimKind) (code : TrimCode) (newLen : Nat) (diff : Option Int) (s : State) : State :=
  let s' := s.modTrim g fun t =>
    { t with result := some { kind := kind, code := code, oldLen := s.len g, newLen := newLen, diff := diff, minute := s.minute } }
  if code = .rejected then enterAlert .trimRejected (some g) s' else s'

/-- A REJECTED result with the level difference absent and L unchanged. -/
def writeRejected (g : Sector) (kind : TrimKind) (s : State) : State := writeResult g kind .rejected (s.len g) none s

/-- Which trim of the group awaits its result: the visit under way, or a short trim under way (R150, R152). -/
def State.awaiting (s : State) (g : Sector) : Option TrimKind :=
  if s.visit = some (g, .stroke) then some .survey
  else if (s.sector g).trim.underWay then some .short
  else none

/-- Set a sector's visit outcome. -/
def setOutcome (g : Sector) (o : VisitOutcome) (s : State) : State := s.modTrim g fun t => { t with outcome := some o }

/-- The visit outcome that a trim code gives (R152 step 4). -/
def TrimCode.outcome : TrimCode → VisitOutcome
  | .applied => .applied
  | .clamped => .clamped
  | .rejected => .rejected

/-- The result of a trim is made: a short trim is no longer under way, a visit takes the code as its outcome (R150, R152). -/
def closeTrim (g : Sector) (kind : TrimKind) (code : TrimCode) (s : State) : State :=
  match kind with
  | .short => s.modTrim g fun t => { t with underWay := false, before := [], after := [] }
  | .survey =>
    setOutcome g code.outcome
      { s.modTrim g (fun t => { t with before := [], after := [] }) with visit := some (g, .resultMade) }

/-- Make the result from the readings held; APPLIED and CLAMPED hand the new L on (R146, R147). -/
def makeResult (g : Sector) (kind : TrimKind) (s : State) : State :=
  let r := trimOutcome (s.len g) s.t10 (s.sector g).trim.before (s.sector g).trim.after
  let s1 := closeTrim g kind r.1 (writeResult g kind r.1 r.2.1 r.2.2 s)
  if r.1 = .rejected then s1 else rederive g (s1.modTable g fun t => { t with len := some r.2.1 })

/-- The stroke of a trim ends without a settle time: REJECTED, level difference absent (R150, R152). -/
def rejectAwaiting (g : Sector) (s : State) : State :=
  match s.awaiting g with
  | some kind => closeTrim g kind .rejected (writeRejected g kind s)
  | none => s

/-- The group has entered HOLDING at its commit: the after-readings of a trim begin (R91 step 3, R150). -/
def startAfter (g : Sector) (s : State) : State :=
  match s.awaiting g with
  | some _ => requestTry .after g 1 (s.modTrim g fun t => { t with after := [] })
  | none => s

/-- The settle time has ended: after-readings that have not ended count as missing (R150). -/
def endSettle (g : Sector) (s : State) : State :=
  let s' := abandonTries (fun t => t.kind == .after && t.sector == g) s
  match s'.awaiting g with
  | some kind => makeResult g kind s'
  | none => s'

/-! ### Before-readings -/

/-- Four before-readings begin (R149, R152 step 2). -/
def startBefore (g : Sector) (s : State) : State :=
  requestTry .before g 1 (s.modTrim g fun t => { t with before := [] })

/-- The before-readings of a group are abandoned. -/
def abandonBefore (g : Sector) (s : State) : State :=
  (abandonTries (fun t => t.kind == .before && t.sector == g) s).modTrim g fun t => { t with before := [] }

/-- A WAITING trim request starts its before-readings when its group is IDLE (R149). -/
def trimOnIdle (g : Sector) (s : State) : State :=
  if (s.sector g).trim.request = .waiting then
    startBefore g (s.modTrim g fun t => { t with request := .reading })
  else s

/-- What a grant does to the trim of the group (R149, R152 step 4). -/
def trimOnGrant (g : Sector) (kind : StrokeKind) (s : State) : State :=
  let s1 :=
    match (s.sector g).trim.request with
    | .none => s
    | .held => s.modTrim g fun t => { t with request := .none, underWay := true }
    | .waiting => writeRejected g .short (s.modTrim g fun t => { t with request := .none })
    | .reading => writeRejected g .short (abandonBefore g (s.modTrim g fun t => { t with request := .none }))
  if kind = .survey then { s1 with visit := some (g, .stroke) } else s1

/-! ### The survey (R151 to R153) -/

/-- The survey is over: the deck returns to STANDBY with SURVEY_DONE (R153). -/
def surveyDone (s : State) : State :=
  enterAlert .surveyDone none (enterStandby { s with surveyState := .none, visit := none })

/-- Begin the next visit: of the PENDING sectors in the list's order, those in FAULT or SUSPECT are SKIPPED; the first other one takes its before-readings; with none left the survey is over (R152, R153). -/
def beginVisits : List Sector → State → State
  | [], s => surveyDone s
  | g :: rest, s =>
    if (s.sector g).trim.outcome = some .pending then
      if s.groupState g = .fault ∨ s.suspect g then beginVisits rest (setOutcome g .skipped s)
      else startBefore g { s with visit := some (g, .reading) }
    else beginVisits rest s

/-- A visit has ended: the next begins while the survey is RUNNING; ENDING leaves for STANDBY; a survey ended by STOP is over already (R152, R153). -/
def visitEnded (s : State) : State :=
  let s' := { s with visit := none }
  match s'.surveyState with
  | .running => beginVisits allSectors s'
  | .ending => enterStandby { s' with surveyState := .none }
  | .none => s'

/-- A sector whose visit is still to come: PENDING, and not the one under visit. -/
def State.awaitsVisit (s : State) (g : Sector) : Bool :=
  (s.sector g).trim.outcome == some .pending && (s.visit.map Prod.fst) != some g

/-- Every PENDING sector becomes ABORTED (R153); of the sector under visit R153 speaks on its own. -/
def abortPending (s : State) : State := forEach (allSectors.filter fun g => s.awaitsVisit g) (fun g => setOutcome g .aborted) s

/-- The visit under way has a stroke granted. -/
def State.visitHasStroke (s : State) : Bool :=
  match s.visit with
  | some (_, .stroke) => true
  | some (_, .resultMade) => true
  | _ => false

/-- A current visit with no stroke granted becomes ABORTED: its readings are abandoned and its survey request withdrawn (R153). -/
def abortVisit (s : State) : State :=
  match s.visit with
  | some (g, .reading) => { abandonBefore g (setOutcome g .aborted s) with visit := none, surveyReq := none }
  | some (g, .requested) => { abandonBefore g (setOutcome g .aborted s) with visit := none, surveyReq := none }
  | _ => s

/-- STOP in SURVEY (R153): pending visits and a visit without a stroke become ABORTED, the survey is over; a visit whose stroke is granted runs on. -/
def stopSurvey (s : State) : State := { abortVisit (abortPending s) with surveyState := .none, surveyReq := none }

/-- The group under visit has returned to IDLE: its visit ends (R152 step 5). -/
def visitOnIdle (g : Sector) (s : State) : State :=
  if s.visit = some (g, .stroke) ∨ s.visit = some (g, .resultMade) then visitEnded s else s

/-- The group under visit has entered FAULT: the visit ends with FAULT. A stroke that made no result gives SURVEY, REJECTED; a visit without a stroke writes none (R152). -/
def visitOnFault (g : Sector) (s : State) : State :=
  match s.visit with
  | some (h, phase) =>
    if h = g then
      match phase with
      | .reading => visitEnded (abandonBefore g (setOutcome g .fault s))
      | .requested => visitEnded { abandonBefore g (setOutcome g .fault s) with surveyReq := none }
      | .stroke => visitEnded (setOutcome g .fault (rejectAwaiting g s))
      | .resultMade => visitEnded (setOutcome g .fault s)
    else s
  | none => s

/-- What the entry to FAULT does to the trim of the group (R149, R150, R152). That it comes after the group's alerts is the model's choice for a short trim (log 17). -/
def trimOnFault (g : Sector) (s : State) : State :=
  let s1 :=
    if (s.sector g).trim.request = .reading then
      (abandonBefore g s).modTrim g fun t => { t with request := .waiting }
    else s
  let s2 := if s1.awaiting g = some .short then rejectAwaiting g s1 else s1
  visitOnFault g s2

/-- The arbiter reports BLOCKED (R113, R152 step 3). -/
def visitBlocked (g : Sector) (s : State) : State := visitEnded (setOutcome g .blocked s)

/-! ### The ends of readings -/

/-- A drift check reading ends good (R143, R145). -/
def driftReading (g : Sector) (value : Nat) (s : State) : State :=
  let d : Int := (s.plane : Int) + (value : Int) + (s.sector g).table.offset - s.elev g
  let s1 := s.modTrim g fun t => { t with drift := some (d, s.minute) }
  if 10 * s.deck.driftLimit < d.natAbs then
    let s2 := s1.modFlags g fun f => { f with drift := true }
    if (s.sector g).trim.beyond then s2
    else enterAlert .driftLimit (some g) (s2.modTrim g fun t => { t with beyond := true })
  else s1.modTrim g fun t => { t with beyond := false }

/-- The fourth before-reading of a trim request ends (R149). -/
def beforeTaken (g : Sector) (s : State) : State :=
  if (fourSum (s.sector g).trim.before).isSome then
    { s.modTrim g (fun t => { t with request := .held }) with passDue := true }
  else writeRejected g .short (s.modTrim g fun t => { t with request := .none, before := [] })

/-- The fourth before-reading of a visit ends: the survey stroke is asked for, or the visit ends REJECTED (R152; log 12). -/
def visitReadingsTaken (g : Sector) (s : State) : State :=
  if (fourSum (s.sector g).trim.before).isSome then
    { s with visit := some (g, .requested), surveyReq := some g, passDue := true }
  else visitEnded (setOutcome g .rejected (writeRejected g .survey s))

/-- A before-reading ends, good or missing: the next is requested, or the fourth has been taken. -/
def beforeReading (g : Sector) (value : Option Nat) (s : State) : State :=
  let s1 := s.modTrim g fun t => { t with before := t.before ++ [value] }
  if (s1.sector g).trim.before.length < 4 then requestTry .before g 1 s1
  else if s1.visit = some (g, .reading) then visitReadingsTaken g s1
  else beforeTaken g s1

/-- An after-reading ends, good or missing: the next is requested, or the result is made (R150). -/
def afterReading (g : Sector) (value : Option Nat) (s : State) : State :=
  let s1 := s.modTrim g fun t => { t with after := t.after ++ [value] }
  if (s1.sector g).trim.after.length < 4 then requestTry .after g 1 s1
  else
    match s1.awaiting g with
    | some kind => makeResult g kind s1
    | none => s1

/-- A level reading ends (R143): good with its value, or missing. -/
def readingEnds (t : Try) (value : Option Nat) (s : State) : State :=
  match t.kind with
  | .drift =>
    match value with
    | some v => driftReading t.sector v s
    | none => s
  | .before => beforeReading t.sector value s
  | .after => afterReading t.sector value s
  | .probe => s

end Sys2Proof.Machine
end

