-- ==== Sys2Proof/Machine/Groups.lean ====
section
/-! DEFINITION. The jack group controllers: grant, stall and resume (R89, R97, R98), commit (R90, R91, R93), the window, settle and vent expiries (R92, R93, R95), the entries to IDLE and FAULT (R94, R99, R100) and the switch events (R86 to R88, R94 to R96). -/

namespace Sys2Proof.Machine

/-! ### Orders of the arbiter -/

/-- A grant reaches a group (R89): L latched, the stroke open, PRESSURIZING with the first window; it joins the pressure order (R109). -/
def grant (g : Sector) (kind : StrokeKind) (s : State) : State :=
  let s1 := s.modGroup g fun r =>
    { r with
      state := .pressurizing, isOpen := true, latched := some (s.len g), kind := some kind, windows := 1,
      failed := false, timer := some ⟨.window, s.deck.window⟩ }
  trimOnGrant g kind { s1 with pressureOrder := s1.pressureOrder ++ [g] }

/-- A resume order reaches a STALLED group (R98): PRESSURIZING again with a full window. -/
def resumeGroup (g : Sector) (s : State) : State :=
  s.modGroup g fun r => { r with state := .pressurizing, timer := some ⟨.window, s.deck.window⟩ }

/-- A stall order reaches a group: it acts on a PRESSURIZING one only (R97). -/
def stallGroup (g : Sector) (s : State) : State :=
  if s.groupState g = .pressurizing then s.modGroup g fun r => { r with state := .stalled, timer := none } else s

/-- The groups a stall takes: the newest PRESSURIZING groups of the pressure order, as many as their number exceeds the capacity (R108). -/
def State.toStall (s : State) (cap : Nat) : List Sector :=
  ((s.pressureOrder.filter fun g => s.groupState g == .pressurizing).reverse).take (s.numPressurizing - cap)

/-- Stall down to a capacity; 0 stalls every PRESSURIZING group (R108). -/
def stallTo (cap : Nat) (s : State) : State := forEach (s.toStall cap) stallGroup s

/-- A group leaves the pressure order (R109). -/
def leavePressure (g : Sector) (s : State) : State :=
  { s with pressureOrder := s.pressureOrder.filter fun h => h != g }

/-! ### Commit -/

/-- Steps 1 and 2 of R91: E rises by the latched length, the layer table takes the new bottom; dwell 0, one paced request consumed, the creep demand removed, the at-goal state derived again. -/
def commitRise (g : Sector) (s : State) : State :=
  let s1 := raiseElev g ((s.sector g).group.latched.getD 0) s
  rederive g (removeDemand g (consumeRequest g (s1.modPace g fun p => { p with dwell := 0 })))

/-- The stroke counter rises by 1, returning to 0 after its highest value (R101). -/
def countStroke (r : Group) : Group := { r with strokes := (r.strokes + 1) % 4294967296 }

/-- HOLDING ends: VENTING with the vent window, and the trim unit is told (R93). -/
def settleExpiry (g : Sector) (s : State) : State :=
  if s.groupState g = .holding then
    endSettle g (s.modGroup g fun r => { r with state := .venting, timer := some ⟨.vent, s.deck.vent⟩ })
  else s

/-- A stroke commits from PRESSURIZING or STALLED (R90, R91); with a settle time of 0 the settle expiry follows at once (R93). -/
def commit (g : Sector) (s : State) : State :=
  let s1 := (leavePressure g s).modGroup g fun r =>
    { countStroke r with isOpen := false, windows := 0, state := .holding, timer := some ⟨.settle, s.deck.settle⟩ }
  let s2 := startAfter g (commitRise g s1)
  let s3 := { s2 with passDue := true }
  if s.deck.settle = 0 then settleExpiry g s3 else s3

/-- A late commit in VENTING with the failed mark: no settle time, so a trim of the stroke is REJECTED (R93, R150). A GOAL_REACHED of the commit is entered before that TRIM_REJECTED; no rule orders the two, since step 3 of R91 does not apply here: the model's choice (log 17). -/
def lateCommit (g : Sector) (s : State) : State :=
  let s1 := s.modGroup g fun r => { countStroke r with isOpen := false, failed := false }
  { rejectAwaiting g (commitRise g s1) with passDue := true }

/-! ### FAULT and IDLE -/

/-- What the entry to FAULT hands on for an enabled sector (R99): its alerts, the goal test, climb mode control and the trim unit, and a pass when it came from VENTING. The TRIM_REJECTED of a short trim comes after the group's own alerts and any GOAL_REACHED, as R152 orders it for a survey; no rule does for a short trim: the model's choice (log 17). -/
def handOnFault (g : Sector) (marginSet fromVenting : Bool) (s : State) : State :=
  let s1 := enterAlert .groupFault (some g) s
  let s2 := if marginSet then enterAlert .suspectPosition (some g) s1 else s1
  let s3 := goalTest s2
  let s4 := if s3.mode = .climb then enterHold s3 else s3
  let s5 := trimOnFault g s4
  if fromVenting then { s5 with passDue := true } else s5

/-- A group enters FAULT (R99); a disabled sector's hands on nothing. -/
def enterFault (g : Sector) (kind : FaultKind) (marginSet fromVenting : Bool) (s : State) : State :=
  let s1 := s.modGroup g fun r =>
    { r with state := .fault, fault := some kind, timer := none, windows := 0, isOpen := false, failed := false }
  if s.enabled g then handOnFault g marginSet fromVenting s1 else s1

/-- The open stroke closes into the suspect margin (R10). -/
def closeIntoMargin (g : Sector) (s : State) : State :=
  s.modTable g fun r => { r with margin := (s.sector g).group.latched.getD 0 }

/-- A group has come home: IDLE, the trim unit told, a grant pass (R94, R149, R152). -/
def enterIdle (g : Sector) (s : State) : State :=
  let s1 := s.modGroup g fun r => { r with state := .idle, fault := none, timer := none, windows := 0 }
  { visitOnIdle g (trimOnIdle g s1) with passDue := true }

/-! ### Timer expiries -/

/-- The pressurize window expires (R92). -/
def windowExpiry (g : Sector) (s : State) : State :=
  if s.groupState g = .pressurizing then
    if (s.sector g).group.windows < 3 then
      let s1 := s.modGroup g fun r => { r with windows := r.windows + 1, timer := some ⟨.window, s.deck.window⟩ }
      enterAlert .marginalStroke (some g) (s1.modFlags g fun f => { f with marginal := true })
    else
      let s1 := s.modGroup g fun r =>
        { r with failed := true, state := .venting, timer := some ⟨.vent, s.deck.vent⟩ }
      { leavePressure g s1 with passDue := true }
  else s

/-- The vent window expires (R95). -/
def ventExpiry (g : Sector) (s : State) : State :=
  if s.groupState g = .venting then
    if (s.sector g).group.failed then enterFault g .vent true true (closeIntoMargin g s)
    else enterFault g .vent false true s
  else s

/-! ### Switch events -/

/-- A switch fault's flag and alert, for an enabled sector (R87, R88). Outside FAULT(SWITCH) no rule orders SWITCH_FAULT against the other alerts of its event, those of a commit or of an entry to FAULT(STALL): the model enters it first, its choice (log 17). -/
def noteSwitchFault (g : Sector) (s : State) : State :=
  if s.enabled g then enterAlert .switchFault (some g) (s.modFlags g fun f => { f with switchFault := true }) else s

/-- The stroke-end switch is taken (R87, R88, R90, R93, R96); its debounced state has been set. A switch fault is noted before the commit acts (log 17). -/
def strokeEndEvent (g : Sector) (s : State) : State :=
  let both := (s.sector g).group.retSw.state == some true
  match s.groupState g with
  | .idle =>
    let s1 := noteSwitchFault g s
    if both then enterFault g .switch false false s1 else s1
  | .pressurizing => commit g (if both then noteSwitchFault g s else s)
  | .stalled => commit g (if both then noteSwitchFault g s else s)
  | .venting =>
    let s1 := if both then noteSwitchFault g s else s
    if (s.sector g).group.failed && (s.sector g).group.isOpen then lateCommit g s1 else s1
  | .holding => if both then noteSwitchFault g s else s
  | .fault => if both then noteSwitchFault g s else s

/-- The retracted switch is taken (R87, R88, R94, R96); its debounced state has been set. A switch fault is noted before the entry to FAULT acts (log 17). -/
def retractedEvent (g : Sector) (s : State) : State :=
  let both := (s.sector g).group.endSw.state == some true
  match s.groupState g with
  | .idle => if both then enterFault g .switch false false (noteSwitchFault g s) else s
  | .venting =>
    let s1 := if both then noteSwitchFault g s else s
    if (s.sector g).group.failed then enterFault g .stall true true (closeIntoMargin g s1) else enterIdle g s1
  | .pressurizing => if both then noteSwitchFault g s else s
  | .stalled => if both then noteSwitchFault g s else s
  | .holding => if both then noteSwitchFault g s else s
  | .fault => if both then noteSwitchFault g s else s

/-- The retracted switch is lost: a switch fault in IDLE, else nothing (R88, R96). -/
def retractedLostEvent (g : Sector) (s : State) : State :=
  if s.groupState g = .idle then noteSwitchFault g s else s

/-- One switch of a group. -/
def Group.switch (r : Group) : SwitchId → Switch
  | .strokeEnd => r.endSw
  | .retracted => r.retSw

/-- Set one switch of a group. -/
def setSwitch (g : Sector) (w : SwitchId) (x : Switch) (s : State) : State :=
  s.modGroup g fun r =>
    match w with
    | .strokeEnd => { r with endSw := x }
    | .retracted => { r with retSw := x }

/-- The debounced state of a switch can change to a level now: it has the other level, and the input is being timed at the new one (R86, log 3). -/
def Switch.ready (x : Switch) (level : Bool) : Bool :=
  x.state == some (!level) && (x.timing.map Timing.level) == some level

/-- The debounced state of a switch changes to a level, if it can, and the event acts (R86). -/
def switchChange (g : Sector) (w : SwitchId) (level : Bool) (event : State → State) (s : State) : State :=
  if ((s.sector g).group.switch w).ready level then event (setSwitch g w ⟨some level, none⟩ s) else s

/-- A switch input takes a level (R86, R103): a level other than the debounced state starts the debounce timing with the debounce time now in force, unless that level is being timed already. A level that is the debounced state changes nothing, also while the other level is timed, since INPUT_RETURNS_TO_DEBOUNCED_STATE is the command that drops a timing: the model's choice (log 3). -/
def inputChange (g : Sector) (w : SwitchId) (level : Bool) (s : State) : State :=
  let x := (s.sector g).group.switch w
  if x.state ≠ some level ∧ (x.timing.map Timing.level) ≠ some level then
    setSwitch g w { x with timing := some ⟨level, s.deck.debounce⟩ } s
  else s

/-- A switch input under timing returns to the debounced state: the timing is dropped (R86). -/
def inputReturn (g : Sector) (w : SwitchId) (s : State) : State :=
  let x := (s.sector g).group.switch w
  if x.state.isSome ∧ x.timing.isSome then setSwitch g w { x with timing := none } s else s

/-- A switch's first debounced state after power-on is taken, without a switch event; once both are known an IDLE group not at home enters FAULT(SWITCH) (R103). For a group that is not IDLE by then a first state changes only the debounced state: the model's choice (log 23). -/
def firstState (g : Sector) (w : SwitchId) (level : Bool) (s : State) : State :=
  let x := (s.sector g).group.switch w
  if x.state = none ∧ (x.timing.map Timing.level) ≠ some (!level) then
    let s1 := setSwitch g w ⟨some level, none⟩ s
    let r := (s1.sector g).group
    if r.endSw.state.isSome ∧ r.retSw.state.isSome ∧ r.state = .idle
        ∧ ¬(r.retSw.state = some true ∧ r.endSw.state = some false) then
      s1.modGroup g fun r =>
        { r with state := .fault, fault := some .switch, timer := none, windows := 0, isOpen := false, failed := false }
    else s1
  else s

end Sys2Proof.Machine
end

