-- ==== Sys2Proof/Machine/Arbiter.lean ====
section
/-! DEFINITION. The stroke arbiter: the grant pass (R110 to R115), the demand (R118), and the running of an event's one pass. -/

namespace Sys2Proof.Machine

/-- Step 1 serves resumes in this mode (R111). -/
def DeckMode.permitsResume : DeckMode → Bool
  | .standby => true | .survey => true | .climb => true | .hold => true
  | .unset => false | .halt => false

/-- Step 3 serves creep demands in this mode (R111). -/
def DeckMode.permitsCreep : DeckMode → Bool
  | .climb => true | .hold => true
  | .unset => false | .standby => false | .survey => false | .halt => false

/-- The slot of the active table a number names. -/
def State.slot (s : State) (j : Nat) : Option Sector := if h : j < 32 then s.active[j] else none

/-- A pending load is taken as the scan passes the round boundary (R115, R117). -/
def passBoundary (s : State) : State := if s.loadPending then takeLoad s else s

/-- The paced scan (R115): examine at most n slots from slot j; grant to the first eligible one. The flag says whether a grant was made. -/
def pacedScan : Nat → Nat → State → State × Bool
  | 0, _, s => (s, false)
  | n + 1, j, s =>
    match (s.slot j).filter fun g => s.pacedEligible g with
    | some g =>
      let s1 := { grant g .paced s with scanPtr := (j + 1) % 32 }
      (if j = 31 then passBoundary s1 else s1, true)
    | none =>
      if n = 0 then (s, false)
      else if j = 31 then pacedScan n 0 (passBoundary s)
      else pacedScan n (j + 1) s

/-- Step 2: the pending survey request is granted, or withdrawn with BLOCKED told (R113). -/
def serveSurvey (g : Sector) (s : State) : State :=
  let s' := { s with surveyReq := none }
  if s.surveyEligible g then grant g .survey s' else visitBlocked g s'

/-- Serve one candidate: the first step that the mode permits and that finds one (R111). The flag says whether one was found. -/
def serveOne (s : State) : State × Bool :=
  match (if s.mode.permitsResume then s.stalledList.head? else none) with
  | some g => (resumeGroup g s, true)
  | none =>
    match (if s.mode = .survey then s.surveyReq else none) with
    | some g => (serveSurvey g s, true)
    | none =>
      match (if s.mode.permitsCreep then (s.creepList.map CreepEntry.sector).find? fun g => s.creepEligible g else none) with
      | some g => (grant g .creep s, true)
      | none => if s.mode = .climb then pacedScan 32 s.scanPtr s else (s, false)

/-- The condition checked before each candidate: supply READY and capacity free (R111). -/
def State.canServe (s : State) : Bool :=
  decide (s.supply.state = .ready) && decide (s.numPressurizing < s.capacity)

/-- The grant pass: candidates one at a time while the conditions hold and one is found (R111). The fuel bounds the services. -/
def grantPass : Nat → State → State
  | 0, s => s
  | n + 1, s =>
    if s.canServe then
      match serveOne s with
      | (s', true) => grantPass n s'
      | (s', false) => s'
    else s

/-- A pass makes at most as many services as there are groups to resume or grant, and one BLOCKED: every service but that one raises the number PRESSURIZING, which a capacity of at most 8 bounds (R108, R111). -/
def passFuel : Nat := 50

/-- The end of an event: its one grant pass, if it runs one (R110). -/
def finish (s : State) : State :=
  if s.passDue then { grantPass passFuel s with passDue := false } else s

/-- The groups that would be served if capacity were free (R118). -/
def State.waitingGroup (s : State) (g : Sector) : Bool :=
  match s.mode with
  | .climb => s.pacedEligible g || s.creepEligible g
  | .hold => s.creepEligible g
  | .survey => decide (s.surveyReq = some g) && s.surveyEligible g
  | .unset => false | .standby => false | .halt => false

/-- The waiting count of the demand (R118). -/
def State.numWaiting (s : State) : Nat := (allSectors.filter fun g => s.waitingGroup g).length

/-- Every enabled sector is in some slot of a table (R117). -/
def State.holdsEnabled (s : State) (table : List (Option Sector)) : Bool :=
  s.enabledSectors.all fun g => table.contains (some g)

end Sys2Proof.Machine
end

