-- ==== Sys2Proof/Machine/Feed.lean ====
section
/-! DEFINITION. The feed scheduler: the sweep (R120 to R122), the queue (R123, R124), tickets (R128, R130, R131), expiry and aging (R137, R138), the UNSERVED_MIX check (R125). -/

namespace Sys2Proof.Machine

/-! ### The sweep -/

/-- The sweep sequence Q: the enabled sectors the order list names, in its order, then the other enabled sectors (R120). -/
def State.sweepSequence (s : State) : List Sector :=
  (s.sweep.order.filter fun g => s.enabled g)
    ++ s.enabledSectors.filter fun g => !s.sweep.order.contains g

/-- The index into Q of the i-th sector of sweep w, for a sequence of n sectors and start index st (R121). -/
def sweepIndex (mode : SweepMode) (w n st i : Nat) : Nat :=
  match mode with
  | .rotate => (st + w + i) % n
  | .alternate => if w % 2 = 0 then (st + i) % n else (st + (n - 1 - i)) % n

/-- The order of sweep w (R121); the start index is taken modulo n. -/
def State.sweepOrder (s : State) (w : Nat) : List Sector :=
  let q := s.sweepSequence
  let n := q.length
  (List.range n).filterMap fun i => q[sweepIndex s.sweep.mode w n (s.sweep.start % n) i]?

/-- The sector is DISCREPANT (R14). -/
def State.discrepant (s : State) (g : Sector) : Bool := (s.sector g).table.flags.discrepant

/-- A sweep is built into the empty queue (R122). -/
def buildSweep (s : State) : State :=
  let w := s.sweepCount % 256
  { s with
    sweepCount := (s.sweepCount + 1) % 4294967296
    lastSweep := some w
    queue := s.queue ++ (s.sweepOrder w).filter fun g => !(s.sector g).ticket.isSome && !s.discrepant g }

/-! ### The queue -/

/-- A sector leaves the queue; those behind it keep their order (R123). -/
def leaveQueue (g : Sector) (s : State) : State := { s with queue := s.queue.filter fun h => h != g }

/-- Sectors whose tickets have closed unused go to the head as one block, those enabled and not DISCREPANT (R124). -/
def toHead (gs : List Sector) (s : State) : State :=
  { s with queue := (gs.filter fun g => s.enabled g && !s.discrepant g) ++ s.queue }

/-! ### Tickets -/

/-- The open ticket of a number, with its sector. -/
def State.findOpen (s : State) (n : Nat) : Option (Sector × Ticket) :=
  allSectors.findSome? fun g =>
    match (s.sector g).ticket with
    | some t => if t.number = n then some (g, t) else none
    | none => none

/-- The expired entry of a number. -/
def State.findExpired (s : State) (n : Nat) : Option Expired := s.expired.find? fun e => e.number == n

/-- A number is held by an open ticket or an expired entry (R131). -/
def State.numberUsed (s : State) (n : Nat) : Bool := (s.findOpen n).isSome || (s.findExpired n).isSome

/-- The ticket number after a number, passing from 65 535 to 1 (R131). -/
def nextNumber (n : Nat) : Nat := if n = 65535 then 1 else n + 1

/-- The first number from n on that is not held (R131); at most 32 are held, so 33 tries suffice. -/
def State.freeNumber (s : State) : Nat → Nat → Nat
  | 0, n => n
  | fuel + 1, n => if s.numberUsed n then s.freeNumber fuel (nextNumber n) else n

/-- The line the sector's current mix is mapped to (R125). -/
def State.mixLine (s : State) (g : Sector) : FeedLine := (s.mix (s.sector g).table.mix).line

/-- Room: E − F10 − ct (R128). -/
def State.room (s : State) (g : Sector) : Int := s.elev g - s.f10 - s.concreteTop g

/-- The tests of R128 on a queued sector. -/
def State.feedTest (s : State) (line : FeedLine) (g : Sector) : Bool :=
  decide (s.mixLine g = line)
    && decide (10 * ((s.mix (s.sector g).table.mix).thickness : Int) ≤ s.room g)
    && decide ((s.stack g).length ≤ 11)

/-- The ticket R128 creates for a sector. -/
def State.newTicket (s : State) (line : FeedLine) (g : Sector) : Ticket :=
  { number := s.freeNumber 33 s.nextTicket
    base := s.concreteTop g
    target := (s.mix (s.sector g).table.mix).thickness
    mix := (s.sector g).table.mix
    line := line
    issue := s.minute
    deadline := s.minute + s.deck.feedTimeout }

/-- Issue a ticket: the sector leaves the queue and the next ticket number rises (R128, R131). -/
def issueTicket (line : FeedLine) (g : Sector) (s : State) : State :=
  let t := s.newTicket line g
  leaveQueue g { s.setTicket g (some t) with nextTicket := nextNumber t.number }

/-- The walk of REQUEST FEED over the queued sectors: at most n tickets (R127). The sectors ticketed, in the order of the walk. -/
def feedWalk (line : FeedLine) : List Sector → Nat → State → State × List Sector
  | _, 0, s => (s, [])
  | [], _ + 1, s => (s, [])
  | g :: rest, n + 1, s =>
    if s.feedTest line g then
      let r := feedWalk line rest n (issueTicket line g s)
      (r.1, g :: r.2)
    else feedWalk line rest (n + 1) s

/-- Close a sector's open ticket (R130). -/
def closeTicket (g : Sector) (s : State) : State := s.setTicket g none

/-- Remove an expired entry (R138). -/
def removeExpired (n : Nat) (s : State) : State := { s with expired := s.expired.filter fun e => e.number != n }

/-! ### Expiry and aging -/

/-- An expired entry has aged out (R138). -/
def State.aged (s : State) (e : Expired) : Bool := decide (e.deadline + s.deck.feedTimeout ≤ s.minute)

/-- The entries that have aged out leave the expired list (R138). -/
def ageOut (s : State) : State := { s with expired := s.expired.filter fun e => !s.aged e }

/-- The sector's open ticket has reached its deadline (R137). -/
def State.ticketDue (s : State) (g : Sector) : Bool :=
  match (s.sector g).ticket with
  | some t => decide (t.deadline ≤ s.minute)
  | none => false

/-- Order of deadline, then of ticket number (R124, R137). -/
def expiresBefore (a b : Expired) : Bool :=
  decide (a.deadline < b.deadline) || (decide (a.deadline = b.deadline) && decide (a.number ≤ b.number))

/-- Insert in the order of expiry. -/
def insertExpiry (a : Expired) : List Expired → List Expired
  | [] => [a]
  | b :: rest => if expiresBefore a b then a :: b :: rest else b :: insertExpiry a rest

/-- The expired-list entry of a sector's open ticket (R137). -/
def State.expiryEntry (s : State) (g : Sector) : Option Expired :=
  match (s.sector g).ticket with
  | some t => some { number := t.number, sector := g, mix := t.mix, target := t.target, deadline := t.deadline }
  | none => none

/-- The tickets that expire at this minute, in their order. -/
def State.expiring (s : State) : List Expired :=
  ((allSectors.filter fun g => s.ticketDue g).filterMap s.expiryEntry).foldr insertExpiry []

/-- An entry joins the expired list as the newest; a full list discards its oldest (R138). -/
def joinExpired (e : Expired) (es : List Expired) : List Expired :=
  (if es.length < 8 then es else es.drop 1) ++ [e]

/-- One ticket expires: it leaves the open set, joins the expired list, and TICKET_EXPIRED is entered (R137). -/
def expireTicket (s : State) (e : Expired) : State :=
  let s1 := closeTicket e.sector s
  enterAlert .ticketExpired (some e.sector) { s1 with expired := joinExpired e s1.expired }

/-- Every ticket at its deadline expires, and their sectors go to the head of the queue as one block (R124, R137). -/
def expireTickets (s : State) : State :=
  let es := s.expiring
  toHead (es.map Expired.sector) (es.foldl expireTicket s)

/-! ### UNSERVED_MIX (R125) -/

/-- The sector is enabled and its current mix is mapped to no line. -/
def State.unserved (s : State) (g : Sector) : Bool := s.enabled g && decide (s.mixLine g = .none)

/-- After a SECTOR or MIX write: UNSERVED_MIX for each sector unserved now that was not so, with the same current mix, before the write (R125). -/
def unservedCheck (before s : State) : State :=
  forEach
    (allSectors.filter fun g =>
      s.unserved g && !(before.unserved g && decide ((before.sector g).table.mix = (s.sector g).table.mix)))
    (fun g => enterAlert .unservedMix (some g)) s

end Sys2Proof.Machine
end

