-- ==== Sys2Proof/Machine/Events.lean ====
section
/-! DEFINITION. The deck clock's events: second and minute (R41, R42), the steps they make due (R70, R77, R79, R107, R137, R138; log 2), the poll rounds and the ends of tries (R43, R44), integration and readiness (R46 to R54). -/

namespace Sys2Proof.Machine

/-! ### Steps that an event has made due -/

/-- Age out expired entries, if that is due (R138). -/
def takeAging (s : State) : State :=
  if s.due.aging then ageOut { s with due := { s.due with aging := false } } else s

/-- Expire tickets, if that is due; entries age out before tickets join (R137, R138). -/
def takeExpiry (s : State) : State :=
  if s.due.expiry then
    let s1 := takeAging s
    expireTickets { s1 with due := { s1.due with expiry := false } }
  else s

/-- BOND_RISK of one sector: the flag and the alert (R79). -/
def raiseBond (g : Sector) (s : State) : State :=
  enterAlert .bondRisk (some g) (s.modFlags g fun f => { f with bondRisk := true })

/-- BOND_RISK for the sectors whose dwell counter has risen to twice the limit (R79). -/
def takeBond (s : State) : State := forEach s.due.bond raiseBond { s with due := { s.due with bond := [] } }

/-- The supply lapses, if that is due: capacity 0, stalls, SUPPLY_LAPSE, the counter stops at its value (R107, R108). -/
def takeLapse (s : State) : State :=
  if s.due.lapse then
    let s1 := { s with due := { s.due with lapse := false }, supply := { s.supply with state := .lapsed, lapseRunning := false } }
    enterAlert .supplyLapse none (stallTo 0 s1)
  else s

/-- Raise the creep demands, if some dwell counter has reached the limit (R77). -/
def takeDwell (s : State) : State :=
  if s.due.dwell then raiseDemands { s with due := { s.due with dwell := false } } else s

/-- A pace counter at 0 is loaded again; the count is raised with a grant pass, or PACE_SLIP is set and entered (R70). -/
def paceExpiry (g : Sector) (s : State) : State :=
  let p := (s.sector g).pace
  if p.running && p.counter == 0 then
    let s1 := startCounter g s
    if p.count < 2 then { s1.modPace g (fun q => { q with count := q.count + 1 }) with passDue := true }
    else enterAlert .paceSlip (some g) (s1.modFlags g fun f => { f with paceSlip := true })
  else s

/-- Take the pace counters that have reached 0, ascending (R70). -/
def takePace (s : State) : State :=
  if s.due.pace then forEach allSectors paceExpiry { s with due := { s.due with pace := false } } else s

/-- The end of a clock event or of one of the steps it made due: the event's one pass runs once nothing of it is due any more (R110, log 7). -/
def finishDue (s : State) : State := if s.due = {} then finish s else s

/-- Take everything still due, with one grant pass (R110): what the last second or minute event began is completed before any other event acts (log 2). -/
def settleDue (s : State) : State :=
  if s.due = {} then s else finish (takePace (takeDwell (takeLapse (takeBond (takeExpiry (takeAging s))))))

/-! ### The sensor line -/

/-- A poll ends good (R44): the reading, clamped to −80..160, becomes the last good one; a retried poll sets PROBE_MARGINAL. -/
def pollGood (g : Sector) (attempt : Nat) (halfDegrees : Int) (s : State) : State :=
  let s1 := s.modProbe g fun p =>
    { p with state := .live, lastGood := some (clampInt (-80) 160 halfDegrees), lastMinute := some s.minute, refMinute := s.minute }
  if 2 ≤ attempt then s1.modFlags g fun f => { f with probeMarginal := true } else s1

/-- A poll's third try has failed (R44). -/
def pollFailed (g : Sector) (s : State) : State :=
  s.modProbe g fun p => { p with state := if p.state = .live then .held else p.state }

/-- The try on the line has failed: the next try is requested, or the poll or reading ends (R43, R44, R143). -/
def tryFailed (t : Try) (s : State) : State :=
  if t.attempt < 3 then requestTry t.kind t.sector (t.attempt + 1) s
  else if t.kind = .probe then pollFailed t.sector s
  else readingEnds t none s

/-- The try on the line ends; an abandoned one is disregarded; then the line serves the next waiting try (R43). -/
def tryEnds (t : Try) (act : State → State) (s : State) : State :=
  let s1 := { s with line := none }
  serveLine (if t.live then act s1 else s1)

/-- A probe answer arrives (R43, R44); it ends the try on the line when that is a probe's. -/
def probeAnswered (halfDegrees : Int) (corrupt : Bool) (s : State) : State :=
  match s.line with
  | some t =>
    if t.kind = .probe then
      tryEnds t (if corrupt then tryFailed t else pollGood t.sector t.attempt halfDegrees) s
    else s
  | none => s

/-- A receiver answer arrives (R43, R143); it ends the try on the line when that is a receiver's. -/
def receiverAnswered (tenths : Nat) (corrupt : Bool) (s : State) : State :=
  match s.line with
  | some t =>
    if t.kind = .probe then s
    else tryEnds t (if corrupt then tryFailed t else readingEnds t (some tenths)) s
  | none => s

/-- 0.1 s has passed without an answer: the try on the line fails (R43). -/
def tryTimedOut (s : State) : State :=
  match s.line with
  | some t => tryEnds t (tryFailed t) s
  | none => s

/-- A poll round: a poll of each enabled sector whose last poll is not still under way, ascending (R44). -/
def pollRound (s : State) : State :=
  forEach (allSectors.filter fun g => s.enabled g && !s.tryUnderWay .probe g) (fun g => requestTry .probe g 1) s

/-! ### The minute event at the maturity integrator -/

/-- The staleness test picks the sector (R46). -/
def State.stales (s : State) (g : Sector) : Bool :=
  let p := (s.sector g).probe
  s.enabled g && (p.state == .unknown || p.state == .held) && decide ((10 : Int) ≤ (s.minute : Int) - (p.refMinute : Int))

/-- A sector becomes STALE (R46). -/
def makeStale (g : Sector) (s : State) : State :=
  enterAlert .probeStale (some g) (s.modProbe g fun p => { p with state := .stale })

/-- The staleness test (R46). -/
def stalenessTest (s : State) : State := forEach (allSectors.filter fun g => s.stales g) makeStale s

/-- LIVE or HELD. -/
def ProbeState.trusted : ProbeState → Bool
  | .live => true | .held => true
  | .unknown => false | .stale => false

/-- The reading a sector can lend to others: it is enabled and LIVE or HELD (R48). -/
def State.lends (s : State) (g : Sector) : Option Int :=
  if s.enabled g && (s.sector g).probe.state.trusted then (s.sector g).probe.lastGood else none

/-- The lowest of the readings that sectors other than g lend, with the lowest index that holds it (R48). -/
def State.substitute (s : State) (g : Sector) : Option (Int × Sector) :=
  allSectors.foldl (fun best h =>
    match s.lends h with
    | some t =>
      if h = g then best
      else
        match best with
        | some (b, _) => if t < b then some (t, h) else best
        | none => some (t, h)
    | none => best) none

/-- The temperature in use and its source by the chain of R48. -/
def State.chain (s : State) (g : Sector) : Int × TempSource :=
  let p := (s.sector g).probe
  match (if p.state.trusted then p.lastGood else none) with
  | some t => (t, .own)
  | none =>
    match s.substitute g with
    | some (t, h) => (t, .substitute h)
    | none => (2 * s.deck.cold, .default)

/-- Set every sector's temperature in use; the chain reads the records as the staleness test left them (R48). -/
def setTemps (s : State) : State :=
  forEach allSectors (fun g s' => s'.modProbe g fun p => { p with temp := (s.chain g).1, source := (s.chain g).2 }) s

/-- The maturity increment of a minute at a temperature in half-degrees: the greatest whole number not above (h + 20) / 2, limited to 0..70 (R51). -/
def increment (h : Int) : Nat := (clampInt 0 70 ((h + 20) / 2)).toNat

/-- Mark a layer READY when its maturity has reached its class's threshold (R52, R53). -/
def markReady (mixes : Vector MixBlock 8) (l : Layer) : Layer :=
  if (mixes.get l.mix).threshold ≤ l.maturity then { l with flags := { l.flags with ready := true } } else l

/-- One minute's maturity on a layer, saturating at 65 535 (R51). -/
def cure (inc : Nat) (l : Layer) : Layer := { l with maturity := min 65535 (l.maturity + inc) }

/-- The number of READY layers of a stack. -/
def readyCount (stack : List Layer) : Nat := (stack.filter fun l => l.flags.ready).length

/-- When some sector has gained a READY layer, the event runs a grant pass (R54). -/
def handOnReady (before s : State) : State :=
  if allSectors.any fun g => decide (readyCount (before.stack g) < readyCount (s.stack g)) then { s with passDue := true } else s

/-- Integration and readiness test over the stacks of the enabled sectors (R51, R52, R54). -/
def integrate (s : State) : State :=
  handOnReady s (s.mapSectors fun x =>
    if x.table.enabled then
      { x with layers := { x.layers with
          stack := x.layers.stack.map fun l =>
            let l' := cure (increment x.probe.temp) l
            if l'.flags.ready then l' else markReady s.mixes l' } }
    else x)

/-- The re-test of a MIX write: the unready layers of the class in every stack (R53, R54). -/
def retest (m : MixClass) (s : State) : State :=
  handOnReady s (s.mapSectors fun x =>
    { x with layers := { x.layers with
        stack := x.layers.stack.map fun l => if l.mix = m ∧ !l.flags.ready then markReady s.mixes l else l } })

/-- The drift check of a minute: a reading for each sector enabled, established and IDLE whose last check is not still under way (R145). -/
def driftCheck (s : State) : State :=
  forEach
    (allSectors.filter fun g =>
      s.enabled g && s.established g && decide (s.groupState g = .idle) && !s.tryUnderWay .drift g)
    (fun g => requestTry .drift g 1) s

/-- The minute event's work in the blocks (R42, R46, R48, R51, R52, R145), and what it makes due in the feed scheduler (R137, R138). -/
def minuteWork (s : State) : State :=
  let s1 := driftCheck (integrate (setTemps (stalenessTest s)))
  { s1 with due := { s1.due with
      aging := s1.expired.any fun e => s1.aged e
      expiry := allSectors.any fun g => s1.ticketDue g } }

/-! ### The second event -/

/-- The dwell counter after a second (R76). -/
def dwellTick (mode : DeckMode) (x : SectorState) : Nat :=
  if x.table.enabled && !x.layers.stack.isEmpty && decide (mode ≠ .unset) then min 65535 (x.pace.dwell + 1) else x.pace.dwell

/-- One second at a sector: the group timer's seconds left, the pace counter and the dwell counter (R70, R76, R84). -/
def secondTick (mode : DeckMode) (x : SectorState) : SectorState :=
  { x with
    group := { x.group with timer := x.group.timer.map fun t => { t with left := t.left - 1 } }
    pace := { x.pace with
      counter := if x.pace.running then x.pace.counter - 1 else x.pace.counter
      dwell := dwellTick mode x } }

/-- The dwell counter of a sector has just risen to twice the dwell limit (R79). -/
def bondRises (before after : State) (g : Sector) : Bool :=
  decide ((before.sector g).pace.dwell < 2 * after.deck.dwell) && decide (2 * after.deck.dwell ≤ (after.sector g).pace.dwell)

/-- The second event's counting in the blocks, and what it makes due (R70, R76, R77, R79, R107). -/
def secondWork (s : State) : State :=
  let s1 := s.mapSectors (secondTick s.mode)
  let s2 := { s1 with supply := { s.supply with lapse := if s.supply.lapseRunning then s.supply.lapse + 1 else s.supply.lapse } }
  { s2 with due := { s2.due with
      bond := allSectors.filter fun g => bondRises s s2 g
      lapse := s2.supply.lapseRunning && decide (s2.supply.state ≠ .lapsed) && decide (s2.deck.lapse ≤ s2.supply.lapse)
      dwell := allSectors.any fun g => s2.wantsDemand g
      pace := allSectors.any fun g => (s2.sector g).pace.running && (s2.sector g).pace.counter == 0 } }

/-- A group timer whose time has run out expires (R92, R93, R95). -/
def timerExpiry (g : Sector) (s : State) : State :=
  match (s.sector g).group.timer with
  | some ⟨.window, 0⟩ => windowExpiry g s
  | some ⟨.settle, 0⟩ => settleExpiry g s
  | some ⟨.vent, 0⟩ => ventExpiry g s
  | _ => s

/-- Before a new second begins, the timers whose time has run out and whose expiry no command has taken expire, in ascending sector index: the model's choice (log 15). Each expiry is an event of its own, with its own grant pass (R92, R93, R95, R110). -/
def expireTimers (s : State) : State := forEach allSectors (fun g s => finish (timerExpiry g s)) s

/-- The clock advances by one second, or to the next minute (R41). -/
def advanceClock (toMinute : Bool) (s : State) : State :=
  if toMinute then { s with second := 0, minute := (s.minute + 1) % 4294967296 } else { s with second := s.second + 1 }

/-- A second event, which is a minute event too when the clock is to pass 59 or when the minute is what advances (R41, R42; log 4). -/
def clockEvent (minuteEvent : Bool) (s : State) : State :=
  let s0 := expireTimers (settleDue s)
  let toMinute := minuteEvent || decide (59 ≤ s0.second)
  let s1 := secondWork (advanceClock toMinute s0)
  let s2 := if s1.second % 10 = 0 then pollRound s1 else s1
  finishDue (if toMinute then minuteWork s2 else s2)

end Sys2Proof.Machine
end

