-- ==== Sys2Proof/Machine/Profile.lean ====
section
/-! DEFINITION. The deck profile: PROFILE WRITE of the four blocks (R170 to R177), PROFILE READ (R179) and the run parameters (R178, R72, R74, R167). -/

namespace Sys2Proof.Machine

/-- A refused request: the status code, no fields (R183). -/
def refuse (s : State) (st : Status) : State × Reply := (s, { status := st })

/-- Status of a request taken: CLAMPED when a value was limited. -/
def okOr (clamped : Bool) : Status := if clamped then .clamped else .ok

/-- CLAMPED_SETTING is entered when a write or a run parameter was clamped (R170, R178). -/
def noteClamped (clamped : Bool) (g : Option Sector) (s : State) : State :=
  if clamped then enterAlert .clampedSetting g s else s

/-- R170: the mode and the groups let a block be written. -/
def State.writeRefusal (s : State) : Option Status :=
  if s.mode ≠ .unset ∧ s.mode ≠ .standby then some .mode
  else if s.anyInFlight then some .busy
  else none

/-! ### DECK (R171 to R173) -/

/-- Each field clamped to its range (R171), then M to at most H − F − 40 mm (R172 steps 1 and 2). -/
def clampDeck (d : DeckBlock) : DeckBlock :=
  let h := clampNat 600 2000 d.height
  let f := clampNat 0 300 d.freeboard
  { height := h
    freeboard := f
    embed := min (clampNat 100 1500 d.embed) (h - f - 40)
    creepTol := clampNat 0 100 d.creepTol
    tilt := clampNat 15 200 d.tilt
    window := clampNat 5 60 d.window
    settle := clampNat 0 10 d.settle
    vent := clampNat 5 60 d.vent
    dwell := clampNat 60 3600 d.dwell
    band := clampNat 0 1023 d.band
    debounce := clampNat 10 200 d.debounce
    lapse := clampNat 2 30 d.lapse
    cold := clampInt (-10) 20 d.cold
    feedTimeout := clampNat 2 90 d.feedTimeout
    driftLimit := clampNat 5 200 d.driftLimit }

/-- The greatest of 0 and the values of a list. -/
def maxOf (zs : List Int) : Int := zs.foldl max 0

/-- The smallest whole number of millimetres whose tenths are at least z. -/
def ceilMm (z : Int) : Nat := ((z + 9) / 10).toNat

/-- The exposures of the unready layers of every established sector: reach bottom less base (R172 step 3). -/
def State.exposures (s : State) : List Int :=
  (allSectors.filter fun g => s.established g).flatMap fun g =>
    ((s.stack g).filter fun l => !l.flags.ready).map fun l => s.reachBottom g - l.base

/-- The values of reach(a) − E(b) over pairs of adjacent enabled established sectors (R172 step 5). -/
def State.tiltGaps (s : State) : List Int :=
  (allSectors.filter fun a => s.enabled a && s.established a).flatMap fun a =>
    ((s.nbrSet a).filter fun b => s.enabled b && s.established b).map fun b => s.reach a - s.elev b

/-- The stroke lengths of the enabled sectors. -/
def State.enabledLens (s : State) : List Int := s.enabledSectors.map fun g => (s.len g : Int)

/-- Some stack holds a layer. -/
def State.holdsLayers (s : State) : Bool := allSectors.any fun g => !(s.stack g).isEmpty

/-- C raised to the largest exposure (R172 step 3). -/
def State.raisedCreep (s : State) (c : Nat) : Nat := max c (ceilMm (maxOf s.exposures))

/-- T raised to the largest stroke length and the largest reach over a neighbour (R172 step 5). -/
def State.raisedTilt (s : State) (t : Nat) : Nat := max t (ceilMm (maxOf (s.enabledLens ++ s.tiltGaps)))

/-- The DECK block a write takes (R172). -/
def State.deckTaken (s : State) (d : DeckBlock) : DeckBlock :=
  let c := clampDeck d
  { c with creepTol := s.raisedCreep c.creepTol, tilt := s.raisedTilt c.tilt }

/-- BOND_RISK at a DECK write: the sectors whose counter the new 2 × D places at or above its limit and the old one did not (R79, R173). -/
def bondAtWrite (before s : State) : State :=
  forEach
    (allSectors.filter fun g =>
      decide (2 * s.deck.dwell ≤ (s.sector g).pace.dwell) && decide ((before.sector g).pace.dwell < 2 * before.deck.dwell))
    raiseBond s

/-- The handing on of a DECK write (R173). -/
def handOnDeck (before s : State) : State :=
  let s1 :=
    if before.deck.height ≠ s.deck.height then forEach (allSectors.filter fun g => s.established g) rebase s else s
  bondAtWrite before (forEach allSectors rederive s1)

/-- PROFILE WRITE of the DECK block (R170 to R173). -/
def serveDeckWrite (d : DeckBlock) (s : State) : State × Reply :=
  match s.writeRefusal with
  | some st => refuse s st
  | none =>
    let t := s.deckTaken d
    if s.holdsLayers ∧ ¬(t.height = s.deck.height ∧ t.freeboard = s.deck.freeboard ∧ t.embed = s.deck.embed) then
      refuse s .notEmpty
    else
      let clamped := decide (t ≠ d)
      let s1 := handOnDeck s { s with deck := t, deckWritten := true }
      (finish (completenessTest (noteClamped clamped none s1)), { status := okOr clamped, body := deckB t })

/-! ### SECTOR (R174, R175) -/

/-- Every pair of adjacent enabled established sectors meets the tilt limit by its reach (R4, R9). -/
def State.tiltHolds (s : State) : Bool :=
  (allSectors.filter fun a => s.enabled a && s.established a).all fun a =>
    (s.nbrSet a).all fun b => !(s.enabled b && s.established b) || decide (s.reach a ≤ s.elev b + s.t10)

/-- L as a SECTOR write takes it: 150..400, then at most T (R5). -/
def State.lenTaken (s : State) (n : Nat) : Nat := min (clampNat 150 400 n) (10 * s.deck.tilt)

/-- The refusals of R174 rows 3 to 6, in order; s' is the state the write would leave. -/
def sectorRefusal (g : Sector) (enable : Bool) (len : Nat) (s s' : State) : Option Status :=
  if s.suspect g ∧ (s.sector g).table.len ≠ some len then some .suspect
  else if s.enabled g ∧ !enable ∧ !(s.stack g).isEmpty then some .notEmpty
  else if enable ∧ !s.enabled g
      ∧ (!s.active.toList.contains (some g) ∨ (s.loadPending ∧ !s.shadow.toList.contains (some g))) then
    some .incomplete
  else if !s'.tiltHolds then some .tilt
  else none

/-- The probe record and the sensor line at a change of enable (R45, R47, R143): with no last good reading the reference minute is the minute the sector was last enabled. -/
def changeEnable (g : Sector) (enable : Bool) (s : State) : State :=
  let s1 := s.modProbe g fun p =>
    { p with
      state := .unknown, lastGood := none, lastMinute := none
      refMinute := if enable then s.minute else p.enabledMinute
      enabledMinute := if enable then s.minute else p.enabledMinute }
  if enable then s1 else leaveQueue g (abandonTries (fun t => t.sector == g) s1)

/-- The handing on of a SECTOR write (R175). -/
def handOnSector (g : Sector) (before s : State) : State :=
  let s1 := if before.enabled g = s.enabled g then s else changeEnable g (s.enabled g) s
  unservedCheck before (rederive g s1)

/-- A SECTOR write whose indices are in range and whose DECK block is written (R174 rows 2 to 6, R175). -/
def takeSectorWrite (g : Sector) (nbrs : List Sector) (mix : MixClass) (f : SectorFields) (s : State) : State × Reply :=
  let len := s.lenTaken f.len
  let offset := clampInt (-5000) 5000 f.offset
  let enable := decide (f.enable = 1)
  let s' := s.modTable g fun r =>
    { r with enabled := enable, nbrs := nbrs, len := some len, written := true, offset := offset, mix := mix }
  match sectorRefusal g enable len s s' with
  | some st => refuse s st
  | none =>
    let clamped := decide (len ≠ f.len ∨ offset ≠ f.offset)
    (finish (completenessTest (noteClamped clamped (some g) (handOnSector g s s'))),
      { status := okOr clamped, body := sectorBlockB (s'.sector g).table })

/-- PROFILE WRITE of a SECTOR block (R170, R174). -/
def serveSectorWrite (index : Nat) (f : SectorFields) (s : State) : State × Reply :=
  match s.writeRefusal with
  | some st => refuse s st
  | none =>
    match toSector index, toSectors f.nbrs, toMix f.mix with
    | some g, some nbrs, some mix =>
      if 4 < f.nbrs.length ∨ 1 < f.enable then refuse s .index
      else if !s.deckWritten then refuse s .notSet
      else takeSectorWrite g nbrs mix f s
    | _, _, _ => refuse s .index

/-! ### MIX (R176) and SWEEP (R177) -/

/-- PROFILE WRITE of a MIX block (R176). -/
def serveMixWrite (index : Nat) (f : MixFields) (s : State) : State × Reply :=
  match s.writeRefusal with
  | some st => refuse s st
  | none =>
    match toMix index, toLine f.line with
    | some m, some line =>
      let age := clampNat 1 1440 f.coldAge
      let thickness := clampNat 20 500 f.thickness
      let clamped := decide (age ≠ f.coldAge ∨ thickness ≠ f.thickness)
      let block : MixBlock := { written := true, threshold := f.threshold, coldAge := age, thickness := thickness, line := line }
      let s1 := retest m { s with mixes := s.mixes.set m.val block }
      (finish (completenessTest (noteClamped clamped none (unservedCheck s s1))),
        { status := okOr clamped, body := mixB block })
    | _, _ => refuse s .index

/-- PROFILE WRITE of the SWEEP block (R177). -/
def serveSweepWrite (f : SweepFields) (s : State) : State × Reply :=
  match s.writeRefusal with
  | some st => refuse s st
  | none =>
    match toSectors f.order, toSweepMode f.mode with
    | some order, some mode =>
      if ¬order.Nodup ∨ 23 < f.start then refuse s .index
      else
        let block : SweepBlock := { written := true, order := order, start := f.start, mode := mode }
        (finish (completenessTest { s with sweep := block, queue := [], sweepCount := 0, lastSweep := none }),
          { status := .ok, body := sweepB block })
    | _, _ => refuse s .index

/-! ### PROFILE READ (R179) -/

/-- PROFILE READ: the written-flag and the block's fields; the read changes nothing. -/
def serveProfileRead (block index : Nat) (s : State) : State × Reply :=
  match block with
  | 0 => (s, { status := .ok, body := boolB s.deckWritten ++ deckB s.deck })
  | 1 =>
    match toSector index with
    | some g => (s, { status := .ok, body := boolB (s.sector g).table.written ++ sectorBlockB (s.sector g).table })
    | none => refuse s .index
  | 2 =>
    match toMix index with
    | some m => (s, { status := .ok, body := boolB (s.mix m).written ++ mixB (s.mix m) })
    | none => refuse s .index
  | 3 => (s, { status := .ok, body := boolB s.sweep.written ++ sweepB s.sweep })
  | _ => refuse s .index

/-! ### Run parameters (R178) -/

/-- SET RATE cuts a running counter that is above its group's new interval (R72). -/
def cutCounter (g : Sector) (s : State) : State :=
  s.modPace g fun p => if p.running ∧ s.interval g < p.counter then { p with counter := s.interval g } else p

/-- The rate r that a SET RATE for the rate asked takes, handed on (R72). A request that repeats the rate in force and is answered OK hands on nothing new, so that no counter is cut (R178, log 26); one that is limited to the rate in force is no such repeat. -/
def takeRate (asked r : Nat) (s : State) : State :=
  if asked = r ∧ r = s.rate then s else forEach allSectors cutCounter { s with rate := r }

/-- SET RATE (R72, R178). -/
def serveSetRate (rate : Nat) (s : State) : State × Reply :=
  let r := clampNat 50 600 rate
  let clamped := decide (r ≠ rate)
  (noteClamped clamped none (takeRate rate r s),
    { status := okOr clamped, body := figB r })

/-- SET GOAL (R74, R75, R178). Where one request is limited and reaches the goal, GOAL_REACHED is entered before CLAMPED_SETTING, an order no rule gives: the model's choice (log 17). -/
def serveSetGoal (elev : Nat) (s : State) : State × Reply :=
  let v := clampNat 0 2500000 elev
  let clamped := decide (v ≠ elev)
  (finish (noteClamped clamped none (goalTest (forEach allSectors updateGoal { s with goal := v }))),
    { status := okOr clamped, body := elevB v })

/-- SET PLANE (R178). -/
def serveSetPlane (elev : Nat) (s : State) : State × Reply :=
  let v := clampNat 0 2500000 elev
  let clamped := decide (v ≠ elev)
  (noteClamped clamped none { s with plane := v }, { status := okOr clamped, body := elevB v })

/-- SET CREEP SET (R167): in HOLD the demands of sectors that have left are removed and those of sectors that have joined are raised. -/
def serveSetCreepSet (sectors : List Nat) (s : State) : State × Reply :=
  match toSectors sectors with
  | none => refuse s .index
  | some gs =>
    if 24 < sectors.length then refuse s .index
    else
      let set := sectorSet gs
      let s1 := { s with creepSet := set }
      let s2 :=
        if s.mode = .hold then
          raiseDemands { s1 with creepList := s1.creepList.filter fun e => set.contains e.sector }
        else s1
      (finish s2, { status := .ok, body := listB (set.map sectorB) })

end Sys2Proof.Machine
end

