-- ==== Sys2Proof/Machine/Console.lean ====
section
/-! DEFINITION. The console's requests to the sector table and the groups (R11 to R13, R15, R100), the mode commands (R160 to R165, R169), the survey and TRIM SECTOR (R148, R151, R153). -/

namespace Sys2Proof.Machine

/-! ### ESTABLISH (R12, R13) -/

/-- Row 6 of R12: the elevation taken, with a margin of 0, breaks the tilt relation with an enabled established neighbour. -/
def State.establishTilts (s : State) (g : Sector) (elev : Int) : Bool :=
  s.enabled g && (s.nbrSet g).any fun n =>
    s.enabled n && s.established n
      && (decide (s.elev n + s.t10 < elev) || decide (elev + s.t10 < s.reach n))

/-- Rows 2 to 6 of R12. -/
def State.establishRefusal (s : State) (g : Sector) (elev : Int) : Option Status :=
  if s.mode ≠ .unset ∧ s.mode ≠ .standby then some .mode
  else if !s.deckWritten ∨ !(s.sector g).table.written then some .notSet
  else if s.anyInFlight then some .busy
  else if !(s.stack g).isEmpty then some .notEmpty
  else if s.establishTilts g elev then some .tilt
  else none

/-- The elevation ESTABLISH takes: limited to H10..2 500 000 (R12). -/
def State.elevTaken (s : State) (elev : Nat) : Int := clampInt s.h10 2500000 (elev : Int)

/-- What a taken ESTABLISH does to the sector (R13). -/
def setElev (g : Sector) (elev : Int) (s : State) : State :=
  rederive g (rebase g (s.modTable g fun r => { r with elev := some elev, margin := 0 }))

/-- ESTABLISH (R12, R13). -/
def serveEstablish (sector elev : Nat) (s : State) : State × Reply :=
  match toSector sector with
  | none => refuse s .index
  | some g =>
    let e := s.elevTaken elev
    match s.establishRefusal g e with
    | some st => refuse s st
    | none =>
      (finish (completenessTest (setElev g e s)),
        { status := okOr (decide (e ≠ (elev : Int))), body := elevB e })

/-! ### ADJUST (R11) -/

/-- Rows 2 to 4 of R11's refusals. -/
def State.adjustRefusal (s : State) (g : Sector) : Option Status :=
  if !s.established g then some .notSet
  else if !s.suspect g then some .suspect
  else if (s.groupState g).inFlight then some .busy
  else none

/-- A taken ADJUST: the margin is cleared, E rises by c, handed on as a commit is (R7, R11). Where the new E brings the group to its goal, the count is set to 0 by R71 and the goal test follows by R75, though R11 says that ADJUST does not change the count and R74 does not name ADJUST: the model's choice (log 28). -/
def adjustElev (g : Sector) (c : Nat) (s : State) : State :=
  { rederive g (raiseElev g c (s.modTable g fun r => { r with margin := 0 })) with passDue := true }

/-- ADJUST (R11). -/
def serveAdjust (sector c : Nat) (s : State) : State × Reply :=
  match toSector sector with
  | none => refuse s .index
  | some g =>
    match s.adjustRefusal g with
    | some st => refuse s st
    | none =>
      let taken := min c (s.sector g).table.margin
      let s' := finish (adjustElev g taken s)
      (s', { status := okOr (decide (taken ≠ c)), body := figB taken ++ elevB (s'.elev g) })

/-! ### CLEAR FLAGS (R15) and CLEAR FAULT (R100) -/

/-- The flags a sector holds, as one byte. -/
def State.flagsByte (s : State) (g : Sector) : Byte := (s.sector g).table.flags.toByte

/-- CLEAR FLAGS (R15); 0xFF is ALL (11.4). -/
def serveClearFlags (sector : Nat) (flags : Byte) (s : State) : State × Reply :=
  if sector = 255 then
    let s' := forEach allSectors (fun g s => s.modFlags g fun f => f.clear flags) s
    (s', { status := .ok, body := [s'.flagsByte 0] })
  else
    match toSector sector with
    | none => refuse s .index
    | some g =>
      let s' := s.modFlags g fun f => f.clear flags
      (s', { status := .ok, body := [s'.flagsByte g] })

/-- Row 3 of R100: the group is in FAULT and its jacks are not seen at home. The row names a switch that is off or on; a switch whose debounced state is not yet known counts as not seen at home: the model's choice (log 29). -/
def State.notHome (s : State) (g : Sector) : Bool :=
  let r := (s.sector g).group
  r.state == .fault && !(r.retSw.state == some true && r.endSw.state == some false)

/-- CLEAR FAULT returns a group in FAULT to IDLE (R100): the goal test, the trim unit, a grant pass. -/
def clearFault (g : Sector) (s : State) : State :=
  let s1 := s.modGroup g fun r => { r with state := .idle, fault := none }
  { trimOnIdle g (goalTest s1) with passDue := true }

/-- CLEAR FAULT (R100). -/
def serveClearFault (sector : Nat) (s : State) : State × Reply :=
  match toSector sector with
  | none => refuse s .index
  | some g =>
    if s.mode = .unset then refuse s .mode
    else if s.notHome g then refuse s .notRetracted
    else
      let s' := if s.groupState g = .fault then finish (clearFault g s) else s
      (s', { status := .ok, body := [(s'.groupState g).code] })

/-! ### Mode commands: every answer carries the mode and the mode before HALT (R157) -/

/-- The mode before HALT in an answer. -/
def beforeHaltB (s : State) : List Byte := optB 1 (s.beforeHalt.map fun m => [m.code])

/-- The answer of a mode command. -/
def modeReply (st : Status) (s : State) : State × Reply :=
  (s, { status := st, body := [s.mode.code] ++ beforeHaltB s })

/-- START (R160). -/
def serveStart (s : State) : State × Reply :=
  match s.mode with
  | .standby => modeReply .ok (finish (enterClimb s))
  | .hold => modeReply .ok (finish (enterClimb s))
  | .climb => modeReply .ok s
  | .unset => modeReply .mode s
  | .survey => modeReply .mode s
  | .halt => modeReply .mode s

/-- HOLD (R161). -/
def serveHold (s : State) : State × Reply :=
  match s.mode with
  | .climb => modeReply .ok (finish (enterHold s))
  | .hold => modeReply .ok s
  | .unset => modeReply .mode s
  | .standby => modeReply .mode s
  | .survey => modeReply .mode s
  | .halt => modeReply .mode s

/-- PARK (R163). -/
def servePark (s : State) : State × Reply :=
  match s.mode with
  | .hold => if s.anyInFlight then modeReply .busy s else modeReply .ok (finish (enterStandby s))
  | .standby => modeReply .ok s
  | .unset => modeReply .mode s
  | .survey => modeReply .mode s
  | .climb => modeReply .mode s
  | .halt => modeReply .mode s

/-- Entry to HALT (R164): the PRESSURIZING groups stall, the pace counters stop, a survey ends. -/
def enterHalt (s : State) : State :=
  let s1 := stallTo 0 { s with mode := .halt, beforeHalt := some s.mode }
  let s2 := if s.mode = .climb then stopCounters s1 else s1
  { (if s.mode = .survey then stopSurvey s2 else s2) with passDue := true }

/-- STOP (R164). -/
def serveStop (s : State) : State × Reply :=
  match s.mode with
  | .standby => modeReply .ok (finish (enterHalt s))
  | .survey => modeReply .ok (finish (enterHalt s))
  | .climb => modeReply .ok (finish (enterHalt s))
  | .hold => modeReply .ok (finish (enterHalt s))
  | .halt => modeReply .ok s
  | .unset => modeReply .mode s

/-- RESUME in HALT, by the mode before HALT (R165). HALT is entered by STOP alone, which sets that mode to STANDBY, SURVEY, CLIMB or HOLD (R157, R164); for the values no run reaches nothing changes (log 21). -/
def leaveHalt (s : State) : State × Reply :=
  match s.beforeHalt with
  | some .climb => modeReply .ok (finish (enterHold s))
  | some .hold => modeReply .ok (finish (enterHold s))
  | some .standby => modeReply .ok (finish (enterStandby s))
  | some .survey => modeReply .ok (finish (enterStandby s))
  | some .unset => modeReply .mode s
  | some .halt => modeReply .mode s
  | none => modeReply .mode s

/-- RESUME (R165). -/
def serveResume (s : State) : State × Reply :=
  match s.mode with
  | .halt => leaveHalt s
  | .unset => modeReply .mode s
  | .standby => modeReply .mode s
  | .survey => modeReply .mode s
  | .climb => modeReply .mode s
  | .hold => modeReply .mode s

/-- RESTART (R169): answered OK; the warm reset acts when the answer has been sent (R182). -/
def serveRestart (s : State) : State × Reply := (s, { status := .ok })

/-! ### The survey and TRIM SECTOR -/

/-- The survey record set afresh: PENDING for each enabled sector, none for the others (R151 step 1). -/
def freshOutcomes (s : State) : State :=
  s.mapSectors fun x => { x with trim := { x.trim with outcome := if x.table.enabled then some .pending else none } }

/-- SURVEY begins (R151). -/
def beginSurvey (s : State) : State :=
  { beginVisits allSectors { freshOutcomes s with surveyState := .running, mode := .survey, surveyReq := none } with passDue := true }

/-- SURVEY (R151). -/
def serveSurveyStart (s : State) : State × Reply :=
  if s.mode ≠ .standby then refuse s .mode
  else if s.anyInFlight then refuse s .busy
  else (finish (beginSurvey s), { status := .ok, body := figB s.enabledSectors.length })

/-- END SURVEY while the survey runs (R153). -/
def endSurvey (s : State) : State :=
  let s1 := abortPending s
  if s1.visitHasStroke then { s1 with surveyState := .ending }
  else enterStandby { abortVisit s1 with surveyState := .none }

/-- END SURVEY (R153). -/
def serveEndSurvey (s : State) : State × Reply :=
  if s.mode ≠ .survey then refuse s .mode
  else if s.surveyState = .ending then (s, { status := .ok })
  else (finish (endSurvey s), { status := .ok })

/-- The refusals of TRIM SECTOR after row 1 (R148). -/
def State.trimRefusal (s : State) (g : Sector) : Option Status :=
  if s.mode ≠ .climb ∧ s.mode ≠ .hold then some .mode
  else if !(s.enabled g && s.established g) then some .notSet
  else if s.suspect g then some .suspect
  else none

/-- A taken TRIM SECTOR: a request that is NONE becomes WAITING, and starts its before-readings at once when the group is IDLE (R148, R149). -/
def askTrim (g : Sector) (s : State) : State :=
  if (s.sector g).trim.request = .none then
    let s1 := s.modTrim g fun t => { t with request := .waiting }
    if s.groupState g = .idle then trimOnIdle g s1 else s1
  else s

/-- TRIM SECTOR (R148). -/
def serveTrimSector (sector : Nat) (s : State) : State × Reply :=
  match toSector sector with
  | none => refuse s .index
  | some g =>
    match s.trimRefusal g with
    | some st => refuse s st
    | none => (askTrim g s, { status := .ok })

end Sys2Proof.Machine
end

