-- ==== Sys2Proof/Machine/Reports.lean ====
section
/-! DEFINITION. The reports of the console port: READ FEED (R140), SECTOR STATUS and DECK STATUS (R186 with R16, R38, R56, R81, R102, R118, R140, R154), READ ALERTS and ACK ALERTS (R189). -/

namespace Sys2Proof.Machine

/-! ### READ FEED (R140) -/

/-- The number of open tickets. -/
def State.numOpen (s : State) : Nat := (allSectors.filter fun g => (s.sector g).ticket.isSome).length

/-- The last sweep as reported: none while the sweep count is 0 (R122). -/
def State.shownSweep (s : State) : Option Nat := if s.sweepCount = 0 then none else s.lastSweep

/-- The QUEUE part of READ FEED (R140). -/
def feedQueueB (s : State) : List Byte :=
  longB s.sweepCount ++ optB 2 (s.shownSweep.map figB) ++ figB s.nextTicket ++ figB s.numOpen
    ++ listB (s.queue.map sectorB) ++ listB (s.expired.map fun e => be16 e.number ++ expiredFieldsB e)

/-- The open tickets of the sectors from a sector upward. -/
def State.ticketsFrom (s : State) (from' : Sector) : List (Sector × Ticket) :=
  (allSectors.filter fun g => decide (from' ≤ g)).filterMap fun g => (s.sector g).ticket.map fun t => (g, t)

/-- The TICKETS part of READ FEED: up to 8 records, and whether more follow (R140). -/
def feedTicketsB (s : State) (from' : Sector) : List Byte :=
  listB (((s.ticketsFrom from').take 8).map fun x => ticketB x.1 x.2) ++ boolB (8 < (s.ticketsFrom from').length)

/-- READ FEED (R140). -/
def serveReadFeed (part fromSector : Nat) (s : State) : State × Reply :=
  match toSector fromSector with
  | none => refuse s .index
  | some g =>
    match part with
    | 0 => (s, { status := .ok, body := feedQueueB s })
    | 1 => (s, { status := .ok, body := feedTicketsB s g })
    | _ => refuse s .index

/-! ### SECTOR STATUS (R186) -/

/-- The sector table's figures (R16). The neighbour set (R3) travels in ascending index, an order no rule gives: the model's choice (log 19). -/
def sectorTableB (s : State) (g : Sector) : List Byte :=
  boolB (s.enabled g) ++ boolB (s.established g) ++ elevB (s.elev g) ++ figB (s.len g)
    ++ figB (s.sector g).table.margin ++ [(s.sector g).table.flags.toByte] ++ listB ((s.nbrSet g).map sectorB)
    ++ elevB (if s.established g then s.reach g else s.elev g)

/-- The layer table's figures (R38). -/
def layerTableB (s : State) (g : Sector) : List Byte :=
  elevB (s.concreteTop g) ++ elevB ((s.sector g).layers.wallBase.getD 0) ++ figB (s.stack g).length
    ++ figB (((s.stack g).head?.map Layer.serial).getD 0) ++ figB (((s.stack g).getLast?.map Layer.serial).getD 0)
    ++ figB (s.sector g).layers.nextSerial

/-- Where the temperature in use comes from: one byte, then the substitute's sector where there is one (R56, log 9). -/
def sourceB : TempSource → List Byte
  | .own => 0 :: optB 1 none
  | .substitute g => 1 :: optB 1 (some (sectorB g))
  | .default => 2 :: optB 1 none

/-- The maturity integrator's figures (R56). -/
def probeB (p : Probe) : List Byte :=
  [p.state.code] ++ sfigB (p.lastGood.getD 0) ++ longB (p.lastMinute.getD 0) ++ sfigB p.temp ++ sourceB p.source

/-- The cure term: 0x7FFFFFFF while unbounded, and for a sector not enabled or not established (R63, R191). -/
def cureB (s : State) (g : Sector) : List Byte :=
  match (if s.enabled g && s.established g then s.cureTerm g else none) with
  | some x => elevB x
  | none => be32 0x7FFFFFFF

/-- The pace interval as computed now (R81); R67 gives none while L is not set, so it is a figure that may be absent (R191, log 8). -/
def intervalB (s : State) (g : Sector) : List Byte :=
  optB 2 ((s.sector g).table.len.map fun _ => figB (s.interval g))

/-- The strokes remaining of a group, as R73 gives them: 65 535 with no goal set, else a value for an established group only. -/
def State.strokesLeft (s : State) (g : Sector) : Option Nat :=
  if s.goal = 0 then some 65535
  else
    match (s.sector g).table.elev, (s.sector g).table.len with
    | some e, some l => some (if e < (s.goal : Int) then ((s.goal : Int) - e).toNat / l else 0)
    | _, _ => none

/-- The strokes remaining (R81); a figure that may be absent (R191, log 8). -/
def strokesLeftB (s : State) (g : Sector) : List Byte := optB 2 ((s.strokesLeft g).map figB)

/-- The pacing and dwell unit's figures (R81). -/
def paceB (s : State) (g : Sector) : List Byte :=
  let p := (s.sector g).pace
  [(s.holdReason g).code] ++ figB (s.shownAllowance g) ++ cureB s g ++ intervalB s g ++ figB p.counter ++ figB p.count
    ++ figB p.dwell ++ boolB (s.demanded g) ++ boolB (s.isAtGoal g) ++ strokesLeftB s g

/-- The timer that runs and its seconds left, 0 when none runs (R102). -/
def timerB : Option Timer → List Byte
  | some t => optB 1 (some [t.kind.code]) ++ figB t.left
  | none => optB 1 none ++ figB 0

/-- A debounced switch state; absent while it is unknown (R103, R191, log 8). -/
def switchB (x : Switch) : List Byte := optB 1 (x.state.map boolB)

/-- The group controller's figures (R102). -/
def groupB (r : Group) : List Byte :=
  [r.state.code] ++ optB 1 (r.fault.map fun k => [k.code]) ++ optB 1 (r.kind.map fun k => [k.code])
    ++ figB (r.latched.getD 0) ++ boolB r.isOpen ++ figB r.windows ++ boolB r.failed ++ timerB r.timer
    ++ longB r.strokes ++ switchB r.endSw ++ switchB r.retSw ++ boolB r.state.extendValve ++ boolB r.state.returnValve

/-- The place of a sector in a list, counted from 1; 0 when it is not there. -/
def position (g : Sector) : List Sector → Nat
  | [] => 0
  | h :: rest => if h = g then 1 else match position g rest with
    | 0 => 0
    | n + 1 => n + 2

/-- Room in tenths, 0 when negative, 65 535 above that (R140); absent while E and ct are unset (R191, log 8). -/
def roomB (s : State) (g : Sector) : List Byte :=
  optB 2 (if s.established g then some (figB (clampInt 0 65535 (s.room g)).toNat) else none)

/-- The feed scheduler's figures (R140). -/
def feedB (s : State) (g : Sector) : List Byte :=
  figB (((s.sector g).ticket.map Ticket.number).getD 0) ++ figB (position g s.queue) ++ [(s.mixLine g).code] ++ roomB s g

/-- A trim result (R154). -/
def trimResultB (r : TrimResult) : List Byte :=
  [r.kind.code] ++ [r.code.code] ++ figB r.oldLen ++ figB r.newLen ++ optB 2 (r.diff.map sfigB) ++ longB r.minute

/-- The level trim unit's figures (R154). -/
def trimB (t : Trim) : List Byte :=
  sfigB ((t.drift.map Prod.fst).getD 0) ++ longB ((t.drift.map Prod.snd).getD 0) ++ boolB t.beyond ++ [t.request.code]
    ++ boolB t.underWay ++ optB 13 (t.result.map trimResultB) ++ optB 1 (t.outcome.map fun o => [o.code])

/-- Everything SECTOR STATUS carries, in the order of R186. -/
def sectorStatusB (s : State) (g : Sector) : List Byte :=
  sectorTableB s g ++ layerTableB s g ++ probeB (s.sector g).probe ++ paceB s g ++ groupB (s.sector g).group
    ++ feedB s g ++ trimB (s.sector g).trim

/-- SECTOR STATUS (R186). -/
def serveSectorStatus (sector : Nat) (s : State) : State × Reply :=
  match toSector sector with
  | none => refuse s .index
  | some g => (s, { status := .ok, body := sectorStatusB s g })

/-! ### DECK STATUS (R186) -/

/-- The supply record, with the lapse counter (R105, R118). -/
def supplyB (s : State) : List Byte :=
  [s.supply.state.code] ++ figB s.supply.cap ++ figB s.capacity ++ optB 2 (s.supply.pressure.map figB) ++ figB s.supply.lapse

/-- The arbiter status (R118). -/
def arbiterB (s : State) : List Byte :=
  supplyB s ++ figB s.numPressurizing ++ figB s.numStalled ++ figB s.numWaiting
    ++ listB (s.pressureOrder.map sectorB) ++ listB (s.stalledList.map sectorB)
    ++ listB (s.creepList.map fun e => sectorB e.sector ++ longB e.minute) ++ figB s.scanPtr ++ boolB s.loadPending

/-- The number of sectors in the survey record with a visit outcome (R154). -/
def State.outcomeCount (s : State) (o : VisitOutcome) : Nat :=
  (allSectors.filter fun g => (s.sector g).trim.outcome == some o).length

/-- The visit outcomes in the order of R151. -/
def allOutcomes : List VisitOutcome :=
  [.pending, .skipped, .blocked, .applied, .clamped, .rejected, .fault, .aborted]

/-- The survey state, the sector under visit, the visit-outcome counts (R154). -/
def surveyB (s : State) : List Byte :=
  [s.surveyState.code] ++ optB 1 (s.visit.map fun v => sectorB v.1) ++ (allOutcomes.map fun o => figB (s.outcomeCount o)).flatten

/-- Everything DECK STATUS carries, in the order of R186. -/
def deckStatusB (s : State) : List Byte :=
  [s.mode.code] ++ optB 1 (s.beforeHalt.map fun m => [m.code]) ++ listB (s.creepSet.map sectorB) ++ figB s.second
    ++ longB s.minute ++ figB s.rate ++ elevB s.goal ++ elevB s.plane ++ arbiterB s ++ surveyB s
    ++ figB s.alerts.length ++ boolB s.alertFull

/-- DECK STATUS (R186). -/
def serveDeckStatus (s : State) : State × Reply := (s, { status := .ok, body := deckStatusB s })

/-! ### READ ALERTS and ACK ALERTS (R189) -/

/-- READ ALERTS (R189). -/
def serveReadAlerts (index count : Nat) (s : State) : State × Reply :=
  if 15 < index then refuse s .index
  else
    let n := clampNat 1 8 count
    let held := figB s.alerts.length
    if index < s.alerts.length then
      (s, { status := okOr (decide (n ≠ count)), body := held ++ listB (((s.alerts.drop index).take n).map alertB) })
    else (s, { status := .none, body := held })

/-- ACK ALERTS (R188, R189). -/
def serveAckAlerts (count : Nat) (s : State) : State × Reply :=
  let removed := s.alerts.take (min count 16)
  let rest := s.alerts.drop (min count 16)
  ({ s with alerts := rest, alertFull := s.alertFull && removed.isEmpty },
    { status := okOr (decide (16 < count)),
      body := figB removed.length ++ figB rest.length ++ listB (removed.map ackedB) })

end Sys2Proof.Machine
end

