-- ==== Sys2Proof/Machine/Resets.lean ====
section
/-! DEFINITION. Power-on reset (R157 and each chapter's reset rule) and warm reset (R17, R40, R58, R83, R104, R105, R119, R142, R156, R169, R182, R187). -/

namespace Sys2Proof.Machine

/-- Power-on reset: every block in its power-on state; the commands still waiting outside are not the part's. -/
def powerOn (s : State) : State := { State.reset with pending := s.pending }

/-- A group is VENTING with a full vent window. -/
def ventGroup (v : Nat) (r : Group) : Group := { r with state := .venting, timer := some ⟨.vent, v⟩ }

/-- A group after a warm reset, by the state the reset found it in (R104). -/
def resetGroup (v : Nat) (r : Group) : Group :=
  match r.state with
  | .idle => r
  | .fault => r
  | .pressurizing => { ventGroup v r with isOpen := false, windows := 0, failed := false }
  | .stalled => { ventGroup v r with isOpen := false, windows := 0, failed := false }
  | .holding => ventGroup v r
  | .venting => ventGroup v r

/-- The reset closes the group's open stroke into the suspect margin (R17, R104). -/
def GroupState.closedByReset : GroupState → Bool
  | .pressurizing => true | .stalled => true
  | .idle => false | .holding => false | .venting => false | .fault => false

/-- A visit outcome after a warm reset: a visit not ended becomes ABORTED (R153, R156); `underVisit` marks the sector under visit. -/
def resetOutcome (underVisit : Bool) (o : Option VisitOutcome) : Option VisitOutcome :=
  if underVisit || o == some .pending then o.map fun _ => .aborted else o

/-- A sector's trim record after a warm reset (R144, R156). -/
def resetTrim (underVisit : Bool) (t : Trim) : Trim :=
  { t with request := .none, before := [], underWay := false, after := [], outcome := resetOutcome underVisit t.outcome }

/-- One sector's records after a warm reset: group and margin (R17, R104), counters (R83), trim (R156). -/
def resetSector (v : Nat) (underVisit : Bool) (x : SectorState) : SectorState :=
  { x with
    table := if x.group.state.closedByReset then { x.table with margin := x.group.latched.getD 0 } else x.table
    group := resetGroup v x.group
    pace := { x.pace with running := false, counter := 0, count := 0 }
    trim := resetTrim underVisit x.trim }

/-- The mode after a warm reset (R169). -/
def DeckMode.afterReset : DeckMode → DeckMode
  | .unset => .unset | .standby => .standby | .survey => .standby | .climb => .hold | .hold => .hold | .halt => .halt

/-- The sector is the one under visit. -/
def State.underVisit (s : State) (g : Sector) : Bool := (s.visit.map Prod.fst) == some g

/-- Every block's records after a warm reset, before the pacing unit derives its figures again: what a warm reset keeps is left as it is. -/
def resetRecords (s : State) : State :=
  { forEach allSectors (fun g s' => s'.modSector g (resetSector s.deck.vent (s.underVisit g))) s with
    mode := s.mode.afterReset
    supply := {}
    pressureOrder := []
    surveyReq := none
    surveyState := .none
    visit := none
    line := none
    waiting := []
    creepList := []
    alerts := [⟨.warmRestart, none, s.minute, 1⟩]
    alertFull := false
    consolePort := {}
    supplyPort := {}
    placingPort := {}
    due := {}
    passDue := false }

/-- SUSPECT_POSITION for each group whose stroke the reset closed, after WARM_RESTART (R17, R104), in ascending sector index: the model's choice (log 17). -/
def alertClosed (before s : State) : State :=
  forEach (allSectors.filter fun g => (before.groupState g).closedByReset)
    (fun g => enterAlert .suspectPosition (some g)) s

/-- The at-goal state is derived again from the state the reset leaves (R83). -/
def deriveGoal (s : State) : State :=
  forEach allSectors (fun g s' => s'.modPace g fun p => { p with atGoal := s.isAtGoal g }) s

/-- Warm reset: one step (log 6). The creep list is rebuilt (R83), and no grant pass is run (R169). -/
def warmReset (s : State) : State :=
  { raiseDemands (deriveGoal (alertClosed s (resetRecords s))) with passDue := false }

end Sys2Proof.Machine
end

