-- ==== Sys2Proof/Machine/Stations.lean ====
section
/-! DEFINITION. The requests of the supply port (R106, R118) and of the placing port (R126 to R136, R140). -/

namespace Sys2Proof.Machine

/-! ### SUPPLY STATE (R106) -/

/-- The demand: the groups PRESSURIZING, STALLED and waiting (R118). -/
def demandB (s : State) : List Byte := figB s.numPressurizing ++ figB s.numStalled ++ figB s.numWaiting

/-- The supply state a report names (11.4). -/
def toSupply : Nat → Option SupplyMode
  | 0 => some .notReady
  | 1 => some .ready
  | _ => none

/-- Steps 1 to 3 of R106, the pass of step 4 marked. -/
def takeReport (state : SupplyMode) (cap : Nat) (pressure : Option Nat) (s : State) : State :=
  let s1 := { s with supply := { state := state, cap := cap, pressure := pressure, lapse := 0, lapseRunning := true } }
  { stallTo s1.capacity s1 with passDue := true }

/-- The values taken, echoed with CLAMPED (R106; log 9). -/
def supplyEcho (clamped : Bool) (state : SupplyMode) (cap : Nat) (pressure : Option Nat) : List Byte :=
  if clamped then [state.code] ++ figB cap ++ optB 2 (pressure.map figB) else []

/-- SUPPLY STATE (R106). -/
def serveSupplyState (state capacity : Nat) (pressure : Option Nat) (s : State) : State × Reply :=
  match toSupply state with
  | none => refuse s .index
  | some m =>
    let cap := min capacity 8
    let press := pressure.map (min · 400)
    let clamped := decide (cap ≠ capacity ∨ press ≠ pressure)
    let s' := finish (takeReport m cap press s)
    (s', { status := okOr clamped,
           body := supplyEcho clamped m cap press ++ [s'.supply.state.code] ++ figB s'.supply.cap ++ demandB s' })

/-! ### REQUEST FEED (R126 to R129) -/

/-- Reasons of a NONE answer (R129). -/
inductive FeedReason where
  | queueEmpty | noRoom | noLineMatch
  deriving DecidableEq, Repr

/-- The value of a reason on the wire (R190). -/
def FeedReason.code : FeedReason → Byte
  | .queueEmpty => 0 | .noRoom => 1 | .noLineMatch => 2

/-- Why a walk of the queue issued no ticket (R129). -/
def State.feedReason (s : State) (line : FeedLine) : FeedReason :=
  if s.queue.isEmpty then .queueEmpty
  else if s.queue.all fun g => s.mixLine g != line then .noLineMatch
  else .noRoom

/-- A feed line REQUEST FEED may name (R126). -/
def toFeedLine : Nat → Option FeedLine
  | 0 => some .a
  | 1 => some .b
  | _ => none

/-- The ticket records of the sectors just ticketed. -/
def ticketsB (s : State) (gs : List Sector) : List Byte :=
  (gs.map fun g =>
    match (s.sector g).ticket with
    | some t => ticketB g t
    | none => []).flatten

/-- The walk of a REQUEST FEED that is taken, and its answer (R127, R129). -/
def feedFrom (line : FeedLine) (asked taken : Nat) (s : State) : State × Reply :=
  let s1 := if s.queue.isEmpty then buildSweep s else s
  let r := feedWalk line s1.queue taken s1
  if r.2.isEmpty then
    (s1, { status := .none, body := [byteOf taken, 0, (s1.feedReason line).code] })
  else
    (r.1, { status := okOr (decide (taken ≠ asked)),
            body := [byteOf taken, byteOf r.2.length] ++ ticketsB r.1 r.2 })

/-- REQUEST FEED (R126). A request with both refusals is answered MODE before INDEX: the model's choice (log 24). -/
def serveRequestFeed (line count : Nat) (s : State) : State × Reply :=
  if s.mode ≠ .standby ∧ s.mode ≠ .climb then refuse s .mode
  else
    match toFeedLine line with
    | none => refuse s .index
    | some l => feedFrom l count (clampNat 1 8 count) s

/-! ### ABANDON (R135) -/

/-- A ticket number and its sector. -/
def ticketSectorB (n : Nat) (g : Sector) : List Byte := be16 n ++ sectorB g

/-- What a ticket number names: its sector, what a placement commit takes from it, and whether it has expired (R132). -/
structure Named where
  number : Nat
  sector : Sector
  mix : MixClass
  target : Nat
  late : Bool
  deriving DecidableEq, Repr

/-- The ticket a number names: among the open tickets, then in the expired list; the number 0 names none (R132). -/
def State.named (s : State) (n : Nat) : Option Named :=
  if n = 0 then none
  else
    match s.findOpen n with
    | some (g, t) => some { number := n, sector := g, mix := t.mix, target := t.target, late := false }
    | none =>
      match s.findExpired n with
      | some e => some { number := n, sector := e.sector, mix := e.mix, target := e.target, late := true }
      | none => none

/-- The open ticket closes, or the expired entry leaves (R130, R138). -/
def dropNamed (t : Named) (s : State) : State :=
  if t.late then removeExpired t.number s else closeTicket t.sector s

/-- ABANDON (R135, R136). -/
def serveAbandon (n : Nat) (s : State) : State × Reply :=
  match s.named n with
  | none => refuse s .unknownTicket
  | some t =>
    (if t.late then dropNamed t s else toHead [t.sector] (dropNamed t s),
      { status := .ok, body := ticketSectorB n t.sector })

/-! ### PLACED (R132 to R134) -/

/-- LATE_PLACEMENT is entered for a late placement (R134). -/
def noteLate (t : Named) (s : State) : State := if t.late then enterAlert .latePlacement (some t.sector) s else s

/-- A placement commit refused STACK_FULL (R133, R134). -/
def placeRefused (t : Named) (s : State) : State × Reply :=
  let s1 := (leaveQueue t.sector (dropNamed t s)).modFlags t.sector fun f => { f with discrepant := true }
  (enterAlert .discrepant (some t.sector) (noteLate t s1),
    { status := .stackFull, body := ticketSectorB t.number t.sector })

/-- The alerts of a layer just placed: COLD_JOINT, then OVERFILL (R132). -/
def layerAlerts (g : Sector) (l : Layer) (s : State) : State :=
  let s1 := if l.flags.coldJoint then enterAlert .coldJoint (some g) s else s
  if l.flags.overfill then enterAlert .overfill (some g) s1 else s1

/-- What PLACED carries: number, sector, thickness taken, the layer's serial, base, top and flags (R132). -/
def placedB (t : Named) (thickness : Nat) (l : Layer) : List Byte :=
  ticketSectorB t.number t.sector ++ figB thickness ++ be16 l.serial ++ elevB l.base ++ elevB l.top
    ++ [l.flags.toByte l.batch.isSome]

/-- The placement commit of a ticket (R24, R132, R134). -/
def placeUnder (t : Named) (thickness : Nat) (batch : Option Nat) (s : State) : State × Reply :=
  if 12 ≤ (s.stack t.sector).length then placeRefused t s
  else
    let taken := clampNat 20 500 thickness
    let clamped := decide (taken ≠ thickness)
    let l := s.placementLayer t.sector t.number t.mix t.target taken clamped t.late batch
    let s1 := layerAlerts t.sector l (noteLate t (dropNamed t (joinLayer t.sector l s)))
    (finish { s1 with passDue := true },
      { status := if t.late then .acceptedLate else okOr clamped, body := placedB t taken l })

/-- PLACED (R132 to R134, R136). -/
def servePlaced (n thickness : Nat) (batch : Option Nat) (s : State) : State × Reply :=
  match s.named n with
  | none => refuse s .unknownTicket
  | some t => if thickness = 0 then serveAbandon n s else placeUnder t thickness batch s

/-! ### TICKET QUERY (R140) -/

/-- TICKET QUERY (R140): OPEN 0, EXPIRED 1, UNKNOWN 2. -/
def serveTicketQuery (n : Nat) (s : State) : State × Reply :=
  match s.findOpen n with
  | some (g, t) => (s, { status := .ok, body := 0 :: ticketB g t })
  | none =>
    match s.findExpired n with
    | some e => (s, { status := .ok, body := 1 :: expiredFieldsB e })
    | none => (s, { status := .ok, body := [2] })

end Sys2Proof.Machine
end

