-- ==== Sys2Proof/Machine/Tables.lean ====
section
/-! DEFINITION. The console's requests to the layer table (R32 to R37) and to the arbitration tables (R116, R117). -/

namespace Sys2Proof.Machine

/-! ### LAYER RESTORE (R33 to R35) -/

/-- The layer a LAYER RESTORE asks for (R33, R34). -/
def State.restoredLayer (s : State) (g : Sector) (mix : MixClass) (f : RestoreFields) : Layer :=
  let thickness := clampNat 20 500 f.thickness
  let top := f.base + 10 * (thickness : Int)
  { serial := (s.sector g).layers.nextSerial
    ticket := 0
    base := f.base
    top := top
    mix := mix
    placed := s.minute - f.age
    maturity := f.maturity
    flags :=
      { ready := decide ((s.mix mix).threshold ≤ f.maturity)
        late := f.flags.getLsbD 1
        coldJoint := f.flags.getLsbD 2
        overfill := f.flags.getLsbD 3 || decide (s.elev g - s.f10 < top)
        short := f.flags.getLsbD 4
        clamped := decide (thickness ≠ f.thickness) || decide (s.minute < f.age) }
    batch := f.batch }

/-- Rows 2 to 7 of R33. -/
def State.restoreRefusal (s : State) (g : Sector) (mix : MixClass) (l : Layer) : Option Status :=
  if s.mode ≠ .standby then some .mode
  else if !(s.enabled g && s.established g && (s.mix mix).written) then some .notSet
  else if (s.groupState g).inFlight then some .busy
  else if 12 ≤ (s.stack g).length then some .stackFull
  else if (¬(s.stack g).isEmpty ∧ l.base ≠ s.concreteTop g) ∨ s.elev g < l.top then some .index
  else if l.top ≤ s.bottom g ∨ (!l.flags.ready ∧ l.base + s.c10 < s.reachBottom g) then some .exposed
  else none

/-- What LAYER RESTORE echoes: serial, base, top, placed minute, flags (R34). -/
def restoreEcho (l : Layer) : List Byte :=
  be16 l.serial ++ elevB l.base ++ elevB l.top ++ longB l.placed ++ [l.flags.toByte l.batch.isSome]

/-- LAYER RESTORE (R33 to R35). -/
def serveLayerRestore (f : RestoreFields) (s : State) : State × Reply :=
  match toSector f.sector, toMix f.mix with
  | some g, some mix =>
    let l := s.restoredLayer g mix f
    match s.restoreRefusal g mix l with
    | some st => refuse s st
    | none =>
      (finish { joinLayer g l s with passDue := true },
        { status := okOr l.flags.clamped, body := restoreEcho l })
  | _, _ => refuse s .index

/-! ### The read cursor (R36, R37) -/

/-- SET LAYER CURSOR (R36). -/
def serveSetCursor (sector slot : Nat) (s : State) : State × Reply :=
  match toSector sector with
  | some g => if slot ≤ 11 then ({ s with cursorSector := g, cursorSlot := slot }, { status := .ok }) else refuse s .index
  | none => refuse s .index

/-- The cursor after the layer in a slot has been read (R37). -/
def advanceCursor (g : Sector) (p : Nat) (s : State) : State :=
  if p + 1 = (s.stack g).length then { s with cursorSector := g + 1, cursorSlot := 0 }
  else { s with cursorSector := g, cursorSlot := p + 1 }

/-- The layer READ LAYER returns: at the cursor, or in slot 0 of the first non-empty stack after it, the cursor's own sector last (R37). -/
def State.cursorTarget (s : State) : Option (Sector × Nat) :=
  if s.cursorSlot < (s.stack s.cursorSector).length then some (s.cursorSector, s.cursorSlot)
  else ((allSectors.map fun i => s.cursorSector + 1 + i).find? fun g => !(s.stack g).isEmpty).map fun g => (g, 0)

/-- READ LAYER (R37). -/
def serveReadLayer (s : State) : State × Reply :=
  match s.cursorTarget with
  | none => (s, { status := .none })
  | some (g, p) =>
    match (s.stack g)[p]? with
    | none => (s, { status := .none })
    | some l =>
      (advanceCursor g p s,
        { status := .ok, body := sectorB g ++ [byteOf p] ++ [byteOf (s.stack g).length] ++ layerB l })

/-! ### READ RELEASE LOG (R32) -/

/-- A page of a list: up to count members from index on. -/
def page {α : Type} (index count : Nat) (xs : List α) : List α := (xs.drop index).take count

/-- READ RELEASE LOG (R32). -/
def serveReadLog (index count : Nat) (s : State) : State × Reply :=
  if 31 < index then refuse s .index
  else
    let n := clampNat 1 8 count
    let held := figB s.releaseLog.length ++ longB s.releaseCount
    if index < s.releaseLog.length then
      (s, { status := okOr (decide (n ≠ count)), body := held ++ listB ((page index n s.releaseLog).map releaseB) })
    else (s, { status := .none, body := held })

/-! ### Arbitration tables (R116, R117) -/

/-- The table a list of 32 slots spells. -/
def toTable (slots : List (Option Sector)) : Vector (Option Sector) 32 := Vector.ofFn fun i => (slots[i.val]?).getD none

/-- WRITE ARB TABLE (R116). A bad entry is refused INDEX before the slots are searched for INCOMPLETE, an order R116 does not give: the model's choice (log 30). -/
def serveWriteTable (slots : List Nat) (s : State) : State × Reply :=
  match toSlots slots with
  | none => refuse s .index
  | some table =>
    if s.loadPending ∧ !s.holdsEnabled table then refuse s .incomplete
    else ({ s with shadow := toTable table }, { status := .ok })

/-- LOAD ARB TABLE (R117). -/
def serveLoadTable (s : State) : State × Reply :=
  if !s.holdsEnabled s.shadow.toList then refuse s .incomplete
  else (finish (checkLoad { s with loadPending := true }), { status := .ok })

/-- A slot of an arbitration table (11.4). -/
def slotB (x : Option Sector) : Byte :=
  match x with
  | some g => byteOf g.val
  | none => 0xFF

/-- The answer of READ ARB TABLE: the 32 slots, the scan pointer, load-pending (R116). -/
def tableB (s : State) (table : Vector (Option Sector) 32) : List Byte :=
  table.toList.map slotB ++ figB s.scanPtr ++ boolB s.loadPending

/-- READ ARB TABLE (R116). -/
def serveReadTable (which : Nat) (s : State) : State × Reply :=
  match which with
  | 0 => (s, { status := .ok, body := tableB s s.active })
  | 1 => (s, { status := .ok, body := tableB s s.shadow })
  | _ => refuse s .index

end Sys2Proof.Machine
end

