-- ==== Sys2Proof/Machine/Ports.lean ====
section
/-! DEFINITION. The station ports: reception of frames (R181), the request in service, the held request and OVERRUN (R182), the checks before the owning block (R183), and the owning block of each request (R184, R185). -/

namespace Sys2Proof.Machine

/-- One of the three ports. -/
def State.port (s : State) : PortId → Port
  | .console => s.consolePort
  | .supply => s.supplyPort
  | .placing => s.placingPort

/-- Change one of the three ports. -/
def State.setPort (s : State) (p : PortId) (x : Port) : State :=
  match p with
  | .console => { s with consolePort := x }
  | .supply => { s with supplyPort := x }
  | .placing => { s with placingPort := x }

/-- The owning block's checks and actions on a request (R184, R185): the state it leaves and the answer. -/
def serveRequest (r : Request) (s : State) : State × Reply :=
  match r with
  | .deckWrite f => serveDeckWrite f s
  | .sectorWrite i f => serveSectorWrite i f s
  | .mixWrite i f => serveMixWrite i f s
  | .sweepWrite f => serveSweepWrite f s
  | .profileRead b i => serveProfileRead b i s
  | .setRate v => serveSetRate v s
  | .setGoal v => serveSetGoal v s
  | .setPlane v => serveSetPlane v s
  | .setCreepSet gs => serveSetCreepSet gs s
  | .establish g e => serveEstablish g e s
  | .adjust g c => serveAdjust g c s
  | .clearFlags g f => serveClearFlags g f s
  | .clearFault g => serveClearFault g s
  | .start => serveStart s
  | .hold => serveHold s
  | .park => servePark s
  | .stop => serveStop s
  | .resume => serveResume s
  | .restart => serveRestart s
  | .survey => serveSurveyStart s
  | .endSurvey => serveEndSurvey s
  | .trimSector g => serveTrimSector g s
  | .layerRestore f => serveLayerRestore f s
  | .setLayerCursor g p => serveSetCursor g p s
  | .readLayer => serveReadLayer s
  | .readReleaseLog i n => serveReadLog i n s
  | .writeArbTable xs => serveWriteTable xs s
  | .loadArbTable => serveLoadTable s
  | .readArbTable t => serveReadTable t s
  | .readFeed part g => serveReadFeed part g s
  | .sectorStatus g => serveSectorStatus g s
  | .deckStatus => serveDeckStatus s
  | .readAlerts i n => serveReadAlerts i n s
  | .ackAlerts n => serveAckAlerts n s
  | .supplyState st k p => serveSupplyState st k p s
  | .requestFeed l n => serveRequestFeed l n s
  | .placed t k b => servePlaced t k b s
  | .abandon t => serveAbandon t s
  | .ticketQuery t => serveTicketQuery t s

/-- The checks of R183, in order, then the owning block. A mode command refused ROLE or LENGTH carries the status code and the port flags alone, though R157 says that each answer carries the mode and the mode before HALT: the model's choice (log 31). -/
def checkRequest (p : PortId) (f : Frame) (s : State) : State × Reply :=
  match kindOf f.kind with
  | none => refuse s .unknown
  | some k =>
    if roleOf k ≠ p then refuse s .role
    else
      match parsePayload k f.payload with
      | none => refuse s .length
      | some r => serveRequest r s

/-- The port takes a frame as its request in service, and begins its answer, which carries OVERRUN and clears it (R182). -/
def takeFrame (p : PortId) (f : Frame) (s : State) : State :=
  let r := checkRequest p f s
  let x := r.1.port p
  r.1.setPort p { x with service := some ⟨f.kind, r.2, x.overrun⟩, overrun := false }

/-- A complete frame that passed R181 arrives: taken while the port is free, held while one is in service, dropped with OVERRUN while one is held as well (R182). -/
def deliver (p : PortId) (f : Frame) (s : State) : State :=
  let x := s.port p
  match x.service, x.held with
  | none, _ => takeFrame p f s
  | some _, none => s.setPort p { x with held := some f }
  | some _, some _ => s.setPort p { x with overrun := true }

/-- The frame of an answer, as the port sends it (R181, R182, R190). The answer kind is the request kind plus 0x80; for an unknown kind at or above 0x80 the sum wraps modulo 256, the model's choice (log 25). -/
def answerFrame (v : Service) : List Byte :=
  frameBytes (v.kind + 0x80) (v.reply.status.code :: (if v.overrun then 1 else 0) :: v.reply.body)

/-- The answer being sent is that of a RESTART taken (R169). -/
def isRestart (p : PortId) (v : Service) : Bool :=
  p == .console && v.kind == kindByte .restart && v.reply.status == .ok

/-- The last byte of the answer in service has been sent: a RESTART brings the warm reset; otherwise a held request is taken (R169, R182). -/
def answerDone (p : PortId) (s : State) : State :=
  let x := s.port p
  match x.service with
  | none => s
  | some v =>
    if isRestart p v then warmReset s
    else
      let s1 := s.setPort p { x with service := none, held := none }
      match x.held with
      | some f => takeFrame p f s1
      | none => s1

/-- The port returns to hunting; a frame in reception is discarded (R181). -/
def toHunting (p : PortId) (s : State) : State := s.setPort p { s.port p with reception := .hunting }

/-- A byte arrives while the port is inside a frame (R181). -/
def frameByte (p : PortId) (bytes : List Byte) (s : State) : State :=
  match checkFrame bytes with
  | .incomplete => s.setPort p { s.port p with reception := .receiving bytes }
  | .bad => toHunting p s
  | .good kind payload => deliver p ⟨kind, payload⟩ (toHunting p s)

/-- A byte arrives on a port (R181): while hunting, 0xA5 begins a frame and every other byte is discarded. -/
def receiveByte (p : PortId) (b : Byte) (s : State) : State :=
  match (s.port p).reception with
  | .hunting => if b = 0xA5#8 then s.setPort p { s.port p with reception := .receiving [] } else s
  | .receiving bytes => frameByte p (bytes ++ [b]) s

/-- The last byte of a frame of request kind k arrives on a port: the port is hunting again, and the frame is delivered (R181, R182; log 1). -/
def request (p : PortId) (k : ReqKind) (payload : List Byte) (s : State) : State :=
  deliver p ⟨kindByte k, payload⟩ (toHunting p s)

end Sys2Proof.Machine
end

