-- ==== Sys2Proof/Machine/ExecRequests.lean ====
section
/-! DEFINITION. The meanings of the request commands: a frame of that kind, its CRC right, arrives on a port (R181 to R183). What the last clock event has made due is completed first (log 2). -/

namespace Sys2Proof.Machine

/-- The outcome of a meaning. -/
abbrev Result := Host.Outcome State Fault Refusal

/-- A request arrives once everything due has been taken. -/
def arrive (p : PortId) (k : ReqKind) (payload : List Byte) (s : State) : State := request p k payload (settleDue s)

/-- RESTART (R169). -/
def execRestart (port : PortId) (payload : List Byte) (s : State) : Result := .next (arrive port .restart payload s)

/-- PROFILE READ (R179). -/
def execProfileRead (port : PortId) (payload : List Byte) (s : State) : Result := .next (arrive port .profileRead payload s)

/-- SET RATE (R72, R178). -/
def execSetRate (port : PortId) (payload : List Byte) (s : State) : Result := .next (arrive port .setRate payload s)

/-- SET GOAL (R74, R75, R178). -/
def execSetGoal (port : PortId) (payload : List Byte) (s : State) : Result := .next (arrive port .setGoal payload s)

/-- SET PLANE (R178). -/
def execSetPlane (port : PortId) (payload : List Byte) (s : State) : Result := .next (arrive port .setPlane payload s)

/-- SET CREEP SET (R167). -/
def execSetCreepSet (port : PortId) (payload : List Byte) (s : State) : Result := .next (arrive port .setCreepSet payload s)

/-- ESTABLISH (R12, R13). -/
def execEstablish (port : PortId) (payload : List Byte) (s : State) : Result := .next (arrive port .establish payload s)

/-- ADJUST (R11). -/
def execAdjust (port : PortId) (payload : List Byte) (s : State) : Result := .next (arrive port .adjust payload s)

/-- CLEAR FLAGS (R15). -/
def execClearFlags (port : PortId) (payload : List Byte) (s : State) : Result := .next (arrive port .clearFlags payload s)

/-- CLEAR FAULT (R100). -/
def execClearFault (port : PortId) (payload : List Byte) (s : State) : Result := .next (arrive port .clearFault payload s)

/-- START (R160). -/
def execStart (port : PortId) (payload : List Byte) (s : State) : Result := .next (arrive port .start payload s)

/-- HOLD (R161). -/
def execHold (port : PortId) (payload : List Byte) (s : State) : Result := .next (arrive port .hold payload s)

/-- PARK (R163). -/
def execPark (port : PortId) (payload : List Byte) (s : State) : Result := .next (arrive port .park payload s)

/-- STOP (R164). -/
def execStop (port : PortId) (payload : List Byte) (s : State) : Result := .next (arrive port .stop payload s)

/-- RESUME (R165). -/
def execResume (port : PortId) (payload : List Byte) (s : State) : Result := .next (arrive port .resume payload s)

/-- SURVEY (R151). -/
def execSurvey (port : PortId) (payload : List Byte) (s : State) : Result := .next (arrive port .survey payload s)

/-- END SURVEY (R153). -/
def execEndSurvey (port : PortId) (payload : List Byte) (s : State) : Result := .next (arrive port .endSurvey payload s)

/-- TRIM SECTOR (R148). -/
def execTrimSector (port : PortId) (payload : List Byte) (s : State) : Result := .next (arrive port .trimSector payload s)

/-- LAYER RESTORE (R33 to R35). -/
def execLayerRestore (port : PortId) (payload : List Byte) (s : State) : Result := .next (arrive port .layerRestore payload s)

/-- SET LAYER CURSOR (R36). -/
def execSetLayerCursor (port : PortId) (payload : List Byte) (s : State) : Result := .next (arrive port .setLayerCursor payload s)

/-- READ LAYER (R37). -/
def execReadLayer (port : PortId) (payload : List Byte) (s : State) : Result := .next (arrive port .readLayer payload s)

/-- READ RELEASE LOG (R32). -/
def execReadReleaseLog (port : PortId) (payload : List Byte) (s : State) : Result := .next (arrive port .readReleaseLog payload s)

/-- WRITE ARB TABLE (R116). -/
def execWriteArbTable (port : PortId) (payload : List Byte) (s : State) : Result := .next (arrive port .writeArbTable payload s)

/-- LOAD ARB TABLE (R117). -/
def execLoadArbTable (port : PortId) (payload : List Byte) (s : State) : Result := .next (arrive port .loadArbTable payload s)

/-- READ ARB TABLE (R116). -/
def execReadArbTable (port : PortId) (payload : List Byte) (s : State) : Result := .next (arrive port .readArbTable payload s)

/-- READ FEED (R140). -/
def execReadFeed (port : PortId) (payload : List Byte) (s : State) : Result := .next (arrive port .readFeed payload s)

/-- SECTOR STATUS (R186). -/
def execSectorStatus (port : PortId) (payload : List Byte) (s : State) : Result := .next (arrive port .sectorStatus payload s)

/-- DECK STATUS (R186). -/
def execDeckStatus (port : PortId) (payload : List Byte) (s : State) : Result := .next (arrive port .deckStatus payload s)

/-- READ ALERTS (R189). -/
def execReadAlerts (port : PortId) (payload : List Byte) (s : State) : Result := .next (arrive port .readAlerts payload s)

/-- ACK ALERTS (R189). -/
def execAckAlerts (port : PortId) (payload : List Byte) (s : State) : Result := .next (arrive port .ackAlerts payload s)

/-- SUPPLY STATE (R106). -/
def execSupplyState (port : PortId) (payload : List Byte) (s : State) : Result := .next (arrive port .supplyState payload s)

/-- REQUEST FEED (R126 to R129). -/
def execRequestFeed (port : PortId) (payload : List Byte) (s : State) : Result := .next (arrive port .requestFeed payload s)

/-- PLACED (R132 to R134). -/
def execPlaced (port : PortId) (payload : List Byte) (s : State) : Result := .next (arrive port .placed payload s)

/-- ABANDON (R135). -/
def execAbandon (port : PortId) (payload : List Byte) (s : State) : Result := .next (arrive port .abandon payload s)

/-- TICKET QUERY (R140). -/
def execTicketQuery (port : PortId) (payload : List Byte) (s : State) : Result := .next (arrive port .ticketQuery payload s)

/-- PROFILE WRITE of the DECK block (R170 to R173); the block byte is 0 (11.4). -/
def execDeckWrite (port : PortId) (index : Byte) (fields : List Byte) (s : State) : Result :=
  .next (arrive port .profileWrite (0 :: index :: fields) s)

/-- PROFILE WRITE of a SECTOR block (R170, R174, R175); the block byte is 1 (11.4). -/
def execSectorWrite (port : PortId) (index : Byte) (fields : List Byte) (s : State) : Result :=
  .next (arrive port .profileWrite (1 :: index :: fields) s)

/-- PROFILE WRITE of a MIX block (R170, R176); the block byte is 2 (11.4). -/
def execMixWrite (port : PortId) (index : Byte) (fields : List Byte) (s : State) : Result :=
  .next (arrive port .profileWrite (2 :: index :: fields) s)

/-- PROFILE WRITE of the SWEEP block (R170, R177); the block byte is 3 (11.4). -/
def execSweepWrite (port : PortId) (index : Byte) (fields : List Byte) (s : State) : Result :=
  .next (arrive port .profileWrite (3 :: index :: fields) s)

end Sys2Proof.Machine
end

