-- ==== Sys2Proof/Machine/ExecEvents.lean ====
section
/-! DEFINITION. The meanings of the resets, of the other port events, of the switch events, the timer expiries, the clock events and the sensor line's answers. What the last clock event has made due is completed before any of them but the due steps themselves (log 2). -/

namespace Sys2Proof.Machine

/-- A group timer expires, if that timer runs and its time has run out (R84, log 3). -/
def expireIf (g : Sector) (k : TimerKind) (event : State → State) (s : State) : State :=
  if (s.sector g).group.timer = some ⟨k, 0⟩ then event s else s

/-- Power-on reset (R157). -/
def execPowerOnReset (s : State) : Result := .next (powerOn s)

/-- Warm reset by the RESET input (R169). -/
def execWarmReset (s : State) : Result := .next (warmReset (settleDue s))

/-- A complete frame that passes R181, of any kind, arrives: taken, held, or dropped with OVERRUN (R182). -/
def execRequestHeld (port : PortId) (kind : Byte) (payload : List Byte) (s : State) : Result := .next (deliver port ⟨kind, payload⟩ (toHunting port (settleDue s)))

/-- A complete frame of a kind that is not in the catalogue arrives (R183 row 1). -/
def execUnknownRequest (port : PortId) (kind : Byte) (payload : List Byte) (s : State) : Result := .next (deliver port ⟨kind, payload⟩ (toHunting port (settleDue s)))

/-- The last byte of the answer in service has been sent (R169, R182). -/
def execAnswerSent (port : PortId) (s : State) : Result := .next (answerDone port (settleDue s))

/-- The bytes received after a start byte are these: a length byte above 250 or a wrong CRC discards the frame (R181). -/
def execFrameDiscarded (port : PortId) (bytes : List Byte) (s : State) : Result := .next (frameByte port bytes (settleDue s))

/-- More than 0.05 s passed between two bytes of a frame: it is discarded (R181). -/
def execFrameByteTimeout (port : PortId) (s : State) : Result := .next (toHunting port (settleDue s))

/-- A byte arrives on a port; while hunting, 0xA5 begins a frame (R181). -/
def execStartByte (port : PortId) (byte : Byte) (s : State) : Result := .next (receiveByte port byte (settleDue s))

/-- A switch input takes a level (R86). -/
def execSwitchInputChange (group : Sector) (switch : SwitchId) (level : Bool) (s : State) : Result := .next (inputChange group switch level (settleDue s))

/-- The first debounced state of a switch after power-on is taken (R103). -/
def execSwitchFirstState (group : Sector) (switch : SwitchId) (level : Bool) (s : State) : Result := .next (firstState group switch level (settleDue s))

/-- A switch input under timing returns to its debounced level (R86). -/
def execInputReturnsToDebouncedState (group : Sector) (switch : SwitchId) (s : State) : Result := .next (inputReturn group switch (settleDue s))

/-- The debounced stroke-end switch turns on (R87, R88, R90, R93). -/
def execStrokeEndTaken (group : Sector) (s : State) : Result := .next (finish (switchChange group .strokeEnd true (strokeEndEvent group) (settleDue s)))

/-- The debounced stroke-end switch turns off (R88, R96). -/
def execStrokeEndLost (group : Sector) (s : State) : Result := .next (finish (switchChange group .strokeEnd false id (settleDue s)))

/-- The debounced retracted switch turns on (R87, R88, R94). -/
def execRetractedTaken (group : Sector) (s : State) : Result := .next (finish (switchChange group .retracted true (retractedEvent group) (settleDue s)))

/-- The debounced retracted switch turns off (R88, R96). -/
def execRetractedLost (group : Sector) (s : State) : Result := .next (finish (switchChange group .retracted false (retractedLostEvent group) (settleDue s)))

/-- The pressurize window of a group expires (R92). -/
def execPressurizeWindowExpiry (group : Sector) (s : State) : Result := .next (finish (expireIf group .window (windowExpiry group) (settleDue s)))

/-- The settle time of a group expires (R93). -/
def execSettleTimeExpiry (group : Sector) (s : State) : Result := .next (finish (expireIf group .settle (settleExpiry group) (settleDue s)))

/-- The vent window of a group expires (R95). -/
def execVentWindowExpiry (group : Sector) (s : State) : Result := .next (finish (expireIf group .vent (ventExpiry group) (settleDue s)))

/-- A second event (R41, R42). -/
def execSecondEvent (s : State) : Result := .next (clockEvent false s)

/-- A minute event (R41, R42). -/
def execMinuteEvent (s : State) : Result := .next (clockEvent true s)

/-- The pace counters that have reached 0 (R70). -/
def execPaceCounterExpiry (s : State) : Result := .next (finishDue (takePace s))

/-- The creep demands of the dwell counters that have reached the limit (R77). -/
def execDwellLimitReached (s : State) : Result := .next (finishDue (takeDwell s))

/-- BOND_RISK of the dwell counters that have reached twice the limit (R79). -/
def execBondRisk (s : State) : Result := .next (finishDue (takeBond s))

/-- The supply lapse (R107). -/
def execSupplyLapse (s : State) : Result := .next (finishDue (takeLapse s))

/-- The open tickets at their deadline expire (R137). -/
def execTicketExpiry (s : State) : Result := .next (finishDue (takeExpiry s))

/-- The expired entries that have aged out leave (R138). -/
def execExpiredEntryAging (s : State) : Result := .next (finishDue (takeAging s))

/-- A probe answer arrives (R43, R44). -/
def execProbeAnswer (halfDegrees : Int) (corrupt : Bool) (s : State) : Result := .next (finish (probeAnswered halfDegrees corrupt (settleDue s)))

/-- A level receiver answer arrives (R43, R143). -/
def execReceiverAnswer (tenths : BitVec 16) (corrupt : Bool) (s : State) : Result := .next (finish (receiverAnswered tenths.toNat corrupt (settleDue s)))

/-- 0.1 s has passed without an answer (R43). -/
def execSensorTryTimeout (s : State) : Result := .next (finish (tryTimedOut (settleDue s)))

end Sys2Proof.Machine
end

