-- ==== Sys2Proof/Machine/Dispatch.lean ====
section
/-! DEFINITION. exec: one arm per command, each one direct call of its meaning. -/

namespace Sys2Proof.Machine

/-- A command's effect on everything but the queue. -/
def exec (i : Instr) (s : State) : Host.Outcome State Fault Refusal :=
  match i with
  | .powerOnReset => Sys2Proof.Machine.execPowerOnReset s
  | .warmReset => Sys2Proof.Machine.execWarmReset s
  | .restart p d => Sys2Proof.Machine.execRestart p d s
  | .requestHeld p k d => Sys2Proof.Machine.execRequestHeld p k d s
  | .answerSent p => Sys2Proof.Machine.execAnswerSent p s
  | .frameDiscarded p d => Sys2Proof.Machine.execFrameDiscarded p d s
  | .frameByteTimeout p => Sys2Proof.Machine.execFrameByteTimeout p s
  | .unknownRequest p k d => Sys2Proof.Machine.execUnknownRequest p k d s
  | .deckWrite p n d => Sys2Proof.Machine.execDeckWrite p n d s
  | .sectorWrite p n d => Sys2Proof.Machine.execSectorWrite p n d s
  | .mixWrite p n d => Sys2Proof.Machine.execMixWrite p n d s
  | .sweepWrite p n d => Sys2Proof.Machine.execSweepWrite p n d s
  | .profileRead p d => Sys2Proof.Machine.execProfileRead p d s
  | .setRate p d => Sys2Proof.Machine.execSetRate p d s
  | .setGoal p d => Sys2Proof.Machine.execSetGoal p d s
  | .setPlane p d => Sys2Proof.Machine.execSetPlane p d s
  | .setCreepSet p d => Sys2Proof.Machine.execSetCreepSet p d s
  | .establish p d => Sys2Proof.Machine.execEstablish p d s
  | .adjust p d => Sys2Proof.Machine.execAdjust p d s
  | .clearFlags p d => Sys2Proof.Machine.execClearFlags p d s
  | .clearFault p d => Sys2Proof.Machine.execClearFault p d s
  | .start p d => Sys2Proof.Machine.execStart p d s
  | .hold p d => Sys2Proof.Machine.execHold p d s
  | .park p d => Sys2Proof.Machine.execPark p d s
  | .stop p d => Sys2Proof.Machine.execStop p d s
  | .resume p d => Sys2Proof.Machine.execResume p d s
  | .survey p d => Sys2Proof.Machine.execSurvey p d s
  | .endSurvey p d => Sys2Proof.Machine.execEndSurvey p d s
  | .trimSector p d => Sys2Proof.Machine.execTrimSector p d s
  | .layerRestore p d => Sys2Proof.Machine.execLayerRestore p d s
  | .setLayerCursor p d => Sys2Proof.Machine.execSetLayerCursor p d s
  | .readLayer p d => Sys2Proof.Machine.execReadLayer p d s
  | .readReleaseLog p d => Sys2Proof.Machine.execReadReleaseLog p d s
  | .writeArbTable p d => Sys2Proof.Machine.execWriteArbTable p d s
  | .loadArbTable p d => Sys2Proof.Machine.execLoadArbTable p d s
  | .readArbTable p d => Sys2Proof.Machine.execReadArbTable p d s
  | .readFeed p d => Sys2Proof.Machine.execReadFeed p d s
  | .sectorStatus p d => Sys2Proof.Machine.execSectorStatus p d s
  | .deckStatus p d => Sys2Proof.Machine.execDeckStatus p d s
  | .readAlerts p d => Sys2Proof.Machine.execReadAlerts p d s
  | .ackAlerts p d => Sys2Proof.Machine.execAckAlerts p d s
  | .supplyState p d => Sys2Proof.Machine.execSupplyState p d s
  | .requestFeed p d => Sys2Proof.Machine.execRequestFeed p d s
  | .placed p d => Sys2Proof.Machine.execPlaced p d s
  | .abandon p d => Sys2Proof.Machine.execAbandon p d s
  | .ticketQuery p d => Sys2Proof.Machine.execTicketQuery p d s
  | .switchInputChange g w l => Sys2Proof.Machine.execSwitchInputChange g w l s
  | .switchFirstState g w l => Sys2Proof.Machine.execSwitchFirstState g w l s
  | .strokeEndTaken g => Sys2Proof.Machine.execStrokeEndTaken g s
  | .strokeEndLost g => Sys2Proof.Machine.execStrokeEndLost g s
  | .retractedTaken g => Sys2Proof.Machine.execRetractedTaken g s
  | .retractedLost g => Sys2Proof.Machine.execRetractedLost g s
  | .pressurizeWindowExpiry g => Sys2Proof.Machine.execPressurizeWindowExpiry g s
  | .settleTimeExpiry g => Sys2Proof.Machine.execSettleTimeExpiry g s
  | .ventWindowExpiry g => Sys2Proof.Machine.execVentWindowExpiry g s
  | .secondEvent => Sys2Proof.Machine.execSecondEvent s
  | .minuteEvent => Sys2Proof.Machine.execMinuteEvent s
  | .paceCounterExpiry => Sys2Proof.Machine.execPaceCounterExpiry s
  | .dwellLimitReached => Sys2Proof.Machine.execDwellLimitReached s
  | .bondRisk => Sys2Proof.Machine.execBondRisk s
  | .supplyLapse => Sys2Proof.Machine.execSupplyLapse s
  | .probeAnswer h c => Sys2Proof.Machine.execProbeAnswer h c s
  | .receiverAnswer t c => Sys2Proof.Machine.execReceiverAnswer t c s
  | .sensorTryTimeout => Sys2Proof.Machine.execSensorTryTimeout s
  | .ticketExpiry => Sys2Proof.Machine.execTicketExpiry s
  | .expiredEntryAging => Sys2Proof.Machine.execExpiredEntryAging s
  | .startByte p b => Sys2Proof.Machine.execStartByte p b s
  | .inputReturnsToDebouncedState g w => Sys2Proof.Machine.execInputReturnsToDebouncedState g w s

end Sys2Proof.Machine
end

