-- ==== Sys2Proof/Safety.lean ====
section
/-! DEFINITION. The terms claims are stated in: when a command finds the part at rest, what an answer leaves at a port, which parts of the state a command leaves alone, what it is to enter an alert, to make the completeness test, to end a visit, to raise demands and to release layers, and the laws the rules state for the whole deck (R5, R8, R9, R20, R21, R25, R52, R65, R69, R71, R108, R123, R131, R187). -/

namespace Sys2Proof.Machine

/-! ### At rest -/

/-- Nothing of the last clock event is still due, and no grant pass is owed (log 2, log 7). -/
abbrev Quiet (s : State) : Prop := s.due = {} ∧ s.passDue = false

/-- The port has no request in service (R182). -/
abbrev PortFree (p : PortId) (s : State) : Prop := (s.port p).service = none

/-- The part is at rest and the port is free: a frame that arrives there is taken at once (R182). -/
abbrev Rest (p : PortId) (s : State) : Prop := Quiet s ∧ PortFree p s

/-- No grant pass grants anything now: the supply is not READY (R111). -/
abbrev NoSupply (s : State) : Prop := s.supply.state ≠ .ready

/-! ### Answers -/

/-- The port once it sends an answer: hunting, the request in service, OVERRUN shown and cleared (R182). -/
def answering (x : Port) (k : ReqKind) (r : Reply) : Port :=
  { reception := .hunting, service := some ⟨kindByte k, r, x.overrun⟩, held := x.held, overrun := false }

/-- s with an answer to a request of kind k being sent on a port, nothing else changed. -/
def answer (p : PortId) (k : ReqKind) (r : Reply) (s : State) : State := s.setPort p (answering (s.port p) k r)

/-- t sends that answer on port p, and its other ports are those of s. -/
abbrev Answers (p : PortId) (k : ReqKind) (r : Reply) (s t : State) : Prop :=
  t.port p = answering (s.port p) k r ∧ ∀ q, q ≠ p → t.port q = s.port q

/-- A run of bytes on a port, each received in turn (START_BYTE). -/
def bytesOn (p : PortId) : List Byte → State → Host.Outcome State Fault Refusal
  | [], s => .next s
  | b :: rest, s =>
    match exec (.startByte p b) s with
    | .next t => bytesOn p rest t
    | .fault r => .fault r
    | .refused r => .refused r

/-! ### What a command leaves alone -/

/-- The clock, the profile but its SECTOR blocks, and the run parameters but the creep set. -/
def State.settings (s : State) :=
  (s.second, s.minute, s.deck, s.deckWritten, s.mixes, s.sweep, s.rate, s.goal, s.plane)

/-- The shadow table, the release log and its count, the read cursor. -/
def State.tables (s : State) := (s.shadow, s.releaseLog, s.releaseCount, s.cursorSector, s.cursorSlot)

/-- The feed scheduler's deck-wide part. -/
def State.feed (s : State) := (s.queue, s.expired, s.sweepCount, s.lastSweep, s.nextTicket)

/-- The three ports. -/
def State.ports (s : State) := (s.consolePort, s.supplyPort, s.placingPort)

/-- A sector's records of the sector table, the layer table, the probe and the open ticket. -/
def SectorState.held (x : SectorState) := (x.table, x.layers, x.probe, x.ticket)

/-! ### Alerts, the completeness test and the end of a visit -/

/-- Over s and t an alert of kind k for sector g has been entered (R187): t holds it, with a count that has risen, or stands at 255, where s held it already; or s did not hold it, the list is full and ALERT_FULL is set. -/
def Entered (k : AlertKind) (g : Option Sector) (s t : State) : Prop :=
  (∃ a ∈ t.alerts, a.kind = k ∧ a.sector = g ∧ ∀ b ∈ s.alerts, b.kind = k → b.sector = g → a.count = 255 ∨ b.count < a.count)
    ∨ ((∀ b ∈ s.alerts, ¬(b.kind = k ∧ b.sector = g)) ∧ t.alertFull = true ∧ 16 ≤ t.alerts.length)

/-- The profile is complete and every enabled sector is established (R158). -/
def ProfileReady (s : State) : Prop :=
  s.deckWritten = true ∧ s.sweep.written = true ∧ (∃ g, s.enabled g = true)
    ∧ ∀ g, s.enabled g = true →
        (s.sector g).table.written = true ∧ (s.mix (s.sector g).table.mix).written = true ∧ s.established g = true

/-- The mode the completeness test leaves after a profile write, which is taken in UNSET and STANDBY alone (R158, R170). -/
def ModeTested (t : State) : Prop := (ProfileReady t → t.mode = .standby) ∧ (¬ProfileReady t → t.mode = .unset)

/-- Over s and t the visit of g has ended with outcome o, while the survey ran or was ending (R152, R153). A running survey goes on to the first PENDING sector in index order that is neither in FAULT nor SUSPECT, SKIPPED those passed over, and takes its before-readings; with no such sector the deck is in STANDBY with SURVEY_DONE entered. An ending survey leaves for STANDBY and enters no SURVEY_DONE. -/
def VisitEnds (g : Sector) (o : VisitOutcome) (s t : State) : Prop :=
  let awaits := fun h : Sector => h ≠ g ∧ (s.sector h).trim.outcome = some .pending
  let passed := fun h : Sector => s.groupState h = .fault ∨ s.suspect h = true
  let done := t.mode = .standby ∧ t.surveyState = .none ∧ t.visit = none
  (t.sector g).trim.outcome = some o ∧ t.surveyReq = none
    ∧ (s.surveyState = .running →
        (∀ h, awaits h → ¬passed h → (∀ k, k < h → awaits k → passed k) →
          t.mode = s.mode ∧ t.surveyState = .running ∧ t.visit = some (h, .reading) ∧ t.tryUnderWay .before h = true
            ∧ ∀ k, k ≠ g → (t.sector k).trim.outcome =
                if awaits k ∧ k < h then some .skipped else (s.sector k).trim.outcome)
        ∧ ((∀ h, awaits h → passed h) →
          done ∧ Entered .surveyDone none s t
            ∧ ∀ k, k ≠ g → (t.sector k).trim.outcome = if awaits k then some .skipped else (s.sector k).trim.outcome))
    ∧ (s.surveyState = .ending →
        done ∧ holdsAlert .surveyDone none t.alerts = holdsAlert .surveyDone none s.alerts
          ∧ ∀ k, k ≠ g → (t.sector k).trim.outcome = (s.sector k).trim.outcome)

/-! ### Demands and releases -/

/-- The creep list of t is old with the demands that come to hold behind it (R77): one, with the deck minute, for each enabled sector with a layer whose dwell counter is at the limit, that the mode permits and old does not hold, in descending order of dwell counter, equal counters in ascending index. -/
def DemandsJoin (old : List CreepEntry) (permits : Sector → Prop) (s t : State) : Prop :=
  ∃ new, t.creepList = old ++ new
    ∧ (∀ g, (∃ e ∈ new, e.sector = g) ↔
        s.enabled g = true ∧ s.stack g ≠ [] ∧ s.deck.dwell ≤ (s.sector g).pace.dwell ∧ (∀ e ∈ old, e.sector ≠ g) ∧ permits g)
    ∧ (∀ e ∈ new, e.minute = s.minute)
    ∧ new.Pairwise fun a b => (s.sector b.sector).pace.dwell < (s.sector a.sector).pace.dwell
        ∨ ((s.sector b.sector).pace.dwell = (s.sector a.sector).pace.dwell ∧ a.sector < b.sector)

/-- The release log of t is that of s with a record of each layer of gone, released from sector g lowest first, the newest record at the head and 32 kept (R30, R31). -/
def Released (g : Sector) (gone : List Layer) (s t : State) : Prop :=
  t.releaseLog = ((gone.map fun l : Layer =>
      ({ sector := g, serial := l.serial, ticket := l.ticket, mix := l.mix, flags := l.flags, exitMinute := s.minute,
         maturity := l.maturity } : ReleaseRec)).reverse ++ s.releaseLog).take 32
    ∧ t.releaseCount = (s.releaseCount + gone.length) % 4294967296

/-! ### Laws -/

/-- Each layer's base is the top of the layer beneath it. -/
def contiguous : List Layer → Bool
  | a :: b :: rest => decide (a.top = b.base) && contiguous (b :: rest)
  | _ => true

/-- The law of R20, with the capacity of a stack: at most 12 layers, contiguous, and the concrete top is the top of the topmost layer. -/
def layerLaw (l : LayerTable) : Bool :=
  decide (l.stack.length ≤ 12) && contiguous l.stack
    && (match l.stack.getLast? with
      | some x => l.top == some x.top
      | none => true)

/-- The law of R20 in every sector. -/
def StackLaw (s : State) : Prop := ∀ g, layerLaw (s.sector g).layers = true

/-- The law of R52, and that of R21 with what it rests on: a layer has a thickness, a layer that is not READY is below the threshold in force, no maturity is above 65 535, and the form bottom of an established sector is never above its concrete top. -/
def ConcreteLaw (s : State) : Prop := ∀ g,
  (∀ l ∈ s.stack g, l.base < l.top ∧ l.maturity ≤ 65535
    ∧ (l.flags.ready = false → l.maturity < (s.mix l.mix).threshold))
  ∧ (s.established g = true → (s.sector g).layers.top.isSome = true ∧ s.bottom g ≤ s.concreteTop g)

/-- The exposure law of R25 is broken in a sector, said of the reach bottom, to which an open stroke or a suspect margin can raise the form bottom: it is above the base of a layer that is not READY plus the creep tolerance. -/
def Exposed (s : State) (g : Sector) : Prop := ∃ l ∈ s.stack g, l.flags.ready = false ∧ l.base + s.c10 < s.reachBottom g

/-- What R25 says of a stack that is not empty: its concrete top is at least the reach bottom. -/
def Grounded (s : State) (g : Sector) : Prop := s.stack g ≠ [] → s.reachBottom g ≤ s.concreteTop g

/-- A layer at a later moment: only its maturity has risen, and READY is kept (R52). -/
def Layer.Later (l m : Layer) : Prop :=
  m = { l with maturity := m.maturity, flags := { l.flags with ready := m.flags.ready } }
    ∧ l.maturity ≤ m.maturity ∧ (l.flags.ready = true → m.flags.ready = true)

/-- The law of R8 in every sector: a stroke is open exactly in PRESSURIZING, in STALLED and in VENTING with the failed mark, which is set in VENTING alone; a group with an open stroke has a latched length and a suspect margin of 0. -/
def StrokeLaw (s : State) : Prop := ∀ g,
  ((s.sector g).group.isOpen = true ↔ s.groupState g = .pressurizing ∨ s.groupState g = .stalled
      ∨ (s.groupState g = .venting ∧ (s.sector g).group.failed = true))
  ∧ ((s.sector g).group.failed = true → s.groupState g = .venting)
  ∧ ((s.sector g).group.isOpen = true → (s.sector g).group.latched.isSome = true ∧ (s.sector g).table.margin = 0)

/-- The laws of R5, R6 and R9: adjacent enabled established sectors meet the tilt limit by their reaches, no enabled sector's stroke length is above it, and an established sector's elevation and reach lie within 0..2 500 000; the form height stays within its range (R171). -/
def TiltLaw (s : State) : Prop :=
  (∀ a b, b ∈ s.nbrSet a → s.enabled a = true → s.established a = true → s.enabled b = true → s.established b = true →
    s.reach a ≤ s.elev b + s.t10)
  ∧ (∀ g, s.enabled g = true → s.len g ≤ 10 * s.deck.tilt)
  ∧ (∀ g, s.established g = true → 0 ≤ s.elev g ∧ s.reach g ≤ 2500000)
  ∧ s.deck.height ≤ 2000

/-- The ticket numbers of the open tickets and of the expired-list entries (R131). -/
def State.numbersInUse (s : State) : List Nat :=
  (allSectors.filterMap fun g => (s.sector g).ticket.map Ticket.number) ++ s.expired.map Expired.number

/-- The laws of R123 and R131: a queued sector is enabled, not DISCREPANT, without an open ticket and queued once; the numbers in use are distinct and within 1..65 535, as the next ticket number is; at most 8 entries are expired. The order list names no sector twice (R177). -/
def FeedLaw (s : State) : Prop :=
  s.queue.Nodup
    ∧ (∀ g ∈ s.queue, s.enabled g = true ∧ (s.sector g).table.flags.discrepant = false ∧ (s.sector g).ticket = none)
    ∧ s.numbersInUse.Nodup ∧ (∀ n ∈ s.numbersInUse, 1 ≤ n ∧ n ≤ 65535)
    ∧ 1 ≤ s.nextTicket ∧ s.nextTicket ≤ 65535 ∧ s.expired.length ≤ 8 ∧ s.sweep.order.Nodup

/-- The law of R187: at most 16 entries, no two with the same kind and sector, repeat counts 1..255. -/
def AlertLaw (s : State) : Prop :=
  s.alerts.length ≤ 16 ∧ (s.alerts.map fun a => (a.kind, a.sector)).Nodup ∧ ∀ a ∈ s.alerts, 1 ≤ a.count ∧ a.count ≤ 255

/-- The law of R108 with what it rests on: the pressure order holds exactly the groups PRESSURIZING or STALLED, once each (R109), and no more groups are PRESSURIZING than the capacity in force, at most 8. -/
def PressureLaw (s : State) : Prop :=
  s.pressureOrder.Nodup
    ∧ (∀ g, g ∈ s.pressureOrder ↔ s.groupState g = .pressurizing ∨ s.groupState g = .stalled)
    ∧ s.numPressurizing ≤ s.capacity ∧ s.supply.cap ≤ 8

/-- The deck is in SURVEY exactly while a survey is RUNNING or ENDING (R151, R153, R156, R164), a visit whose stroke is not granted is under way only then, and a survey request is pending only for such a visit, its readings taken (R113, R152). -/
def SurveyLaw (s : State) : Prop :=
  (s.mode = .survey ↔ s.surveyState ≠ .none)
    ∧ ∀ g, (s.visit = some (g, .reading) ∨ s.visit = some (g, .requested) → s.mode = .survey)
        ∧ (s.surveyReq = some g → s.visit = some (g, .requested))

/-- The laws of R65, R69 and R71 on the pacing unit: the at-goal state is the derived one; a counter runs exactly in CLIMB for a group enabled, established and not at goal, and holds 0 while stopped; a paced request count is above 0 only in CLIMB, or in the HALT that left CLIMB, and for a group not at goal. That an ADJUST which brings a group to its goal keeps the law is the model's choice (log 28). -/
def PaceLaw (s : State) : Prop := ∀ g,
  (s.sector g).pace.atGoal = s.isAtGoal g
  ∧ ((s.sector g).pace.running = true ↔
      s.mode = .climb ∧ s.enabled g = true ∧ s.established g = true ∧ s.isAtGoal g = false)
  ∧ ((s.sector g).pace.running = false → (s.sector g).pace.counter = 0)
  ∧ (0 < (s.sector g).pace.count →
      (s.mode = .climb ∨ (s.mode = .halt ∧ s.beforeHalt = some .climb)) ∧ s.isAtGoal g = false)

/-- The ranges of R31, R41, R70, R76, R84, R115, R122 and R138, and of the times W, S, V and D of a written DECK block (R171). -/
def RangeLaw (s : State) : Prop :=
  s.second < 60 ∧ s.minute < 4294967296 ∧ s.releaseLog.length ≤ 32 ∧ s.releaseCount < 4294967296
    ∧ s.expired.length ≤ 8 ∧ s.sweepCount < 4294967296 ∧ s.scanPtr < 32
    ∧ (s.deckWritten = true → 5 ≤ s.deck.window ∧ s.deck.window ≤ 60 ∧ s.deck.settle ≤ 10 ∧ 5 ≤ s.deck.vent ∧ s.deck.vent ≤ 60
        ∧ 60 ≤ s.deck.dwell ∧ s.deck.dwell ≤ 3600)
    ∧ ∀ g, (s.sector g).pace.count ≤ 2 ∧ (s.sector g).pace.counter ≤ 65535 ∧ (s.sector g).pace.dwell ≤ 65535
        ∧ (s.sector g).group.windows ≤ 3

end Sys2Proof.Machine
end

