-- ==== Sys2Proof/Certificates/Slice0/Obligations.lean ====
section
/-! DEFINITION. The statements for the provers: Obligations.<Name> says what OBLIGATIONS.json lists under that name. -/

open Sys2Proof Sys2Proof.Machine

/-! ### The step, the resets and the ports -/

/-- A step takes the command at the front of the queue and runs it on the state with the queue's rest; on an empty queue the part idles (log 5). -/
def Obligations.StepTakesFront : Prop :=
  (∀ (c : Instr) (rest : List Instr) (s : State),
    step { s with pending := c :: rest } = exec c { s with pending := rest })
  ∧ ∀ s : State, s.pending = [] → step s = .next s

/-- POWER_ON_RESET leaves every block as its chapter's reset rule gives (R1, R39, R57, R82, R103, R105, R116, R119, R141, R155, R157, R187), whatever the state was. -/
def Obligations.PowerOnReset : Prop :=
  ∀ s : State, ∃ t, exec .powerOnReset s = .next t ∧ t.pending = s.pending
    ∧ t.mode = .unset ∧ t.beforeHalt = none ∧ t.creepSet = [] ∧ t.second = 0 ∧ t.minute = 0
    ∧ t.rate = 150 ∧ t.goal = 0 ∧ t.plane = 0 ∧ t.deckWritten = false ∧ t.deck.debounce = 50 ∧ t.deck.lapse = 10 ∧ t.deck.cold = -10
    ∧ t.sweep.written = false ∧ (∀ m, (t.mix m).written = false)
    ∧ t.alerts = [⟨.powerOn, none, 0, 1⟩] ∧ t.alertFull = false
    ∧ t.supply.state = .notReady ∧ t.supply.cap = 0 ∧ t.supply.pressure = none ∧ t.supply.lapseRunning = false
    ∧ t.pressureOrder = [] ∧ t.creepList = [] ∧ t.surveyReq = none ∧ t.loadPending = false ∧ t.scanPtr = 0
    ∧ (∀ j, t.slot j = toSector j) ∧ t.shadow = t.active
    ∧ t.releaseLog = [] ∧ t.releaseCount = 0 ∧ t.cursorSector = 0 ∧ t.cursorSlot = 0
    ∧ t.queue = [] ∧ t.expired = [] ∧ t.sweepCount = 0 ∧ t.lastSweep = none ∧ t.nextTicket = 1
    ∧ t.surveyState = .none ∧ t.visit = none ∧ t.line = none ∧ t.waiting = []
    ∧ (∀ p, t.port p = { reception := .hunting, service := none, held := none, overrun := false })
    ∧ ∀ g,
        ((t.sector g).table.enabled = false ∧ (t.sector g).table.nbrs = [] ∧ (t.sector g).table.len = none
          ∧ (t.sector g).table.elev = none ∧ (t.sector g).table.margin = 0 ∧ (t.sector g).table.flags = {}
          ∧ (t.sector g).table.written = false)
        ∧ (t.sector g).layers = { stack := [], top := none, wallBase := none, nextSerial := 1 }
        ∧ (t.sector g).probe = { state := .unknown, lastGood := none, lastMinute := none, refMinute := 0, enabledMinute := 0, temp := -20, source := .default }
        ∧ (t.sector g).pace = { running := false, counter := 0, count := 0, dwell := 0, atGoal := false }
        ∧ ((t.sector g).group.state = .idle ∧ (t.sector g).group.fault = none ∧ (t.sector g).group.isOpen = false
          ∧ (t.sector g).group.latched = none ∧ (t.sector g).group.kind = none ∧ (t.sector g).group.windows = 0
          ∧ (t.sector g).group.failed = false ∧ (t.sector g).group.timer = none ∧ (t.sector g).group.strokes = 0
          ∧ (t.sector g).group.endSw.state = none ∧ (t.sector g).group.retSw.state = none)
        ∧ (t.sector g).ticket = none
        ∧ (t.sector g).trim.drift = none ∧ (t.sector g).trim.beyond = false ∧ (t.sector g).trim.request = .none
        ∧ (t.sector g).trim.underWay = false ∧ (t.sector g).trim.result = none ∧ (t.sector g).trim.outcome = none

/-- WARM_RESET, and RESTART that brings it. WARM_RESET sets the mode by the table of R169 and places each group by the table of R104, closing PRESSURIZING and STALLED strokes into the margin (R17); the alert list holds WARM_RESTART and a SUSPECT_POSITION for each closed stroke in ascending index, at most 16, and ALERT_FULL when more were raised (R187); the supply record, the pressure order, the ports and the sensor line are emptied (R119, R182); the pace counters stop, and the creep list is rebuilt from the dwell counters by descending count (R77, R83); trim requests and trims under way end, and every visit not ended is ABORTED (R156); everything else is kept, every reach included (R40, R58, R142). RESTART is answered OK and changes nothing else; when its answer has been sent, the part does what WARM_RESET does. The ascending order of the SUSPECT_POSITION entries, and so which of them a full list loses, is the model's choice (log 17). One step, with the sensor line emptied: the model's choice (log 6, log 11). -/
def Obligations.WarmResetAndRestart : Prop :=
  (∀ s : State, s.due = {} → ∃ t, exec .warmReset s = .next t
    ∧ t.mode = (match s.mode with
        | .unset => .unset | .standby => .standby | .survey => .standby | .climb => .hold | .hold => .hold | .halt => .halt)
    ∧ t.beforeHalt = s.beforeHalt ∧ t.creepSet = s.creepSet ∧ t.settings = s.settings ∧ t.tables = s.tables ∧ t.feed = s.feed
    ∧ t.active = s.active ∧ t.scanPtr = s.scanPtr ∧ t.loadPending = s.loadPending ∧ t.pending = s.pending
    ∧ (let closed := allSectors.filter fun g => decide (s.groupState g = .pressurizing ∨ s.groupState g = .stalled)
       t.alerts = (⟨.warmRestart, none, s.minute, 1⟩ :: closed.map fun g => ⟨.suspectPosition, some g, s.minute, 1⟩).take 16
        ∧ t.alertFull = decide (15 < closed.length))
    ∧ t.supply.state = .notReady ∧ t.supply.cap = 0 ∧ t.supply.pressure = none ∧ t.supply.lapseRunning = false
    ∧ t.pressureOrder = [] ∧ t.surveyReq = none ∧ t.surveyState = .none ∧ t.visit = none ∧ t.line = none ∧ t.waiting = []
    ∧ (∀ p, t.port p = {})
    ∧ ((∀ g, (∃ e ∈ t.creepList, e.sector = g) ↔
          t.mode = .hold ∧ g ∈ s.creepSet ∧ s.enabled g = true ∧ s.stack g ≠ [] ∧ s.deck.dwell ≤ (s.sector g).pace.dwell)
        ∧ (∀ e ∈ t.creepList, e.minute = s.minute)
        ∧ t.creepList.Pairwise (fun a b => (s.sector b.sector).pace.dwell < (s.sector a.sector).pace.dwell
            ∨ ((s.sector b.sector).pace.dwell = (s.sector a.sector).pace.dwell ∧ a.sector < b.sector)))
    ∧ ∀ g,
        let closed := s.groupState g = .pressurizing ∨ s.groupState g = .stalled
        (t.sector g).table = { (s.sector g).table with
          margin := if closed then (s.sector g).group.latched.getD 0 else (s.sector g).table.margin }
        ∧ (t.sector g).layers = (s.sector g).layers ∧ (t.sector g).probe = (s.sector g).probe ∧ (t.sector g).ticket = (s.sector g).ticket
        ∧ (t.sector g).group =
            (if closed then { (s.sector g).group with
                state := .venting, timer := some ⟨.vent, s.deck.vent⟩, isOpen := false, windows := 0, failed := false }
             else if s.groupState g = .holding ∨ s.groupState g = .venting then
               { (s.sector g).group with state := .venting, timer := some ⟨.vent, s.deck.vent⟩ }
             else (s.sector g).group)
        ∧ (t.sector g).pace = { (s.sector g).pace with running := false, counter := 0, count := 0, atGoal := t.isAtGoal g }
        ∧ (t.sector g).trim = { (s.sector g).trim with
            request := .none, before := [], underWay := false, after := []
            outcome := if (s.sector g).trim.outcome = some .pending
                ∨ ((s.sector g).trim.outcome ≠ none ∧ s.visit.map Prod.fst = some g) then some .aborted
              else (s.sector g).trim.outcome }
        ∧ ((closed → (s.sector g).group.isOpen = true ∧ (s.sector g).table.margin = 0) → t.reach g = s.reach g))
  ∧ (∀ s : State, Rest .console s → exec (.restart .console []) s = .next (answer .console .restart ⟨.ok, []⟩ s))
  ∧ ∀ (s : State) (body : List Byte) (o : Bool),
      s.consolePort.service = some ⟨kindByte .restart, ⟨.ok, body⟩, o⟩ → exec (.answerSent .console) s = exec .warmReset s

/-- Traffic at a port. A complete frame that arrives while a request is in service is held, or dropped with OVERRUN while one is held; when the answer has been sent, the port is free, or the held request is taken as if its frame arrived then at the free port, and its answer shows OVERRUN and clears it (R182). A frame with a bad length byte or CRC is discarded and a gap between bytes ends a frame, each leaving the port hunting and nothing else changed; a hunting port begins a frame at 0xA5 and disregards every other byte (R181). -/
def Obligations.PortTraffic : Prop :=
  (∀ (s : State) (p : PortId) (k : Byte) (d : List Byte) (v : Service),
    s.due = {} → (s.port p).service = some v →
      ((s.port p).held = none →
        exec (.requestHeld p k d) s = .next (s.setPort p { s.port p with reception := .hunting, held := some ⟨k, d⟩ }))
      ∧ ∀ f, (s.port p).held = some f →
        exec (.requestHeld p k d) s = .next (s.setPort p { s.port p with reception := .hunting, overrun := true }))
  ∧ (∀ (s : State) (p : PortId) (v : Service),
      s.due = {} → (s.port p).service = some v → ¬(p = .console ∧ v.kind = kindByte .restart ∧ v.reply.status = .ok) →
        ((s.port p).held = none → exec (.answerSent p) s = .next (s.setPort p { s.port p with service := none }))
        ∧ ∀ f, (s.port p).held = some f →
          ∃ t r, exec (.answerSent p) s = .next t
            ∧ t.port p = { (s.port p) with service := some ⟨f.kind, r, (s.port p).overrun⟩, held := none, overrun := false }
            ∧ (∀ q, q ≠ p → t.port q = s.port q)
            ∧ exec (.requestHeld p f.kind f.payload) (s.setPort p { s.port p with service := none, held := none }) =
                .next (t.setPort p { t.port p with reception := .hunting }))
  ∧ ∀ (s : State) (p : PortId), s.due = {} →
    (∀ bytes, checkFrame bytes = .bad →
      exec (.frameDiscarded p bytes) s = .next (s.setPort p { s.port p with reception := .hunting }))
    ∧ exec (.frameByteTimeout p) s = .next (s.setPort p { s.port p with reception := .hunting })
    ∧ ((s.port p).reception = .hunting →
        exec (.startByte p 0xA5) s = .next (s.setPort p { s.port p with reception := .receiving [] })
        ∧ ∀ b : Byte, b ≠ 0xA5 → exec (.startByte p b) s = .next s)

/-- The checks of R183 in their order: a kind outside the catalogue is refused UNKNOWN, a kind of another port ROLE, a payload of a wrong length LENGTH; the answer carries the status and the port flags alone, and nothing else changes; that this holds for a mode command too, whose answers carry the mode by R157, is the model's choice (log 31). The command is the complete frame that arrives (log 1). -/
def Obligations.RequestChecks : Prop :=
  (∀ (s : State) (p : PortId) (b : Byte) (d : List Byte), Rest p s → (∀ k, kindByte k ≠ b) →
    exec (.unknownRequest p b d) s =
      .next (s.setPort p { reception := .hunting, service := some ⟨b, ⟨.unknown, []⟩, (s.port p).overrun⟩,
                           held := (s.port p).held, overrun := false }))
  ∧ (∀ (s : State) (p : PortId) (k : ReqKind) (d : List Byte), Rest p s → roleOf k ≠ p →
    exec (.requestHeld p (kindByte k) d) s = .next (answer p k ⟨.role, []⟩ s))
  ∧ ∀ (s : State) (k : ReqKind) (d : List Byte), Rest (roleOf k) s → parsePayload k d = none →
    exec (.requestHeld (roleOf k) (kindByte k) d) s = .next (answer (roleOf k) k ⟨.length, []⟩ s)

/-- A frame written by the layout of R190, sent byte by byte to a hunting port, does what the frame delivered whole does, for every kind byte and every payload of at most 250 bytes (R181, R182, R190): no bit of the length, the kind, the payload or the CRC is dropped. -/
def Obligations.FrameDelivers : Prop :=
  ∀ (s : State) (p : PortId) (k : Byte) (d : List Byte),
    s.due = {} → (s.port p).reception = .hunting → d.length ≤ 250 →
      bytesOn p (frameBytes k d) s = exec (.requestHeld p k d) s

/-- A request that is answered with a refusal code (0x10 or above) other than STACK_FULL changes nothing but its port, whatever its kind and payload (R183); R133 gives STACK_FULL its own effects. The command is the complete frame that arrives (log 1). -/
def Obligations.RefusalChangesNothing : Prop :=
  ∀ (s : State) (p : PortId) (k : Byte) (d : List Byte), Rest p s → ∃ t v,
    exec (.requestHeld p k d) s = .next t ∧ (t.port p).service = some v ∧ v.kind = k
      ∧ (16 ≤ v.reply.status.code.toNat → v.reply.status ≠ .stackFull →
          t = s.setPort p { reception := .hunting, service := some v, held := (s.port p).held, overrun := false })

/-! ### The deck profile and the run parameters -/

/-- PROFILE WRITE of the DECK block (R170 to R173): every field limited to its range, M to at most H − F − 40, C raised to the least whole millimetre that covers the exposures of the unready layers, T to the least that covers the stroke lengths and the reaches over neighbours; a change of H re-bases every established sector; BOND_RISK is set, and entered, in the sectors whose dwell counter the new D places at or above its double and the old one did not, and no other sticky flag changes (R79); the completeness test puts the deck in STANDBY or UNSET (R158); the answer echoes the block. While some stack holds a layer, a write that changes H, F or M is refused NOT_EMPTY and changes nothing. The echo without block and index byte is the model's choice (R191, log 9). -/
def Obligations.DeckWrite : Prop :=
  ∀ (s : State) (i : Byte) (d : DeckBlock), Rest .console s → (s.mode = .unset ∨ s.mode = .standby) →
    s.anyInFlight = false →
    (∀ x ∈ [d.height, d.freeboard, d.embed, d.creepTol, d.tilt, d.window, d.settle, d.vent, d.dwell, d.band, d.debounce, d.lapse,
      d.feedTimeout, d.driftLimit], x < 65536) → -32768 ≤ d.cold → d.cold ≤ 32767 →
    let height := max 600 (min 2000 d.height)
    let freeboard := min 300 d.freeboard
    let embed := min (max 100 (min 1500 d.embed)) (height - freeboard - 40)
    let kept := height = s.deck.height ∧ freeboard = s.deck.freeboard ∧ embed = s.deck.embed
    ((∃ g, s.stack g ≠ []) → ¬kept →
      exec (.deckWrite .console i (deckB d)) s = .next (answer .console .profileWrite ⟨.notEmpty, []⟩ s))
    ∧ ((∀ g, s.stack g = []) ∨ kept →
    ∃ t, exec (.deckWrite .console i (deckB d)) s = .next t
      ∧ Answers .console .profileWrite ⟨okOr (decide (t.deck ≠ d)), deckB t.deck⟩ s t
      ∧ t.deckWritten = true
      ∧ t.deck.height = height ∧ t.deck.freeboard = freeboard ∧ t.deck.embed = embed
      ∧ t.deck.window = max 5 (min 60 d.window) ∧ t.deck.settle = min 10 d.settle
      ∧ t.deck.vent = max 5 (min 60 d.vent) ∧ t.deck.dwell = max 60 (min 3600 d.dwell) ∧ t.deck.band = min 1023 d.band
      ∧ t.deck.debounce = max 10 (min 200 d.debounce) ∧ t.deck.lapse = max 2 (min 30 d.lapse)
      ∧ t.deck.cold = max (-10) (min 20 d.cold) ∧ t.deck.feedTimeout = max 2 (min 90 d.feedTimeout)
      ∧ t.deck.driftLimit = max 5 (min 200 d.driftLimit)
      ∧ (let bares := fun n : Nat => ∀ g, s.established g = true → ∀ l ∈ s.stack g, l.flags.ready = false →
           s.reach g - s.h10 - l.base ≤ 10 * (n : Int)
         bares t.deck.creepTol ∧ min 100 d.creepTol ≤ t.deck.creepTol
          ∧ ∀ n, min 100 d.creepTol ≤ n → bares n → t.deck.creepTol ≤ n)
      ∧ (let covers := fun n : Nat => (∀ g, s.enabled g = true → s.len g ≤ 10 * n)
          ∧ ∀ a b, s.enabled a = true → s.established a = true → s.enabled b = true → s.established b = true → b ∈ s.nbrSet a →
              s.reach a ≤ s.elev b + 10 * (n : Int)
         covers t.deck.tilt ∧ max 15 (min 200 d.tilt) ≤ t.deck.tilt
          ∧ ∀ n, max 15 (min 200 d.tilt) ≤ n → covers n → t.deck.tilt ≤ n)
      ∧ ModeTested t
      ∧ (∀ g,
          let risks := (s.sector g).pace.dwell < 2 * s.deck.dwell ∧ 2 * t.deck.dwell ≤ (s.sector g).pace.dwell
          (t.sector g).table = { (s.sector g).table with flags :=
              { (s.sector g).table.flags with bondRisk := (s.sector g).table.flags.bondRisk || decide risks } }
          ∧ (risks → Entered .bondRisk (some g) s t)
          ∧ (t.sector g).layers =
              (if t.deck.height ≠ s.deck.height ∧ s.established g = true then
                { (s.sector g).layers with top := some (s.elev g - 10 * (t.deck.height : Int)), wallBase := some (s.elev g - 10 * (t.deck.height : Int)) }
              else (s.sector g).layers))
      ∧ (t.deck ≠ d → Entered .clampedSetting none s t)
      ∧ t.mixes = s.mixes ∧ t.sweep = s.sweep ∧ t.feed = s.feed ∧ t.tables = s.tables)

/-- PROFILE WRITE of a SECTOR block that passes R174's rows (R174, R175): L limited to 150..400 and then to T, the offset to its range, with CLAMPED and CLAMPED_SETTING when a value was limited; the record takes the fields and keeps E, margin and flags, a change of enable resets the probe record, whose reference minute is the minute the sector was last enabled (R45, R47), a disabled sector leaves the queue (R123), UNSERVED_MIX is entered when the sector comes to be unserved (R125), every other sector's records are kept, and the completeness test puts the deck in STANDBY or UNSET (R158). The echo without block and index byte is the model's choice (R170, R191, log 9). -/
def Obligations.SectorWrite : Prop :=
  ∀ (s : State) (g : Sector) (en : Bool) (n : Nat) (z : Int) (mix : MixClass) (nbrs : List Sector),
    Rest .console s → (s.mode = .unset ∨ s.mode = .standby) → s.anyInFlight = false → s.deckWritten = true →
    n < 65536 → -32768 ≤ z → z ≤ 32767 → nbrs.length ≤ 4 →
    let len := min (max 150 (min 400 n)) (10 * s.deck.tilt)
    let off := max (-5000) (min 5000 z)
    let limited := decide (len ≠ n ∨ off ≠ z)
    (s.suspect g = true → (s.sector g).table.len = some len) →
    (en = true ∨ s.enabled g = false ∨ s.stack g = []) →
    (en = true → s.enabled g = false →
      some g ∈ s.active.toList ∧ (s.loadPending = true → some g ∈ s.shadow.toList)) →
    (s.modTable g fun r =>
      { r with enabled := en, nbrs := nbrs, len := some len, written := true, offset := off, mix := mix }).tiltHolds = true →
    ∃ t, exec (.sectorWrite .console (byteOf g.val)
          (boolB en ++ be16 n ++ sfigB z ++ [byteOf mix.val] ++ listB (nbrs.map sectorB))) s = .next t
      ∧ Answers .console .profileWrite
          ⟨okOr limited, boolB en ++ be16 len ++ sfigB off ++ [byteOf mix.val] ++ listB (nbrs.map sectorB)⟩ s t
      ∧ (t.sector g).table = { (s.sector g).table with
          enabled := en, nbrs := nbrs, len := some len, written := true, offset := off, mix := mix }
      ∧ (t.sector g).layers = (s.sector g).layers ∧ (t.sector g).ticket = (s.sector g).ticket
      ∧ (t.sector g).probe =
          (if en = s.enabled g then (s.sector g).probe
           else if en then { (s.sector g).probe with
             state := .unknown, lastGood := none, lastMinute := none, refMinute := s.minute, enabledMinute := s.minute }
           else { (s.sector g).probe with
             state := .unknown, lastGood := none, lastMinute := none, refMinute := (s.sector g).probe.enabledMinute })
      ∧ t.queue = (if en = false ∧ s.enabled g = true then s.queue.filter (· ≠ g) else s.queue)
      ∧ (limited = true → Entered .clampedSetting (some g) s t)
      ∧ (let unserved := en = true ∧ (s.mix mix).line = .none ∧ ¬(s.enabled g = true ∧ (s.sector g).table.mix = mix)
         (unserved → Entered .unservedMix (some g) s t)
          ∧ (limited = false → ¬unserved → t.alerts = s.alerts ∧ t.alertFull = s.alertFull))
      ∧ (∀ h, h ≠ g → (t.sector h).held = (s.sector h).held) ∧ ModeTested t
      ∧ t.settings = s.settings ∧ t.tables = s.tables

/-- PROFILE WRITE of a MIX block and of the SWEEP block. MIX (R176): the block takes the values, thickness and cold-joint age limited to their ranges with CLAMPED and CLAMPED_SETTING when one was; each layer of the class that is not READY and has reached the new threshold is marked READY, and nothing else of any layer changes (R53); UNSERVED_MIX is entered for each enabled sector that comes to be unserved (R125). SWEEP (R177) replaces the block, empties the feed queue and sets the sweep count to 0 with no last sweep; tickets, expired list and next ticket number stay (R122). The completeness test then puts the deck in STANDBY or UNSET (R158). The echo without block and index byte is the model's choice (R191, log 9). -/
def Obligations.MixAndSweepWrite : Prop :=
  (∀ (s : State) (m : MixClass) (thr a k : Nat) (line : FeedLine),
    Rest .console s → (s.mode = .unset ∨ s.mode = .standby) → s.anyInFlight = false →
    thr < 65536 → a < 65536 → k < 65536 →
    let age := max 1 (min 1440 a)
    let thick := max 20 (min 500 k)
    let limited := decide (age ≠ a ∨ thick ≠ k)
    ∃ t, exec (.mixWrite .console (byteOf m.val) (be16 thr ++ be16 a ++ be16 k ++ [line.code])) s = .next t
      ∧ Answers .console .profileWrite ⟨okOr limited, be16 thr ++ be16 age ++ be16 thick ++ [line.code]⟩ s t
      ∧ (∀ n, t.mix n = if n = m then
          { written := true, threshold := thr, coldAge := age, thickness := thick, line := line } else s.mix n)
      ∧ (∀ g, (t.sector g).layers = { (s.sector g).layers with
            stack := (s.stack g).map fun l =>
              if l.mix = m ∧ l.flags.ready = false ∧ thr ≤ l.maturity then { l with flags := { l.flags with ready := true } } else l }
          ∧ (t.sector g).table = (s.sector g).table ∧ (t.sector g).probe = (s.sector g).probe
          ∧ (t.sector g).ticket = (s.sector g).ticket)
      ∧ (limited = true → Entered .clampedSetting none s t)
      ∧ (∀ g, s.enabled g = true → (s.sector g).table.mix = m → line = .none → (s.mix m).line ≠ .none →
          Entered .unservedMix (some g) s t)
      ∧ ModeTested t ∧ t.deck = s.deck ∧ t.sweep = s.sweep ∧ t.feed = s.feed ∧ t.tables = s.tables)
  ∧ ∀ (s : State) (i : Byte) (st : Sector) (mode : SweepMode) (order : List Sector),
    Rest .console s → (s.mode = .unset ∨ s.mode = .standby) → s.anyInFlight = false → order.Nodup →
    ∃ t, exec (.sweepWrite .console i ([byteOf st.val] ++ [mode.code] ++ listB (order.map sectorB))) s = .next t
      ∧ Answers .console .profileWrite ⟨.ok, [byteOf st.val] ++ [mode.code] ++ listB (order.map sectorB)⟩ s t
      ∧ t.sweep = { written := true, order := order, start := st.val, mode := mode }
      ∧ t.queue = [] ∧ t.sweepCount = 0 ∧ t.lastSweep = none ∧ t.expired = s.expired ∧ t.nextTicket = s.nextTicket
      ∧ ModeTested t ∧ (∀ g, (t.sector g).held = (s.sector g).held) ∧ t.deck = s.deck ∧ t.mixes = s.mixes ∧ t.tables = s.tables

/-- SET RATE, in every mode (R72 with the interval of R67 and R68, R178): the rate is limited to 50..600, with CLAMPED and CLAMPED_SETTING when it was; each running counter above its group's new interval is set to it; every other counter, every paced request count and everything else is kept. A request that repeats the rate in force and is answered OK cuts no counter: R178 against R72, the model's choice (log 26). -/
def Obligations.SetRate : Prop :=
  ∀ (s : State) (v : Nat), Rest .console s → v < 65536 →
    let rate := max 50 (min 600 v)
    let limited := decide (rate ≠ v)
    let repeats := rate = v ∧ v = s.rate
    ∃ t, exec (.setRate .console (be16 v)) s = .next t
      ∧ t = answer .console .setRate ⟨okOr limited, be16 rate⟩
          { (if limited then enterAlert .clampedSetting none s else s) with rate := rate, sectors := t.sectors }
      ∧ (repeats → t.sectors = s.sectors)
      ∧ (∀ g l, (s.sector g).table.len = some l →
          let base := (720 * l + rate) / (2 * rate)
          let inBand := s.established g = true ∧ s.deck.band ≠ 1023 ∧ (s.deck.band : Int) * 10000 ≤ s.elev g
          let interval := max 5 (min 65535 (if inBand then 2 * base else base))
          t.sector g = { s.sector g with pace := { (s.sector g).pace with
            counter := if ¬repeats ∧ (s.sector g).pace.running = true ∧ interval < (s.sector g).pace.counter then interval
              else (s.sector g).pace.counter } })
      ∧ (∀ g, (s.sector g).pace.running = false → t.sector g = s.sector g)

/-- SET GOAL and SET PLANE, each value limited to 2 500 000 with CLAMPED and CLAMPED_SETTING when it was (R178). SET GOAL (R73 to R75): a group that becomes at goal has its counter stopped and its count cleared, one that ceases to be at goal in CLIMB has its counter started with its interval, every other group keeps counter and count; in CLIMB, when every enabled group not in FAULT is then at goal, GOAL_REACHED is entered and the deck enters HOLD (R162). SET PLANE stores the plane elevation and changes nothing else. The premise is the law of R65, R69 and R71. Elevations from 2^31 on are read unsigned and so limited: the model's reading (log 18). -/
def Obligations.SetGoalAndPlane : Prop :=
  (∀ (s : State) (x : Nat), Rest .console s → PaceLaw s → x < 4294967296 →
    let v := min x 2500000
    let now := fun g : Sector => decide (v ≠ 0 ∧ s.established g = true ∧ (v : Int) < s.elev g + s.len g)
    let reached := s.mode = .climb ∧ (∃ g, s.enabled g = true ∧ s.groupState g ≠ .fault)
      ∧ ∀ g, s.enabled g = true → s.groupState g ≠ .fault → now g = true
    ∃ t, exec (.setGoal .console (be32 x)) s = .next t
      ∧ Answers .console .setGoal ⟨okOr (decide (v ≠ x)), be32 v⟩ s t ∧ t.goal = v
      ∧ (v ≠ x → Entered .clampedSetting none s t)
      ∧ (reached → t.mode = .hold ∧ (Entered .goalReached none s t)
          ∧ ∀ g, (t.sector g).pace = { (s.sector g).pace with running := false, counter := 0, count := 0, atGoal := now g })
      ∧ (¬reached → t.mode = s.mode ∧ ∀ g,
          let was := (s.sector g).pace.atGoal
          (t.sector g).pace =
            (if now g = true ∧ was = false then { (s.sector g).pace with running := false, counter := 0, count := 0, atGoal := true }
             else if now g = false ∧ was = true ∧ s.mode = .climb ∧ s.enabled g = true ∧ s.established g = true then
               { (s.sector g).pace with running := true, counter := s.interval g, atGoal := false }
             else { (s.sector g).pace with atGoal := now g }))
      ∧ (∀ g, (t.sector g).held = (s.sector g).held)
      ∧ t.feed = s.feed ∧ t.tables = s.tables ∧ t.supply = s.supply ∧ t.rate = s.rate ∧ t.plane = s.plane)
  ∧ ∀ (s : State) (v : Nat), Rest .console s → v < 4294967296 →
    (v ≤ 2500000 →
      exec (.setPlane .console (be32 v)) s = .next (answer .console .setPlane ⟨.ok, be32 v⟩ { s with plane := v }))
    ∧ (2500000 < v →
      exec (.setPlane .console (be32 v)) s =
        .next (answer .console .setPlane ⟨.clamped, be32 2500000⟩ (enterAlert .clampedSetting none { s with plane := 2500000 })))

/-- SET CREEP SET replaces the set, an index listed twice counting once; outside HOLD nothing else changes, and in HOLD the creep list keeps the demands of the set and no others, and behind them come those of the sectors of the set that meet R77 (R77, R78, R167). The set is held and echoed ascending, the model's choice (log 19). -/
def Obligations.SetCreepSet : Prop :=
  ∀ (s : State) (gs : List Sector), Rest .console s → gs.length ≤ 24 →
    let set := allSectors.filter (· ∈ gs)
    (s.mode ≠ .hold →
      exec (.setCreepSet .console (listB (gs.map sectorB))) s =
        .next (answer .console .setCreepSet ⟨.ok, listB (set.map sectorB)⟩ { s with creepSet := set }))
    ∧ (s.mode = .hold →
      ∃ t, exec (.setCreepSet .console (listB (gs.map sectorB))) s = .next t
        ∧ Answers .console .setCreepSet ⟨.ok, listB (set.map sectorB)⟩ s t
        ∧ t.creepSet = set ∧ t.mode = .hold
        ∧ DemandsJoin (s.creepList.filter fun e => decide (e.sector ∈ gs)) (· ∈ gs) s t
        ∧ (∀ g, (t.sector g).held = (s.sector g).held ∧ (t.sector g).pace = (s.sector g).pace)
        ∧ t.settings = s.settings ∧ t.feed = s.feed ∧ t.tables = s.tables ∧ t.supply = s.supply)

/-! ### The sector table and the groups -/

/-- ESTABLISH that passes R12's rows (R12, R13): E becomes the elevation limited to H10..2 500 000, the margin 0, concrete top and wall base the new form bottom; CLAMPED says that the limit acted; no other sector's records and no group change; the completeness test takes a deck in UNSET to STANDBY when the profile is complete and every enabled sector established, and leaves a deck in STANDBY there (R158). Elevations from 2^31 on are read unsigned and so limited: the model's reading (log 18). -/
def Obligations.Establish : Prop :=
  ∀ (s : State) (g : Sector) (e : Nat), Rest .console s → (s.mode = .unset ∨ s.mode = .standby) → s.deckWritten = true →
    (s.sector g).table.written = true → s.anyInFlight = false → s.stack g = [] → e < 4294967296 →
    let taken : Int := max s.h10 (min 2500000 (e : Int))
    (s.enabled g = true → ∀ n ∈ s.nbrSet g, s.enabled n = true → s.established n = true →
      taken ≤ s.elev n + s.t10 ∧ s.reach n ≤ taken + s.t10) →
    ∃ t, exec (.establish .console (byteOf g.val :: be32 e)) s = .next t
      ∧ Answers .console .establish ⟨okOr (decide (taken ≠ (e : Int))), elevB taken⟩ s t
      ∧ (t.sector g).table = { (s.sector g).table with elev := some taken, margin := 0 }
      ∧ (t.sector g).layers = { (s.sector g).layers with top := some (taken - s.h10), wallBase := some (taken - s.h10) }
      ∧ (s.mode = .unset → ModeTested t) ∧ (s.mode = .standby → ProfileReady s → t.mode = .standby)
      ∧ (∀ h, h ≠ g → (t.sector h).held = (s.sector h).held) ∧ (∀ h, (t.sector h).group = (s.sector h).group)
      ∧ t.settings = s.settings ∧ t.feed = s.feed ∧ t.tables = s.tables ∧ t.supply = s.supply

/-- ADJUST of a SUSPECT sector whose group is not in flight, in every mode (R11, with R22, R29, R31): E rises by c limited to the margin, the margin is cleared, the layers whose tops are at or below the new form bottom leave, each with a record in the release log, lowest first (R30), an empty stack's top follows the form bottom; stroke counter and every other sector's records are kept. -/
def Obligations.Adjust : Prop :=
  ∀ (s : State) (g : Sector) (c : Nat) (e : Int), Rest .console s → (s.sector g).table.elev = some e → s.suspect g = true →
    (s.groupState g).inFlight = false → c < 65536 →
    let taken := min c (s.sector g).table.margin
    let bottom := e + taken - s.h10
    let gone := (s.stack g).takeWhile fun l => decide (l.top ≤ bottom)
    let left := (s.stack g).dropWhile fun l => decide (l.top ≤ bottom)
    ∃ t, exec (.adjust .console (byteOf g.val :: be16 c)) s = .next t
      ∧ Answers .console .adjust ⟨okOr (decide ((s.sector g).table.margin < c)), figB taken ++ elevB (e + taken)⟩ s t
      ∧ (t.sector g).table = { (s.sector g).table with elev := some (e + taken), margin := 0 }
      ∧ (t.sector g).layers = { (s.sector g).layers with
          stack := left
          top := if left = [] then (s.sector g).layers.top.map (max · bottom) else (s.sector g).layers.top }
      ∧ Released g gone s t
      ∧ (t.sector g).group.strokes = (s.sector g).group.strokes
      ∧ (left ≠ [] → (t.sector g).pace.dwell = (s.sector g).pace.dwell)
      ∧ (∀ h, h ≠ g → (t.sector h).held = (s.sector h).held)
      ∧ t.settings = s.settings ∧ t.feed = s.feed ∧ t.supply = s.supply

/-- CLEAR FLAGS clears the named flags in the sector named, or in every sector for ALL, and changes nothing else; the answer shows the flags held after it, for ALL those of sector 0 (R15, R190). -/
def Obligations.ClearFlags : Prop :=
  ∀ (s : State) (n : Nat) (b : Byte), Rest .console s → n < 24 ∨ n = 255 →
    ∃ t, exec (.clearFlags .console [byteOf n, b]) s = .next t
      ∧ (∀ h, t.sector h =
          if n = 255 ∨ n = h.val then
            { s.sector h with table := { (s.sector h).table with flags :=
              { marginal := (s.sector h).table.flags.marginal && !b.getLsbD 0
                switchFault := (s.sector h).table.flags.switchFault && !b.getLsbD 1
                paceSlip := (s.sector h).table.flags.paceSlip && !b.getLsbD 2
                bondRisk := (s.sector h).table.flags.bondRisk && !b.getLsbD 3
                probeMarginal := (s.sector h).table.flags.probeMarginal && !b.getLsbD 4
                drift := (s.sector h).table.flags.drift && !b.getLsbD 5
                discrepant := (s.sector h).table.flags.discrepant && !b.getLsbD 6 } } }
          else s.sector h)
      ∧ (∀ g : Sector, (n = g.val ∨ (n = 255 ∧ g = 0)) →
          t = answer .console .clearFlags ⟨.ok, [(t.sector g).table.flags.toByte]⟩ { s with sectors := t.sectors })

/-- CLEAR FAULT returns a group in FAULT to IDLE when its retracted switch is on and its stroke-end switch is off, keeping margin and flags; without a READY supply it stays IDLE, else the grant pass may grant it; a group not in FAULT is unchanged, and one not seen at home is refused NOT_RETRACTED (R100). That a switch whose state is not yet known counts as not at home is the model's choice (log 29). -/
def Obligations.ClearFault : Prop :=
  ∀ (s : State) (g : Sector), Rest .console s → s.mode ≠ .unset →
    (s.groupState g = .fault → (s.sector g).group.retSw.state = some true → (s.sector g).group.endSw.state = some false →
      ∃ t, exec (.clearFault .console [byteOf g.val]) s = .next t
        ∧ Answers .console .clearFault ⟨.ok, [(t.groupState g).code]⟩ s t
        ∧ (t.groupState g = .idle ∨ t.groupState g = .pressurizing) ∧ (NoSupply s → t.groupState g = .idle)
        ∧ (t.sector g).group.fault = none ∧ (t.sector g).group.strokes = (s.sector g).group.strokes
        ∧ (∀ h, (t.sector h).held = (s.sector h).held)
        ∧ t.settings = s.settings ∧ t.feed = s.feed ∧ t.tables = s.tables ∧ t.supply = s.supply)
    ∧ (s.groupState g ≠ .fault →
      exec (.clearFault .console [byteOf g.val]) s = .next (answer .console .clearFault ⟨.ok, [(s.groupState g).code]⟩ s))
    ∧ (s.groupState g = .fault →
        ¬((s.sector g).group.retSw.state = some true ∧ (s.sector g).group.endSw.state = some false) →
      exec (.clearFault .console [byteOf g.val]) s = .next (answer .console .clearFault ⟨.notRetracted, []⟩ s))

/-! ### Climb modes -/

/-- START from STANDBY or HOLD (R160, R162): the deck enters CLIMB, or HOLD with GOAL_REACHED when the goal is reached; in CLIMB every enabled, established group not at goal has its counter running at its interval, every demand is kept and behind them come those of the sectors that meet R77; where HOLD is entered, only the demands of the creep set are kept and join (R161). In CLIMB it is answered OK and changes nothing. The mode before HALT travels as a presence byte and a code, the model's choice (log 9). -/
def Obligations.Start : Prop :=
  ∀ s : State, Rest .console s →
    ((s.mode = .standby ∨ s.mode = .hold) →
      ∃ t, exec (.start .console []) s = .next t
        ∧ Answers .console .start ⟨.ok, [t.mode.code] ++ beforeHaltB s⟩ s t
        ∧ t.mode = (if s.goalReached = true then .hold else .climb) ∧ t.beforeHalt = s.beforeHalt
        ∧ (s.goalReached = true → Entered .goalReached none s t
            ∧ DemandsJoin (s.creepList.filter fun e => decide (e.sector ∈ s.creepSet)) (· ∈ s.creepSet) s t)
        ∧ (s.goalReached = false →
            (∀ g, s.enabled g = true → s.established g = true → s.isAtGoal g = false →
              (t.sector g).pace.running = true ∧ (t.sector g).pace.counter = s.interval g
                ∧ (t.sector g).pace.count = (s.sector g).pace.count)
            ∧ DemandsJoin s.creepList (fun _ => True) s t)
        ∧ (∀ h, (t.sector h).held = (s.sector h).held)
        ∧ t.settings = s.settings ∧ t.feed = s.feed ∧ t.tables = s.tables ∧ t.supply = s.supply)
    ∧ (s.mode = .climb →
      exec (.start .console []) s = .next (answer .console .start ⟨.ok, [DeckMode.climb.code] ++ beforeHaltB s⟩ s))

/-- HOLD and PARK. HOLD from CLIMB (R71, R161): every pace counter stopped, every paced request count 0, the demands of the creep set kept, behind them one for each of its sectors that meets R77, and no others; in HOLD it is answered OK and changes nothing. PARK in HOLD (R159, R163): to STANDBY with the creep list and every trim request dropped when no group is in flight, refused BUSY otherwise; in STANDBY it is answered OK and changes nothing. The mode before HALT travels as a presence byte and a code, the model's choice (log 9). -/
def Obligations.HoldAndPark : Prop :=
  ∀ s : State, Rest .console s →
    (s.mode = .climb →
      ∃ t, exec (.hold .console []) s = .next t
        ∧ Answers .console .hold ⟨.ok, [DeckMode.hold.code] ++ beforeHaltB s⟩ s t
        ∧ t.mode = .hold ∧ t.beforeHalt = s.beforeHalt ∧ t.creepSet = s.creepSet
        ∧ (∀ g, (t.sector g).pace = { (s.sector g).pace with running := false, counter := 0, count := 0 }
            ∧ (t.sector g).held = (s.sector g).held)
        ∧ DemandsJoin (s.creepList.filter fun e => decide (e.sector ∈ s.creepSet)) (· ∈ s.creepSet) s t
        ∧ t.settings = s.settings ∧ t.feed = s.feed ∧ t.tables = s.tables ∧ t.supply = s.supply)
    ∧ (s.mode = .hold →
      exec (.hold .console []) s = .next (answer .console .hold ⟨.ok, [DeckMode.hold.code] ++ beforeHaltB s⟩ s))
    ∧ (s.mode = .hold → s.anyInFlight = false →
      ∃ t, exec (.park .console []) s = .next t
        ∧ Answers .console .park ⟨.ok, [DeckMode.standby.code] ++ beforeHaltB s⟩ s t
        ∧ t.mode = .standby ∧ t.beforeHalt = s.beforeHalt ∧ t.creepList = [] ∧ t.surveyReq = none
        ∧ (∀ g, (t.sector g).trim.request = .none ∧ (t.sector g).held = (s.sector g).held
            ∧ (t.sector g).group = (s.sector g).group ∧ (t.sector g).pace = (s.sector g).pace)
        ∧ t.settings = s.settings ∧ t.feed = s.feed ∧ t.tables = s.tables ∧ t.supply = s.supply)
    ∧ (s.mode = .hold → s.anyInFlight = true →
      exec (.park .console []) s = .next (answer .console .park ⟨.busy, [DeckMode.hold.code] ++ beforeHaltB s⟩ s))
    ∧ (s.mode = .standby →
      exec (.park .console []) s = .next (answer .console .park ⟨.ok, [DeckMode.standby.code] ++ beforeHaltB s⟩ s))

/-- STOP and RESUME. STOP from STANDBY, SURVEY, CLIMB or HOLD (R108, R164): the mode before HALT is the mode left, every PRESSURIZING group is STALLED and no other group changes, from CLIMB the counters stop, counts and creep list are kept; from SURVEY the survey is over, the PENDING sectors and a visit without a stroke, its readings abandoned, are ABORTED, and a visit whose stroke is granted runs on (R153); in HALT it is answered OK and changes nothing; its premise is the law of R108 and R109. RESUME in HALT (R165): to HOLD from a CLIMB or HOLD before HALT, with every paced request count cleared and the creep list as HOLD leaves it (R77, R161); to STANDBY from a STANDBY or SURVEY before HALT, with the creep list emptied; the mode before HALT keeps its value. The mode before HALT travels as a presence byte and a code, the model's choice (log 9). -/
def Obligations.StopAndResume : Prop :=
  (∀ s : State, Rest .console s → PressureLaw s →
    ((s.mode = .standby ∨ s.mode = .survey ∨ s.mode = .climb ∨ s.mode = .hold) →
      ∃ t, exec (.stop .console []) s = .next t
        ∧ Answers .console .stop ⟨.ok, [DeckMode.halt.code, 1, s.mode.code]⟩ s t
        ∧ t.mode = .halt ∧ t.beforeHalt = some s.mode ∧ t.creepList = s.creepList ∧ t.pressureOrder = s.pressureOrder
        ∧ (s.mode = .survey →
            let cut := fun g : Sector => s.visit = some (g, .reading) ∨ s.visit = some (g, .requested)
            let granted := fun g : Sector => s.visit = some (g, .stroke) ∨ s.visit = some (g, .resultMade)
            t.surveyState = .none ∧ t.surveyReq = none ∧ ((∃ g, cut g) → t.visit = none) ∧ ((∀ g, ¬cut g) → t.visit = s.visit)
            ∧ ∀ g, (t.sector g).trim.outcome =
                  (if cut g ∨ ((s.sector g).trim.outcome = some .pending ∧ ¬granted g) then some .aborted
                   else (s.sector g).trim.outcome)
                ∧ (cut g → t.tryUnderWay .before g = false))
        ∧ (∀ g, (t.sector g).group =
              (if s.groupState g = .pressurizing then { (s.sector g).group with state := .stalled, timer := none } else (s.sector g).group)
            ∧ (t.sector g).pace =
              (if s.mode = .climb then { (s.sector g).pace with running := false, counter := 0 } else (s.sector g).pace)
            ∧ (t.sector g).held = (s.sector g).held)
        ∧ t.settings = s.settings ∧ t.feed = s.feed ∧ t.tables = s.tables ∧ t.supply = s.supply)
    ∧ (s.mode = .halt →
      exec (.stop .console []) s = .next (answer .console .stop ⟨.ok, [DeckMode.halt.code] ++ beforeHaltB s⟩ s)))
  ∧ ∀ (s : State) (m : DeckMode), Rest .console s → s.mode = .halt → s.beforeHalt = some m →
    (m = .climb ∨ m = .hold ∨ m = .standby ∨ m = .survey) →
    ∃ t, exec (.resume .console []) s = .next t
      ∧ Answers .console .resume ⟨.ok, [t.mode.code, 1, m.code]⟩ s t ∧ t.beforeHalt = some m
      ∧ ((m = .climb ∨ m = .hold) → t.mode = .hold ∧ (∀ g, (t.sector g).pace.count = 0)
          ∧ DemandsJoin (s.creepList.filter fun e => decide (e.sector ∈ s.creepSet)) (· ∈ s.creepSet) s t)
      ∧ ((m = .standby ∨ m = .survey) → t.mode = .standby ∧ t.creepList = [] ∧ ∀ g, (t.sector g).trim.request = .none)
      ∧ (∀ h, (t.sector h).held = (s.sector h).held)
      ∧ t.settings = s.settings ∧ t.feed = s.feed ∧ t.tables = s.tables ∧ t.supply = s.supply

/-- The rows of the table of requests by mode in which a mode command is refused: the answer is MODE with the mode and the mode before HALT, and nothing changes (R157, R160, R161, R163 to R165). The mode before HALT travels as a presence byte and a code, the model's choice (log 9). -/
def Obligations.ModeRefusals : Prop :=
  ∀ s : State, Rest .console s →
    let body := [s.mode.code] ++ beforeHaltB s
    ((s.mode = .unset ∨ s.mode = .survey ∨ s.mode = .halt) →
      exec (.start .console []) s = .next (answer .console .start ⟨.mode, body⟩ s))
    ∧ ((s.mode = .unset ∨ s.mode = .standby ∨ s.mode = .survey ∨ s.mode = .halt) →
      exec (.hold .console []) s = .next (answer .console .hold ⟨.mode, body⟩ s))
    ∧ ((s.mode = .unset ∨ s.mode = .survey ∨ s.mode = .climb ∨ s.mode = .halt) →
      exec (.park .console []) s = .next (answer .console .park ⟨.mode, body⟩ s))
    ∧ (s.mode = .unset → exec (.stop .console []) s = .next (answer .console .stop ⟨.mode, body⟩ s))
    ∧ (s.mode ≠ .halt → exec (.resume .console []) s = .next (answer .console .resume ⟨.mode, body⟩ s))

/-! ### Level trim -/

/-- SURVEY in STANDBY with no group in flight (R151, R152): enabled sectors PENDING, those in FAULT or SUSPECT before the first that can be visited SKIPPED, disabled ones none; the first visit takes its before-readings; with no sector to visit the survey is over at once, the deck in STANDBY with SURVEY_DONE entered (R153); the answer carries the number of enabled sectors. -/
def Obligations.SurveyBegins : Prop :=
  (∀ (s : State) (g : Sector), Rest .console s → s.mode = .standby → s.anyInFlight = false →
    s.enabled g = true → s.groupState g ≠ .fault → s.suspect g = false →
    (∀ h, h < g → s.enabled h = true → s.groupState h = .fault ∨ s.suspect h = true) →
    ∃ t, exec (.survey .console []) s = .next t
      ∧ Answers .console .survey ⟨.ok, figB s.enabledSectors.length⟩ s t
      ∧ t.mode = .survey ∧ t.surveyState = .running ∧ t.visit = some (g, .reading) ∧ t.tryUnderWay .before g = true
      ∧ (∀ h, (t.sector h).trim.outcome =
            (if s.enabled h = false then none else if h < g then some .skipped else some .pending)
          ∧ (t.sector h).trim.result = (s.sector h).trim.result ∧ (t.sector h).held = (s.sector h).held
          ∧ (t.sector h).group = (s.sector h).group)
      ∧ t.settings = s.settings ∧ t.feed = s.feed ∧ t.tables = s.tables ∧ t.supply = s.supply)
  ∧ ∀ s : State, Rest .console s → s.mode = .standby → s.anyInFlight = false →
    (∀ h, s.enabled h = true → s.groupState h = .fault ∨ s.suspect h = true) →
    ∃ t, exec (.survey .console []) s = .next t
      ∧ Answers .console .survey ⟨.ok, figB s.enabledSectors.length⟩ s t
      ∧ t.mode = .standby ∧ t.surveyState = .none ∧ t.visit = none ∧ Entered .surveyDone none s t
      ∧ (∀ h, (t.sector h).trim.outcome = (if s.enabled h = true then some .skipped else none)
          ∧ (t.sector h).trim.result = (s.sector h).trim.result ∧ (t.sector h).held = (s.sector h).held
          ∧ (t.sector h).group = (s.sector h).group)
      ∧ t.settings = s.settings ∧ t.feed = s.feed ∧ t.tables = s.tables ∧ t.supply = s.supply

/-- END SURVEY while a visit is under way (R153): without a granted stroke the visit and every PENDING sector become ABORTED and the deck is in STANDBY at once; with one the survey is ENDING, the PENDING sectors ABORTED, and the visit runs on; while ENDING it is answered OK and changes nothing. -/
def Obligations.EndSurvey : Prop :=
  ∀ s : State, Rest .console s → s.mode = .survey →
    (∀ g ph, s.surveyState ≠ .ending → s.visit = some (g, ph) → (ph = .reading ∨ ph = .requested) →
      ∃ t, exec (.endSurvey .console []) s = .next t ∧ Answers .console .endSurvey ⟨.ok, []⟩ s t
        ∧ t.mode = .standby ∧ t.surveyState = .none ∧ t.visit = none ∧ t.surveyReq = none
        ∧ (∀ h, (t.sector h).trim.outcome =
              (if h = g ∨ (s.sector h).trim.outcome = some .pending then some .aborted else (s.sector h).trim.outcome)
            ∧ (t.sector h).held = (s.sector h).held)
        ∧ t.settings = s.settings ∧ t.feed = s.feed ∧ t.tables = s.tables ∧ t.alerts = s.alerts)
    ∧ (∀ g ph, s.surveyState ≠ .ending → s.visit = some (g, ph) → (ph = .stroke ∨ ph = .resultMade) →
      ∃ t, exec (.endSurvey .console []) s = .next t ∧ Answers .console .endSurvey ⟨.ok, []⟩ s t
        ∧ t.mode = .survey ∧ t.surveyState = .ending ∧ t.visit = s.visit
        ∧ (∀ h, (t.sector h).trim.outcome =
              (if h ≠ g ∧ (s.sector h).trim.outcome = some .pending then some .aborted else (s.sector h).trim.outcome)
            ∧ (t.sector h).held = (s.sector h).held ∧ (t.sector h).group = (s.sector h).group)
        ∧ t.settings = s.settings ∧ t.feed = s.feed ∧ t.tables = s.tables ∧ t.alerts = s.alerts)
    ∧ (s.surveyState = .ending →
      exec (.endSurvey .console []) s = .next (answer .console .endSurvey ⟨.ok, []⟩ s))

/-- TRIM SECTOR of an enabled, established sector that is not SUSPECT, in CLIMB or HOLD (R148, R149): a request that is NONE becomes READING with its first before-reading requested when the group is IDLE, else WAITING; any other request is kept as it is. -/
def Obligations.TrimSector : Prop :=
  ∀ (s : State) (g : Sector), Rest .console s → (s.mode = .climb ∨ s.mode = .hold) → s.enabled g = true → s.established g = true →
    s.suspect g = false →
    ((s.sector g).trim.request = .none →
      ∃ t, exec (.trimSector .console [byteOf g.val]) s = .next t ∧ Answers .console .trimSector ⟨.ok, []⟩ s t
        ∧ t.sector g = { s.sector g with trim := { (s.sector g).trim with
            request := if s.groupState g = .idle then .reading else .waiting
            before := if s.groupState g = .idle then [] else (s.sector g).trim.before } }
        ∧ (s.groupState g = .idle → t.tryUnderWay .before g = true)
        ∧ (∀ h, h ≠ g → t.sector h = s.sector h)
        ∧ t.mode = s.mode ∧ t.settings = s.settings ∧ t.feed = s.feed ∧ t.tables = s.tables ∧ t.alerts = s.alerts)
    ∧ ((s.sector g).trim.request ≠ .none →
      exec (.trimSector .console [byteOf g.val]) s = .next (answer .console .trimSector ⟨.ok, []⟩ s))

/-! ### Layer table, arbitration tables and reports -/

/-- LAYER RESTORE that passes R33's rows (R33 to R35): one layer with the fields of R34 joins on top, the concrete top becomes its top, the next serial rises, and no other sector's records change; the answer echoes serial, base, top, placed minute and flags. Ages from 2^31 on are read unsigned: the model's reading (log 18). -/
def Obligations.LayerRestore : Prop :=
  ∀ (s : State) (g : Sector) (mix : MixClass) (base : Int) (k age mat : Nat) (fl : Byte) (batch : Option Nat),
    Rest .console s → s.mode = .standby → s.enabled g = true → s.established g = true → (s.mix mix).written = true →
    (s.groupState g).inFlight = false → (s.stack g).length < 12 →
    -2147483648 ≤ base → base ≤ 2147483647 → k < 65536 → age < 4294967296 → mat < 65536 → (∀ b ∈ batch, b < 65536) →
    let thick := max 20 (min 500 k)
    let top := base + 10 * (thick : Int)
    (s.stack g ≠ [] → base = s.concreteTop g) → top ≤ s.elev g → s.bottom g < top →
    ((s.mix mix).threshold ≤ mat ∨ s.reach g - s.h10 ≤ base + s.c10) →
    let l : Layer :=
      { serial := (s.sector g).layers.nextSerial, ticket := 0, base := base, top := top, mix := mix,
        placed := if age ≤ s.minute then s.minute - age else 0, maturity := mat,
        flags := { ready := decide ((s.mix mix).threshold ≤ mat), late := fl.getLsbD 1, coldJoint := fl.getLsbD 2,
                   overfill := fl.getLsbD 3 || decide (s.elev g - s.f10 < top), short := fl.getLsbD 4,
                   clamped := decide (thick ≠ k) || decide (s.minute < age) },
        batch := batch }
    ∃ t, exec (.layerRestore .console (byteOf g.val :: elevB base ++ be16 k ++ [byteOf mix.val] ++ be32 age ++ be16 mat ++ [fl]
            ++ (match batch with
                | some b => be16 b
                | none => []))) s = .next t
      ∧ Answers .console .layerRestore ⟨okOr l.flags.clamped, restoreEcho l⟩ s t
      ∧ (t.sector g).layers = { (s.sector g).layers with
          stack := s.stack g ++ [l], top := some top,
          nextSerial := if (s.sector g).layers.nextSerial = 65535 then 1 else (s.sector g).layers.nextSerial + 1 }
      ∧ (∀ h, (t.sector h).table = (s.sector h).table ∧ (t.sector h).ticket = (s.sector h).ticket)
      ∧ (∀ h, h ≠ g → (t.sector h).layers = (s.sector h).layers)
      ∧ t.mode = .standby ∧ t.settings = s.settings ∧ t.feed = s.feed ∧ t.tables = s.tables ∧ t.supply = s.supply

/-- The read cursor (R36, R37): SET LAYER CURSOR sets it; READ LAYER returns the layer at it, or the bottom layer of the first non-empty stack after it, and moves it on, into the next sector past the top of a stack; with every stack empty it answers NONE. The layout of the answer is the model's choice (log 9). -/
def Obligations.ReadCursor : Prop :=
  ∀ s : State, Rest .console s →
    (∀ (g : Sector) (p : Nat), p ≤ 11 →
      exec (.setLayerCursor .console [byteOf g.val, byteOf p]) s =
        .next (answer .console .setLayerCursor ⟨.ok, []⟩ { s with cursorSector := g, cursorSlot := p }))
    ∧ (∀ (g : Sector) (p : Nat) (l : Layer), (s.stack g)[p]? = some l →
        ((s.cursorSector = g ∧ s.cursorSlot = p)
          ∨ (p = 0 ∧ (s.stack s.cursorSector).length ≤ s.cursorSlot
              ∧ ∃ i : Fin 24, g = s.cursorSector + 1 + i ∧ ∀ j : Fin 24, j < i → s.stack (s.cursorSector + 1 + j) = [])) →
        let t := if p + 1 = (s.stack g).length then { s with cursorSector := g + 1, cursorSlot := 0 }
          else { s with cursorSector := g, cursorSlot := p + 1 }
        exec (.readLayer .console []) s =
          .next (answer .console .readLayer
            ⟨.ok, sectorB g ++ [byteOf p] ++ [byteOf (s.stack g).length] ++ layerB l⟩ t))
    ∧ ((∀ g, s.stack g = []) → exec (.readLayer .console []) s = .next (answer .console .readLayer ⟨.none, []⟩ s))

/-- The arbitration tables (R116, R117): WRITE ARB TABLE replaces the shadow table alone; LOAD ARB TABLE of a complete shadow makes it the active table with the scan pointer at 0 when no paced request is held, else marks the load pending; an incomplete shadow is refused INCOMPLETE. -/
def Obligations.ArbTables : Prop :=
  ∀ s : State, Rest .console s →
    (∀ v : Vector (Option Sector) 32,
      (s.loadPending = true → ∀ g, s.enabled g = true → some g ∈ v.toList) →
      exec (.writeArbTable .console (v.toList.map slotB)) s =
        .next (answer .console .writeArbTable ⟨.ok, []⟩ { s with shadow := v }))
    ∧ ((∀ g, s.enabled g = true → some g ∈ s.shadow.toList) →
        ((∀ g, (s.sector g).pace.count = 0) →
          ∃ t, exec (.loadArbTable .console []) s = .next t ∧ Answers .console .loadArbTable ⟨.ok, []⟩ s t
            ∧ t.active = s.shadow ∧ t.scanPtr = 0 ∧ t.loadPending = false
            ∧ (∀ h, (t.sector h).held = (s.sector h).held ∧ (t.sector h).pace = (s.sector h).pace)
            ∧ t.settings = s.settings ∧ t.feed = s.feed ∧ t.tables = s.tables ∧ t.supply = s.supply)
        ∧ ((∃ g, (s.sector g).pace.count ≠ 0) →
          exec (.loadArbTable .console []) s = .next (answer .console .loadArbTable ⟨.ok, []⟩ { s with loadPending := true })))
    ∧ ((∃ g, s.enabled g = true ∧ some g ∉ s.shadow.toList) →
        exec (.loadArbTable .console []) s = .next (answer .console .loadArbTable ⟨.incomplete, []⟩ s))

/-- The reads change nothing but their own port (R32, R116, R140, R179, R186): with every index in its range PROFILE READ, READ ARB TABLE, READ FEED, SECTOR STATUS and DECK STATUS answer OK with their fields, READ RELEASE LOG answers a page of the log or NONE. The layouts of the answers, and that a figure no rule gives a value for is sent as absent, are the model's reading of R191 (log 8, log 9). -/
def Obligations.ReadsChangeNothing : Prop :=
  ∀ s : State, Rest .console s →
    (∀ i, exec (.profileRead .console [0, i]) s = .next (answer .console .profileRead ⟨.ok, boolB s.deckWritten ++ deckB s.deck⟩ s))
    ∧ (∀ g : Sector, exec (.profileRead .console [1, byteOf g.val]) s =
        .next (answer .console .profileRead ⟨.ok, boolB (s.sector g).table.written ++ sectorBlockB (s.sector g).table⟩ s))
    ∧ (∀ m : MixClass, exec (.profileRead .console [2, byteOf m.val]) s =
        .next (answer .console .profileRead ⟨.ok, boolB (s.mix m).written ++ mixB (s.mix m)⟩ s))
    ∧ (∀ i, exec (.profileRead .console [3, i]) s = .next (answer .console .profileRead ⟨.ok, boolB s.sweep.written ++ sweepB s.sweep⟩ s))
    ∧ exec (.readArbTable .console [0]) s =
        .next (answer .console .readArbTable ⟨.ok, s.active.toList.map slotB ++ figB s.scanPtr ++ boolB s.loadPending⟩ s)
    ∧ exec (.readArbTable .console [1]) s =
        .next (answer .console .readArbTable ⟨.ok, s.shadow.toList.map slotB ++ figB s.scanPtr ++ boolB s.loadPending⟩ s)
    ∧ (∀ g : Sector, exec (.readFeed .console [0, byteOf g.val]) s = .next (answer .console .readFeed ⟨.ok, feedQueueB s⟩ s)
        ∧ exec (.readFeed .console [1, byteOf g.val]) s = .next (answer .console .readFeed ⟨.ok, feedTicketsB s g⟩ s)
        ∧ exec (.sectorStatus .console [byteOf g.val]) s = .next (answer .console .sectorStatus ⟨.ok, sectorStatusB s g⟩ s))
    ∧ exec (.deckStatus .console []) s = .next (answer .console .deckStatus ⟨.ok, deckStatusB s⟩ s)
    ∧ ∀ i n : Nat, i ≤ 31 → 1 ≤ n → n ≤ 8 →
        exec (.readReleaseLog .console [byteOf i, byteOf n]) s =
          .next (answer .console .readReleaseLog
            (if i < s.releaseLog.length then
              ⟨.ok, figB s.releaseLog.length ++ longB s.releaseCount ++ listB (((s.releaseLog.drop i).take n).map releaseB)⟩
             else ⟨.none, figB s.releaseLog.length ++ longB s.releaseCount⟩) s)

/-- READ ALERTS returns entries oldest first and changes nothing; ACK ALERTS removes the oldest entries, keeps the order of the others, and clears ALERT_FULL when it removes at least one (R188, R189). The counts travel as two-byte figures, and an entry acknowledged with the bytes R189 gives for an entry read, the model's choice (log 9). -/
def Obligations.AlertsReadAndAcked : Prop :=
  ∀ (s : State) (i n : Nat), Rest .console s →
    (i ≤ 15 → 1 ≤ n → n ≤ 8 →
      exec (.readAlerts .console [byteOf i, byteOf n]) s =
        .next (answer .console .readAlerts
          (if i < s.alerts.length then ⟨.ok, figB s.alerts.length ++ listB (((s.alerts.drop i).take n).map alertB)⟩
           else ⟨.none, figB s.alerts.length⟩) s))
    ∧ (n ≤ 16 →
      exec (.ackAlerts .console [byteOf n]) s =
        .next (answer .console .ackAlerts
          ⟨.ok, figB (min n s.alerts.length) ++ figB (s.alerts.length - n) ++ listB ((s.alerts.take n).map ackedB)⟩
          { s with alerts := s.alerts.drop n, alertFull := s.alertFull && decide (n = 0 ∨ s.alerts = []) }))

/-! ### Supply and feed -/

/-- SUPPLY STATE (R105, R106, R108, R118): the record takes the state, the capacity limited to 8 and the pressure limited to 400, the lapse counter runs from 0; no more groups are PRESSURIZING than the capacity in force; when that is at or below the number PRESSURIZING, the newest of these in the pressure order, as many as exceed it, are STALLED and no other group changes; NOT_READY leaves every PRESSURIZING group STALLED and no other group changed; the answer carries state, capacity and demand as they then stand, after the values taken when one was limited (log 9). The premise is the law of R108 and R109. -/
def Obligations.SupplyReport : Prop :=
  ∀ (s : State) (ready : Bool) (k : Nat) (press : Option Nat), Rest .supply s → PressureLaw s → k < 256 → (∀ b ∈ press, b < 65536) →
    let state : SupplyMode := if ready then .ready else .notReady
    let limited := decide (8 < k ∨ ∃ b ∈ press, 400 < b)
    ∃ t, exec (.supplyState .supply ([if ready then 1 else 0, byteOf k]
            ++ (match press with
                | some b => be16 b
                | none => []))) s = .next t
      ∧ t.supply = { state := state, cap := min k 8, pressure := press.map (min · 400), lapse := 0, lapseRunning := true }
      ∧ Answers .supply .supplyState
          ⟨okOr limited,
            (if limited then [state.code] ++ figB (min k 8) ++ optB 2 ((press.map (min · 400)).map figB) else [])
              ++ [state.code] ++ figB (min k 8) ++ figB t.numPressurizing ++ figB t.numStalled ++ figB t.numWaiting⟩ s t
      ∧ t.numPressurizing ≤ (if ready then min k 8 else 0)
      ∧ (ready = true → min k 8 ≤ s.numPressurizing →
          t.mode = s.mode ∧ t.pressureOrder = s.pressureOrder ∧ ∀ g, (t.sector g).group =
            if g ∈ (s.pressureOrder.filter fun h => decide (s.groupState h = .pressurizing)).drop (min k 8) then
              { (s.sector g).group with state := .stalled, timer := none }
            else (s.sector g).group)
      ∧ (ready = false → t.mode = s.mode ∧ ∀ g, (t.sector g).group =
          if s.groupState g = .pressurizing then { (s.sector g).group with state := .stalled, timer := none } else (s.sector g).group)
      ∧ (∀ g, (t.sector g).held = (s.sector g).held ∧ (t.sector g).pace = (s.sector g).pace)
      ∧ t.settings = s.settings ∧ t.feed = s.feed ∧ t.tables = s.tables

/-- REQUEST FEED in STANDBY or CLIMB (R122, R126 to R131): the count is limited to 1..8 with CLAMPED; the walked queue is the queue, or the sweep built when it is empty; the first sectors of it that pass the line, room and stack tests, as many as the count taken, get the tickets of R128 and leave the queue, the others keeping their order; the numbers are the next ones from the next ticket number on, passing from 65 535 to 1, that no open ticket or expired entry holds, and the next ticket number follows the last one given; when no sector passes, the answer is NONE with the first reason of R129 that applies. The premise is the law of the feed scheduler (R123, R131). The layout of the NONE answer is the model's choice (log 9); ticket deadlines do not wrap (log 10). -/
def Obligations.RequestFeed : Prop :=
  ∀ (s : State) (line : FeedLine) (asked : Nat), Rest .placing s → (s.mode = .standby ∨ s.mode = .climb) → line ≠ .none → asked < 256 →
    FeedLaw s →
    let taken := max 1 (min 8 asked)
    let built := s.queue.isEmpty
    let q := if built then
        (s.sweepOrder (s.sweepCount % 256)).filter fun g => decide ((s.sector g).ticket = none ∧ (s.sector g).table.flags.discrepant = false)
      else s.queue
    let passes := fun g : Sector =>
      s.mixLine g = line ∧ 10 * ((s.mix (s.sector g).table.mix).thickness : Int) ≤ s.elev g - s.f10 - s.concreteTop g
        ∧ (s.stack g).length ≤ 11
    let u := if built then { s with
        sweepCount := (s.sweepCount + 1) % 4294967296, lastSweep := some (s.sweepCount % 256), queue := q } else s
    let issued := (q.filter fun g => decide (passes g)).take taken
    let number := fun k : Nat => (s.nextTicket - 1 + k) % 65535 + 1
    let ticket := fun (g : Sector) (n : Nat) =>
      ({ number := n, base := s.concreteTop g, target := (s.mix (s.sector g).table.mix).thickness,
         mix := (s.sector g).table.mix, line := line, issue := s.minute, deadline := s.minute + s.deck.feedTimeout } : Ticket)
    (issued ≠ [] →
      ∃ t n, exec (.requestFeed .placing [line.code, byteOf asked]) s = .next t
        ∧ (let numbers := ((List.range n).map number).filter fun k => decide (k ∉ s.numbersInUse)
           numbers.length = issued.length ∧ number (n - 1) ∈ numbers
            ∧ t = answer .placing .requestFeed
                ⟨okOr (decide (taken ≠ asked)),
                  [byteOf taken, byteOf issued.length] ++ ((issued.zip numbers).map fun x => ticketB x.1 (ticket x.1 x.2)).flatten⟩
                { (issued.zip numbers).foldl (fun v x => v.setTicket x.1 (some (ticket x.1 x.2))) u with
                  queue := q.filter fun g => decide (g ∉ issued)
                  nextTicket := number n }))
    ∧ (issued = [] →
      exec (.requestFeed .placing [line.code, byteOf asked]) s =
        .next (answer .placing .requestFeed
          ⟨.none, [byteOf taken, 0, if q = [] then 0 else if ∃ h ∈ q, s.mixLine h = line then 1 else 2]⟩ u))

/-- PLACED under an open ticket, or late under an expired entry, onto a stack that holds fewer than 12 layers (R24 to R26, R132, R134): the layer of R24 to R26 joins on top, the ticket closes or the entry leaves, the queue keeps its order; the answer is OK, CLAMPED, or ACCEPTED_LATE with the layer's serial, base, top and flags. -/
def Obligations.PlacementCommit : Prop :=
  ∀ (s : State) (x : Named) (k : Nat) (batch : Option Nat), Rest .placing s → x.number < 65536 → s.named x.number = some x →
    1 ≤ k → k < 65536 → (∀ b ∈ batch, b < 65536) → (s.stack x.sector).length < 12 →
    let g := x.sector
    let thick := max 20 (min 500 k)
    let base := if s.stack g = [] then max (s.concreteTop g) (s.reach g - s.h10) else s.concreteTop g
    let top := base + 10 * (thick : Int)
    let cold := match (s.stack g).getLast? with
      | some below => decide (((s.mix below.mix).coldAge : Int) < (s.minute : Int) - (below.placed : Int))
      | none => decide ((s.sector g).layers.wallBase.getD 0 < s.concreteTop g)
    let spills := decide (s.elev g - s.f10 < top)
    let l : Layer :=
      { serial := (s.sector g).layers.nextSerial, ticket := x.number, base := base, top := top, mix := x.mix, placed := s.minute,
        maturity := 0,
        flags := { ready := decide ((s.mix x.mix).threshold = 0), late := x.late, coldJoint := cold, overfill := spills,
                   short := decide (2 * thick < x.target), clamped := decide (thick ≠ k) },
        batch := batch }
    ∃ t, exec (.placed .placing (be16 x.number ++ be16 k ++ (match batch with
            | some b => be16 b
            | none => []))) s = .next t
      ∧ Answers .placing .placed
          ⟨if x.late then .acceptedLate else okOr (decide (thick ≠ k)),
            be16 x.number ++ sectorB g ++ figB thick ++ be16 l.serial ++ elevB base ++ elevB top ++ [l.flags.toByte batch.isSome]⟩ s t
      ∧ (t.sector g).layers = { (s.sector g).layers with
          stack := s.stack g ++ [l], top := some top,
          nextSerial := if (s.sector g).layers.nextSerial = 65535 then 1 else (s.sector g).layers.nextSerial + 1 }
      ∧ (t.sector g).ticket = (if x.late then (s.sector g).ticket else none)
      ∧ t.expired = (if x.late then s.expired.filter (fun e => decide (e.number ≠ x.number)) else s.expired)
      ∧ t.queue = s.queue
      ∧ (x.late = true → Entered .latePlacement (some g) s t)
      ∧ (cold = true → Entered .coldJoint (some g) s t)
      ∧ (spills = true → Entered .overfill (some g) s t)
      ∧ (t.sector g).table = (s.sector g).table ∧ (∀ h, h ≠ g → (t.sector h).held = (s.sector h).held)
      ∧ t.settings = s.settings ∧ t.tables = s.tables ∧ t.supply = s.supply

/-- PLACED onto a stack of 12 layers (R24, R133, R134): STACK_FULL with ticket number and sector; the ticket closes or the entry leaves, DISCREPANT is set, the sector leaves the queue; no layer, no other sector and no group changes. -/
def Obligations.PlacementRefused : Prop :=
  ∀ (s : State) (x : Named) (k : Nat), Rest .placing s → x.number < 65536 → s.named x.number = some x → 1 ≤ k → k < 65536 →
    12 ≤ (s.stack x.sector).length →
    ∃ t, exec (.placed .placing (be16 x.number ++ be16 k)) s = .next t
      ∧ Answers .placing .placed ⟨.stackFull, be16 x.number ++ sectorB x.sector⟩ s t
      ∧ t.sector x.sector = { s.sector x.sector with
          table := { (s.sector x.sector).table with flags := { (s.sector x.sector).table.flags with discrepant := true } }
          ticket := if x.late then (s.sector x.sector).ticket else none }
      ∧ (∀ h, h ≠ x.sector → t.sector h = s.sector h)
      ∧ t.expired = (if x.late then s.expired.filter (fun e => decide (e.number ≠ x.number)) else s.expired)
      ∧ t.queue = s.queue.filter (· ≠ x.sector)
      ∧ (Entered .discrepant (some x.sector) s t)
      ∧ t.mode = s.mode ∧ t.settings = s.settings ∧ t.tables = s.tables ∧ t.supply = s.supply ∧ t.creepList = s.creepList

/-- ABANDON and TICKET QUERY (R124, R135, R140): an open ticket abandoned closes and its sector, enabled and not DISCREPANT, goes to the head of the queue; an expired entry leaves; a number in neither is refused UNKNOWN_TICKET; the query answers OPEN with the ticket, EXPIRED with the entry's fields, or UNKNOWN, and changes nothing. The codes OPEN 0, EXPIRED 1, UNKNOWN 2 and the answer UNKNOWN_TICKET without fields are the model's choice (log 9, log 16). -/
def Obligations.AbandonAndQuery : Prop :=
  ∀ (s : State) (n : Nat), Rest .placing s → 1 ≤ n → n < 65536 →
    (∀ g k, s.findOpen n = some (g, k) →
      exec (.abandon .placing (be16 n)) s =
        .next (answer .placing .abandon ⟨.ok, be16 n ++ sectorB g⟩
          { s.setTicket g none with
            queue := if s.enabled g = true ∧ (s.sector g).table.flags.discrepant = false then g :: s.queue else s.queue })
      ∧ exec (.ticketQuery .placing (be16 n)) s = .next (answer .placing .ticketQuery ⟨.ok, 0 :: ticketB g k⟩ s))
    ∧ (∀ e, s.findOpen n = none → s.findExpired n = some e →
      exec (.abandon .placing (be16 n)) s =
        .next (answer .placing .abandon ⟨.ok, be16 n ++ sectorB e.sector⟩
          { s with expired := s.expired.filter fun e => decide (e.number ≠ n) })
      ∧ exec (.ticketQuery .placing (be16 n)) s = .next (answer .placing .ticketQuery ⟨.ok, 1 :: expiredFieldsB e⟩ s))
    ∧ (s.findOpen n = none → s.findExpired n = none →
      exec (.abandon .placing (be16 n)) s = .next (answer .placing .abandon ⟨.unknownTicket, []⟩ s)
      ∧ exec (.ticketQuery .placing (be16 n)) s = .next (answer .placing .ticketQuery ⟨.ok, [2]⟩ s))

/-- A PLACED with thickness 0 does what ABANDON of the same ticket does and answers as it does, with or without a batch reference: no layer is built (R136). -/
def Obligations.PlacedZeroAbandons : Prop :=
  ∀ (s : State) (n : Nat) (batch : Option Nat), Rest .placing s → n < 65536 → (∀ b ∈ batch, b < 65536) →
    ∃ r u, exec (.placed .placing (be16 n ++ be16 0 ++ (match batch with
            | some b => be16 b
            | none => []))) s = .next (answer .placing .placed r u)
      ∧ exec (.abandon .placing (be16 n)) s = .next (answer .placing .abandon r u)
      ∧ ∀ g, (u.sector g).layers = (s.sector g).layers

/-! ### Jack groups -/

/-- The valves follow the group state alone: the extend valve is on in PRESSURIZING and HOLDING, the return valve in VENTING, and no state drives both (R85). -/
def Obligations.ValvesFollowState : Prop :=
  ∀ st : GroupState,
    (st.extendValve = true ↔ st = .pressurizing ∨ st = .holding) ∧ (st.returnValve = true ↔ st = .venting)
      ∧ ¬(st.extendValve = true ∧ st.returnValve = true)

/-- The switch inputs (R86, R103): a level that is neither the debounced state nor under timing starts a timing with the debounce time in force, a return to the debounced state drops the timing, and the first debounced state after power-on is taken without an event, the group entering FAULT(SWITCH) when both are known and an IDLE group is not at home. A switch lost (R88, R96): STROKE_END_LOST changes only the debounced state; so does RETRACTED_LOST, but in IDLE in an enabled sector it sets SWITCH_FAULT and enters its alert. A switch taken in IDLE (R87, R88, R99): the stroke-end switch alone sets SWITCH_FAULT and enters its alert in an enabled sector, the retracted switch alone changes only its debounced state, and with both switches on the group enters FAULT(SWITCH), its margin, latched length and stroke counter kept; in an enabled sector SWITCH_FAULT and GROUP_FAULT are entered, a trim request that is READING becomes WAITING (R149), and a deck in CLIMB, where no survey runs (SurveyLaw), enters HOLD; a visit of the group without a stroke ends with FAULT, its readings abandoned and its survey request withdrawn, no trim result written (R152); in a disabled one nothing is handed on. When each switch command acts is the model's choice (log 3, log 14, log 23). -/
def Obligations.SwitchInputs : Prop :=
  (∀ (s : State) (g : Sector) (w : SwitchId) (level : Bool), s.due = {} →
    let x := (s.sector g).group.switch w
    (x.state ≠ some level → x.timing.map Timing.level ≠ some level →
      exec (.switchInputChange g w level) s = .next (setSwitch g w { x with timing := some ⟨level, s.deck.debounce⟩ } s))
    ∧ (∀ b tm, x.state = some b → x.timing = some tm →
      exec (.inputReturnsToDebouncedState g w) s = .next (setSwitch g w { state := some b, timing := none } s))
    ∧ (x.state = none → x.timing.map Timing.level ≠ some (!level) →
      ∃ t, exec (.switchFirstState g w level) s = .next t
        ∧ (t.sector g).group.switch w = { state := some level, timing := none }
        ∧ (let ends := if w = .strokeEnd then some level else (s.sector g).group.endSw.state
           let home := if w = .retracted then some level else (s.sector g).group.retSw.state
           (t.groupState g, (t.sector g).group.fault) =
            (if s.groupState g = .idle ∧ ends ≠ none ∧ home ≠ none ∧ ¬(home = some true ∧ ends = some false) then
              (GroupState.fault, some FaultKind.switch)
             else (s.groupState g, (s.sector g).group.fault)))
        ∧ (∀ h, (t.sector h).held = (s.sector h).held ∧ (h ≠ g → t.sector h = s.sector h))
        ∧ t.alerts = s.alerts ∧ t.mode = s.mode ∧ t.settings = s.settings ∧ t.feed = s.feed ∧ t.tables = s.tables))
  ∧ (∀ (s : State) (g : Sector) (ms : Nat), Quiet s →
    ((s.sector g).group.endSw = { state := some true, timing := some ⟨false, ms⟩ } →
      exec (.strokeEndLost g) s = .next (setSwitch g .strokeEnd { state := some false, timing := none } s))
    ∧ ((s.sector g).group.retSw = { state := some true, timing := some ⟨false, ms⟩ } →
      exec (.retractedLost g) s =
        .next (if s.groupState g = .idle ∧ s.enabled g = true then
          enterAlert .switchFault (some g)
            ((setSwitch g .retracted { state := some false, timing := none } s).modFlags g fun f => { f with switchFault := true })
        else setSwitch g .retracted { state := some false, timing := none } s)))
  ∧ ∀ (s : State) (g : Sector) (w : SwitchId) (ms : Nat), Quiet s → s.groupState g = .idle →
    (s.sector g).group.switch w = { state := some false, timing := some ⟨true, ms⟩ } →
    let c : Instr := if w = .strokeEnd then .strokeEndTaken g else .retractedTaken g
    let other := if w = .strokeEnd then (s.sector g).group.retSw.state else (s.sector g).group.endSw.state
    let u := setSwitch g w { state := some true, timing := none } s
    (other ≠ some true →
      exec c s = .next (if w = .strokeEnd ∧ s.enabled g = true then
          enterAlert .switchFault (some g) (u.modFlags g fun f => { f with switchFault := true })
        else u))
    ∧ (other = some true → s.enabled g = false →
      exec c s = .next (u.modGroup g fun r =>
        { r with state := .fault, fault := some .switch, timer := none, windows := 0, isOpen := false, failed := false }))
    ∧ (other = some true → s.enabled g = true →
      ∃ t, exec c s = .next t
        ∧ (t.sector g).group = { (u.sector g).group with
            state := .fault, fault := some .switch, timer := none, windows := 0, isOpen := false, failed := false }
        ∧ (t.sector g).table = { (s.sector g).table with flags := { (s.sector g).table.flags with switchFault := true } }
        ∧ (Entered .switchFault (some g) s t)
        ∧ (Entered .groupFault (some g) s t)
        ∧ (s.mode = .climb → s.surveyState = .none → t.mode = .hold)
        ∧ (s.visit = none → (t.sector g).trim.request =
            if (s.sector g).trim.request = .reading then .waiting else (s.sector g).trim.request)
        ∧ (s.mode = .survey → (s.visit = some (g, .reading) ∧ s.surveyReq = none) ∨ s.visit = some (g, .requested) →
            VisitEnds g .fault s t ∧ ((s.sector g).trim.underWay = false → (t.sector g).trim.result = (s.sector g).trim.result)
              ∧ t.tryUnderWay .before g = false)
        ∧ (∀ h, (t.sector h).layers = (s.sector h).layers ∧ (h ≠ g → (t.sector h).held = (s.sector h).held))
        ∧ t.settings = s.settings ∧ t.feed = s.feed ∧ t.tables = s.tables ∧ t.supply = s.supply ∧ t.ports = s.ports)

/-- STROKE_END_TAKEN in PRESSURIZING or STALLED commits the stroke, and in VENTING with the failed mark it commits it late (R7, R29, R76, R78, R90, R91, R93, R101): E rises by the latched length, the layers the form has left are released, each with a record in the release log, lowest first (R30, R31), the dwell counter is 0, the demand is removed, the stroke counter rises, and no stroke is open; from PRESSURIZING or STALLED the group is HOLDING with the settle time running, or VENTING at once with a settle time of 0; a late commit leaves it VENTING with its vent window running on and the failed mark clear. A short trim under way, or the visit's stroke, begins its after-readings when the group enters HOLDING with a settle time (R91, R150); at a late commit, or with a settle time of 0, its result is REJECTED with the level difference absent and TRIM_REJECTED is entered, the outcome of the visit too (R150, R152); the clauses on a visit have no survey request pending, as SurveyLaw gives. With the retracted switch on, SWITCH_FAULT is set and entered in an enabled sector (R87). Every other sector's records are kept. The state in which the switch event can occur is the model's choice (log 3). -/
def Obligations.StrokeCommits : Prop :=
  ∀ (s : State) (g : Sector) (e : Int) (l ms : Nat), Quiet s →
    (s.sector g).group.endSw = { state := some false, timing := some ⟨true, ms⟩ } →
    (s.groupState g = .pressurizing ∨ s.groupState g = .stalled
      ∨ (s.groupState g = .venting ∧ (s.sector g).group.failed = true ∧ (s.sector g).group.isOpen = true)) →
    (s.sector g).group.latched = some l → (s.sector g).table.elev = some e → 0 < s.deck.dwell →
    let late := s.groupState g = .venting
    let both := (s.sector g).group.retSw.state = some true ∧ s.enabled g = true
    let bottom := e + l - s.h10
    let gone := (s.stack g).takeWhile fun x => decide (x.top ≤ bottom)
    let left := (s.stack g).dropWhile fun x => decide (x.top ≤ bottom)
    let survey := s.visit = some (g, .stroke)
    let short := ¬survey ∧ (s.sector g).trim.underWay = true
    ∃ t, exec (.strokeEndTaken g) s = .next t
      ∧ (t.sector g).table = { (s.sector g).table with
          elev := some (e + l)
          flags := if both then { (s.sector g).table.flags with switchFault := true } else (s.sector g).table.flags }
      ∧ (both → Entered .switchFault (some g) s t)
      ∧ (t.sector g).layers = { (s.sector g).layers with
          stack := left
          top := if left = [] then (s.sector g).layers.top.map (max · bottom) else (s.sector g).layers.top }
      ∧ (t.sector g).group =
          (let r := { (s.sector g).group with
             isOpen := false, strokes := ((s.sector g).group.strokes + 1) % 4294967296, endSw := { state := some true, timing := none } }
           if late then { r with failed := false }
           else if s.deck.settle = 0 then { r with state := .venting, windows := 0, timer := some ⟨.vent, s.deck.vent⟩ }
           else { r with state := .holding, windows := 0, timer := some ⟨.settle, s.deck.settle⟩ })
      ∧ (t.sector g).pace.dwell = 0 ∧ (t.sector g).pace.count ≤ (s.sector g).pace.count - 1 ∧ t.demanded g = false
      ∧ (late ∨ g ∉ t.pressureOrder)
      ∧ Released g gone s t
      ∧ (late ∨ s.deck.settle = 0 →
          let rejected := fun k : TrimKind =>
            Entered .trimRejected (some g) s t
            ∧ (t.sector g).trim.result =
                some { kind := k, code := .rejected, oldLen := s.len g, newLen := s.len g, diff := none, minute := s.minute }
          (short → rejected .short ∧ (t.sector g).trim.underWay = false)
          ∧ (survey → s.surveyReq = none →
              rejected .survey ∧ (t.sector g).trim.outcome = some .rejected ∧ t.visit = some (g, .resultMade)))
      ∧ (¬late → s.deck.settle ≠ 0 → short ∨ (survey ∧ s.surveyReq = none) →
          (t.sector g).trim.after = [] ∧ t.tryUnderWay .after g = true ∧ (t.sector g).trim.result = (s.sector g).trim.result
            ∧ (t.sector g).trim.underWay = (s.sector g).trim.underWay ∧ (survey → t.visit = s.visit))
      ∧ (∀ h, h ≠ g → (t.sector h).held = (s.sector h).held)
      ∧ t.settings = s.settings ∧ t.feed = s.feed ∧ t.supply = s.supply ∧ t.ports = s.ports

/-- How a stroke ends in VENTING. RETRACTED_TAKEN with the failed mark clear brings the group home (R94): IDLE without a READY supply, else IDLE or granted anew; stroke counter, margin and E are kept; the group's visit, its result made, ends with the outcome it has (R152). RETRACTED_TAKEN, or the vent window's expiry, with the failed mark set ends the stroke in FAULT with the open stroke closed into the margin (R10, R94, R95, R99): fault kind STALL or VENT, the margin the latched length, E and a reach without an earlier margin kept, GROUP_FAULT and SUSPECT_POSITION entered or lost with ALERT_FULL; a deck in CLIMB, where no survey runs (SurveyLaw), enters HOLD; the group's visit ends with FAULT, its trim result SURVEY, REJECTED with the level difference absent, and TRIM_REJECTED is entered (R152); in a disabled sector nothing is handed on. The visit's premises, SURVEY and no survey request pending, are those of SurveyLaw once the stroke is granted. With the stroke-end switch on, RETRACTED_TAKEN sets and enters SWITCH_FAULT in an enabled sector (R87). The state in which each event can occur is the model's choice (log 3). -/
def Obligations.StrokeEnds : Prop :=
  (∀ (s : State) (g : Sector) (ms : Nat), Quiet s →
    (s.sector g).group.retSw = { state := some false, timing := some ⟨true, ms⟩ } →
    s.groupState g = .venting → (s.sector g).group.failed = false →
    let both := (s.sector g).group.endSw.state = some true ∧ s.enabled g = true
    ∃ t, exec (.retractedTaken g) s = .next t
      ∧ (t.groupState g = .idle ∨ t.groupState g = .pressurizing)
      ∧ (NoSupply s → (t.sector g).group = { (s.sector g).group with
          state := .idle, fault := none, timer := none, windows := 0, retSw := { state := some true, timing := none } })
      ∧ (t.sector g).group.strokes = (s.sector g).group.strokes
      ∧ (t.sector g).table = { (s.sector g).table with
          flags := if both then { (s.sector g).table.flags with switchFault := true } else (s.sector g).table.flags }
      ∧ (both → Entered .switchFault (some g) s t)
      ∧ (∀ o, s.mode = .survey → s.surveyReq = none → s.visit = some (g, .resultMade) →
          (s.sector g).trim.outcome = some o → o ≠ .pending → VisitEnds g o s t)
      ∧ (∀ h, (t.sector h).layers = (s.sector h).layers ∧ (h ≠ g → (t.sector h).held = (s.sector h).held))
      ∧ t.settings = s.settings ∧ t.feed = s.feed ∧ t.tables = s.tables ∧ t.supply = s.supply ∧ t.ports = s.ports)
  ∧ ∀ (s : State) (g : Sector) (l : Nat), Quiet s → s.groupState g = .venting → (s.sector g).group.failed = true →
    (s.sector g).group.isOpen = true → (s.sector g).group.latched = some l →
    ∀ (c : Instr) (kind : FaultKind),
      ((∃ ms, c = .retractedTaken g ∧ kind = .stall
          ∧ (s.sector g).group.retSw = { state := some false, timing := some ⟨true, ms⟩ })
        ∨ (c = .ventWindowExpiry g ∧ kind = .vent ∧ (s.sector g).group.timer = some ⟨.vent, 0⟩)) →
      let both := kind = .stall ∧ (s.sector g).group.endSw.state = some true ∧ s.enabled g = true
      ∃ t, exec c s = .next t
        ∧ (t.sector g).group = { (s.sector g).group with
            state := .fault, fault := some kind, isOpen := false, failed := false, timer := none, windows := 0
            retSw := if kind = .stall then { state := some true, timing := none } else (s.sector g).group.retSw }
        ∧ (t.sector g).table = { (s.sector g).table with
            margin := l
            flags := if both then { (s.sector g).table.flags with switchFault := true } else (s.sector g).table.flags }
        ∧ ((s.sector g).table.margin = 0 → t.reach g = s.reach g)
        ∧ (both → Entered .switchFault (some g) s t)
        ∧ (s.enabled g = true →
            (Entered .groupFault (some g) s t)
            ∧ (Entered .suspectPosition (some g) s t)
            ∧ (s.mode = .climb → s.surveyState = .none → t.mode = .hold)
            ∧ (s.mode = .survey → s.surveyReq = none → s.visit = some (g, .stroke) →
                VisitEnds g .fault s t
                ∧ (t.sector g).trim.result =
                    some { kind := .survey, code := .rejected, oldLen := s.len g, newLen := s.len g, diff := none, minute := s.minute }
                ∧ Entered .trimRejected (some g) s t))
        ∧ (s.enabled g = false → t.alerts = s.alerts ∧ t.mode = s.mode ∧ ∀ h, h ≠ g → t.sector h = s.sector h)
        ∧ (∀ h, (t.sector h).layers = (s.sector h).layers ∧ (h ≠ g → (t.sector h).held = (s.sector h).held))
        ∧ t.settings = s.settings ∧ t.feed = s.feed ∧ t.tables = s.tables ∧ t.supply = s.supply ∧ t.ports = s.ports

/-- The group timers. PRESSURIZE_WINDOW_EXPIRY (R92): below a window count of 3 the count rises, the window starts again, MARGINAL is set and MARGINAL_STROKE entered, nothing else changing; at 3 the group is VENTING with the failed mark, its stroke still open, out of the pressure order. SETTLE_TIME_EXPIRY (R93, R150) takes a HOLDING group to VENTING with the vent window running, E kept; where a short trim or the visit's stroke awaits its result and its four after-readings have not all ended good, the result is REJECTED with the level difference absent, L kept, TRIM_REJECTED entered, and a try under way disregarded; where none awaits one, record, trim and alerts are kept. VENT_WINDOW_EXPIRY (R95, R99) of a stroke that has committed takes the group to FAULT(VENT), the margin kept; in SURVEY the group's visit, its result made, ends with FAULT and its result stands (R152). That a timer with no second left can expire is the model's choice (log 3, log 15). -/
def Obligations.TimersExpire : Prop :=
  ∀ (s : State) (g : Sector), Quiet s →
    (s.groupState g = .pressurizing → (s.sector g).group.timer = some ⟨.window, 0⟩ →
    ((s.sector g).group.windows < 3 →
      exec (.pressurizeWindowExpiry g) s =
        .next (enterAlert .marginalStroke (some g)
          ((s.modGroup g fun r => { r with windows := r.windows + 1, timer := some ⟨.window, s.deck.window⟩ }).modFlags g
            fun f => { f with marginal := true })))
    ∧ (3 ≤ (s.sector g).group.windows →
      ∃ t, exec (.pressurizeWindowExpiry g) s = .next t
        ∧ (t.sector g).group = { (s.sector g).group with state := .venting, failed := true, timer := some ⟨.vent, s.deck.vent⟩ }
        ∧ g ∉ t.pressureOrder ∧ (∀ h, (t.sector h).held = (s.sector h).held)
        ∧ t.settings = s.settings ∧ t.feed = s.feed ∧ t.tables = s.tables ∧ t.supply = s.supply ∧ t.ports = s.ports))
    ∧ (s.groupState g = .holding → (s.sector g).group.timer = some ⟨.settle, 0⟩ →
      ∃ t, exec (.settleTimeExpiry g) s = .next t
        ∧ (t.sector g).group = { (s.sector g).group with state := .venting, timer := some ⟨.vent, s.deck.vent⟩ }
        ∧ (t.sector g).table = { (s.sector g).table with len := (t.sector g).table.len }
        ∧ t.tryUnderWay .after g = false
        ∧ (let survey := s.visit = some (g, .stroke)
           let short := ¬survey ∧ (s.sector g).trim.underWay = true
           let rejected := fun k : TrimKind =>
             (t.sector g).table = (s.sector g).table ∧ Entered .trimRejected (some g) s t
             ∧ (t.sector g).trim.result =
                 some { kind := k, code := .rejected, oldLen := s.len g, newLen := s.len g, diff := none, minute := s.minute }
           ((∀ a b c d, (s.sector g).trim.after ≠ [some a, some b, some c, some d]) →
             (short → rejected .short ∧ (t.sector g).trim.underWay = false)
             ∧ (survey → rejected .survey ∧ (t.sector g).trim.outcome = some .rejected ∧ t.visit = some (g, .resultMade)))
           ∧ (¬survey → ¬short →
             (t.sector g).table = (s.sector g).table ∧ (t.sector g).trim = (s.sector g).trim ∧ t.alerts = s.alerts))
        ∧ (∀ h, (t.sector h).layers = (s.sector h).layers ∧ (h ≠ g → (t.sector h).held = (s.sector h).held))
        ∧ t.settings = s.settings ∧ t.feed = s.feed ∧ t.tables = s.tables ∧ t.supply = s.supply ∧ t.ports = s.ports)
    ∧ (s.groupState g = .venting → (s.sector g).group.timer = some ⟨.vent, 0⟩ → (s.sector g).group.failed = false →
      ∃ t, exec (.ventWindowExpiry g) s = .next t
        ∧ t.groupState g = .fault ∧ (t.sector g).group.fault = some .vent ∧ (t.sector g).group.timer = none
        ∧ (s.enabled g = true → s.mode = .survey → s.surveyReq = none → s.visit = some (g, .resultMade) →
            VisitEnds g .fault s t ∧ ((s.sector g).trim.underWay = false → (t.sector g).trim.result = (s.sector g).trim.result))
        ∧ (t.sector g).group.strokes = (s.sector g).group.strokes
        ∧ (∀ h, (t.sector h).held = (s.sector h).held)
        ∧ t.settings = s.settings ∧ t.feed = s.feed ∧ t.tables = s.tables ∧ t.supply = s.supply ∧ t.ports = s.ports)

/-! ### The grant pass -/

/-- A group that comes to be PRESSURIZING in a command, and was neither PRESSURIZING nor STALLED, was granted (R89): its sector is enabled and established with no suspect margin, L is latched, the stroke is open, the first window runs; its reach then is at most E + T of every enabled established neighbour and at most 2 500 000 (R9, R66); and by its kind: PACED in CLIMB, with a paced request, not carried above the goal, the cure and the fill condition of R60 met (R73); CREEP in CLIMB or HOLD, with a demand, the conditions of R61 met; SURVEY in SURVEY, the conditions of R62 met. It is in the pressure order (R109). The premises are the laws of the stacks (R20, R21, R52), that no clock work is left for another command to complete first (log 2), and that no group timer stands at 0 at a clock event: SecondEvent says that such a timer expires first, as its own command does, and for that command this statement holds. -/
def Obligations.GrantsAreEligible : Prop :=
  ∀ (c : Instr) (s t : State) (g : Sector), StackLaw s → ConcreteLaw s →
    (Quiet s ∨ c ∈ [.paceCounterExpiry, .dwellLimitReached, .bondRisk, .supplyLapse, .ticketExpiry, .expiredEntryAging]) →
    (c = .secondEvent ∨ c = .minuteEvent → ∀ h k, (s.sector h).group.timer ≠ some ⟨k, 0⟩) →
    exec c s = .next t → s.groupState g ≠ .pressurizing → s.groupState g ≠ .stalled → t.groupState g = .pressurizing →
    let cured := fun slack : Int => ∀ l, (t.stack g).find? (fun x => !x.flags.ready) = some l → t.bottom g + t.len g ≤ l.base + slack
    let onConcrete := t.stack g ≠ [] → t.bottom g + t.len g ≤ t.concreteTop g
    t.enabled g = true ∧ t.established g = true ∧ (t.sector g).table.margin = 0
      ∧ ((t.sector g).group.isOpen = true ∧ (t.sector g).group.latched = some (t.len g) ∧ (t.sector g).group.failed = false
        ∧ (t.sector g).group.windows = 1
        ∧ ∃ x, (t.sector g).group.timer = some x ∧ x.kind = .window ∧ x.left ≤ t.deck.window ∧ t.deck.window ≤ x.left + 1)
      ∧ (∀ n ∈ t.nbrSet g, t.enabled n = true → t.established n = true → t.reach g ≤ t.elev n + t.t10) ∧ t.reach g ≤ 2500000
      ∧ (((t.sector g).group.kind = some .paced ∧ t.mode = .climb ∧ 0 < (t.sector g).pace.count
            ∧ (t.goal = 0 ∨ t.elev g + t.len g ≤ t.goal) ∧ cured 0 ∧ t.bottom g + t.len g ≤ t.concreteTop g - t.m10)
        ∨ ((t.sector g).group.kind = some .creep ∧ (t.mode = .climb ∨ t.mode = .hold) ∧ t.demanded g = true
            ∧ cured t.c10 ∧ onConcrete)
        ∨ ((t.sector g).group.kind = some .survey ∧ t.mode = .survey ∧ cured 0 ∧ onConcrete))
      ∧ g ∈ t.pressureOrder ∧ t.supply.state = .ready

/-- The grant pass that a SUPPLY STATE with READY runs, with no table load pending (R106, R110 to R114): the groups stalled before are resumed from the oldest on, each with a full window and everything else kept, in no mode but STANDBY, SURVEY, CLIMB and HOLD; new grants join the tail of the pressure order, and only once no group is left STALLED; and while capacity is free the pass ends only when nothing is left to serve: no stalled group, no pending survey request in SURVEY, no demand that can be granted in CLIMB or HOLD, no slot whose group can be granted in CLIMB. With no group left to resume, the pending survey request of the sector under visit is granted a SURVEY stroke, and the visit has its stroke; or it is withdrawn, and the visit ends with BLOCKED (R113, R152). The premises are the law of R108 and R109 and the ranges. -/
def Obligations.GrantPassServes : Prop :=
  ∀ (s : State) (k : Nat), Rest .supply s → PressureLaw s → RangeLaw s → k < 256 → s.loadPending = false →
    let resumes := s.mode = .standby ∨ s.mode = .survey ∨ s.mode = .climb ∨ s.mode = .hold
    ∃ t n new, exec (.supplyState .supply [1, byteOf k]) s = .next t
      ∧ (∀ g ∈ s.stalledList.take n, (t.sector g).group =
          { (s.sector g).group with state := .pressurizing, timer := some ⟨.window, s.deck.window⟩ })
      ∧ (∀ g ∈ s.stalledList.drop n, (t.sector g).group = (s.sector g).group)
      ∧ (¬resumes → n = 0 ∧ new = [])
      ∧ t.pressureOrder = s.pressureOrder ++ new ∧ (∀ g ∈ new, t.groupState g = .pressurizing) ∧ (new ≠ [] → t.stalledList = [])
      ∧ (t.numPressurizing < min k 8 → resumes →
          t.stalledList = [] ∧ (s.mode = .survey → t.surveyReq = none)
            ∧ (s.mode = .climb ∨ s.mode = .hold → ∀ e ∈ t.creepList, t.creepEligible e.sector = false)
            ∧ (s.mode = .climb → ∀ j g, t.slot j = some g → t.pacedEligible g = false))
      ∧ (∀ g, s.mode = .survey → s.stalledList = [] → s.numPressurizing < min k 8 →
          s.surveyReq = some g → s.visit = some (g, .requested) →
          (s.surveyEligible g = true →
            t.groupState g = .pressurizing ∧ (t.sector g).group.kind = some .survey ∧ t.visit = some (g, .stroke)
              ∧ t.surveyReq = none ∧ t.mode = .survey)
          ∧ (s.surveyEligible g = false → VisitEnds g .blocked s t ∧ t.pressureOrder = s.pressureOrder))

/-- The paced scan (R115, R117), in CLIMB with no group PRESSURIZING or STALLED and no demand that can be granted, on a SUPPLY STATE of READY with capacity 1: of the 32 slots from the scan pointer on, those past slot 31 read from the shadow table when a load is pending, the first that names an eligible group gets it a PACED stroke, with L latched and the first window running (R89); no other group changes; the pointer becomes the slot after; a pending load is taken when the scan has passed the round boundary. With no such slot no group changes, and the pointer is kept unless a load was taken on the way (log 27). -/
def Obligations.PacedScan : Prop :=
  ∀ s : State, Rest .supply s → s.mode = .climb → s.scanPtr < 32 →
    (∀ g, s.groupState g ≠ .pressurizing ∧ s.groupState g ≠ .stalled) → (∀ e ∈ s.creepList, s.creepEligible e.sector = false) →
    let p := s.scanPtr
    let name := fun i : Nat =>
      if p + i < 32 then s.slot (p + i) else if s.loadPending then (s.shadow.toList[p + i - 32]?).join else s.slot (p + i - 32)
    let eligible := fun i : Nat => ∃ g, name i = some g ∧ s.pacedEligible g = true
    (∀ i g, i < 32 → name i = some g → s.pacedEligible g = true → (∀ j < i, ¬eligible j) →
      let crossed := s.loadPending = true ∧ 31 ≤ p + i
      ∃ t, exec (.supplyState .supply [1, 1]) s = .next t
        ∧ (t.sector g).group = { (s.sector g).group with
            state := .pressurizing, isOpen := true, latched := some (s.len g), kind := some .paced, windows := 1, failed := false
            timer := some ⟨.window, s.deck.window⟩ }
        ∧ (∀ h, (t.sector h).held = (s.sector h).held ∧ (h ≠ g → t.sector h = s.sector h))
        ∧ t.pressureOrder = s.pressureOrder ++ [g] ∧ t.scanPtr = (p + i + 1) % 32
        ∧ (t.active, t.loadPending) = (if crossed then (s.shadow, false) else (s.active, s.loadPending)))
    ∧ ((∀ i < 32, ¬eligible i) →
      let crossed := s.loadPending = true ∧ 0 < p
      ∃ t, exec (.supplyState .supply [1, 1]) s = .next t
        ∧ t.sectors = s.sectors ∧ t.pressureOrder = s.pressureOrder
        ∧ (t.active, t.loadPending, t.scanPtr) = (if crossed then (s.shadow, false, 0) else (s.active, s.loadPending, p)))

/-! ### The clock and what it makes due -/

/-- SECOND_EVENT at a second below 59 with no group timer at 0 (R41, R42, R44, R70, R76, R77, R79, R84, R107): the second rises, every group timer and running pace counter counts down, the dwell counter of an enabled sector whose stack holds layers rises outside UNSET, the lapse counter rises while it runs, and the pace counters at 0, the creep demands to be raised, the counters risen to twice the dwell limit and the supply lapse are marked due (log 2); in every tenth second each enabled sector has a poll under way. A group timer that stands at 0 when a second or minute event begins expires first, as its own command does, with a grant pass of its own (R92, R93, R95, R110), the lowest sector before the others; the order is the model's choice (log 15), and the premise the ranges of a written DECK block (R171). -/
def Obligations.SecondEvent : Prop :=
  (∀ s : State, Quiet s → s.second < 59 → (∀ g k, (s.sector g).group.timer ≠ some ⟨k, 0⟩) →
    ∃ t, exec .secondEvent s = .next t ∧ t.second = s.second + 1 ∧ t.minute = s.minute
      ∧ (∀ g, t.sector g = { s.sector g with
          group := { (s.sector g).group with timer := (s.sector g).group.timer.map fun x => { x with left := x.left - 1 } }
          pace := { (s.sector g).pace with
            counter := if (s.sector g).pace.running = true then (s.sector g).pace.counter - 1 else (s.sector g).pace.counter
            dwell := if s.enabled g = true ∧ s.stack g ≠ [] ∧ s.mode ≠ .unset then min 65535 ((s.sector g).pace.dwell + 1)
              else (s.sector g).pace.dwell } })
      ∧ t.supply = { s.supply with lapse := if s.supply.lapseRunning = true then s.supply.lapse + 1 else s.supply.lapse }
      ∧ (t.due.pace = true ↔ ∃ g, (t.sector g).pace.running = true ∧ (t.sector g).pace.counter = 0)
      ∧ (t.due.dwell = true ↔ ∃ g, s.enabled g = true ∧ s.stack g ≠ [] ∧ s.deck.dwell ≤ (t.sector g).pace.dwell ∧ s.demanded g = false
          ∧ (s.mode = .climb ∨ (s.mode = .hold ∧ g ∈ s.creepSet)))
      ∧ (t.due.lapse = true ↔ s.supply.lapseRunning = true ∧ s.supply.state ≠ .lapsed ∧ s.deck.lapse ≤ t.supply.lapse)
      ∧ (∀ g, g ∈ t.due.bond ↔ (s.sector g).pace.dwell < 2 * s.deck.dwell ∧ 2 * s.deck.dwell ≤ (t.sector g).pace.dwell)
      ∧ ((s.second + 1) % 10 ≠ 0 → t.line = s.line ∧ t.waiting = s.waiting)
      ∧ ((s.second + 1) % 10 = 0 → ∀ g, s.enabled g = true → t.tryUnderWay .probe g = true)
      ∧ t.mode = s.mode ∧ t.alerts = s.alerts ∧ t.creepList = s.creepList ∧ t.pressureOrder = s.pressureOrder
      ∧ t.deck = s.deck ∧ t.mixes = s.mixes ∧ t.feed = s.feed ∧ t.tables = s.tables ∧ t.ports = s.ports)
  ∧ ∀ (s : State) (c : Instr) (g : Sector) (k : TimerKind), Quiet s → RangeLaw s → s.deckWritten = true →
    (c = .secondEvent ∨ c = .minuteEvent) →
    (s.sector g).group.timer = some ⟨k, 0⟩ → (∀ h j, h < g → (s.sector h).group.timer ≠ some ⟨j, 0⟩) →
    let expiry : Instr := match k with
      | .window => .pressurizeWindowExpiry g
      | .settle => .settleTimeExpiry g
      | .vent => .ventWindowExpiry g
    ∃ u, exec expiry s = .next u ∧ exec c s = exec c u

/-- A minute event, by MINUTE_EVENT or by SECOND_EVENT at second 59 (R41, R46, R48, R51, R52, R137, R138, R145; log 4, log 10): the minute rises, a probe UNKNOWN or HELD for 10 minutes becomes STALE, each sector's temperature in use follows the chain own, lowest substitute, default, and every layer of an enabled sector gains the minute's increment and is READY from its threshold on; no other field of a layer changes; the tickets at their deadline and the entries that have aged out are marked due (log 2), and a drift check is under way for every sector that is enabled, established and IDLE. It is a second event too (R42, R44, R70, R76, R77, R79, R84, R107): the group timers and the running pace counters count down, the dwell and lapse counters rise, each enabled sector has a poll under way, as the deck second is 0, and what the counters have reached is marked due. A group that is IDLE or STALLED may be served by the pass that follows new READY layers (R54) when nothing else is due. What a timer at 0 does first is said by SecondEvent. -/
def Obligations.MinuteEvent : Prop :=
  ∀ (s : State) (c : Instr), Quiet s → (c = .minuteEvent ∨ (c = .secondEvent ∧ s.second = 59)) →
    (∀ g k, (s.sector g).group.timer ≠ some ⟨k, 0⟩) →
    ∃ t, exec c s = .next t ∧ t.second = 0 ∧ t.minute = (s.minute + 1) % 4294967296
      ∧ (∀ g,
          let stale := s.enabled g = true ∧ ((s.sector g).probe.state = .unknown ∨ (s.sector g).probe.state = .held)
            ∧ (s.sector g).probe.refMinute + 10 ≤ t.minute
          (t.sector g).probe.state = (if stale then .stale else (s.sector g).probe.state)
            ∧ (t.sector g).probe.lastGood = (s.sector g).probe.lastGood
            ∧ (stale → Entered .probeStale (some g) s t))
      ∧ (let own := fun g : Sector =>
           if (t.sector g).probe.state = .live ∨ (t.sector g).probe.state = .held then (t.sector g).probe.lastGood else none
         let lent := fun g : Sector => if s.enabled g = true then own g else none
         ∀ g,
          (∀ r, own g = some r → (t.sector g).probe.temp = r ∧ (t.sector g).probe.source = .own)
          ∧ (own g = none →
              (∀ h r, h ≠ g → lent h = some r → (∀ k q, k ≠ g → lent k = some q → r < q ∨ (r = q ∧ h ≤ k)) →
                (t.sector g).probe.temp = r ∧ (t.sector g).probe.source = .substitute h)
              ∧ ((∀ h, h ≠ g → lent h = none) →
                (t.sector g).probe.temp = 2 * s.deck.cold ∧ (t.sector g).probe.source = .default)))
      ∧ (∀ g, (t.sector g).layers = { (s.sector g).layers with
          stack := if s.enabled g = false then s.stack g else (s.stack g).map fun l =>
            let gain : Int := max 0 (min 70 (((t.sector g).probe.temp + 20) / 2))
            let m := min 65535 (l.maturity + gain.toNat)
            { l with maturity := m, flags := { l.flags with ready := l.flags.ready || decide ((s.mix l.mix).threshold ≤ m) } } })
      ∧ (t.due.expiry = true ↔ ∃ g k, (s.sector g).ticket = some k ∧ k.deadline ≤ t.minute)
      ∧ (t.due.aging = true ↔ ∃ e ∈ s.expired, e.deadline + s.deck.feedTimeout ≤ t.minute)
      ∧ (∀ g, t.tryUnderWay .drift g =
          (s.tryUnderWay .drift g || decide (s.enabled g = true ∧ s.established g = true ∧ s.groupState g = .idle)))
      ∧ (∀ g, (NoSupply s ∨ (s.groupState g ≠ .idle ∧ s.groupState g ≠ .stalled) → (t.sector g).group = { (s.sector g).group with
            timer := (s.sector g).group.timer.map fun x => { x with left := x.left - 1 } })
          ∧ (t.sector g).pace = { (s.sector g).pace with
              counter := if (s.sector g).pace.running = true then (s.sector g).pace.counter - 1 else (s.sector g).pace.counter
              dwell := if s.enabled g = true ∧ s.stack g ≠ [] ∧ s.mode ≠ .unset then min 65535 ((s.sector g).pace.dwell + 1)
                else (s.sector g).pace.dwell })
      ∧ t.supply = { s.supply with lapse := if s.supply.lapseRunning = true then s.supply.lapse + 1 else s.supply.lapse }
      ∧ (t.due.pace = true ↔ ∃ g, (t.sector g).pace.running = true ∧ (t.sector g).pace.counter = 0)
      ∧ (t.due.dwell = true ↔ ∃ g, s.enabled g = true ∧ s.stack g ≠ [] ∧ s.deck.dwell ≤ (t.sector g).pace.dwell ∧ s.demanded g = false
          ∧ (s.mode = .climb ∨ (s.mode = .hold ∧ g ∈ s.creepSet)))
      ∧ (t.due.lapse = true ↔ s.supply.lapseRunning = true ∧ s.supply.state ≠ .lapsed ∧ s.deck.lapse ≤ t.supply.lapse)
      ∧ (∀ g, g ∈ t.due.bond ↔ (s.sector g).pace.dwell < 2 * s.deck.dwell ∧ 2 * s.deck.dwell ≤ (t.sector g).pace.dwell)
      ∧ (∀ g, s.enabled g = true → t.tryUnderWay .probe g = true)
      ∧ (∀ g, (t.sector g).table = (s.sector g).table ∧ (t.sector g).ticket = (s.sector g).ticket)
      ∧ t.deck = s.deck ∧ t.mixes = s.mixes ∧ t.feed = s.feed ∧ t.tables = s.tables ∧ t.ports = s.ports

/-- PACE_COUNTER_EXPIRY (R70): each running counter at 0 is loaded with the interval; below a paced request count of 2 the count rises, at 2 PACE_SLIP is set and entered; every other counter, count and flag is kept. That a command takes the expiries the clock has marked due is the model's choice (log 2). -/
def Obligations.PaceExpiry : Prop :=
  ∀ s : State, s.due = { pace := true } → s.passDue = false →
    ∃ t, exec .paceCounterExpiry s = .next t ∧ t.due = {}
      ∧ (∀ g,
          let expired := (s.sector g).pace.running = true ∧ (s.sector g).pace.counter = 0
          (t.sector g).pace = (if expired then
              { (s.sector g).pace with
                counter := s.interval g
                count := if (s.sector g).pace.count < 2 then (s.sector g).pace.count + 1 else (s.sector g).pace.count }
            else (s.sector g).pace)
          ∧ (t.sector g).table = (if expired ∧ 2 ≤ (s.sector g).pace.count then
              { (s.sector g).table with flags := { (s.sector g).table.flags with paceSlip := true } } else (s.sector g).table)
          ∧ (expired → 2 ≤ (s.sector g).pace.count → Entered .paceSlip (some g) s t)
          ∧ (t.sector g).layers = (s.sector g).layers ∧ (t.sector g).probe = (s.sector g).probe
          ∧ (t.sector g).ticket = (s.sector g).ticket)
      ∧ t.settings = s.settings ∧ t.feed = s.feed ∧ t.tables = s.tables ∧ t.supply = s.supply ∧ t.ports = s.ports

/-- DWELL_LIMIT_REACHED, BOND_RISK and SUPPLY_LAPSE. DWELL_LIMIT_REACHED (R77): every sector that meets the conditions of R77 and no other joins the creep list, at the tail, in descending dwell counter and then ascending index, with the deck minute. BOND_RISK (R79): for every sector marked due the flag is set and the alert entered, nothing else changing. SUPPLY_LAPSE (R107, R108): the supply is LAPSED with its counter stopped, every PRESSURIZING group STALLED, the alert entered; its premise is the law of R108 and R109. That these commands take what the clock has marked due is the model's choice (log 2). -/
def Obligations.ThresholdsReached : Prop :=
  (∀ s : State, s.due = { dwell := true } → s.passDue = false →
    ∃ t new, exec .dwellLimitReached s = .next t ∧ t.due = {} ∧ t.creepList = s.creepList ++ new
      ∧ (∀ g, (∃ e ∈ new, e.sector = g) ↔
          s.enabled g = true ∧ s.stack g ≠ [] ∧ s.deck.dwell ≤ (s.sector g).pace.dwell ∧ s.demanded g = false
            ∧ (s.mode = .climb ∨ (s.mode = .hold ∧ g ∈ s.creepSet)))
      ∧ (∀ e ∈ new, e.minute = s.minute)
      ∧ new.Pairwise (fun a b => (s.sector b.sector).pace.dwell < (s.sector a.sector).pace.dwell
          ∨ ((s.sector b.sector).pace.dwell = (s.sector a.sector).pace.dwell ∧ a.sector < b.sector))
      ∧ (∀ g, (t.sector g).held = (s.sector g).held ∧ (t.sector g).pace = (s.sector g).pace)
      ∧ t.mode = s.mode ∧ t.settings = s.settings ∧ t.feed = s.feed ∧ t.tables = s.tables ∧ t.supply = s.supply)
  ∧ (∀ (s : State) (gs : List Sector), gs ≠ [] → s.due = { bond := gs } → s.passDue = false →
    ∃ t, exec .bondRisk s = .next t
      ∧ (∀ g, t.sector g = { s.sector g with table := { (s.sector g).table with flags :=
          { (s.sector g).table.flags with bondRisk := (s.sector g).table.flags.bondRisk || gs.contains g } } })
      ∧ (∀ g ∈ gs, Entered .bondRisk (some g) s t)
      ∧ t = { s with due := {}, sectors := t.sectors, alerts := t.alerts, alertFull := t.alertFull })
  ∧ ∀ s : State, s.due = { lapse := true } → s.passDue = false → PressureLaw s →
    ∃ t, exec .supplyLapse s = .next t ∧ t.due = {}
      ∧ t.supply = { s.supply with state := .lapsed, lapseRunning := false } ∧ t.capacity = 0 ∧ t.numPressurizing = 0
      ∧ (Entered .supplyLapse none s t)
      ∧ (∀ g, t.sector g = { s.sector g with
          group := if s.groupState g = .pressurizing then { (s.sector g).group with state := .stalled, timer := none }
            else (s.sector g).group })
      ∧ t.mode = s.mode ∧ t.pressureOrder = s.pressureOrder ∧ t.creepList = s.creepList
      ∧ t.settings = s.settings ∧ t.feed = s.feed ∧ t.tables = s.tables ∧ t.ports = s.ports

/-- TICKET_EXPIRY and EXPIRED_ENTRY_AGING (R124, R137, R138). The tickets at their deadline leave the open set in the order of deadline and then number; they join the expired list as its newest entries, the oldest giving way beyond 8; their sectors, enabled and not DISCREPANT, go to the head of the queue as one block in that order; TICKET_EXPIRED is entered for each. An entry whose deadline lies a feed timeout back leaves the list, and nothing else changes. That these commands take what the minute has marked due is the model's choice (log 2). -/
def Obligations.TicketsExpire : Prop :=
  (∀ s : State, s.due = { expiry := true } → s.passDue = false → s.expired.length ≤ 8 →
    ∃ t es, exec .ticketExpiry s = .next t ∧ t.due = {}
      ∧ (∀ e : Expired, e ∈ es ↔ ∃ k, (s.sector e.sector).ticket = some k ∧ k.deadline ≤ s.minute
          ∧ e = { number := k.number, sector := e.sector, mix := k.mix, target := k.target, deadline := k.deadline })
      ∧ (es.map Expired.sector).Nodup
      ∧ es.Pairwise (fun a b => a.deadline < b.deadline ∨ (a.deadline = b.deadline ∧ a.number ≤ b.number))
      ∧ (∀ g, t.sector g = { s.sector g with
          ticket := if ∃ k, (s.sector g).ticket = some k ∧ k.deadline ≤ s.minute then none else (s.sector g).ticket })
      ∧ t.expired = (s.expired ++ es).drop ((s.expired ++ es).length - 8)
      ∧ t.queue = ((es.map Expired.sector).filter fun g => decide (s.enabled g = true ∧ (s.sector g).table.flags.discrepant = false))
          ++ s.queue
      ∧ (∀ e ∈ es, Entered .ticketExpired (some e.sector) s t)
      ∧ t.mode = s.mode ∧ t.settings = s.settings ∧ t.tables = s.tables ∧ t.supply = s.supply ∧ t.ports = s.ports)
  ∧ ∀ s : State, s.due = { aging := true } → s.passDue = false →
    exec .expiredEntryAging s =
      .next { s with due := {}, expired := s.expired.filter fun e => decide (s.minute < e.deadline + s.deck.feedTimeout) }

/-! ### The sensor line -/

/-- Tries on the sensor line (R43, R44). A good probe answer makes the probe LIVE with the reading, limited to −80..160, and the deck minute; from the second try on PROBE_MARGINAL is set. A corrupt answer or a timeout before the third try requests the next try; the third failed try of a poll makes a LIVE probe HELD. The line then takes the next waiting try. Which try an answer ends is the model's choice (log 3). -/
def Obligations.SensorTries : Prop :=
  ∀ (s : State) (g : Sector) (a : Nat) (k : TryKind), Quiet s → s.line = some ⟨k, g, a, true⟩ →
    let served : State := { s with line := s.waiting.head?, waiting := s.waiting.tail }
    let more : List Try := s.waiting ++ [⟨k, g, a + 1, true⟩]
    let again : State := { s with line := more.head?, waiting := more.tail }
    (∀ z : Int, k = .probe →
      exec (.probeAnswer z false) s = .next ((served.modProbe g fun p =>
        { p with
          state := .live, lastGood := some (max (-80) (min 160 z)), lastMinute := some s.minute, refMinute := s.minute }).modFlags g
            fun f => { f with probeMarginal := f.probeMarginal || decide (2 ≤ a) }))
    ∧ (∀ z : Int, k = .probe → a < 3 → exec (.probeAnswer z true) s = .next again)
    ∧ (∀ z : Int, k = .probe → 3 ≤ a →
      exec (.probeAnswer z true) s = .next (served.modProbe g fun p => { p with state := if p.state = .live then .held else p.state })
      ∧ exec .sensorTryTimeout s = .next (served.modProbe g fun p => { p with state := if p.state = .live then .held else p.state }))
    ∧ (∀ v, k ≠ .probe → a < 3 → exec (.receiverAnswer v true) s = .next again)
    ∧ (a < 3 → exec .sensorTryTimeout s = .next again)
    ∧ (∀ v, k = .drift → 3 ≤ a → exec (.receiverAnswer v true) s = .next served)

/-- A drift reading that ends good (R143, R145): the drift is plane + reading + offset − E with its minute; above ten times the limit, taken without sign, DRIFT is set and DRIFT_LIMIT entered when the reading before was not beyond it. -/
def Obligations.DriftReading : Prop :=
  ∀ (s : State) (g : Sector) (a : Nat) (v : BitVec 16), Quiet s → s.line = some ⟨.drift, g, a, true⟩ →
    let d : Int := (s.plane : Int) + v.toNat + (s.sector g).table.offset - s.elev g
    let beyond := 10 * s.deck.driftLimit < d.natAbs
    ∃ t, exec (.receiverAnswer v false) s = .next t
      ∧ t.line = s.waiting.head? ∧ t.waiting = s.waiting.tail
      ∧ t.sector g = { s.sector g with
          trim := { (s.sector g).trim with drift := some (d, s.minute), beyond := decide beyond }
          table := { (s.sector g).table with flags :=
            { (s.sector g).table.flags with drift := (s.sector g).table.flags.drift || decide beyond } } }
      ∧ (∀ h, h ≠ g → t.sector h = s.sector h)
      ∧ (beyond → (s.sector g).trim.beyond = false → Entered .driftLimit (some g) s t)
      ∧ (¬(beyond ∧ (s.sector g).trim.beyond = false) → t.alerts = s.alerts)
      ∧ t.mode = s.mode ∧ t.settings = s.settings ∧ t.feed = s.feed ∧ t.tables = s.tables ∧ t.supply = s.supply ∧ t.ports = s.ports

/-- The readings of a trim. Each of the first three readings, good, or missing after its third try, is kept and the next one is requested (R149, R150, R152). The fourth before-reading, good, or missing after its third try (R149, R152): when all four are good a trim request becomes HELD, and a visit asks for its survey stroke, which waits while the supply is not READY; when one is missing the result is SHORT or SURVEY, REJECTED, with the level difference absent and L kept, TRIM_REJECTED is entered (R147), and the request becomes NONE, or the visit ends with REJECTED. The fourth after-reading of a short trim, or of the visit's stroke, taken while its group settles (R146, R150, R152): the level difference is the mean of the after-readings less that of the before-readings, each rounded down; at 0 or below the trim is REJECTED and L kept, else new L is the difference limited to a tenth about old L, to 150..400 and to T, APPLIED or CLAMPED; the short trim is no longer under way, or the code is the visit's outcome. A missing fourth before-reading of a visit is judged once four have been taken (log 12). -/
def Obligations.TrimReadings : Prop :=
  (∀ (s : State) (g : Sector) (a : Nat) (k : TryKind) (v : Option (BitVec 16)), Quiet s →
    s.line = some ⟨k, g, a, true⟩ → (k = .before ∨ k = .after) → (v = none → 3 ≤ a) →
    (if k = .before then (s.sector g).trim.before else (s.sector g).trim.after).length < 3 →
    let c : Instr := match v with
      | some r => .receiverAnswer r false
      | none => .sensorTryTimeout
    let asked : List Try := s.waiting ++ [⟨k, g, 1, true⟩]
    exec c s = .next { s.modTrim g (fun t =>
        if k = .before then { t with before := t.before ++ [v.map BitVec.toNat] }
        else { t with after := t.after ++ [v.map BitVec.toNat] }) with line := asked.head?, waiting := asked.tail })
  ∧ (∀ (s : State) (g : Sector) (a : Nat) (x y z : Option Nat) (v : Option (BitVec 16)), Quiet s →
    s.line = some ⟨.before, g, a, true⟩ → (v = none → 3 ≤ a) → (s.sector g).trim.before = [x, y, z] →
    let c : Instr := match v with
      | some r => .receiverAnswer r false
      | none => .sensorTryTimeout
    let taken := [x, y, z, v.map BitVec.toNat]
    let rejected := fun k : TrimKind =>
      ({ kind := k, code := .rejected, oldLen := s.len g, newLen := s.len g, diff := none, minute := s.minute } : TrimResult)
    ∃ t, exec c s = .next t
      ∧ ((∀ r ∈ taken, r ≠ none) →
          (s.visit ≠ some (g, .reading) → NoSupply s →
            t.sector g = { s.sector g with trim := { (s.sector g).trim with request := .held, before := taken } } ∧ t.visit = s.visit)
          ∧ (s.visit = some (g, .reading) → NoSupply s → t.visit = some (g, .requested) ∧ t.surveyReq = some g))
      ∧ (none ∈ taken →
          (Entered .trimRejected (some g) s t)
          ∧ (s.visit ≠ some (g, .reading) →
            t.sector g = { s.sector g with trim := { (s.sector g).trim with
              request := .none, before := [], result := some (rejected .short) } } ∧ t.visit = s.visit)
          ∧ (s.visit = some (g, .reading) →
            (t.sector g).trim.result = some (rejected .survey) ∧ (t.sector g).trim.outcome = some .rejected
              ∧ t.visit ≠ some (g, .reading)
              ∧ (s.mode = .survey → s.surveyReq = none → VisitEnds g .rejected s t)))
      ∧ (∀ h, (t.sector h).held = (s.sector h).held)
      ∧ t.settings = s.settings ∧ t.feed = s.feed ∧ t.tables = s.tables ∧ t.supply = s.supply ∧ t.ports = s.ports)
  ∧ ∀ (s : State) (g : Sector) (a : Nat) (v : BitVec 16) (b1 b2 b3 b4 a1 a2 a3 old : Nat) (kind : TrimKind), Quiet s →
    s.line = some ⟨.after, g, a, true⟩ → s.groupState g = .holding →
    (kind = .short ∧ s.visit ≠ some (g, .stroke) ∧ (s.sector g).trim.underWay = true ∨ kind = .survey ∧ s.visit = some (g, .stroke)) →
    (s.sector g).trim.before = [some b1, some b2, some b3, some b4] → (s.sector g).trim.after = [some a1, some a2, some a3] →
    (s.sector g).table.len = some old →
    let diff : Int := (((a1 + a2 + a3 + v.toNat) / 4 : Nat) : Int) - (((b1 + b2 + b3 + b4) / 4 : Nat) : Int)
    let near : Int := max ((old : Int) - (old / 10 : Nat)) (min ((old : Int) + (old / 10 : Nat)) diff)
    let new : Int := if diff ≤ 0 then old else min (10 * (s.deck.tilt : Int)) (max 150 (min 400 near))
    let code : TrimCode := if diff ≤ 0 then .rejected else if new = diff then .applied else .clamped
    ∃ t, exec (.receiverAnswer v false) s = .next t
      ∧ (t.sector g).trim.result =
          some { kind := kind, code := code, oldLen := old, newLen := new.toNat, diff := some diff, minute := s.minute }
      ∧ (kind = .short → (t.sector g).trim.underWay = false)
      ∧ (kind = .survey → t.visit = some (g, .resultMade) ∧ (t.sector g).trim.outcome =
          some (if diff ≤ 0 then .rejected else if new = diff then .applied else .clamped))
      ∧ (t.sector g).table = { (s.sector g).table with len := some new.toNat }
      ∧ (t.sector g).group = (s.sector g).group
      ∧ (diff ≤ 0 → Entered .trimRejected (some g) s t)
      ∧ (∀ h, (t.sector h).layers = (s.sector h).layers ∧ (h ≠ g → (t.sector h).held = (s.sector h).held))
      ∧ t.settings = s.settings ∧ t.feed = s.feed ∧ t.tables = s.tables ∧ t.supply = s.supply ∧ t.ports = s.ports

/-! ### The sweep -/

/-- Q holds the enabled sectors the order list names, in its order, then the other enabled sectors in ascending index; the i-th sector of sweep w is Q[(s + w + i) mod n] under ROTATE, Q[(s + i) mod n] under ALTERNATE in an even sweep, Q[(s − 1 − i) mod n] in an odd one, s the start index modulo n (R120, R121). -/
def Obligations.SweepOrder : Prop :=
  ∀ (s : State) (w : Nat),
    let q := (s.sweep.order.filter fun g => s.enabled g) ++ allSectors.filter fun g => s.enabled g && !s.sweep.order.contains g
    let n := q.length
    let st := s.sweep.start % n
    (s.sweepOrder w).length = n
    ∧ ∀ i, i < n → (s.sweepOrder w)[i]? =
        (let j : Int := match s.sweep.mode with
           | .rotate => st + w + i
           | .alternate => if w % 2 = 0 then st + i else st - 1 - i
         q[(j % n).toNat]?)

/-! ### The laws -/

/-- Every step keeps the law of the alert list: at most 16 entries, no two of one kind and sector, repeat counts 1..255. And what entering an alert does (R187): an alert that is held has its repeat count raised by 1, saturating at 255, first minute and place kept; another joins as the newest with the deck minute and a count of 1 while fewer than 16 are held; with 16 held it is not entered and ALERT_FULL is set. Nothing else changes. -/
def Obligations.AlertLawKept : Prop :=
  (∀ s t : State, AlertLaw s → step s = .next t → AlertLaw t)
  ∧ ∀ (s : State) (k : AlertKind) (g : Option Sector), AlertLaw s →
    (∀ i a, s.alerts[i]? = some a → a.kind = k → a.sector = g →
      enterAlert k g s = { s with alerts := s.alerts.set i { a with count := min 255 (a.count + 1) } })
    ∧ ((∀ a ∈ s.alerts, ¬(a.kind = k ∧ a.sector = g)) →
      (s.alerts.length < 16 → enterAlert k g s = { s with alerts := s.alerts ++ [⟨k, g, s.minute, 1⟩] })
      ∧ (s.alerts.length = 16 → enterAlert k g s = { s with alertFull := true }))

/-- Every step keeps the laws of the stacks. At most 12 layers, each resting on the one beneath, the concrete top the top of the topmost (R19, R20). With it: a layer has a thickness, a layer not READY is below the threshold in force, no maturity is above 65 535, and the form bottom of an established sector is never above its concrete top (R21, R52). With these and the law of R8, a step from a state that keeps the exposure law of R25 keeps it, and keeps the concrete top at or above the reach bottom, but where a layer without a ticket joins the empty stack of a SUSPECT sector: LAYER RESTORE can place such a layer with its top below the reach bottom (R33), which R25 does not speak of. -/
def Obligations.StackLawKept : Prop :=
  (∀ s t : State, StackLaw s → step s = .next t → StackLaw t)
  ∧ (∀ s t : State, StackLaw s → ConcreteLaw s → step s = .next t → ConcreteLaw t)
  ∧ ∀ s t : State, StackLaw s → ConcreteLaw s → StrokeLaw s →
    (∀ g, s.established g = true → ¬Exposed s g ∧ Grounded s g) → step s = .next t →
    ∀ g, t.established g = true →
      ¬Exposed t g ∧ (Grounded t g ∨ (s.stack g = [] ∧ s.suspect g = true ∧ ∃ l, t.stack g = [l] ∧ l.ticket = 0))

/-- Every step keeps the law of open strokes (R8): a stroke is open exactly in PRESSURIZING, STALLED and VENTING with the failed mark, which is set in VENTING alone, and a group with an open stroke has a latched length and a suspect margin of 0. With it, every step keeps the tilt law of R9 over adjacent enabled established sectors, the law of R5 that the tilt limit is no smaller than any enabled sector's stroke length, and the ranges of R6: no elevation is below 0, no reach above 2 500 000. -/
def Obligations.TiltLawKept : Prop :=
  (∀ s t : State, StrokeLaw s → step s = .next t → StrokeLaw t)
  ∧ ∀ s t : State, StrokeLaw s → TiltLaw s → step s = .next t → TiltLaw t

/-- Elevations and layers over a step that is not a power-on reset. Once set, E stays set; it is kept, or rises by the latched length of an open stroke that the step closes (R7), or rises by at most the suspect margin that an ADJUST answered OK or CLAMPED clears (R11), or is the elevation an ESTABLISH answered OK or CLAMPED sets on an empty stack with no group in flight (R6, R12). A stroke that closes was open before the step, or was granted by the clock work that the command first completes (log 2). The premise on E is the law of R8. The layers of a stack leave from the bottom up, each with its top at or below the form bottom then reached (R29); those that stay keep their order and every field but maturity, which never falls, and READY, which stays set (R52); at most one layer joins, on top (R20). -/
def Obligations.ElevationKept : Prop :=
  ∀ s t : State, s.pending.head? ≠ some .powerOnReset → step s = .next t → ∀ g,
    (StrokeLaw s → ∀ e, (s.sector g).table.elev = some e → ∃ e', (t.sector g).table.elev = some e' ∧
      (e' = e
        ∨ (∃ l, (t.sector g).group.latched = some l ∧ (t.sector g).group.isOpen = false ∧ e' = e + (l : Int)
            ∧ (((s.sector g).group.isOpen = true ∧ (s.sector g).group.latched = some l)
              ∨ ((s.sector g).group.isOpen = false ∧ s.due ≠ {})))
        ∨ (∃ c limited o, t.consolePort.service = some ⟨kindByte .adjust, ⟨okOr limited, figB c ++ elevB e'⟩, o⟩
            ∧ e' = e + (c : Int) ∧ c ≤ (s.sector g).table.margin ∧ (t.sector g).table.margin = 0)
        ∨ (∃ limited o, t.consolePort.service = some ⟨kindByte .establish, ⟨okOr limited, elevB e'⟩, o⟩
            ∧ s.stack g = [] ∧ s.anyInFlight = false ∧ (t.sector g).table.margin = 0)))
    ∧ ((∀ l ∈ s.stack g, l.maturity ≤ 65535) →
      ∃ k, k ≤ (s.stack g).length
        ∧ (∀ l ∈ (s.stack g).take k, l.top ≤ t.bottom g)
        ∧ List.Forall₂ Layer.Later ((s.stack g).drop k) ((t.stack g).take ((s.stack g).length - k))
        ∧ (t.stack g).length ≤ (s.stack g).length - k + 1)

/-- Every step keeps the laws of the feed scheduler: a queued sector is enabled, not DISCREPANT, without an open ticket and queued once; the numbers of open tickets and expired entries are distinct and within 1..65 535, as the next ticket number is; at most 8 entries are expired (R123, R131, R138). -/
def Obligations.FeedLawKept : Prop := ∀ s t : State, FeedLaw s → step s = .next t → FeedLaw t

/-- Every step keeps the law of the pressure order and of the capacity: the order holds exactly the groups PRESSURIZING or STALLED, once each, and no more groups are PRESSURIZING than the capacity in force (R108, R109). -/
def Obligations.PressureLawKept : Prop := ∀ s t : State, PressureLaw s → step s = .next t → PressureLaw t

/-- Every step keeps the law of the survey, the law of the pacing unit, and the ranges of the clock, the logs, the lists, the counters and the scan pointer: the deck is in SURVEY exactly while a survey is RUNNING or ENDING, a visit whose stroke is not granted is under way only then, and a survey request is pending only for such a visit, its readings taken (R113, R151, R152, R153); the at-goal states are the derived ones, a pace counter runs exactly in CLIMB for a group enabled, established and not at goal, and a paced request count is above 0 only in CLIMB, or in the HALT that left it, for a group not at goal (R65, R69, R71); the ranges are those of R31, R41, R70, R76, R84, R115, R122, R138, and of four fields of a written DECK block (R171). That the law of the pacing unit holds across an ADJUST which brings a group to its goal, its count then set to 0 and its counter stopped, is the model's choice (log 28): R11 keeps the count there, R74 does not name ADJUST, and R71 clears the count of a group at goal. -/
def Obligations.SurveyAndRangesKept : Prop :=
  (∀ s t : State, SurveyLaw s → step s = .next t → SurveyLaw t)
  ∧ (∀ s t : State, PaceLaw s → step s = .next t → PaceLaw t)
  ∧ ∀ s t : State, RangeLaw s → step s = .next t → RangeLaw t

/-- The laws hold right after power-on reset: those of the alert list, the stacks with the concrete and the exposure laws, the open strokes, the tilt, the feed scheduler, the pressure order, the pacing unit, the survey and the ranges (R1, R82, R84, R105, R119, R141, R157, R187). -/
def Obligations.LawsAtReset : Prop :=
  AlertLaw State.reset ∧ StackLaw State.reset ∧ ConcreteLaw State.reset ∧ StrokeLaw State.reset ∧ TiltLaw State.reset
    ∧ FeedLaw State.reset ∧ PressureLaw State.reset ∧ PaceLaw State.reset ∧ SurveyLaw State.reset ∧ RangeLaw State.reset
    ∧ ∀ g, ¬Exposed State.reset g ∧ Grounded State.reset g
end

