-- ==== Sys2Proof/Laws/State.lean ====
section
/-! SUPPORT. One lemma per field per update of State, and what one sector's records and one port are after an update. -/

namespace Sys2Proof.Machine

/-! ### One sector's records -/

/-- A sector's records after a change of one sector's records. -/
theorem sector_modSector (s : State) (g h : Sector) (f : SectorState → SectorState) :
    (s.modSector g f).sector h = if h = g then f (s.sector g) else s.sector h := by
  unfold State.modSector State.sector
  by_cases e : h = g
  · subst e; simp [Vector.get_eq_getElem]
  · have : g.val ≠ h.val := fun x => e (Fin.ext x.symm)
    simp [Vector.get_eq_getElem, e, Vector.getElem_set_ne, this]

@[simp] theorem sector_modSector_self (s : State) (g : Sector) (f : SectorState → SectorState) :
    (s.modSector g f).sector g = f (s.sector g) := by simp [sector_modSector]

@[simp] theorem sector_modSector_ne (s : State) {g h : Sector} (f : SectorState → SectorState) (e : h ≠ g) :
    (s.modSector g f).sector h = s.sector h := by simp [sector_modSector, e]

@[simp] theorem sector_mapSectors (s : State) (f : SectorState → SectorState) (h : Sector) :
    (s.mapSectors f).sector h = f (s.sector h) := by simp [State.mapSectors, State.sector, Vector.get_eq_getElem]

/-! The changes of one part of a sector's records are changes of the sector's records. -/

theorem modTable_eq (s : State) (g : Sector) (f : SectorRec → SectorRec) :
    s.modTable g f = s.modSector g fun x => { x with table := f x.table } := rfl
theorem modLayers_eq (s : State) (g : Sector) (f : LayerTable → LayerTable) :
    s.modLayers g f = s.modSector g fun x => { x with layers := f x.layers } := rfl
theorem modProbe_eq (s : State) (g : Sector) (f : Probe → Probe) :
    s.modProbe g f = s.modSector g fun x => { x with probe := f x.probe } := rfl
theorem modPace_eq (s : State) (g : Sector) (f : Pace → Pace) :
    s.modPace g f = s.modSector g fun x => { x with pace := f x.pace } := rfl
theorem modGroup_eq (s : State) (g : Sector) (f : Group → Group) :
    s.modGroup g f = s.modSector g fun x => { x with group := f x.group } := rfl
theorem modTrim_eq (s : State) (g : Sector) (f : Trim → Trim) :
    s.modTrim g f = s.modSector g fun x => { x with trim := f x.trim } := rfl
theorem setTicket_eq (s : State) (g : Sector) (t : Option Ticket) :
    s.setTicket g t = s.modSector g fun x => { x with ticket := t } := rfl
theorem modFlags_eq (s : State) (g : Sector) (f : StickyFlags → StickyFlags) :
    s.modFlags g f = s.modSector g fun x => { x with table := { x.table with flags := f x.table.flags } } := rfl

/-! ### modSector and mapSectors leave every other field -/

@[simp] theorem modSector_mode (s : State) (g : Sector) (f : SectorState → SectorState) : (s.modSector g f).mode = s.mode := rfl
@[simp] theorem modSector_beforeHalt (s : State) (g : Sector) (f : SectorState → SectorState) : (s.modSector g f).beforeHalt = s.beforeHalt := rfl
@[simp] theorem modSector_creepSet (s : State) (g : Sector) (f : SectorState → SectorState) : (s.modSector g f).creepSet = s.creepSet := rfl
@[simp] theorem modSector_second (s : State) (g : Sector) (f : SectorState → SectorState) : (s.modSector g f).second = s.second := rfl
@[simp] theorem modSector_minute (s : State) (g : Sector) (f : SectorState → SectorState) : (s.modSector g f).minute = s.minute := rfl
@[simp] theorem modSector_deck (s : State) (g : Sector) (f : SectorState → SectorState) : (s.modSector g f).deck = s.deck := rfl
@[simp] theorem modSector_deckWritten (s : State) (g : Sector) (f : SectorState → SectorState) : (s.modSector g f).deckWritten = s.deckWritten := rfl
@[simp] theorem modSector_mixes (s : State) (g : Sector) (f : SectorState → SectorState) : (s.modSector g f).mixes = s.mixes := rfl
@[simp] theorem modSector_sweep (s : State) (g : Sector) (f : SectorState → SectorState) : (s.modSector g f).sweep = s.sweep := rfl
@[simp] theorem modSector_rate (s : State) (g : Sector) (f : SectorState → SectorState) : (s.modSector g f).rate = s.rate := rfl
@[simp] theorem modSector_goal (s : State) (g : Sector) (f : SectorState → SectorState) : (s.modSector g f).goal = s.goal := rfl
@[simp] theorem modSector_plane (s : State) (g : Sector) (f : SectorState → SectorState) : (s.modSector g f).plane = s.plane := rfl
@[simp] theorem modSector_supply (s : State) (g : Sector) (f : SectorState → SectorState) : (s.modSector g f).supply = s.supply := rfl
@[simp] theorem modSector_pressureOrder (s : State) (g : Sector) (f : SectorState → SectorState) : (s.modSector g f).pressureOrder = s.pressureOrder := rfl
@[simp] theorem modSector_creepList (s : State) (g : Sector) (f : SectorState → SectorState) : (s.modSector g f).creepList = s.creepList := rfl
@[simp] theorem modSector_active (s : State) (g : Sector) (f : SectorState → SectorState) : (s.modSector g f).active = s.active := rfl
@[simp] theorem modSector_shadow (s : State) (g : Sector) (f : SectorState → SectorState) : (s.modSector g f).shadow = s.shadow := rfl
@[simp] theorem modSector_scanPtr (s : State) (g : Sector) (f : SectorState → SectorState) : (s.modSector g f).scanPtr = s.scanPtr := rfl
@[simp] theorem modSector_loadPending (s : State) (g : Sector) (f : SectorState → SectorState) : (s.modSector g f).loadPending = s.loadPending := rfl
@[simp] theorem modSector_surveyReq (s : State) (g : Sector) (f : SectorState → SectorState) : (s.modSector g f).surveyReq = s.surveyReq := rfl
@[simp] theorem modSector_releaseLog (s : State) (g : Sector) (f : SectorState → SectorState) : (s.modSector g f).releaseLog = s.releaseLog := rfl
@[simp] theorem modSector_releaseCount (s : State) (g : Sector) (f : SectorState → SectorState) : (s.modSector g f).releaseCount = s.releaseCount := rfl
@[simp] theorem modSector_cursorSector (s : State) (g : Sector) (f : SectorState → SectorState) : (s.modSector g f).cursorSector = s.cursorSector := rfl
@[simp] theorem modSector_cursorSlot (s : State) (g : Sector) (f : SectorState → SectorState) : (s.modSector g f).cursorSlot = s.cursorSlot := rfl
@[simp] theorem modSector_queue (s : State) (g : Sector) (f : SectorState → SectorState) : (s.modSector g f).queue = s.queue := rfl
@[simp] theorem modSector_expired (s : State) (g : Sector) (f : SectorState → SectorState) : (s.modSector g f).expired = s.expired := rfl
@[simp] theorem modSector_sweepCount (s : State) (g : Sector) (f : SectorState → SectorState) : (s.modSector g f).sweepCount = s.sweepCount := rfl
@[simp] theorem modSector_lastSweep (s : State) (g : Sector) (f : SectorState → SectorState) : (s.modSector g f).lastSweep = s.lastSweep := rfl
@[simp] theorem modSector_nextTicket (s : State) (g : Sector) (f : SectorState → SectorState) : (s.modSector g f).nextTicket = s.nextTicket := rfl
@[simp] theorem modSector_surveyState (s : State) (g : Sector) (f : SectorState → SectorState) : (s.modSector g f).surveyState = s.surveyState := rfl
@[simp] theorem modSector_visit (s : State) (g : Sector) (f : SectorState → SectorState) : (s.modSector g f).visit = s.visit := rfl
@[simp] theorem modSector_line (s : State) (g : Sector) (f : SectorState → SectorState) : (s.modSector g f).line = s.line := rfl
@[simp] theorem modSector_waiting (s : State) (g : Sector) (f : SectorState → SectorState) : (s.modSector g f).waiting = s.waiting := rfl
@[simp] theorem modSector_alerts (s : State) (g : Sector) (f : SectorState → SectorState) : (s.modSector g f).alerts = s.alerts := rfl
@[simp] theorem modSector_alertFull (s : State) (g : Sector) (f : SectorState → SectorState) : (s.modSector g f).alertFull = s.alertFull := rfl
@[simp] theorem modSector_consolePort (s : State) (g : Sector) (f : SectorState → SectorState) : (s.modSector g f).consolePort = s.consolePort := rfl
@[simp] theorem modSector_supplyPort (s : State) (g : Sector) (f : SectorState → SectorState) : (s.modSector g f).supplyPort = s.supplyPort := rfl
@[simp] theorem modSector_placingPort (s : State) (g : Sector) (f : SectorState → SectorState) : (s.modSector g f).placingPort = s.placingPort := rfl
@[simp] theorem modSector_due (s : State) (g : Sector) (f : SectorState → SectorState) : (s.modSector g f).due = s.due := rfl
@[simp] theorem modSector_passDue (s : State) (g : Sector) (f : SectorState → SectorState) : (s.modSector g f).passDue = s.passDue := rfl
@[simp] theorem modSector_pending (s : State) (g : Sector) (f : SectorState → SectorState) : (s.modSector g f).pending = s.pending := rfl

@[simp] theorem mapSectors_mode (s : State) (f : SectorState → SectorState) : (s.mapSectors f).mode = s.mode := rfl
@[simp] theorem mapSectors_beforeHalt (s : State) (f : SectorState → SectorState) : (s.mapSectors f).beforeHalt = s.beforeHalt := rfl
@[simp] theorem mapSectors_creepSet (s : State) (f : SectorState → SectorState) : (s.mapSectors f).creepSet = s.creepSet := rfl
@[simp] theorem mapSectors_second (s : State) (f : SectorState → SectorState) : (s.mapSectors f).second = s.second := rfl
@[simp] theorem mapSectors_minute (s : State) (f : SectorState → SectorState) : (s.mapSectors f).minute = s.minute := rfl
@[simp] theorem mapSectors_deck (s : State) (f : SectorState → SectorState) : (s.mapSectors f).deck = s.deck := rfl
@[simp] theorem mapSectors_deckWritten (s : State) (f : SectorState → SectorState) : (s.mapSectors f).deckWritten = s.deckWritten := rfl
@[simp] theorem mapSectors_mixes (s : State) (f : SectorState → SectorState) : (s.mapSectors f).mixes = s.mixes := rfl
@[simp] theorem mapSectors_sweep (s : State) (f : SectorState → SectorState) : (s.mapSectors f).sweep = s.sweep := rfl
@[simp] theorem mapSectors_rate (s : State) (f : SectorState → SectorState) : (s.mapSectors f).rate = s.rate := rfl
@[simp] theorem mapSectors_goal (s : State) (f : SectorState → SectorState) : (s.mapSectors f).goal = s.goal := rfl
@[simp] theorem mapSectors_plane (s : State) (f : SectorState → SectorState) : (s.mapSectors f).plane = s.plane := rfl
@[simp] theorem mapSectors_supply (s : State) (f : SectorState → SectorState) : (s.mapSectors f).supply = s.supply := rfl
@[simp] theorem mapSectors_pressureOrder (s : State) (f : SectorState → SectorState) : (s.mapSectors f).pressureOrder = s.pressureOrder := rfl
@[simp] theorem mapSectors_creepList (s : State) (f : SectorState → SectorState) : (s.mapSectors f).creepList = s.creepList := rfl
@[simp] theorem mapSectors_active (s : State) (f : SectorState → SectorState) : (s.mapSectors f).active = s.active := rfl
@[simp] theorem mapSectors_shadow (s : State) (f : SectorState → SectorState) : (s.mapSectors f).shadow = s.shadow := rfl
@[simp] theorem mapSectors_scanPtr (s : State) (f : SectorState → SectorState) : (s.mapSectors f).scanPtr = s.scanPtr := rfl
@[simp] theorem mapSectors_loadPending (s : State) (f : SectorState → SectorState) : (s.mapSectors f).loadPending = s.loadPending := rfl
@[simp] theorem mapSectors_surveyReq (s : State) (f : SectorState → SectorState) : (s.mapSectors f).surveyReq = s.surveyReq := rfl
@[simp] theorem mapSectors_releaseLog (s : State) (f : SectorState → SectorState) : (s.mapSectors f).releaseLog = s.releaseLog := rfl
@[simp] theorem mapSectors_releaseCount (s : State) (f : SectorState → SectorState) : (s.mapSectors f).releaseCount = s.releaseCount := rfl
@[simp] theorem mapSectors_cursorSector (s : State) (f : SectorState → SectorState) : (s.mapSectors f).cursorSector = s.cursorSector := rfl
@[simp] theorem mapSectors_cursorSlot (s : State) (f : SectorState → SectorState) : (s.mapSectors f).cursorSlot = s.cursorSlot := rfl
@[simp] theorem mapSectors_queue (s : State) (f : SectorState → SectorState) : (s.mapSectors f).queue = s.queue := rfl
@[simp] theorem mapSectors_expired (s : State) (f : SectorState → SectorState) : (s.mapSectors f).expired = s.expired := rfl
@[simp] theorem mapSectors_sweepCount (s : State) (f : SectorState → SectorState) : (s.mapSectors f).sweepCount = s.sweepCount := rfl
@[simp] theorem mapSectors_lastSweep (s : State) (f : SectorState → SectorState) : (s.mapSectors f).lastSweep = s.lastSweep := rfl
@[simp] theorem mapSectors_nextTicket (s : State) (f : SectorState → SectorState) : (s.mapSectors f).nextTicket = s.nextTicket := rfl
@[simp] theorem mapSectors_surveyState (s : State) (f : SectorState → SectorState) : (s.mapSectors f).surveyState = s.surveyState := rfl
@[simp] theorem mapSectors_visit (s : State) (f : SectorState → SectorState) : (s.mapSectors f).visit = s.visit := rfl
@[simp] theorem mapSectors_line (s : State) (f : SectorState → SectorState) : (s.mapSectors f).line = s.line := rfl
@[simp] theorem mapSectors_waiting (s : State) (f : SectorState → SectorState) : (s.mapSectors f).waiting = s.waiting := rfl
@[simp] theorem mapSectors_alerts (s : State) (f : SectorState → SectorState) : (s.mapSectors f).alerts = s.alerts := rfl
@[simp] theorem mapSectors_alertFull (s : State) (f : SectorState → SectorState) : (s.mapSectors f).alertFull = s.alertFull := rfl
@[simp] theorem mapSectors_consolePort (s : State) (f : SectorState → SectorState) : (s.mapSectors f).consolePort = s.consolePort := rfl
@[simp] theorem mapSectors_supplyPort (s : State) (f : SectorState → SectorState) : (s.mapSectors f).supplyPort = s.supplyPort := rfl
@[simp] theorem mapSectors_placingPort (s : State) (f : SectorState → SectorState) : (s.mapSectors f).placingPort = s.placingPort := rfl
@[simp] theorem mapSectors_due (s : State) (f : SectorState → SectorState) : (s.mapSectors f).due = s.due := rfl
@[simp] theorem mapSectors_passDue (s : State) (f : SectorState → SectorState) : (s.mapSectors f).passDue = s.passDue := rfl
@[simp] theorem mapSectors_pending (s : State) (f : SectorState → SectorState) : (s.mapSectors f).pending = s.pending := rfl

/-! ### The ports -/

@[simp] theorem port_setPort_self (s : State) (p : PortId) (x : Port) : (s.setPort p x).port p = x := by cases p <;> rfl

@[simp] theorem port_setPort_ne (s : State) {p q : PortId} (x : Port) (e : q ≠ p) : (s.setPort p x).port q = s.port q := by
  cases p <;> cases q <;> first | rfl | exact absurd rfl e

@[simp] theorem setPort_port (s : State) (p : PortId) : s.setPort p (s.port p) = s := by cases p <;> rfl

@[simp] theorem setPort_setPort (s : State) (p : PortId) (x y : Port) : (s.setPort p x).setPort p y = s.setPort p y := by
  cases p <;> rfl

@[simp] theorem sector_setPort (s : State) (p : PortId) (x : Port) (g : Sector) : (s.setPort p x).sector g = s.sector g := by
  cases p <;> rfl

@[simp] theorem setPort_mode (s : State) (p : PortId) (x : Port) : (s.setPort p x).mode = s.mode := by cases p <;> rfl
@[simp] theorem setPort_beforeHalt (s : State) (p : PortId) (x : Port) : (s.setPort p x).beforeHalt = s.beforeHalt := by cases p <;> rfl
@[simp] theorem setPort_creepSet (s : State) (p : PortId) (x : Port) : (s.setPort p x).creepSet = s.creepSet := by cases p <;> rfl
@[simp] theorem setPort_second (s : State) (p : PortId) (x : Port) : (s.setPort p x).second = s.second := by cases p <;> rfl
@[simp] theorem setPort_minute (s : State) (p : PortId) (x : Port) : (s.setPort p x).minute = s.minute := by cases p <;> rfl
@[simp] theorem setPort_deck (s : State) (p : PortId) (x : Port) : (s.setPort p x).deck = s.deck := by cases p <;> rfl
@[simp] theorem setPort_deckWritten (s : State) (p : PortId) (x : Port) : (s.setPort p x).deckWritten = s.deckWritten := by cases p <;> rfl
@[simp] theorem setPort_mixes (s : State) (p : PortId) (x : Port) : (s.setPort p x).mixes = s.mixes := by cases p <;> rfl
@[simp] theorem setPort_sweep (s : State) (p : PortId) (x : Port) : (s.setPort p x).sweep = s.sweep := by cases p <;> rfl
@[simp] theorem setPort_rate (s : State) (p : PortId) (x : Port) : (s.setPort p x).rate = s.rate := by cases p <;> rfl
@[simp] theorem setPort_goal (s : State) (p : PortId) (x : Port) : (s.setPort p x).goal = s.goal := by cases p <;> rfl
@[simp] theorem setPort_plane (s : State) (p : PortId) (x : Port) : (s.setPort p x).plane = s.plane := by cases p <;> rfl
@[simp] theorem setPort_sectors (s : State) (p : PortId) (x : Port) : (s.setPort p x).sectors = s.sectors := by cases p <;> rfl
@[simp] theorem setPort_supply (s : State) (p : PortId) (x : Port) : (s.setPort p x).supply = s.supply := by cases p <;> rfl
@[simp] theorem setPort_pressureOrder (s : State) (p : PortId) (x : Port) : (s.setPort p x).pressureOrder = s.pressureOrder := by cases p <;> rfl
@[simp] theorem setPort_creepList (s : State) (p : PortId) (x : Port) : (s.setPort p x).creepList = s.creepList := by cases p <;> rfl
@[simp] theorem setPort_active (s : State) (p : PortId) (x : Port) : (s.setPort p x).active = s.active := by cases p <;> rfl
@[simp] theorem setPort_shadow (s : State) (p : PortId) (x : Port) : (s.setPort p x).shadow = s.shadow := by cases p <;> rfl
@[simp] theorem setPort_scanPtr (s : State) (p : PortId) (x : Port) : (s.setPort p x).scanPtr = s.scanPtr := by cases p <;> rfl
@[simp] theorem setPort_loadPending (s : State) (p : PortId) (x : Port) : (s.setPort p x).loadPending = s.loadPending := by cases p <;> rfl
@[simp] theorem setPort_surveyReq (s : State) (p : PortId) (x : Port) : (s.setPort p x).surveyReq = s.surveyReq := by cases p <;> rfl
@[simp] theorem setPort_releaseLog (s : State) (p : PortId) (x : Port) : (s.setPort p x).releaseLog = s.releaseLog := by cases p <;> rfl
@[simp] theorem setPort_releaseCount (s : State) (p : PortId) (x : Port) : (s.setPort p x).releaseCount = s.releaseCount := by cases p <;> rfl
@[simp] theorem setPort_cursorSector (s : State) (p : PortId) (x : Port) : (s.setPort p x).cursorSector = s.cursorSector := by cases p <;> rfl
@[simp] theorem setPort_cursorSlot (s : State) (p : PortId) (x : Port) : (s.setPort p x).cursorSlot = s.cursorSlot := by cases p <;> rfl
@[simp] theorem setPort_queue (s : State) (p : PortId) (x : Port) : (s.setPort p x).queue = s.queue := by cases p <;> rfl
@[simp] theorem setPort_expired (s : State) (p : PortId) (x : Port) : (s.setPort p x).expired = s.expired := by cases p <;> rfl
@[simp] theorem setPort_sweepCount (s : State) (p : PortId) (x : Port) : (s.setPort p x).sweepCount = s.sweepCount := by cases p <;> rfl
@[simp] theorem setPort_lastSweep (s : State) (p : PortId) (x : Port) : (s.setPort p x).lastSweep = s.lastSweep := by cases p <;> rfl
@[simp] theorem setPort_nextTicket (s : State) (p : PortId) (x : Port) : (s.setPort p x).nextTicket = s.nextTicket := by cases p <;> rfl
@[simp] theorem setPort_surveyState (s : State) (p : PortId) (x : Port) : (s.setPort p x).surveyState = s.surveyState := by cases p <;> rfl
@[simp] theorem setPort_visit (s : State) (p : PortId) (x : Port) : (s.setPort p x).visit = s.visit := by cases p <;> rfl
@[simp] theorem setPort_line (s : State) (p : PortId) (x : Port) : (s.setPort p x).line = s.line := by cases p <;> rfl
@[simp] theorem setPort_waiting (s : State) (p : PortId) (x : Port) : (s.setPort p x).waiting = s.waiting := by cases p <;> rfl
@[simp] theorem setPort_alerts (s : State) (p : PortId) (x : Port) : (s.setPort p x).alerts = s.alerts := by cases p <;> rfl
@[simp] theorem setPort_alertFull (s : State) (p : PortId) (x : Port) : (s.setPort p x).alertFull = s.alertFull := by cases p <;> rfl
@[simp] theorem setPort_due (s : State) (p : PortId) (x : Port) : (s.setPort p x).due = s.due := by cases p <;> rfl
@[simp] theorem setPort_passDue (s : State) (p : PortId) (x : Port) : (s.setPort p x).passDue = s.passDue := by cases p <;> rfl
@[simp] theorem setPort_pending (s : State) (p : PortId) (x : Port) : (s.setPort p x).pending = s.pending := by cases p <;> rfl

end Sys2Proof.Machine
end

