-- ==== Sys2Proof/Laws/Ops.lean ====
section
/-! SUPPORT. What the shared operations can do, said once each: the ends of an event, the alert list, and the frame of a grant pass. -/

namespace Sys2Proof.Machine

/-! ### The ends of an event -/

/-- With nothing due, a command finds the state as it is (log 2). -/
@[simp] theorem settleDue_of_due {s : State} (h : s.due = {}) : settleDue s = s := by simp [settleDue, h]

/-- With no pass owed, an event's end changes nothing (log 7). -/
@[simp] theorem finish_of_not_due {s : State} (h : s.passDue = false) : finish s = s := by simp [finish, h]

theorem finish_of_due {s : State} (h : s.passDue = true) :
    finish s = { grantPass passFuel s with passDue := false } := by simp [finish, h]

@[simp] theorem finishDue_of_due {s : State} (h : s.due = {}) : finishDue s = finish s := by simp [finishDue, h]

/-- A step of a command that waits at the front. -/
@[simp] theorem step_cons (s : State) (c : Instr) (rest : List Instr) (h : s.pending = c :: rest) :
    step s = exec c { s with pending := rest } := by simp [step, h]

/-- A rate already in force hands on nothing new (R178, log 26). -/
@[simp] theorem takeRate_self (s : State) : takeRate s.rate s.rate s = s := by simp [takeRate]

/-! ### forEach -/

@[simp] theorem forEach_nil (f : Sector → State → State) (s : State) : forEach [] f s = s := rfl

@[simp] theorem forEach_cons (g : Sector) (gs : List Sector) (f : Sector → State → State) (s : State) :
    forEach (g :: gs) f s = forEach gs f (f g s) := rfl

/-- What every f g keeps, forEach keeps. -/
theorem forEach_keeps {P : State → Prop} (gs : List Sector) (f : Sector → State → State)
    (h : ∀ g s, P s → P (f g s)) (s : State) (hs : P s) : P (forEach gs f s) := by
  induction gs generalizing s with
  | nil => exact hs
  | cons g gs ih => exact ih _ (h g s hs)

/-- A figure that every f g leaves alone, forEach leaves alone. -/
theorem forEach_frame {α : Type} (p : State → α) (gs : List Sector) (f : Sector → State → State)
    (h : ∀ g s, p (f g s) = p s) (s : State) : p (forEach gs f s) = p s :=
  forEach_keeps (P := fun t => p t = p s) gs f (fun g t ht => (h g t).trans ht) s rfl

/-! ### The alert list (R187) -/

/-- Everything enterAlert can do: only the alert list and ALERT_FULL change. -/
theorem enterAlert_eq (k : AlertKind) (g : Option Sector) (s : State) :
    enterAlert k g s = { s with alerts := (enterAlert k g s).alerts, alertFull := (enterAlert k g s).alertFull } := by
  unfold enterAlert; split
  · rfl
  · split <;> rfl

/-- Entering an alert enters it (R187). -/
theorem entered_enterAlert (k : AlertKind) (g : Option Sector) (s : State) : Entered k g s (enterAlert k g s) := by
  unfold Entered enterAlert
  have hp : ∀ b : Alert, (b.kind == k && b.sector == g) = true ↔ b.kind = k ∧ b.sector = g := by simp
  split
  next h =>
    left
    obtain ⟨b, hb, hk⟩ := List.any_eq_true.1 h
    obtain ⟨a, ha, hmax⟩ := Finset.exists_max_image (s.alerts.filter fun b => b.kind == k && b.sector == g).toFinset Alert.count
      ⟨b, by simpa using ⟨hb, (hp b).1 hk⟩⟩
    simp only [List.mem_toFinset, List.mem_filter, hp] at ha hmax
    refine ⟨{ a with count := min 255 (a.count + 1) }, ?_, ha.2.1, ha.2.2, fun c hc h1 h2 => ?_⟩
    · simp only [mergeAlert, List.mem_map]
      exact ⟨a, ha.1, if_pos ((hp a).2 ha.2)⟩
    · have := hmax c ⟨hc, h1, h2⟩
      show min 255 (a.count + 1) = 255 ∨ c.count < min 255 (a.count + 1)
      omega
  next h =>
    have hn : ∀ b ∈ s.alerts, ¬(b.kind = k ∧ b.sector = g) := fun b hb hk => h (List.any_eq_true.2 ⟨b, hb, (hp b).2 hk⟩)
    split
    · exact .inl ⟨⟨k, g, s.minute, 1⟩, by simp, rfl, rfl, fun b hb h1 h2 => absurd ⟨h1, h2⟩ (hn b hb)⟩
    · next hl => exact .inr ⟨hn, rfl, Nat.not_lt.1 hl⟩

/-- What has been entered stays entered when another alert is. -/
theorem Entered.enterAlert {k : AlertKind} {g : Option Sector} {s t : State} (h : Entered k g s t) (k' : AlertKind)
    (g' : Option Sector) : Entered k g s (enterAlert k' g' t) := by
  unfold Machine.enterAlert
  split
  · rcases h with ⟨a, ha, h1, h2, h3⟩ | ⟨h1, h2, h3⟩
    · left
      by_cases hk : (a.kind == k' && a.sector == g') = true
      · refine ⟨{ a with count := min 255 (a.count + 1) }, List.mem_map.2 ⟨a, ha, if_pos hk⟩, h1, h2, fun b hb e1 e2 => ?_⟩
        have := h3 b hb e1 e2
        show min 255 (a.count + 1) = 255 ∨ b.count < min 255 (a.count + 1)
        omega
      · exact ⟨a, List.mem_map.2 ⟨a, ha, if_neg hk⟩, h1, h2, h3⟩
    · exact .inr ⟨h1, h2, by simpa [mergeAlert] using h3⟩
  · split
    · rcases h with ⟨a, ha, h⟩ | ⟨h1, h2, h3⟩
      · exact .inl ⟨a, List.mem_append_left _ ha, h⟩
      · exact .inr ⟨h1, h2, by simp; omega⟩
    · rcases h with h | ⟨h1, h2, h3⟩
      · exact .inl h
      · exact .inr ⟨h1, rfl, h3⟩

/-- What has been entered depends on the alert list and ALERT_FULL alone. -/
theorem Entered.congr {k : AlertKind} {g : Option Sector} {s s' t t' : State} (h : Entered k g s t) (hs : s'.alerts = s.alerts)
    (ht : t'.alerts = t.alerts) (hf : t'.alertFull = t.alertFull) : Entered k g s' t' := by
  unfold Entered at *
  rwa [hs, ht, hf]

/-! ### What a grant pass leaves alone -/

/-- t has the settings, tables, feed, ports and supply of s, and every sector's records but group and trim. -/
structure Kept (s t : State) : Prop where
  settings : t.settings = s.settings
  tables : t.tables = s.tables
  feed : t.feed = s.feed
  ports : t.ports = s.ports
  supply : t.supply = s.supply
  creepSet : t.creepSet = s.creepSet
  beforeHalt : t.beforeHalt = s.beforeHalt
  due : t.due = s.due
  pending : t.pending = s.pending
  held : ∀ g, (t.sector g).held = (s.sector g).held
  pace : ∀ g, (t.sector g).pace = (s.sector g).pace

theorem Kept.refl (s : State) : Kept s s := ⟨rfl, rfl, rfl, rfl, rfl, rfl, rfl, rfl, rfl, fun _ => rfl, fun _ => rfl⟩

theorem Kept.trans {s t u : State} (h : Kept s t) (k : Kept t u) : Kept s u :=
  ⟨k.settings.trans h.settings, k.tables.trans h.tables, k.feed.trans h.feed, k.ports.trans h.ports, k.supply.trans h.supply,
    k.creepSet.trans h.creepSet, k.beforeHalt.trans h.beforeHalt, k.due.trans h.due, k.pending.trans h.pending,
    fun g => (k.held g).trans (h.held g), fun g => (k.pace g).trans (h.pace g)⟩

/-- A change of one sector's group or trim keeps everything named. -/
theorem Kept.modSector (s : State) (g : Sector) (f : SectorState → SectorState)
    (hf : ∀ x, (f x).held = x.held ∧ (f x).pace = x.pace) : Kept s (s.modSector g f) := by
  refine ⟨rfl, rfl, rfl, rfl, rfl, rfl, rfl, rfl, rfl, fun h => ?_, fun h => ?_⟩ <;> rw [sector_modSector] <;> split
  · next e => subst e; exact (hf _).1
  · rfl
  · next e => subst e; exact (hf _).2
  · rfl

theorem Kept.modTrim (s : State) (g : Sector) (f : Trim → Trim) : Kept s (s.modTrim g f) :=
  Kept.modSector s g _ fun _ => ⟨rfl, rfl⟩

theorem Kept.modGroup (s : State) (g : Sector) (f : Group → Group) : Kept s (s.modGroup g f) :=
  Kept.modSector s g _ fun _ => ⟨rfl, rfl⟩

theorem Kept.enterAlert (k : AlertKind) (g : Option Sector) (s : State) : Kept s (enterAlert k g s) := by
  rw [enterAlert_eq]
  exact ⟨rfl, rfl, rfl, rfl, rfl, rfl, rfl, rfl, rfl, fun _ => rfl, fun _ => rfl⟩

theorem Kept.serveLine (s : State) : Kept s (serveLine s) := by
  unfold Machine.serveLine; split <;> exact ⟨rfl, rfl, rfl, rfl, rfl, rfl, rfl, rfl, rfl, fun _ => rfl, fun _ => rfl⟩

theorem Kept.requestTry (k : TryKind) (g : Sector) (a : Nat) (s : State) : Kept s (requestTry k g a s) :=
  Kept.trans (⟨rfl, rfl, rfl, rfl, rfl, rfl, rfl, rfl, rfl, fun _ => rfl, fun _ => rfl⟩ :
    Kept s { s with waiting := s.waiting ++ [⟨k, g, a, true⟩] }) (Kept.serveLine _)

theorem Kept.abandonTries (p : Try → Bool) (s : State) : Kept s (abandonTries p s) :=
  ⟨rfl, rfl, rfl, rfl, rfl, rfl, rfl, rfl, rfl, fun _ => rfl, fun _ => rfl⟩

theorem Kept.setOutcome (g : Sector) (o : VisitOutcome) (s : State) : Kept s (setOutcome g o s) := Kept.modTrim _ _ _

theorem Kept.abandonBefore (g : Sector) (s : State) : Kept s (abandonBefore g s) :=
  (Kept.abandonTries _ _).trans (Kept.modTrim _ _ _)

theorem Kept.startBefore (g : Sector) (s : State) : Kept s (startBefore g s) :=
  (Kept.modTrim _ _ _).trans (Kept.requestTry _ _ _ _)

theorem Kept.writeResult (g : Sector) (kind : TrimKind) (code : TrimCode) (n : Nat) (d : Option Int) (s : State) :
    Kept s (writeResult g kind code n d s) := by
  unfold Machine.writeResult
  dsimp only
  split
  · exact (Kept.modTrim _ _ _).trans (Kept.enterAlert _ _ _)
  · exact Kept.modTrim _ _ _

theorem Kept.writeRejected (g : Sector) (kind : TrimKind) (s : State) : Kept s (writeRejected g kind s) := Kept.writeResult _ _ _ _ _ _

theorem Kept.mapTrim (s : State) (f : SectorState → SectorState) (hf : ∀ x, (f x).held = x.held ∧ (f x).pace = x.pace) :
    Kept s (s.mapSectors f) := by
  refine ⟨rfl, rfl, rfl, rfl, rfl, rfl, rfl, rfl, rfl, fun g => ?_, fun g => ?_⟩ <;> rw [sector_mapSectors]
  · exact (hf _).1
  · exact (hf _).2

theorem Kept.dropTrimRequests (s : State) : Kept s (dropTrimRequests s) := by
  unfold Machine.dropTrimRequests
  exact (Kept.abandonTries _ s).trans (Kept.mapTrim _ _ fun _ => ⟨rfl, rfl⟩)

theorem Kept.enterStandby (s : State) : Kept s (enterStandby s) :=
  Kept.trans (⟨rfl, rfl, rfl, rfl, rfl, rfl, rfl, rfl, rfl, fun _ => rfl, fun _ => rfl⟩ :
    Kept s { s with mode := .standby, creepList := [], surveyReq := none, passDue := true }) (Kept.dropTrimRequests _)

theorem Kept.surveyDone (s : State) : Kept s (surveyDone s) :=
  Kept.trans (Kept.trans (⟨rfl, rfl, rfl, rfl, rfl, rfl, rfl, rfl, rfl, fun _ => rfl, fun _ => rfl⟩ :
    Kept s { s with surveyState := .none, visit := none }) (Kept.enterStandby _)) (Kept.enterAlert _ _ _)

theorem Kept.beginVisits (gs : List Sector) (s : State) : Kept s (beginVisits gs s) := by
  induction gs generalizing s with
  | nil => exact Kept.surveyDone s
  | cons g rest ih =>
    unfold Machine.beginVisits
    split
    · split
      · exact (Kept.setOutcome _ _ _).trans (ih _)
      · exact Kept.trans (⟨rfl, rfl, rfl, rfl, rfl, rfl, rfl, rfl, rfl, fun _ => rfl, fun _ => rfl⟩ :
          Kept s { s with visit := some (g, .reading) }) (Kept.startBefore _ _)
    · exact ih s

theorem Kept.visitEnded (s : State) : Kept s (visitEnded s) := by
  have h : Kept s { s with visit := none } := ⟨rfl, rfl, rfl, rfl, rfl, rfl, rfl, rfl, rfl, fun _ => rfl, fun _ => rfl⟩
  unfold Machine.visitEnded
  dsimp only
  split
  · exact h.trans (Kept.beginVisits _ _)
  · exact Kept.trans (⟨rfl, rfl, rfl, rfl, rfl, rfl, rfl, rfl, rfl, fun _ => rfl, fun _ => rfl⟩ :
      Kept s { s with visit := none, surveyState := .none }) (Kept.enterStandby _)
  · exact h

theorem Kept.trimOnGrant (g : Sector) (kind : StrokeKind) (s : State) : Kept s (trimOnGrant g kind s) := by
  unfold Machine.trimOnGrant
  dsimp only
  have h : Kept s (match (s.sector g).trim.request with
      | .none => s
      | .held => s.modTrim g fun t => { t with request := .none, underWay := true }
      | .waiting => Machine.writeRejected g .short (s.modTrim g fun t => { t with request := .none })
      | .reading => Machine.writeRejected g .short (Machine.abandonBefore g (s.modTrim g fun t => { t with request := .none }))) := by
    split
    · exact Kept.refl s
    · exact Kept.modTrim _ _ _
    · exact (Kept.modTrim _ _ _).trans (Kept.writeRejected _ _ _)
    · exact ((Kept.modTrim _ _ _).trans (Kept.abandonBefore _ _)).trans (Kept.writeRejected _ _ _)
  split
  · exact h.trans ⟨rfl, rfl, rfl, rfl, rfl, rfl, rfl, rfl, rfl, fun _ => rfl, fun _ => rfl⟩
  · exact h

theorem Kept.pressure (s : State) (po : List Sector) : Kept s { s with pressureOrder := po } :=
  ⟨rfl, rfl, rfl, rfl, rfl, rfl, rfl, rfl, rfl, fun _ => rfl, fun _ => rfl⟩

theorem Kept.grant (g : Sector) (kind : StrokeKind) (s : State) : Kept s (grant g kind s) := by
  unfold Machine.grant
  refine Kept.trans ?_ (Kept.trimOnGrant _ _ _)
  refine Kept.trans ?_ (Kept.pressure _ _)
  exact Kept.modGroup _ _ _

theorem Kept.passBoundary (s : State) : Kept s (passBoundary s) := by
  unfold Machine.passBoundary; split
  · exact ⟨rfl, rfl, rfl, rfl, rfl, rfl, rfl, rfl, rfl, fun _ => rfl, fun _ => rfl⟩
  · exact Kept.refl s

theorem Kept.pacedScan (n j : Nat) (s : State) : Kept s (pacedScan n j s).1 := by
  induction n generalizing j s with
  | zero => exact Kept.refl s
  | succ n ih =>
    unfold Machine.pacedScan
    split
    · next g _ =>
      have h : Kept s { Machine.grant g .paced s with scanPtr := (j + 1) % 32 } :=
        (Kept.grant g .paced s).trans ⟨rfl, rfl, rfl, rfl, rfl, rfl, rfl, rfl, rfl, fun _ => rfl, fun _ => rfl⟩
      dsimp only
      split
      · exact h.trans (Kept.passBoundary _)
      · exact h
    · split
      · exact Kept.refl s
      · split
        · exact (Kept.passBoundary s).trans (ih _ _)
        · exact ih _ _

theorem Kept.serveSurvey (g : Sector) (s : State) : Kept s (serveSurvey g s) := by
  have h : Kept s { s with surveyReq := none } := ⟨rfl, rfl, rfl, rfl, rfl, rfl, rfl, rfl, rfl, fun _ => rfl, fun _ => rfl⟩
  unfold Machine.serveSurvey
  dsimp only
  split
  · exact h.trans (Kept.grant _ _ _)
  · exact h.trans ((Kept.setOutcome _ _ _).trans (Kept.visitEnded _))

theorem Kept.serveOne (s : State) : Kept s (serveOne s).1 := by
  unfold Machine.serveOne
  split
  · dsimp only [resumeGroup]
    exact Kept.modGroup _ _ _
  · split
    · exact Kept.serveSurvey _ _
    · split
      · next g _ => exact Kept.grant g .creep s
      · split
        · exact Kept.pacedScan _ _ _
        · exact Kept.refl s

/-- What every service keeps, a grant pass keeps (R111): the induction of every claim about a pass. -/
theorem grantPass_keeps {P : State → Prop} (h : ∀ s, P s → s.canServe = true → P (serveOne s).1) (n : Nat) (s : State) (hs : P s) :
    P (grantPass n s) := by
  induction n generalizing s with
  | zero => exact hs
  | succ n ih =>
    unfold grantPass
    split
    next hc =>
      have h1 := h s hs hc
      split
      · next he => rw [he] at h1; exact ih _ h1
      · next he => rw [he] at h1; exact h1
    next => exact hs

/-- A grant pass leaves settings, tables, feed, ports, supply and every sector's records but group and trim alone. -/
theorem Kept.grantPass (n : Nat) (s : State) : Kept s (grantPass n s) :=
  grantPass_keeps (P := fun t => Kept s t) (fun t ht _ => ht.trans (Kept.serveOne t)) n s (Kept.refl s)

/-- The end of an event keeps what its pass keeps. -/
theorem Kept.finish (s : State) : Kept s (finish s) := by
  unfold Machine.finish
  split
  · exact (Kept.grantPass _ _).trans ⟨rfl, rfl, rfl, rfl, rfl, rfl, rfl, rfl, rfl, fun _ => rfl, fun _ => rfl⟩
  · exact Kept.refl s

/-- Without a READY supply a pass serves nothing (R111). -/
theorem grantPass_of_noSupply {s : State} (h : NoSupply s) (n : Nat) : grantPass n s = s := by
  cases n with
  | zero => rfl
  | succ n =>
    have hc : s.canServe = false := by simp [State.canServe, h]
    unfold grantPass
    simp [hc]

theorem finish_of_noSupply {s : State} (h : NoSupply s) : finish s = { s with passDue := false } := by
  unfold finish
  split
  · rw [grantPass_of_noSupply h]
  · next e => simp only [Bool.not_eq_true] at e; rw [← e]

end Sys2Proof.Machine
end

