-- ==== Sys2Proof/Laws/Bytes.lean ====
section
/-! SUPPORT. The bytes of a payload give back the figures they were written from, and a request at a port at rest is taken at once. -/

namespace Sys2Proof.Machine

@[simp] theorem byteOf_toNat (n : Nat) : (byteOf n).toNat = n % 256 := by simp [byteOf]

@[simp] theorem toSector_val (g : Sector) : toSector g.val = some g := by simp [toSector, g.isLt]

@[simp] theorem toSector_byte (g : Sector) : toSector (byteOf g.val).toNat = some g := by
  have : g.val % 256 = g.val := Nat.mod_eq_of_lt (by have := g.isLt; omega)
  simp [this]

@[simp] theorem toMix_byte (m : MixClass) : toMix (byteOf m.val).toNat = some m := by
  have : m.val % 256 = m.val := Nat.mod_eq_of_lt (by have := m.isLt; omega)
  simp [this, toMix, m.isLt]

@[simp] theorem toLine_code (l : FeedLine) : toLine l.code.toNat = some l := by cases l <;> rfl

@[simp] theorem toSweepMode_code (m : SweepMode) : toSweepMode m.code.toNat = some m := by cases m <;> rfl

/-- A two-byte figure read back (R190). -/
theorem u16_be16 {n : Nat} (h : n < 65536) : u16 (byteOf (n / 256)) (byteOf n) = n := by
  simp only [u16, byteOf_toNat]; omega

/-- A four-byte figure read back (R190). -/
theorem u32_be32 {n : Nat} (h : n < 4294967296) :
    u32 (byteOf (n / 16777216)) (byteOf (n / 65536)) (byteOf (n / 256)) (byteOf n) = n := by
  simp only [u32, byteOf_toNat]; omega

/-- A two-byte signed figure read back (R190). -/
theorem signed16_mod {z : Int} (h : -32768 ≤ z) (k : z ≤ 32767) : signed16 (z % 65536).toNat = z := by
  unfold signed16; split <;> omega

/-- A four-byte signed figure read back (R190). -/
theorem signed32_mod {z : Int} (h : -2147483648 ≤ z) (k : z ≤ 2147483647) : signed32 (z % 4294967296).toNat = z := by
  unfold signed32; split <;> omega

/-- A list of sectors read back. -/
@[simp] theorem toSectors_bytes (gs : List Sector) : toSectors (gs.map fun g => (byteOf g.val).toNat) = some gs := by
  induction gs with
  | nil => rfl
  | cons g gs ih => simp only [List.map_cons, toSectors, toSector_byte, ih]

@[simp] theorem kindOf_kindByte (k : ReqKind) : kindOf (kindByte k) = some k := by cases k <;> decide

/-- A request whose payload parses, at the port of its kind with nothing due and none in service, is served at once (R182, R183). -/
theorem arrive_of_rest {k : ReqKind} {d : List Byte} {r : Request} {s : State} (h : Rest (roleOf k) s) (hp : parsePayload k d = some r) :
    arrive (roleOf k) k d s =
      (serveRequest r (toHunting (roleOf k) s)).1.setPort (roleOf k)
        { (serveRequest r (toHunting (roleOf k) s)).1.port (roleOf k) with
          service := some ⟨kindByte k, (serveRequest r (toHunting (roleOf k) s)).2,
            ((serveRequest r (toHunting (roleOf k) s)).1.port (roleOf k)).overrun⟩
          overrun := false } := by
  obtain ⟨⟨hd, -⟩, hf⟩ := h
  have hs : ((toHunting (roleOf k) s).port (roleOf k)).service = none := by simpa [toHunting, PortFree] using hf
  unfold arrive request
  rw [settleDue_of_due hd]
  unfold deliver
  dsimp only
  rw [hs]
  simp only [takeFrame, checkRequest, kindOf_kindByte, hp]
  simp

end Sys2Proof.Machine
end

