-- ==== Sys2Proof/Laws/Layers.lean ====
section
/-! SUPPORT. What the operations of the layer table and of the alert list do to the laws of Safety. -/

namespace Sys2Proof.Machine

/-- A stack stays contiguous when its lowest layer leaves. -/
theorem contiguous_tail {l : Layer} {ls : List Layer} (h : contiguous (l :: ls) = true) : contiguous ls = true := by
  cases ls with
  | nil => rfl
  | cons b rest => simp only [contiguous, Bool.and_eq_true] at h; exact h.2

/-- A stack stays contiguous when layers leave from its bottom (R29). -/
theorem contiguous_dropWhile (p : Layer → Bool) {ls : List Layer} (h : contiguous ls = true) : contiguous (ls.dropWhile p) = true := by
  induction ls with
  | nil => rfl
  | cons l rest ih =>
    rw [List.dropWhile_cons]
    split
    · exact ih (contiguous_tail h)
    · exact h

/-- A stack stays contiguous when a layer joins whose base is the top of its topmost layer (R20). -/
theorem contiguous_join {ls : List Layer} {l : Layer} (h : contiguous ls = true) (hb : ∀ x, ls.getLast? = some x → x.top = l.base) :
    contiguous (ls ++ [l]) = true := by
  induction ls with
  | nil => rfl
  | cons a rest ih =>
    cases rest with
    | nil => simp [contiguous, hb a (by simp)]
    | cons b rest =>
      simp only [List.cons_append, contiguous, Bool.and_eq_true] at h ⊢
      exact ⟨h.1, ih h.2 fun x hx => hb x (by simpa using hx)⟩

/-- What stays of a stack has its topmost layer, if anything stays. -/
theorem getLast?_dropWhile (p : Layer → Bool) {ls : List Layer} (h : ls.dropWhile p ≠ []) :
    (ls.dropWhile p).getLast? = ls.getLast? := by
  induction ls with
  | nil => exact absurd rfl h
  | cons l rest ih =>
    rw [List.dropWhile_cons] at h ⊢
    split at h
    · next e =>
      rw [if_pos e, ih h]
      cases rest with
      | nil => exact absurd rfl h
      | cons b r => simp
    · next e => rw [if_neg e]

/-- Entering an alert keeps the law of the alert list (R187). -/
theorem enterAlert_law (k : AlertKind) (g : Option Sector) {s : State} (h : AlertLaw s) : AlertLaw (enterAlert k g s) := by
  obtain ⟨hl, hn, hc⟩ := h
  unfold enterAlert
  split
  · refine ⟨by simpa [mergeAlert] using hl, ?_, ?_⟩
    · have e : (mergeAlert k g s.alerts).map (fun a => (a.kind, a.sector)) = s.alerts.map fun a => (a.kind, a.sector) := by
        simp only [mergeAlert, List.map_map]
        apply List.map_congr_left
        intro a _
        simp only [Function.comp]
        split <;> rfl
      show ((mergeAlert k g s.alerts).map fun a => (a.kind, a.sector)).Nodup
      rw [e]; exact hn
    · intro a ha
      simp only [mergeAlert, List.mem_map] at ha
      obtain ⟨b, hb, rfl⟩ := ha
      have := hc b hb
      split
      · exact ⟨by simp only; omega, by simp only; omega⟩
      · exact this
  · next hh =>
    split
    · next hlt =>
      refine ⟨by simp only [List.length_append, List.length_cons, List.length_nil]; omega, ?_, ?_⟩
      · simp only [List.map_append, List.map_cons, List.map_nil]
        rw [List.nodup_append]
        refine ⟨hn, by simp, ?_⟩
        intro x hx y hy
        simp only [List.mem_singleton] at hy
        subst hy
        simp only [List.mem_map] at hx
        obtain ⟨a, ha, rfl⟩ := hx
        intro e
        apply hh
        simp only [holdsAlert, List.any_eq_true]
        exact ⟨a, ha, by simp only [Prod.mk.injEq] at e; simp [e.1, e.2]⟩
      · intro a ha
        simp only [List.mem_append, List.mem_singleton] at ha
        rcases ha with ha | rfl
        · exact hc a ha
        · simp
    · exact ⟨hl, hn, hc⟩

end Sys2Proof.Machine
end

