-- ==== Sys2Proof/WellFormed.lean ====
section
/-! DEFINITION. Which commands the outside world can send: a frame's payload fits its length byte, a discarded frame fails R181, an unknown kind is not in the catalogue. exec is total all the same (log 1). -/

namespace Sys2Proof

/-- R181: a payload has at most 250 bytes. -/
def payloadFits (p : List Byte) : Bool := p.length ≤ 250

/-- A command that can reach the part. -/
def Instr.wellFormed : Instr → Bool
  | .requestHeld _ _ p => payloadFits p
  | .frameDiscarded _ bytes => checkFrame bytes == .bad
  | .unknownRequest _ kind p => payloadFits p && (kindOf kind).isNone
  | .deckWrite _ _ f => payloadFits (0 :: 0 :: f)
  | .sectorWrite _ _ f => payloadFits (0 :: 0 :: f)
  | .mixWrite _ _ f => payloadFits (0 :: 0 :: f)
  | .sweepWrite _ _ f => payloadFits (0 :: 0 :: f)
  | .startByte _ b => b == 0xA5#8
  | .restart _ p => payloadFits p
  | .profileRead _ p => payloadFits p
  | .setRate _ p => payloadFits p
  | .setGoal _ p => payloadFits p
  | .setPlane _ p => payloadFits p
  | .setCreepSet _ p => payloadFits p
  | .establish _ p => payloadFits p
  | .adjust _ p => payloadFits p
  | .clearFlags _ p => payloadFits p
  | .clearFault _ p => payloadFits p
  | .start _ p => payloadFits p
  | .hold _ p => payloadFits p
  | .park _ p => payloadFits p
  | .stop _ p => payloadFits p
  | .resume _ p => payloadFits p
  | .survey _ p => payloadFits p
  | .endSurvey _ p => payloadFits p
  | .trimSector _ p => payloadFits p
  | .layerRestore _ p => payloadFits p
  | .setLayerCursor _ p => payloadFits p
  | .readLayer _ p => payloadFits p
  | .readReleaseLog _ p => payloadFits p
  | .writeArbTable _ p => payloadFits p
  | .loadArbTable _ p => payloadFits p
  | .readArbTable _ p => payloadFits p
  | .readFeed _ p => payloadFits p
  | .sectorStatus _ p => payloadFits p
  | .deckStatus _ p => payloadFits p
  | .readAlerts _ p => payloadFits p
  | .ackAlerts _ p => payloadFits p
  | .supplyState _ p => payloadFits p
  | .requestFeed _ p => payloadFits p
  | .placed _ p => payloadFits p
  | .abandon _ p => payloadFits p
  | .ticketQuery _ p => payloadFits p
  | .powerOnReset => true
  | .warmReset => true
  | .answerSent _ => true
  | .frameByteTimeout _ => true
  | .switchInputChange _ _ _ => true
  | .switchFirstState _ _ _ => true
  | .strokeEndTaken _ => true
  | .strokeEndLost _ => true
  | .retractedTaken _ => true
  | .retractedLost _ => true
  | .pressurizeWindowExpiry _ => true
  | .settleTimeExpiry _ => true
  | .ventWindowExpiry _ => true
  | .secondEvent => true
  | .minuteEvent => true
  | .paceCounterExpiry => true
  | .dwellLimitReached => true
  | .bondRisk => true
  | .supplyLapse => true
  | .probeAnswer _ _ => true
  | .receiverAnswer _ _ => true
  | .sensorTryTimeout => true
  | .ticketExpiry => true
  | .expiredEntryAging => true
  | .inputReturnsToDebouncedState _ _ => true

end Sys2Proof
end

