-- ==== Sys2Proof/Tests/Slice0.lean ====
section
/-! SUPPORT. Tests: the refusals of WellFormed, the CRC, the spec's worked examples, and for every statement of Certificates/Slice0/Obligations.lean a state and operands that meet its premises. -/

open Sys2Proof Sys2Proof.Machine

-- One theorem at a time: each kernel evaluation below would otherwise hold a thread of its own while the earlier
-- ones are checked.
set_option Elab.async false

/-! ### WellFormed refuses ill-formed commands -/

/-- A payload of 251 bytes. -/
def Tests.long : List Byte := List.replicate 251 0

theorem test_wf_frame_too_long : (Instr.requestHeld .console 0x03 Tests.long).wellFormed = false := by decide +kernel
theorem test_wf_request_too_long : (Instr.setRate .console Tests.long).wellFormed = false := by decide +kernel
theorem test_wf_write_too_long : (Instr.deckWrite .console 0 (List.replicate 249 0)).wellFormed = false := by decide +kernel
theorem test_wf_write_fits : (Instr.deckWrite .console 0 (List.replicate 248 0)).wellFormed = true := by decide +kernel
theorem test_wf_discarded_is_good_frame :
    (Instr.frameDiscarded .console (frameTail 0x0B [])).wellFormed = false := by decide +kernel
theorem test_wf_unknown_is_known : (Instr.unknownRequest .console 0x0B []).wellFormed = false := by decide +kernel
theorem test_wf_unknown_too_long : (Instr.unknownRequest .console 0x7F Tests.long).wellFormed = false := by decide +kernel
theorem test_wf_start_byte : (Instr.startByte .console 0x5A).wellFormed = false := by decide +kernel

/-! ### The CRC and the frame (R181: the nine bytes 0x31 to 0x39 give 0x29B1) -/

theorem test_crc_check_value : crc16 [0x31, 0x32, 0x33, 0x34, 0x35, 0x36, 0x37, 0x38, 0x39] = 0x29B1#16 := by decide +kernel
theorem test_crc_high_byte_first :
    crcBytes [0x31, 0x32, 0x33, 0x34, 0x35, 0x36, 0x37, 0x38, 0x39] = [0x29, 0xB1] := by decide +kernel
theorem test_frame_good : checkFrame (frameTail 0x0B []) = .good 0x0B [] := by decide +kernel
theorem test_frame_length_251 : checkFrame [251] = .bad := by decide
theorem test_frame_length_250 : checkFrame [250] = .incomplete := by decide

/-! ### Small states -/

namespace Tests

/-- The DECK block of the worked examples: H 1200, F 100, M 700, C 10, T 50, W 20, S 4, V 15. -/
def deck : DeckBlock :=
  { height := 1200, freeboard := 100, embed := 700, creepTol := 10, tilt := 50, window := 20, settle := 4, vent := 15,
    dwell := 600, band := 1023, debounce := 50, lapse := 10, cold := -10, feedTimeout := 20, driftLimit := 20 }

/-- A group at home. -/
def home : Group := { endSw := { state := some false }, retSw := { state := some true } }

/-- A sector in use at an elevation, L 250, its concrete top at the form bottom, its group at home. -/
def sector (e : Int) : SectorState :=
  { table := { enabled := true, len := some 250, elev := some e, written := true }
    layers := { top := some (e - 12000), wallBase := some (e - 12000) }
    group := home }

/-- A deck in STANDBY with sector 0 in use at 1 250 000; mix class 0 is fed by line A, 200 mm, threshold 9000. -/
def ready : State :=
  { State.reset with
    mode := .standby, deck := deck, deckWritten := true, sweep := { written := true }, minute := 100, second := 30
    mixes := (Vector.replicate 8 {}).set 0 { written := true, threshold := 9000, coldAge := 120, thickness := 200, line := .a }
    sectors := (Vector.replicate 24 {}).set 0 (sector 1250000) }

/-- A layer of 100 mm at a base. -/
def layer (base : Int) : Layer :=
  { serial := 1, ticket := 1, base := base, top := base + 1000, mix := 0, placed := 50, maturity := 0, flags := {}, batch := none }

/-- The stack of sector 0 replaced. -/
def stacked (ls : List Layer) (s : State) : State := s.modLayers 0 fun t => { t with stack := ls, top := (ls.getLast?.map Layer.top) }

/-- Group 0 replaced. -/
def grp (r : Group) (s : State) : State := s.modGroup 0 fun _ => r

/-- A group with an open stroke of 250. -/
def stroking (st : GroupState) (t : Option Timer) : Group :=
  { home with state := st, isOpen := true, latched := some 250, kind := some .paced, windows := 1, timer := t
              retSw := { state := some false } }

/-- A supply READY with a capacity. -/
def supplied (k : Nat) (s : State) : State := { s with supply := { state := .ready, cap := k, lapseRunning := true } }

/-- The console serves a request. -/
def busyConsole (k : ReqKind) (st : Status) (s : State) : State :=
  s.setPort .console { service := some ⟨kindByte k, ⟨st, []⟩, false⟩ }

/-- Group 0 PRESSURIZING, in the pressure order, under a capacity of 1. -/
def pumping : State :=
  { supplied 1 (grp (stroking .pressurizing (some ⟨.window, 5⟩)) ready) with mode := .climb, pressureOrder := [0] }

/-- An open ticket of sector 0. -/
def ticket : Ticket := { number := 7, base := 1238000, target := 200, mix := 0, line := .a, issue := 90, deadline := 100 }

/-- An expired entry of sector 0. -/
def late : Expired := { number := 9, sector := 0, mix := 0, target := 200, deadline := 80 }

/-- Sector 0 with an open ticket, an entry expired. -/
def ticketed : State := { ready.setTicket 0 (some ticket) with expired := [late] }

/-- What a run of exec gives; the state itself where it stops. -/
def after (c : Instr) (s : State) : State :=
  match exec c s with
  | .next t => t
  | .fault _ => s
  | .refused _ => s

end Tests

open Tests

/-! ### Worked examples of the spec, one step each -/

/-- R51's table. -/
theorem test_increment_table : [(-19 : Int), -18, 0, 20, 41, 130, 160].map increment = [0, 1, 10, 20, 30, 70, 70] := by decide

/-- R181: a hunting port begins a frame at 0xA5 and at no other byte. -/
theorem test_start_byte : (after (.startByte .console 0xA5) ready).consolePort.reception = .receiving []
    ∧ (after (.startByte .console 0x5A) ready).consolePort.reception = .hunting := by decide +kernel

/-- Chapter 7: Q = 0..5 and start index 2. -/
def Tests.sweeping (mode : SweepMode) : State :=
  { State.reset with
    sectors := Vector.ofFn fun g : Fin 24 => if g.val < 6 then { table := { enabled := true } } else {}
    sweep := { written := true, order := [0, 1, 2, 3, 4, 5], start := 2, mode := mode } }

theorem test_rotate : ([0, 1, 2].map (sweeping .rotate).sweepOrder : List (List Sector))
    = [[2, 3, 4, 5, 0, 1], [3, 4, 5, 0, 1, 2], [4, 5, 0, 1, 2, 3]] := by decide +kernel
theorem test_alternate : ([0, 1, 2].map (sweeping .alternate).sweepOrder : List (List Sector))
    = [[2, 3, 4, 5, 0, 1], [1, 0, 5, 4, 3, 2], [2, 3, 4, 5, 0, 1]] := by decide +kernel

/-- Chapter 8: the short trim of sector 10 gives 264, APPLIED. -/
theorem test_trim_arithmetic :
    trimOutcome 250 500 [some 31203, some 31205, some 31204, some 31206] [some 31467, some 31469, some 31468, some 31470]
      = (.applied, 264, some 264) := by decide

/-- Chapter 8: the pace intervals of 250 and of 264 tenths at 350 mm/h are 257 s and 272 s. -/
theorem test_interval : ({ ready with rate := 350 } : State).interval 0 = 257
    ∧ (({ ready with rate := 350 } : State).modTable 0 fun r => { r with len := some 264 }).interval 0 = 272 := by decide +kernel

/-- Chapter 4: sector 12 before the placement: fill hold, allowance 0, the creep test passes. -/
def Tests.fillHold : State :=
  (supplied 4 { ready with mode := .climb }).modLayers 0 fun t =>
    { t with
      stack := [{ layer 1236500 with top := 1238500, flags := { ready := true } }, { layer 1238500 with top := 1240500 },
                { layer 1240500 with top := 1242500 }, { layer 1242500 with top := 1245000 }]
      top := some 1245000 }

theorem test_fill_hold : fillHold.holdReason 0 = .fill ∧ fillHold.shownAllowance 0 = 0 ∧ fillHold.creepTest 0 = true := by decide +kernel

/-- The same sector after a placement of 200 mm: the layer rests on ct and the allowance is 500. -/
theorem test_placement_lifts_hold :
    let s := after (.placed .placing (be16 7 ++ be16 200)) (fillHold.setTicket 0 (some ticket))
    s.concreteTop 0 = 1247000 ∧ s.shownAllowance 0 = 500 ∧ s.holdReason 0 = .none := by decide +kernel

/-- Chapter 2, step 2: a commit releases two layers; a third, above the form bottom, stays. -/
theorem test_commit_releases_two :
    let s0 := pumping.modLayers 0 fun t =>
      { t with stack := [{ layer 1237800 with top := 1238050 }, { layer 1238050 with top := 1238250 }, layer 1238250], top := some 1239250 }
    let s1 := s0.modGroup 0 fun r => { r with endSw := { state := some false, timing := some ⟨true, 50⟩ } }
    let s := after (.strokeEndTaken 0) s1
    s.elev 0 = 1250250 ∧ s.stack 0 = [layer 1238250] ∧ s.releaseCount = 2 ∧ s.concreteTop 0 = 1239250
      ∧ s.groupState 0 = .holding ∧ (s.sector 0).group.strokes = 1 := by decide +kernel

/-- Chapter 5: the marginal stroke's second window. -/
theorem test_marginal_window :
    let s := after (.pressurizeWindowExpiry 0) (pumping.modGroup 0 fun r => { r with timer := some ⟨.window, 0⟩ })
    (s.sector 0).group.windows = 2 ∧ (s.sector 0).group.timer = some ⟨.window, 20⟩ ∧ (s.sector 0).table.flags.marginal = true
      ∧ holdsAlert .marginalStroke (some 0) s.alerts = true := by decide +kernel

/-- Chapter 5: a warm reset in the middle of a stroke: VENTING, margin 250, the reach kept, HOLD, the two alerts. -/
theorem test_warm_reset_mid_stroke :
    let s := after .warmReset pumping
    s.groupState 0 = .venting ∧ (s.sector 0).table.margin = 250 ∧ s.elev 0 = 1250000 ∧ s.reach 0 = pumping.reach 0 ∧ s.mode = .hold
      ∧ s.alerts.map (fun a => (a.kind, a.sector)) = [(.warmRestart, none), (.suspectPosition, some 0)] := by decide +kernel

/-- Chapter 6: groups 2, 5, 9 and 14 PRESSURIZING in that order under a capacity of 4. -/
def Tests.four : State :=
  { supplied 4 ((([2, 5, 9, 14] : List Sector).foldl
      (fun s g => s.modSector g fun _ => { Tests.sector 1250000 with group := stroking .pressurizing (some ⟨.window, 8⟩) }) ready)) with
    mode := .climb, pressureOrder := [2, 5, 9, 14] }

theorem test_capacity_cut :
    let s := after (.supplyState .supply [1, 2]) four
    s.stalledList = [9, 14] ∧ s.pressureOrder = [2, 5, 9, 14] ∧ s.numPressurizing = 2 := by decide +kernel

/-- A report of READY with capacity 3 resumes 5 and 9, oldest first, each with a full window. -/
theorem test_resume_oldest_first :
    let s0 := after (.supplyState .supply [0, 2]) four
    let s := after (.supplyState .supply [1, 3]) ({ s0 with supplyPort := {} })
    s.stalledList = [14] ∧ s.numPressurizing = 3 ∧ (s.sector 2).group.timer = some ⟨.window, 20⟩ := by decide +kernel

/-- Chapter 6: the paced scan takes slots 4 and 5; the pointer stands at 6. -/
def Tests.scanning : State :=
  let table : Vector (Option Sector) 32 :=
    ((((((Vector.replicate 32 none).set 0 (some 0)).set 1 (some 1)).set 2 (some 0)).set 3 (some 2)).set 4 (some 0)).set 5 (some 3)
  let wet : LayerTable := { stack := [{ layer 1238000 with top := 1250000, flags := { ready := true } }], top := some 1250000 }
  let on : SectorState := { Tests.sector 1250000 with layers := wet, pace := { count := 1 } }
  { ready with
    mode := .climb, active := table, scanPtr := 4
    sectors := ((((Vector.replicate 24 {}).set 0 on).set 1 on).set 2 { on with pace := {} }).set 3 on }

theorem test_paced_scan :
    let s := after (.supplyState .supply [1, 2]) scanning
    s.pressureOrder = [0, 3] ∧ s.scanPtr = 6 := by decide +kernel

/-- The second pass: the load is taken at the boundary, and group 1 is granted at slot 2 of the new table. -/
theorem test_load_at_boundary :
    let table : Vector (Option Sector) 32 :=
      ((((Vector.replicate 32 none).set 0 (some 3)).set 1 (some 2)).set 2 (some 1)).set 3 (some 0)
    let s0 := scanning.modPace 0 fun p => { p with count := 0 }
    let s1 := s0.modSector 3 fun x => { x with group := stroking .holding (some ⟨.settle, 3⟩) }
    let s := after (.supplyState .supply [1, 1]) { s1 with scanPtr := 6, shadow := table, loadPending := true }
    s.pressureOrder = [1] ∧ s.scanPtr = 3 ∧ s.active = table ∧ s.loadPending = false := by decide +kernel

/-- Chapter 10: the DECK write with C 5, T 20, W 70 is CLAMPED and takes C 8, T 43, W 60. -/
theorem test_deck_write_raises :
    let s0 := { ready with sectors := ((((ready.sectors.set 4 (Tests.sector 1250000)).set 7 (Tests.sector 1249820)).set 10
      { Tests.sector 1250000 with table := { (Tests.sector 1250000).table with len := some 264 } }).set 15
      { Tests.sector 1250000 with table := { (Tests.sector 1250000).table with margin := 250, nbrs := [7] } }) }
    let s1 := s0.modSector 4 fun x =>
      { x with table := { x.table with elev := some 1250580 }, layers := { x.layers with stack := [layer 1238500], top := some 1239500 } }
    let s := after (.deckWrite .console 0 (deckB { Tests.deck with creepTol := 5, tilt := 20, window := 70 })) s1
    s.deck.creepTol = 8 ∧ s.deck.tilt = 43 ∧ s.deck.window = 60
      ∧ (s.consolePort.service.map fun v => v.reply.status) = some .clamped
      ∧ holdsAlert .clampedSetting none s.alerts = true := by decide +kernel

/-- Chapter 1: the closure makes 15 a neighbour of 7, which does not name it. -/
theorem test_neighbour_closure :
    let s := (ready.modTable 7 fun r => { r with nbrs := [6, 8] }).modTable 15 fun r => { r with nbrs := [7, 14] }
    s.nbrSet 7 = [6, 8, 15] ∧ s.nbrSet 15 = [7, 14] := by decide +kernel

/-- R131: the next ticket number passes from 65 535 to 1; R19: so does a serial. -/
theorem test_numbers_wrap : nextNumber 65535 = 1 ∧ nextSerial 65535 = 1 := by decide

/-- R187: the seventeenth alert is lost and ALERT_FULL shows it; a repeat count stops at 255. -/
theorem test_alert_list_full :
    let s : State := { ready with alerts := (allSectors.take 16).map fun g => ⟨.coldJoint, some g, 0, 255⟩ }
    (enterAlert .overfill none s).alerts = s.alerts ∧ (enterAlert .overfill none s).alertFull = true
      ∧ (enterAlert .coldJoint (some 3) s).alerts = s.alerts := by decide +kernel

/-! ### Witnesses: a state and operands that meet the premises of each statement -/

theorem wit_WarmResetAndRestart : pumping.due = {} ∧ pumping.groupState 0 = .pressurizing ∧ (pumping.sector 0).group.isOpen = true
    ∧ (pumping.sector 0).table.margin = 0 ∧ Rest .console ready
    ∧ (busyConsole .restart .ok ready).consolePort.service = some ⟨kindByte .restart, ⟨.ok, []⟩, false⟩ := by decide

theorem wit_PortTraffic :
    let s := busyConsole .setRate .ok ready
    let v : Service := ⟨kindByte .setRate, ⟨.ok, []⟩, false⟩
    let t := s.setPort .console { s.port .console with held := some ⟨0x0B, []⟩ }
    s.due = {} ∧ (s.port .console).service = some v ∧ (s.port .console).held = none
      ∧ t.due = {} ∧ (t.port .console).service = some v ∧ (t.port .console).held = some ⟨0x0B, []⟩
      ∧ ¬(PortId.console = .console ∧ v.kind = kindByte .restart ∧ v.reply.status = .ok)
      ∧ ready.due = {} ∧ checkFrame [251] = .bad ∧ (ready.port .supply).reception = .hunting ∧ (0x5A : Byte) ≠ 0xA5 := by decide

theorem wit_RequestChecks : Rest .console ready ∧ (∀ k, kindByte k ≠ 0x7F) ∧ roleOf .placed ≠ .console
    ∧ Rest (roleOf .setRate) ready ∧ parsePayload .setRate [0] = none := by
  refine ⟨by decide, ?_, by decide, by decide, by decide⟩
  intro k; cases k <;> decide

theorem wit_FrameDelivers : ready.due = {} ∧ (ready.port .console).reception = .hunting
    ∧ (List.replicate 250 (0 : Byte)).length ≤ 250 := by decide +kernel

theorem wit_RefusalChangesNothing : Rest .console ready
    ∧ ((after (.requestHeld .console 0x7F []) ready).port .console).service = some ⟨0x7F, ⟨.unknown, []⟩, false⟩
    ∧ 16 ≤ Status.unknown.code.toNat ∧ Status.unknown ≠ .stackFull := by decide +kernel

theorem wit_DeckWrite :
    let s := stacked [layer 1238000] ready
    Rest .console ready ∧ (ready.mode = .unset ∨ ready.mode = .standby) ∧ ready.anyInFlight = false ∧ (∀ g, ready.stack g = [])
      ∧ Rest .console s ∧ s.anyInFlight = false ∧ s.stack 0 ≠ []
      ∧ max 600 (min 2000 1200) = s.deck.height ∧ min 300 100 = s.deck.freeboard
      ∧ min (max 100 (min 1500 700)) (1200 - 100 - 40) = s.deck.embed ∧ max 600 (min 2000 65535) ≠ s.deck.height
      ∧ (let t := ready.modPace 0 fun p => { p with dwell := 150 }
         Rest .console t ∧ (t.sector 0).pace.dwell < 2 * t.deck.dwell ∧ 2 * max 60 (min 3600 0) ≤ (t.sector 0).pace.dwell)
      ∧ Rest .console { ready with mode := .unset } := by decide

/-- R158: a write of the SWEEP block completes the profile and takes the deck from UNSET to STANDBY; one that enables a sector not established brings it back. -/
theorem test_completeness :
    let s := after (.sweepWrite .console 0 [0, 0, 0]) { ready with mode := .unset, sweep := {} }
    let t := after (.sectorWrite .console 1 (boolB true ++ be16 250 ++ sfigB 0 ++ [0] ++ [0])) ready
    s.mode = .standby ∧ t.enabled 1 = true ∧ t.mode = .unset := by decide +kernel

theorem wit_SectorWrite :
    Rest .console ready ∧ (ready.mode = .unset ∨ ready.mode = .standby) ∧ ready.anyInFlight = false ∧ ready.deckWritten = true
    ∧ (∀ n ∈ [0, 150, 400, 65535], ∀ z ∈ [(-32768 : Int), -5000, 32767],
      let len := min (max 150 (min 400 n)) (10 * ready.deck.tilt)
      (ready.suspect 1 = true → (ready.sector 1).table.len = some len)
      ∧ (ready.modTable 1 fun r =>
          { r with enabled := true, nbrs := [0], len := some len, written := true, offset := max (-5000) (min 5000 z), mix := 3 }).tiltHolds = true)
    ∧ ready.enabled 1 = false ∧ some 1 ∈ ready.active.toList ∧ ready.loadPending = false
    ∧ (ready.mix 3).line = .none ∧ ready.enabled 0 = true ∧ ready.stack 0 = [] := by
  decide +kernel

theorem wit_MixAndSweepWrite : Rest .console ready ∧ (ready.mode = .unset ∨ ready.mode = .standby) ∧ ready.anyInFlight = false
    ∧ 65535 < 65536 ∧ ready.enabled 0 = true ∧ (ready.sector 0).table.mix = 0 ∧ (ready.mix 0).line ≠ .none
    ∧ (allSectors).Nodup := by decide

theorem wit_SetRate :
    let s := { ready with mode := .climb }.modPace 0 fun p => { p with running := true, counter := 65535 }
    Rest .console s ∧ (s.sector 0).table.len = some 250 ∧ (s.sector 0).pace.running = true ∧ s.interval 0 < 65535
      ∧ (s.sector 1).pace.running = false ∧ s.rate = 150 ∧ max 50 (min 600 65535) ≠ s.rate := by decide

/-- R72, R178: with 600 in force, a counter above its interval is left by SET RATE 600 and cut by SET RATE 700, which is CLAMPED. -/
theorem test_set_rate_repeat :
    let s := { ready with mode := .climb, rate := 600 }.modPace 0 fun p => { p with running := true, counter := 200 }
    ((after (.setRate .console (be16 600)) s).sector 0).pace.counter = 200
      ∧ ((after (.setRate .console (be16 700)) s).sector 0).pace.counter = 150 := by decide +kernel

/-- Sector 0 in CLIMB, its pace counter running, a paced request held. -/
def Tests.climbing : State := { ready with mode := .climb }.modPace 0 fun p => { p with running := true, counter := 600, count := 1 }

theorem wit_SetGoalAndPlane_law : PaceLaw ready ∧ PaceLaw climbing ∧ PaceLaw { ready.modPace 0 (fun p => { p with atGoal := true }) with mode := .halt, goal := 1250000 } := by
  refine ⟨?_, ?_, ?_⟩ <;> unfold PaceLaw <;> decide +kernel

theorem wit_SetGoalAndPlane : Rest .console ready ∧ 4294967295 < 4294967296 ∧ ready.mode ≠ .climb
    ∧ Rest .console climbing ∧ (∀ g, ready.enabled g = true → g = 0) ∧ ready.enabled 0 = true
    ∧ ready.groupState 0 ≠ .fault ∧ ready.established 0 = true
    ∧ ((1250249 : Int) < ready.elev 0 + ready.len 0) ∧ ¬((1250250 : Int) < ready.elev 0 + ready.len 0)
    ∧ 2500000 ≤ 2500000 ∧ 2500000 < 2500001 := by decide

/-- Sectors 0 to 3 hold a layer; all but sector 2 have dwelt to the limit, sector 1 the longest, and sector 3 is not in the creep set. -/
def Tests.dwelling (m : DeckMode) : State :=
  let on := fun d : Nat => { Tests.sector 1250000 with layers := { stack := [layer 1238000], top := some 1239000 }, pace := { dwell := d } }
  { ((({ ready with mode := m, creepSet := [0, 1, 2] }.modSector 0 fun _ => on 600).modSector 1 fun _ => on 700).modSector 2 fun _ =>
      on 599).modSector 3 fun _ => on 900 with
    creepList := [⟨3, 90⟩] }

/-- R77, R161: in HOLD the demands of the creep set join, the longest dwelt first, and the others leave. -/
theorem test_demands_join : ([after (.hold .console []) (dwelling .climb), after (.setCreepSet .console [3, 0, 1, 2]) (dwelling .hold),
    after (.start .console []) (dwelling .standby), after (.resume .console []) { dwelling .halt with beforeHalt := some .climb }]).map
      State.creepList = [[⟨1, 100⟩, ⟨0, 100⟩], [⟨1, 100⟩, ⟨0, 100⟩], [⟨3, 90⟩, ⟨1, 100⟩, ⟨0, 100⟩], [⟨1, 100⟩, ⟨0, 100⟩]] := by decide +kernel

theorem wit_DemandsJoin : (∀ m ∈ [DeckMode.standby, .climb, .hold, .halt], Rest .console (dwelling m))
    ∧ ({ dwelling .standby with goal := 1250100 } : State).goalReached = true := by decide +kernel

theorem wit_SetCreepSet : Rest .console ready ∧ allSectors.length ≤ 24 ∧ ready.mode ≠ .hold
    ∧ Rest .console { ready with mode := .hold } := by decide

theorem wit_Establish : Rest .console ready ∧ (ready.mode = .unset ∨ ready.mode = .standby) ∧ ready.deckWritten = true
    ∧ (ready.sector 0).table.written = true ∧ ready.anyInFlight = false ∧ ready.stack 0 = [] ∧ ready.nbrSet 0 = []
    ∧ Rest .console { ready with mode := .unset } := by decide

theorem wit_Establish_standby : ProfileReady ready := by unfold ProfileReady; decide

/-- Sector 0 SUSPECT with a margin of 250. -/
def Tests.suspected : State := ready.modTable 0 fun r => { r with margin := 250 }

theorem wit_Adjust : Rest .console suspected ∧ (suspected.sector 0).table.elev = some 1250000 ∧ suspected.suspect 0 = true
    ∧ (suspected.groupState 0).inFlight = false := by decide

/-- A layer that leaves when E rises by 100, and one that stays. -/
theorem wit_Adjust_releases :
    let s := stacked [{ layer 1237800 with top := 1238050 }, layer 1238050] suspected
    Rest .console s ∧ s.suspect 0 = true
      ∧ ((s.stack 0).takeWhile fun l => decide (l.top ≤ 1250000 + (100 : Int) - s.h10)) = [{ layer 1237800 with top := 1238050 }] := by decide

theorem wit_ClearFlags : Rest .console ready ∧ (23 : Nat) < 24 ∧ (255 : Nat) = 255 := by decide

theorem wit_ClearFault :
    let s := grp { home with state := .fault, fault := some .stall } ready
    let t := grp { home with state := .fault, fault := some .switch, retSw := { state := some false } } ready
    Rest .console s ∧ s.mode ≠ .unset ∧ s.groupState 0 = .fault ∧ (s.sector 0).group.retSw.state = some true
      ∧ (s.sector 0).group.endSw.state = some false ∧ NoSupply s ∧ s.groupState 1 ≠ .fault
      ∧ Rest .console t ∧ t.groupState 0 = .fault
      ∧ ¬((t.sector 0).group.retSw.state = some true ∧ (t.sector 0).group.endSw.state = some false) := by decide

theorem wit_Start : Rest .console ready ∧ ready.mode = .standby ∧ ready.goalReached = false
    ∧ ({ ready with goal := 1250100 } : State).goalReached = true ∧ Rest .console { ready with mode := .hold }
    ∧ Rest .console { ready with mode := .climb } := by decide

theorem wit_HoldAndPark : Rest .console { ready with mode := .climb } ∧ Rest .console { ready with mode := .hold }
    ∧ ({ ready with mode := .hold } : State).anyInFlight = false
    ∧ Rest .console { pumping with mode := .hold } ∧ ({ pumping with mode := .hold } : State).anyInFlight = true
    ∧ (let s := (stacked [layer 1238000] { ready with mode := .climb, creepSet := [0] }).modPace 0 fun p => { p with dwell := 600 }
       Rest .console s ∧ 0 ∈ s.creepSet ∧ s.enabled 0 = true ∧ s.stack 0 ≠ [] ∧ s.deck.dwell ≤ (s.sector 0).pace.dwell)
    ∧ Rest .console ready ∧ ready.mode = .standby := by decide

/-- pumping meets the law of R108 and R109. -/
theorem wit_PressureLaw : PressureLaw pumping := by unfold PressureLaw; decide

theorem wit_StopAndResume_stop : Rest .console pumping ∧ PressureLaw pumping ∧ pumping.mode = .climb
    ∧ Rest .console { ready with mode := .halt } ∧ PressureLaw { ready with mode := .halt } :=
  ⟨by decide, wit_PressureLaw, by decide, by decide, by unfold PressureLaw; decide⟩

theorem wit_StopAndResume_from_survey : Rest .console { ready with mode := .survey } ∧ PressureLaw { ready with mode := .survey } :=
  ⟨by decide, by unfold PressureLaw; decide⟩

/-- Group 0 under visit, in a phase. -/
def Tests.visiting (ph : VisitPhase) (st : SurveyState) : State :=
  { ready with mode := .survey, surveyState := st, visit := some (0, ph) }

/-- STOP in SURVEY, in every phase of a visit, with another sector PENDING. -/
theorem wit_StopAndResume_visit : ∀ ph ∈ [VisitPhase.reading, .requested, .stroke, .resultMade],
    let s := (visiting ph .running).modTrim 1 fun t => { t with outcome := some .pending }
    Rest .console s ∧ PressureLaw s ∧ s.mode = .survey ∧ s.visit = some (0, ph) := by
  unfold PressureLaw; decide +kernel

theorem wit_StopAndResume_resume : (∀ m ∈ [DeckMode.climb, .hold, .standby, .survey],
    Rest .console { ready with mode := .halt, beforeHalt := some m }) := by decide

theorem wit_ModeRefusals : (∀ m ∈ [DeckMode.unset, .standby, .survey, .climb, .halt], Rest .console { ready with mode := m }) := by
  decide

theorem wit_SurveyBegins : Rest .console ready ∧ ready.mode = .standby ∧ ready.anyInFlight = false ∧ ready.enabled 0 = true
    ∧ ready.groupState 0 ≠ .fault ∧ ready.suspect 0 = false
    ∧ (∀ h : Sector, h < 0 → ready.enabled h = true → ready.groupState h = .fault ∨ ready.suspect h = true)
    ∧ Rest .console suspected ∧ suspected.mode = .standby ∧ suspected.anyInFlight = false ∧ suspected.enabled 0 = true
    ∧ (∀ h, suspected.enabled h = true → suspected.groupState h = .fault ∨ suspected.suspect h = true) := by decide

theorem wit_EndSurvey :
    (∀ ph ∈ [VisitPhase.reading, .requested, .stroke, .resultMade],
      Rest .console (visiting ph .running) ∧ (visiting ph .running).mode = .survey ∧ (visiting ph .running).surveyState ≠ .ending
        ∧ (visiting ph .running).visit = some (0, ph))
    ∧ Rest .console (visiting .stroke .ending) ∧ (visiting .stroke .ending).surveyState = .ending := by decide

theorem wit_TrimSector :
    let s := { ready with mode := .climb }
    let t := s.modTrim 0 fun r => { r with request := .held }
    Rest .console s ∧ s.enabled 0 = true ∧ s.established 0 = true ∧ s.suspect 0 = false ∧ (s.sector 0).trim.request = .none
      ∧ s.groupState 0 = .idle ∧ Rest .console t ∧ (t.sector 0).trim.request ≠ .none := by decide

theorem wit_LayerRestore : Rest .console ready ∧ ready.mode = .standby ∧ ready.enabled 0 = true ∧ ready.established 0 = true
    ∧ (ready.mix 0).written = true ∧ (ready.groupState 0).inFlight = false ∧ (ready.stack 0).length < 12
    ∧ (ready.stack 0 ≠ [] → (1238000 : Int) = ready.concreteTop 0) ∧ (1238000 : Int) + 10 * 500 ≤ ready.elev 0
    ∧ ready.bottom 0 < 1238000 + 10 * 20 ∧ (ready.mix 0).threshold ≤ 65535 ∧ ready.reach 0 - ready.h10 ≤ 1238000 + ready.c10 := by
  decide

/-- Sector 2 holds two layers; the cursor stands in the empty sector 1. -/
def Tests.twoLayers : State :=
  { ready.modLayers 2 fun t => { t with stack := [layer 1238000, layer 1239000] } with cursorSector := 1 }

theorem wit_ReadCursor :
    let at2 : State := { twoLayers with cursorSector := 2, cursorSlot := 1 }
    Rest .console twoLayers ∧ (twoLayers.stack 2)[0]? = some (layer 1238000)
      ∧ (twoLayers.stack twoLayers.cursorSector).length ≤ twoLayers.cursorSlot
      ∧ (2 : Fin 24) = twoLayers.cursorSector + 1 + 0
      ∧ Rest .console at2 ∧ (at2.stack 2)[1]? = some (layer 1239000) ∧ at2.cursorSector = 2 ∧ at2.cursorSlot = 1
      ∧ (11 : Nat) ≤ 11 ∧ ∀ g, ready.stack g = [] := by decide

theorem wit_ArbTables :
    let paced := ready.modPace 0 fun p => { p with count := 1 }
    let bare : State := { ready with shadow := Vector.replicate 32 none }
    Rest .console ready ∧ (∀ g, ready.enabled g = true → some g ∈ ready.shadow.toList) ∧ (∀ g, (ready.sector g).pace.count = 0)
      ∧ Rest .console paced ∧ (paced.sector 0).pace.count ≠ 0 ∧ some 0 ∈ paced.shadow.toList
      ∧ Rest .console bare ∧ bare.enabled 0 = true ∧ some 0 ∉ bare.shadow.toList := by decide

theorem wit_ReadsChangeNothing : Rest .console ready ∧ (31 : Nat) ≤ 31 ∧ (1 : Nat) ≤ 8 := by decide

theorem wit_AlertsReadAndAcked : Rest .console ready ∧ (15 : Nat) ≤ 15 ∧ (1 : Nat) ≤ 8 ∧ (16 : Nat) ≤ 16 ∧ ready.alerts ≠ [] := by
  decide

theorem wit_SupplyReport : Rest .supply pumping ∧ PressureLaw pumping ∧ (255 : Nat) < 256 ∧ (401 : Nat) < 65536
    ∧ pumping.groupState 0 = .pressurizing :=
  ⟨by decide, wit_PressureLaw, by decide, by decide, by decide⟩

/-- A cut to a capacity of 2, and one to the number PRESSURIZING, which stalls none. -/
theorem wit_SupplyReport_cut : Rest .supply four ∧ PressureLaw four ∧ min 2 8 ≤ four.numPressurizing ∧ min 4 8 ≤ four.numPressurizing :=
  ⟨by decide, by unfold PressureLaw; decide +kernel, by decide +kernel, by decide +kernel⟩

/-- Sector 0 queued, with room for a placement. -/
def Tests.queued : State := { ready with queue := [0] }

theorem wit_RequestFeed :
    let last : State := { queued with nextTicket := 65535 }
    Rest .placing last ∧ last.mode = .standby ∧ FeedLine.a ≠ .none ∧ last.queue = [0]
      ∧ last.mixLine 0 = .a ∧ 10 * ((last.mix (last.sector 0).table.mix).thickness : Int) ≤ last.elev 0 - last.f10 - last.concreteTop 0
      ∧ (last.stack 0).length ≤ 11 ∧ Rest .placing ready ∧ ready.queue.isEmpty = true ∧ 1 ≤ ready.nextTicket
      ∧ last.mixLine 0 ≠ .b := by decide

theorem wit_RequestFeed_law : FeedLaw { queued with nextTicket := 65535 } ∧ FeedLaw ready := by
  refine ⟨?_, ?_⟩ <;> unfold FeedLaw <;> decide +kernel

/-- R131: after 65 535 comes 1, and a number that an expired entry holds is passed over. -/
theorem test_ticket_numbers_pass_over :
    let s : State := { queued with nextTicket := 65535, expired := [{ late with number := 65535 }, { late with number := 1 }] }
    let t := after (.requestFeed .placing [0, 9]) s
    ((t.sector 0).ticket.map Ticket.number) = some 2 ∧ t.nextTicket = 3
      ∧ (t.placingPort.service.map fun v => v.reply.status) = some .clamped := by decide +kernel

theorem wit_PlacementCommit :
    Rest .placing ticketed ∧ ticketed.named 7 = some { number := 7, sector := 0, mix := 0, target := 200, late := false }
      ∧ ticketed.named 9 = some { number := 9, sector := 0, mix := 0, target := 200, late := true }
      ∧ (1 : Nat) ≤ 1 ∧ (65535 : Nat) < 65536 ∧ (ticketed.stack 0).length < 12 := by decide

theorem wit_PlacementRefused :
    let s := stacked (List.replicate 12 (layer 1238000)) ticketed
    Rest .placing s ∧ s.named 7 = some { number := 7, sector := 0, mix := 0, target := 200, late := false }
      ∧ 12 ≤ (s.stack 0).length := by decide

theorem wit_AbandonAndQuery : Rest .placing ticketed ∧ ticketed.findOpen 7 = some (0, ticket) ∧ ticketed.findOpen 9 = none
    ∧ ticketed.findExpired 9 = some late ∧ ticketed.findOpen 65535 = none ∧ ticketed.findExpired 65535 = none := by decide

theorem wit_PlacedZeroAbandons : Rest .placing ticketed ∧ (7 : Nat) < 65536 := by decide

/-- Group 0 with switch readings. -/
def Tests.switched (endSw retSw : Switch) (s : State) : State := s.modGroup 0 fun r => { r with endSw := endSw, retSw := retSw }

theorem wit_SwitchInputs :
    let timed := switched { state := some true, timing := some ⟨false, 50⟩ } { state := some true, timing := some ⟨false, 50⟩ } ready
    ready.due = {} ∧ ((ready.sector 0).group.switch .strokeEnd).state ≠ some true
      ∧ ((ready.sector 0).group.switch .strokeEnd).timing = none
      ∧ ((timed.sector 0).group.switch .retracted) = { state := some true, timing := some ⟨false, 50⟩ }
      ∧ ((ready.sector 1).group.switch .retracted).state = none ∧ ((ready.sector 1).group.switch .retracted).timing = none
      ∧ Quiet timed ∧ (timed.sector 0).group.endSw = { state := some true, timing := some ⟨false, 50⟩ }
      ∧ (timed.sector 0).group.retSw = { state := some true, timing := some ⟨false, 50⟩ }
      ∧ timed.groupState 0 = .idle ∧ timed.enabled 0 = true
      ∧ (let both := switched { state := some false, timing := some ⟨true, 50⟩ } { state := some true } { ready with mode := .climb }
         let off : State := both.modTable 0 fun r => { r with enabled := false }
         let alone := switched { state := some false } { state := some false, timing := some ⟨true, 50⟩ } ready
         Quiet both ∧ both.groupState 0 = .idle ∧ (both.sector 0).group.switch .strokeEnd = { state := some false, timing := some ⟨true, 50⟩ }
          ∧ (both.sector 0).group.retSw.state = some true ∧ both.surveyState = .none ∧ both.visit = none
          ∧ Quiet off ∧ off.enabled 0 = false ∧ off.groupState 0 = .idle
          ∧ Quiet alone ∧ (alone.sector 0).group.switch .retracted = { state := some false, timing := some ⟨true, 50⟩ }
          ∧ (alone.sector 0).group.endSw.state ≠ some true)
      ∧ (∀ ph ∈ [VisitPhase.reading, .requested],
          let v : State := { switched { state := some false, timing := some ⟨true, 50⟩ } { state := some true } (visiting ph .running) with
            surveyReq := if ph = .requested then some 0 else none }
          Quiet v ∧ v.groupState 0 = .idle ∧ v.enabled 0 = true ∧ v.mode = .survey ∧ v.visit = some (0, ph)
            ∧ (v.sector 0).group.retSw.state = some true) := by decide +kernel

theorem wit_StrokeCommits :
    let s := switched { state := some false, timing := some ⟨true, 50⟩ } { state := some true } pumping
    Quiet s ∧ (s.sector 0).group.endSw = { state := some false, timing := some ⟨true, 50⟩ } ∧ (s.sector 0).group.retSw.state = some true
      ∧ s.groupState 0 = .pressurizing ∧ (s.sector 0).group.latched = some 250 ∧ (s.sector 0).table.elev = some 1250000
      ∧ 0 < s.deck.dwell ∧ s.deck.settle ≠ 0 ∧ s.enabled 0 = true := by decide

/-- Group 0 VENTING after a stroke, its retracted switch about to be taken, or its vent window at its end. -/
def Tests.venting (failed : Bool) : State :=
  switched { state := some false } { state := some false, timing := some ⟨true, 50⟩ }
    (grp { stroking .venting (some ⟨.vent, 0⟩) with failed := failed, isOpen := failed } { ready with mode := .climb })

theorem wit_StrokeEnds : Quiet (venting false)
    ∧ ((venting false).sector 0).group.retSw = { state := some false, timing := some ⟨true, 50⟩ }
    ∧ (venting false).groupState 0 = .venting ∧ ((venting false).sector 0).group.failed = false ∧ NoSupply (venting false)
    ∧ Quiet (venting true) ∧ (venting true).enabled 0 = true ∧ (venting true).groupState 0 = .venting
    ∧ ((venting true).sector 0).group.failed = true ∧ ((venting true).sector 0).group.isOpen = true
    ∧ ((venting true).sector 0).group.latched = some 250
    ∧ ((venting true).sector 0).group.retSw = { state := some false, timing := some ⟨true, 50⟩ }
    ∧ ((venting true).sector 0).group.timer = some ⟨.vent, 0⟩ ∧ (venting true).mode = .climb ∧ (venting true).surveyState = .none := by
  decide

/-- Group 0 VENTING under visit: its stroke failed, or its result made. -/
def Tests.ending (ph : VisitPhase) (st : SurveyState) (o : VisitOutcome) : State :=
  { (venting (ph == .stroke)).modTrim 0 fun t => { t with outcome := some o } with mode := .survey, surveyState := st, visit := some (0, ph) }

theorem wit_visit_ends : ∀ st ∈ [SurveyState.running, .ending],
    Quiet (ending .resultMade st .applied) ∧ ((ending .resultMade st .applied).sector 0).group.failed = false
    ∧ ((ending .resultMade st .applied).sector 0).group.retSw = { state := some false, timing := some ⟨true, 50⟩ }
    ∧ ((ending .resultMade st .applied).sector 0).group.timer = some ⟨.vent, 0⟩
    ∧ ((ending .resultMade st .applied).sector 0).trim.outcome = some .applied ∧ (ending .resultMade st .applied).enabled 0 = true
    ∧ (ending .resultMade st .applied).surveyReq = none ∧ (ending .resultMade st .applied).surveyState = st
    ∧ Quiet (ending .stroke st .pending) ∧ ((ending .stroke st .pending).sector 0).group.failed = true
    ∧ (ending .stroke st .pending).visit = some (0, .stroke) ∧ ((ending .stroke st .pending).sector 0).group.isOpen = true := by decide

/-- Chapter 8: the visit of sector 0 ends; sector 1, SUSPECT, is SKIPPED, and sector 2 takes its before-readings; or the survey is over. -/
theorem test_next_visit :
    let pend : SectorState := { Tests.sector 1250000 with trim := { outcome := some .pending } }
    let s := ((ending .resultMade .running .applied).modSector 1 fun _ => { pend with table := { pend.table with margin := 9 } })
    let t := after (.retractedTaken 0) (s.modSector 2 fun _ => pend)
    let u := after (.retractedTaken 0) s
    t.visit = some (2, .reading) ∧ (t.sector 1).trim.outcome = some .skipped ∧ t.mode = .survey ∧ t.tryUnderWay .before 2 = true
      ∧ u.visit = none ∧ u.mode = .standby ∧ holdsAlert .surveyDone none u.alerts = true := by decide +kernel

/-- A late commit: the stroke-end switch is about to be taken in VENTING with the failed mark, a short trim under way. -/
theorem wit_StrokeCommits_late :
    let s := (switched { state := some false, timing := some ⟨true, 50⟩ } { state := some false } (venting true)).modTrim 0 fun t =>
      { t with underWay := true }
    Quiet s ∧ (s.sector 0).group.endSw = { state := some false, timing := some ⟨true, 50⟩ } ∧ s.groupState 0 = .venting
      ∧ (s.sector 0).group.failed = true ∧ (s.sector 0).group.isOpen = true ∧ (s.sector 0).group.latched = some 250
      ∧ (s.sector 0).table.elev = some 1250000 ∧ 0 < s.deck.dwell ∧ s.visit = none ∧ (s.sector 0).trim.underWay = true := by decide

/-- The stroke of a short trim, or of the visit of group 0, about to commit: in time or late, with a settle time or none. -/
theorem wit_StrokeCommits_trim : ∀ k ∈ [0, 4], ∀ late ∈ [false, true], ∀ survey ∈ [false, true],
    let s0 := switched { state := some false, timing := some ⟨true, 50⟩ } { state := some false }
      (if late then venting true else { pumping with supply := {}, pressureOrder := [0] })
    let s1 : State := if survey then { s0 with mode := .survey, surveyState := .running, visit := some (0, .stroke) } else s0
    let s := { s1 with deck := { deck with settle := k } }.modTrim 0 fun t => { t with underWay := !survey }
    Quiet s ∧ (s.sector 0).group.endSw = { state := some false, timing := some ⟨true, 50⟩ } ∧ s.surveyReq = none
      ∧ (s.groupState 0 = .pressurizing ∨ (s.groupState 0 = .venting ∧ (s.sector 0).group.failed = true ∧ (s.sector 0).group.isOpen = true))
      ∧ (s.sector 0).group.latched = some 250 ∧ (s.sector 0).table.elev = some 1250000 ∧ 0 < s.deck.dwell := by decide +kernel

theorem wit_TimersExpire :
    let third := grp { stroking .pressurizing (some ⟨.window, 0⟩) with windows := 3 } ready
    let second := grp { stroking .pressurizing (some ⟨.window, 0⟩) with windows := 2 } ready
    let settling := grp { stroking .holding (some ⟨.settle, 0⟩) with isOpen := false } ready
    Quiet second ∧ second.groupState 0 = .pressurizing ∧ (second.sector 0).group.timer = some ⟨.window, 0⟩
      ∧ (second.sector 0).group.windows < 3 ∧ Quiet third ∧ 3 ≤ (third.sector 0).group.windows
      ∧ (let short := settling.modTrim 0 fun t => { t with underWay := true, after := [some 1, none, some 2] }
         let survey : State := { settling with mode := .survey, visit := some (0, .stroke) }
         Quiet short ∧ (short.sector 0).trim.underWay = true ∧ short.visit = none ∧ fourSum (short.sector 0).trim.after = none
          ∧ Quiet survey ∧ (survey.sector 0).trim.after = [])
      ∧ Quiet settling ∧ settling.groupState 0 = .holding ∧ (settling.sector 0).group.timer = some ⟨.settle, 0⟩
      ∧ Quiet (venting false) ∧ ((venting false).sector 0).group.timer = some ⟨.vent, 0⟩
      ∧ ((venting false).sector 0).group.failed = false := by decide

theorem wit_SecondEvent :
    Quiet ready ∧ ready.second < 59 ∧ Quiet ({ ready with second := 58 } : State)
      ∧ (∀ g, (ready.sector g).group.timer = none) ∧ (29 + 1) % 10 = 0 := by decide

/-- A timer of each kind at 0 when the clock ticks. -/
theorem wit_SecondEvent_expiry : ∀ s ∈ [(grp (stroking .pressurizing (some ⟨.window, 0⟩)) ready),
      grp { stroking .holding (some ⟨.settle, 0⟩) with isOpen := false } ready, venting false],
    Quiet s ∧ RangeLaw s ∧ s.deckWritten = true ∧ ((s.sector 0).group.timer.map Timer.left) = some 0 := by
  unfold RangeLaw; decide +kernel

/-- R110: the timers of groups 0 and 5 are at 0 in one second; the pass after the third window of group 0 grants group 3, before the fault of group 5 brings HOLD. -/
theorem test_pass_after_each_expiry :
    let s0 := scanning.modSector 0 fun x => { x with group := { stroking .pressurizing (some ⟨.window, 0⟩) with windows := 3 } }
    let s1 := s0.modSector 5 fun _ => { Tests.sector 1250000 with group := { stroking .venting (some ⟨.vent, 0⟩) with failed := true } }
    let t := after .secondEvent { supplied 1 s1 with pressureOrder := [0] }
    t.groupState 0 = .venting ∧ t.groupState 3 = .pressurizing ∧ t.groupState 5 = .fault ∧ t.mode = .hold := by decide +kernel

theorem wit_MinuteEvent :
    Quiet ready ∧ ({ ready with second := 59 } : State).second = 59 ∧ (∀ g, (ready.sector g).group.timer = none)
      ∧ (ready.sector 0).probe.state = .unknown ∧ (ready.sector 0).probe.refMinute + 10 ≤ 101 := by decide

theorem wit_PaceExpiry :
    let s := { ready with mode := .climb, due := { pace := true } }.modPace 0 fun p => { p with running := true, count := 2 }
    s.due = { pace := true } ∧ s.passDue = false ∧ (s.sector 0).pace.running = true ∧ (s.sector 0).pace.counter = 0
      ∧ 2 ≤ (s.sector 0).pace.count := by decide

theorem wit_ThresholdsReached :
    let s := (stacked [layer 1238000] { ready with mode := .climb, due := { dwell := true } }).modPace 0 fun p => { p with dwell := 600 }
    s.due = { dwell := true } ∧ s.passDue = false ∧ s.enabled 0 = true ∧ s.stack 0 ≠ [] ∧ s.deck.dwell ≤ (s.sector 0).pace.dwell
      ∧ s.demanded 0 = false ∧ ({ ready with due := { bond := [0, 5] } } : State).passDue = false
      ∧ ({ pumping with due := { lapse := true } } : State).passDue = false := by decide

theorem wit_ThresholdsReached_lapse : PressureLaw { pumping with due := { lapse := true } } := by unfold PressureLaw; decide

theorem wit_TicketsExpire :
    let s : State := { ticketed with due := { expiry := true } }
    let t : State := { ticketed with due := { aging := true } }
    s.passDue = false ∧ s.expired.length ≤ 8 ∧ (s.sector 0).ticket = some ticket ∧ ticket.deadline ≤ s.minute
      ∧ t.passDue = false ∧ late ∈ t.expired ∧ ¬(t.minute < late.deadline + t.deck.feedTimeout) := by decide

/-- A try of sector 0 on the line. -/
def Tests.trying (k : TryKind) (a : Nat) : State := { ready with line := some ⟨k, 0, a, true⟩ }

theorem wit_SensorTries :
    Quiet (trying .probe 2) ∧ (trying .probe 2).line = some ⟨.probe, 0, 2, true⟩ ∧ Quiet (trying .probe 3)
      ∧ (trying .probe 3).line = some ⟨.probe, 0, 3, true⟩ ∧ Quiet (trying .drift 3)
      ∧ (trying .drift 3).line = some ⟨.drift, 0, 3, true⟩ ∧ (trying .before 1).line = some ⟨.before, 0, 1, true⟩
      ∧ Quiet (trying .before 1) := by decide

theorem wit_DriftReading : Quiet (trying .drift 1) ∧ (trying .drift 1).line = some ⟨.drift, 0, 1, true⟩
    ∧ 10 * (trying .drift 1).deck.driftLimit < ((0 : Int) + 31468 + 0 - 1250000).natAbs
    ∧ ((trying .drift 1).sector 0).trim.beyond = false := by decide

/-- The fourth after-reading of chapter 8's short trim is on the line. -/
def Tests.trimming : State :=
  (grp { stroking .holding (some ⟨.settle, 2⟩) with isOpen := false } (trying .after 1)).modTrim 0 fun t =>
    { t with
      underWay := true, before := [some 31203, some 31205, some 31204, some 31206]
      after := [some 31467, some 31469, some 31468] }

theorem wit_TrimReadings : Quiet trimming ∧ trimming.line = some ⟨.after, 0, 1, true⟩ ∧ trimming.groupState 0 = .holding
    ∧ trimming.visit = none ∧ (trimming.sector 0).trim.underWay = true
    ∧ (trimming.sector 0).trim.before = [some 31203, some 31205, some 31204, some 31206]
    ∧ (trimming.sector 0).trim.after = [some 31467, some 31469, some 31468] ∧ (trimming.sector 0).table.len = some 250 := by decide

/-- A first reading, good or missing; and the fourth after-reading of the visit of sector 0. -/
theorem wit_TrimReadings_more :
    let survey : State := { trimming with mode := .survey, surveyState := .running, visit := some (0, .stroke) }
    (∀ k ∈ [TryKind.before, .after], ∀ a ∈ [1, 3], Quiet (trying k a) ∧ (trying k a).line = some ⟨k, 0, a, true⟩
      ∧ ((trying k a).sector 0).trim.before = [] ∧ ((trying k a).sector 0).trim.after = [])
    ∧ Quiet survey ∧ survey.line = some ⟨.after, 0, 1, true⟩ ∧ survey.groupState 0 = .holding ∧ survey.visit = some (0, .stroke) := by decide

/-- Before-readings about to end, of a trim request and of a visit: all good, or one missing. -/
theorem wit_TrimReadings_before :
    let three := fun (x : Option Nat) => [some 31203, x, some 31204]
    let asked := fun x => ({ trying .before 3 with mode := .climb } : State).modTrim 0 fun t => { t with request := .reading, before := three x }
    let visit := fun x => ({ visiting .reading .running with line := some ⟨.before, 0, 3, true⟩ } : State).modTrim 0 fun t =>
      { t with before := three x }
    ∀ x ∈ [some 31205, none], Quiet (asked x) ∧ (asked x).line = some ⟨.before, 0, 3, true⟩ ∧ ((asked x).sector 0).trim.before = three x
      ∧ (asked x).visit ≠ some (0, .reading) ∧ NoSupply (asked x)
      ∧ Quiet (visit x) ∧ (visit x).line = some ⟨.before, 0, 3, true⟩ ∧ ((visit x).sector 0).trim.before = three x
      ∧ (visit x).visit = some (0, .reading) ∧ NoSupply (visit x) ∧ (visit x).mode = .survey ∧ (visit x).surveyReq = none := by decide

/-- A grant: the supply reports READY, and the paced scan takes groups 0 and 3. -/
theorem wit_GrantsAreEligible :
    Quiet scanning ∧ ∃ t, exec (.supplyState .supply [1, 2]) scanning = .next t ∧ scanning.groupState 0 ≠ .pressurizing
      ∧ scanning.groupState 0 ≠ .stalled ∧ t.groupState 0 = .pressurizing :=
  ⟨by decide, _, rfl, by decide, by decide, by decide +kernel⟩

/-- A grant at a minute event, no timer at 0: the layer of sector 0 turns READY. -/
theorem wit_GrantsAreEligible_clock :
    let wet := fun (x : SectorState) => { x with layers :=
      { stack := [{ layer 1238000 with top := 1250000, maturity := 8999 }], top := some 1250000, wallBase := some 1238000 } }
    let s := (supplied 1 { scanning with deck := { deck with cold := 20 } }).modSector 0 wet
    Quiet s ∧ (∀ h, (s.sector h).group.timer = none) ∧ StackLaw s ∧ ConcreteLaw s ∧ s.groupState 0 = .idle
      ∧ (after .minuteEvent s).groupState 0 = .pressurizing := by
  unfold StackLaw ConcreteLaw; decide +kernel

theorem wit_GrantsAreEligible_laws : StackLaw scanning ∧ ConcreteLaw scanning := by
  refine ⟨?_, ?_⟩
  · unfold StackLaw; decide +kernel
  · unfold ConcreteLaw; decide +kernel

/-- Groups 2, 5, 9 and 14 STALLED in that order. -/
def Tests.fourStalled : State :=
  { ([2, 5, 9, 14] : List Sector).foldl (fun s g => s.modGroup g fun r => { r with state := .stalled, timer := none }) four with supply := {} }

theorem wit_GrantPassServes : Rest .supply fourStalled ∧ PressureLaw fourStalled ∧ fourStalled.loadPending = false
    ∧ fourStalled.mode = .climb ∧ Rest .supply { fourStalled with mode := .halt } ∧ PressureLaw { fourStalled with mode := .halt } :=
  ⟨by decide, by unfold PressureLaw; decide +kernel, by decide, by decide, by decide, by unfold PressureLaw; decide +kernel⟩

theorem wit_PacedScan :
    Rest .supply scanning ∧ scanning.mode = .climb ∧ scanning.scanPtr = 4
      ∧ (∀ g, scanning.groupState g ≠ .pressurizing ∧ scanning.groupState g ≠ .stalled) ∧ scanning.creepList = []
      ∧ scanning.slot 4 = some 0 ∧ scanning.pacedEligible 0 = true := by decide +kernel

/-- A survey request pending for sector 0, whose suspect margin is given. -/
def Tests.asking (margin : Nat) : State :=
  { visiting .requested .running with surveyReq := some 0 }.modTable 0 fun r => { r with margin := margin }

/-- A survey request under a free capacity: one that is granted, and one that is BLOCKED, its sector SUSPECT. -/
theorem wit_GrantPassServes_survey : (asking 0).surveyEligible 0 = true ∧ (asking 5).surveyEligible 0 = false
    ∧ ∀ m ∈ [0, 5], Rest .supply (asking m) ∧ (asking m).loadPending = false ∧ (asking m).mode = .survey ∧ (asking m).stalledList = []
      ∧ (asking m).numPressurizing < min 1 8 ∧ (asking m).surveyReq = some 0 ∧ (asking m).visit = some (0, .requested) := by
  decide +kernel

theorem wit_GrantPassServes_laws : RangeLaw fourStalled ∧ (∀ m ∈ [0, 5], RangeLaw (asking m)) ∧ ∀ m ∈ [0, 5], PressureLaw (asking m) := by
  refine ⟨?_, ?_, ?_⟩
  · unfold RangeLaw; decide +kernel
  · unfold RangeLaw; decide +kernel
  · unfold PressureLaw; decide +kernel

/-- A load pending: the first eligible slot is slot 2 of the shadow table, 28 slots from the pointer; and with no request left, none is. -/
theorem wit_PacedScan_boundary :
    let table : Vector (Option Sector) 32 := (((Vector.replicate 32 none).set 0 (some 3)).set 1 (some 2)).set 2 (some 1)
    let s : State := { (scanning.modPace 0 fun p => { p with count := 0 }).modPace 3 fun p => { p with count := 0 } with
      scanPtr := 6, shadow := table, loadPending := true }
    let none' := s.modPace 1 fun p => { p with count := 0 }
    Rest .supply s ∧ (s.shadow.toList[6 + 28 - 32]?).join = some 1 ∧ s.pacedEligible 1 = true
      ∧ (∀ j < 26, ∀ g, s.slot (6 + j) = some g → s.pacedEligible g = false)
      ∧ s.pacedEligible 3 = false ∧ s.pacedEligible 2 = false
      ∧ Rest .supply none' ∧ ∀ g, none'.pacedEligible g = false := by decide +kernel

/-- Chapter 8: the receiver answers 31 470, and sector 0 takes L = 264. -/
theorem test_short_trim :
    let s := after (.receiverAnswer 31470 false) trimming
    (s.sector 0).table.len = some 264
      ∧ ((s.sector 0).trim.result.map fun r => (r.code, r.newLen, r.diff)) = some (.applied, 264, some 264) := by decide +kernel

theorem wit_SweepOrder : 5 < (sweeping .alternate).sweepSequence.length := by decide +kernel

/-- Sector 0 with a layer that is not READY, its group PRESSURIZING, a ticket open in sector 1 and sector 2 queued; a second event waits. -/
def Tests.working : State :=
  { (((stacked [{ layer 1238500 with top := 1250000 }] pumping).modSector 1 fun _ =>
      { Tests.sector 1250000 with ticket := some ticket }).modSector 2 fun _ => Tests.sector 1250000) with
    queue := [2], expired := [late], pending := [.secondEvent] }

/-- Its pace counter runs, and one paced request is held. -/
theorem wit_PaceLawKept :
    let s := working.modPace 0 fun p => { p with running := true, counter := 60, count := 1 }
    PaceLaw ((s.modPace 1 fun p => { p with running := true }).modPace 2 fun p => { p with running := true }) := by
  unfold PaceLaw; decide +kernel

/-- The premises of the laws kept, in a working state; a step is taken from it. -/
theorem wit_LawsKept : AlertLaw working ∧ StackLaw working ∧ ConcreteLaw working ∧ StrokeLaw working ∧ PressureLaw working
    ∧ SurveyLaw working ∧ RangeLaw working ∧ ∃ t, step working = .next t := by
  refine ⟨?_, ?_, ?_, ?_, ?_, ?_, ?_, _, rfl⟩
  · unfold AlertLaw; decide +kernel
  · unfold StackLaw; decide +kernel
  · unfold ConcreteLaw; decide +kernel
  · unfold StrokeLaw; decide +kernel
  · unfold PressureLaw; decide +kernel
  · unfold SurveyLaw; decide +kernel
  · unfold RangeLaw; decide +kernel

theorem wit_LawsKept_feed : FeedLaw working ∧ working.numbersInUse = [7, 9] ∧ working.queue = [2] := by
  unfold FeedLaw; decide +kernel

theorem wit_StackLawKept : (∀ g, working.established g = true → ¬Exposed working g ∧ Grounded working g)
    ∧ working.established 0 = true ∧ working.stack 0 ≠ [] := by
  refine ⟨fun g _ => ⟨?_, ?_⟩, by decide, by decide⟩
  · unfold Exposed; revert g; decide +kernel
  · unfold Grounded; revert g; decide +kernel

/-- The tilt law where sectors 0 and 1 are neighbours and stroke 0 is open. -/
theorem wit_TiltLawKept :
    let s := working.modTable 0 fun r => { r with nbrs := [1] }
    StrokeLaw s ∧ s.nbrSet 0 = [1] ∧ s.established 1 = true ∧ TiltLaw s := by
  refine ⟨?_, by decide +kernel, by decide, ?_, ?_, ?_, by decide⟩
  · unfold StrokeLaw; decide +kernel
  · intro a b _; revert a b; decide +kernel
  · decide +kernel
  · decide +kernel

/-- An alert held, one that joins as the sixteenth, and one that is lost. -/
theorem wit_AlertLawKept_enter :
    let s : State := { ready with alerts := (allSectors.take 15).map fun g => ⟨.coldJoint, some g, 0, 255⟩ }
    let t : State := { ready with alerts := (allSectors.take 16).map fun g => ⟨.coldJoint, some g, 0, 1⟩ }
    AlertLaw s ∧ AlertLaw t ∧ s.alerts[14]? = some ⟨.coldJoint, some 14, 0, 255⟩ ∧ s.alerts.length < 16 ∧ t.alerts.length = 16
      ∧ (∀ a ∈ t.alerts, ¬(a.kind = .coldJoint ∧ a.sector = none)) := by
  unfold AlertLaw; decide +kernel

theorem wit_ElevationKept : working.pending.head? ≠ some .powerOnReset ∧ (working.sector 0).table.elev = some 1250000
    ∧ (∀ l ∈ working.stack 0, l.maturity ≤ 65535) ∧ working.stack 0 ≠ [] := by decide
end

