-- ==== Sys2Proof/Proofs/Reset.lean ====
section
/-! SUPPORT. The state right after power-on reset: its records, and the laws it meets (PowerOnReset, LawsAtReset). -/

namespace Sys2Proof.Machine

/-! ### The records at reset -/

@[simp] theorem sector_reset (g : Sector) : State.reset.sector g = {} := by
  simp [State.sector, State.reset, Vector.get_eq_getElem]

@[simp] theorem mix_reset (m : MixClass) : State.reset.mix m = {} := by
  simp [State.mix, State.reset, Vector.get_eq_getElem]

/-- The active table names the sectors 0 to 23, then EMPTY; no slot stands above 31 (R116). -/
theorem slot_reset (j : Nat) : State.reset.slot j = toSector j := by
  by_cases h : j < 32
  · have hall : ∀ i : Fin 32, State.reset.slot i.val = toSector i.val := by decide
    exact hall ⟨j, h⟩
  · have h24 : ¬j < 24 := by omega
    simp [State.slot, toSector, h, h24]

/-- Power-on reset leaves the records of the reset state; only the queue of commands stays. -/
@[simp] theorem sector_powerOn (s : State) (g : Sector) : (powerOn s).sector g = {} := sector_reset g

/-- Settles O2. -/
theorem powerOnReset : Obligations.PowerOnReset := by
  intro s
  have hport : ∀ p, (powerOn s).port p = { reception := .hunting, service := none, held := none, overrun := false } := by
    intro p; cases p <;> rfl
  have hmix : ∀ m, ((powerOn s).mix m).written = false := fun m => by rw [show (powerOn s).mix m = _ from mix_reset m]
  refine ⟨powerOn s, rfl, rfl, rfl, rfl, rfl, rfl, rfl, rfl, rfl, rfl, rfl, rfl, rfl, rfl, rfl, hmix, rfl, rfl, rfl, rfl, rfl, rfl,
    rfl, rfl, rfl, rfl, rfl, slot_reset, rfl, rfl, rfl, rfl, rfl, rfl, rfl, rfl, rfl, rfl, rfl, rfl, rfl, rfl, hport, fun g => ?_⟩
  rw [sector_powerOn]
  exact ⟨⟨rfl, rfl, rfl, rfl, rfl, rfl, rfl⟩, rfl, rfl, rfl, ⟨rfl, rfl, rfl, rfl, rfl, rfl, rfl, rfl, rfl, rfl, rfl⟩, rfl, rfl, rfl, rfl, rfl,
    rfl, rfl⟩

/-! ### The laws at reset -/

theorem strokeLaw_reset : StrokeLaw State.reset := by
  intro g
  simp [State.groupState]

/-- No sector is enabled or established, so that only the form height's range is left to hold. -/
theorem tiltLaw_reset : TiltLaw State.reset := by
  have hen : ∀ g, State.reset.enabled g = false := fun g => by simp [State.enabled]
  have hes : ∀ g, State.reset.established g = false := fun g => by simp [State.established]
  refine ⟨fun a b _ h => ?_, fun g h => ?_, fun g h => ?_, by decide⟩
  · simp [hen] at h
  · simp [hen] at h
  · simp [hes] at h

theorem alertLaw_reset : AlertLaw State.reset := by unfold AlertLaw; decide

theorem stackLaw_reset : StackLaw State.reset := by
  intro g
  rw [sector_reset]; decide

theorem concreteLaw_reset : ConcreteLaw State.reset := by
  intro g
  simp [State.stack, State.established]

theorem feedLaw_reset : FeedLaw State.reset := by
  have hnum : State.reset.numbersInUse = [] := by simp [State.numbersInUse]; rfl
  rw [FeedLaw, hnum]
  decide

theorem pressureLaw_reset : PressureLaw State.reset := by
  refine ⟨List.nodup_nil, fun g => ?_, ?_, by decide⟩
  · have hpo : State.reset.pressureOrder = [] := rfl
    simp [State.groupState, hpo]
  · have hnone : State.reset.numPressurizing = 0 := by
      simp only [State.numPressurizing, State.groupState, sector_reset]; rfl
    simp [hnone]

theorem paceLaw_reset : PaceLaw State.reset := by
  intro g
  simp [State.isAtGoal, State.established]

theorem surveyLaw_reset : SurveyLaw State.reset :=
  ⟨by decide, fun g => by simp [State.reset]⟩

theorem rangeLaw_reset : RangeLaw State.reset := by
  refine ⟨by decide, by decide, by decide, by decide, by decide, by decide, by decide, by decide, fun g => ?_⟩
  rw [sector_reset]; decide

theorem stack_reset (g : Sector) : State.reset.stack g = [] := by simp [State.stack]

/-- Settles O60. -/
theorem lawsAtReset : Obligations.LawsAtReset := by
  refine ⟨alertLaw_reset, stackLaw_reset, concreteLaw_reset, strokeLaw_reset, tiltLaw_reset, feedLaw_reset, pressureLaw_reset,
    paceLaw_reset, surveyLaw_reset, rangeLaw_reset, fun g => ⟨fun h => ?_, fun h => absurd (stack_reset g) h⟩⟩
  obtain ⟨l, hl, -⟩ := h
  simp [stack_reset] at hl

end Sys2Proof.Machine
end

