-- ==== Sys2Proof/Proofs/Frames.lean ====
section
/-! SUPPORT. What the operations that are not strokes leave alone, said once each: `Same` for what the laws of the sector table read, `Repaced` for the pacing unit, `Aside` for the level trim unit and the survey. -/

namespace Sys2Proof.Machine

theorem mem_allSectors (g : Sector) : g ∈ allSectors := by revert g; decide

theorem nodup_allSectors : allSectors.Nodup := by decide

/-! ### Every sector of a list in turn -/

/-- A sector's records after each sector of a list has had its own change. -/
theorem sector_forEach_modSector {gs : List Sector} (hn : gs.Nodup) (f : Sector → SectorState → SectorState) (s : State) (h : Sector) :
    (forEach gs (fun g s => s.modSector g (f g)) s).sector h = if h ∈ gs then f h (s.sector h) else s.sector h := by
  induction gs generalizing s with
  | nil => simp
  | cons g gs ih =>
    obtain ⟨hg, hn⟩ := List.nodup_cons.1 hn
    rw [forEach_cons, ih hn, sector_modSector]
    by_cases e : h = g
    · subst e; simp [hg]
    · simp [e]

/-- Changes of sectors' records leave the rest of the state. -/
theorem forEach_modSector_eq (gs : List Sector) (f : Sector → SectorState → SectorState) (s : State) :
    forEach gs (fun g s => s.modSector g (f g)) s =
      { s with sectors := (forEach gs (fun g s => s.modSector g (f g)) s).sectors } := by
  induction gs generalizing s with
  | nil => rfl
  | cons g gs ih => rw [forEach_cons, ih]; rfl

/-! ### The alert list only grows -/

/-- An entry at a later moment: merged into, or as it was (R187). -/
def Alert.Grown (a b : Alert) : Prop :=
  b.kind = a.kind ∧ b.sector = a.sector ∧ (b.count = a.count ∨ b.count = 255 ∨ (a.count < b.count ∧ b.count ≤ 255))

/-- From s to t alerts have been entered and none removed. -/
structure Alerted (s t : State) : Prop where
  held : ∀ a ∈ s.alerts, ∃ b ∈ t.alerts, a.Grown b
  full : s.alertFull = true → t.alertFull = true
  length : s.alerts.length ≤ t.alerts.length

theorem Alert.Grown.refl (a : Alert) : a.Grown a := ⟨rfl, rfl, .inl rfl⟩

theorem Alert.Grown.trans {a b c : Alert} (h : a.Grown b) (k : b.Grown c) : a.Grown c := by
  obtain ⟨h1, h2, h3⟩ := h
  obtain ⟨k1, k2, k3⟩ := k
  exact ⟨k1.trans h1, k2.trans h2, by omega⟩

theorem Alerted.of_eq {s t : State} (ha : t.alerts = s.alerts) (hf : t.alertFull = s.alertFull) : Alerted s t :=
  ⟨fun a h => ⟨a, by rwa [ha], .refl a⟩, fun h => by rwa [hf], by rw [ha]⟩

theorem Alerted.refl (s : State) : Alerted s s := .of_eq rfl rfl

theorem Alerted.trans {s t u : State} (h : Alerted s t) (k : Alerted t u) : Alerted s u := by
  refine ⟨fun a ha => ?_, fun hf => k.full (h.full hf), h.length.trans k.length⟩
  obtain ⟨b, hb, hab⟩ := h.held a ha
  obtain ⟨c, hc, hbc⟩ := k.held b hb
  exact ⟨c, hc, hab.trans hbc⟩

theorem Alerted.enterAlert (k : AlertKind) (g : Option Sector) (s : State) : Alerted s (enterAlert k g s) := by
  unfold Machine.enterAlert
  split
  · refine ⟨fun a ha => ?_, id, by simp [mergeAlert]⟩
    refine ⟨_, List.mem_map_of_mem (f := fun a => if a.kind == k && a.sector == g then { a with count := min 255 (a.count + 1) } else a) ha, ?_⟩
    split
    · exact ⟨rfl, rfl, by dsimp only; omega⟩
    · exact .refl a
  · split
    · exact ⟨fun a ha => ⟨a, List.mem_append_left _ ha, .refl a⟩, id, by simp⟩
    · exact ⟨fun a ha => ⟨a, ha, .refl a⟩, fun _ => rfl, Nat.le_refl _⟩

/-! ### What the laws of the sector table read -/

/-- A sector's record of the sector table but the sticky flags, its stack and its group. -/
def SectorState.core (x : SectorState) : SectorRec × List Layer × Group := ({ x.table with flags := {} }, x.layers.stack, x.group)

/-- t has the DECK block of s, and the core of every sector's records. -/
structure Same (s t : State) : Prop where
  deck : t.deck = s.deck
  core : ∀ g, (t.sector g).core = (s.sector g).core

theorem Same.refl (s : State) : Same s s := ⟨rfl, fun _ => rfl⟩

theorem Same.trans {s t u : State} (h : Same s t) (k : Same t u) : Same s u :=
  ⟨k.deck.trans h.deck, fun g => (k.core g).trans (h.core g)⟩

theorem Same.of_eq {s t : State} (hd : t.deck = s.deck) (hs : t.sectors = s.sectors) : Same s t :=
  ⟨hd, fun g => by rw [State.sector, hs]; rfl⟩

theorem Same.modSector (s : State) (g : Sector) (f : SectorState → SectorState) (hf : ∀ x, (f x).core = x.core) :
    Same s (s.modSector g f) := by
  refine ⟨rfl, fun h => ?_⟩
  rw [sector_modSector]
  split
  · next e => subst e; exact hf _
  · rfl

theorem Same.forEach (gs : List Sector) (f : Sector → State → State) (hf : ∀ g s, Same s (f g s)) (s : State) :
    Same s (forEach gs f s) :=
  forEach_keeps (P := Same s) gs f (fun g t h => h.trans (hf g t)) s (.refl s)

theorem Same.modFlags (s : State) (g : Sector) (f : StickyFlags → StickyFlags) : Same s (s.modFlags g f) := by
  rw [modFlags_eq]
  exact Same.modSector s g _ fun _ => rfl
theorem Same.modProbe (s : State) (g : Sector) (f : Probe → Probe) : Same s (s.modProbe g f) := Same.modSector s g _ (by intro; rfl)
theorem Same.modPace (s : State) (g : Sector) (f : Pace → Pace) : Same s (s.modPace g f) := Same.modSector s g _ (by intro; rfl)
theorem Same.modTrim (s : State) (g : Sector) (f : Trim → Trim) : Same s (s.modTrim g f) := Same.modSector s g _ (by intro; rfl)
theorem Same.setTicket (s : State) (g : Sector) (t : Option Ticket) : Same s (s.setTicket g t) := Same.modSector s g _ (by intro; rfl)

theorem Same.setPort (s : State) (p : PortId) (x : Port) : Same s (s.setPort p x) := .of_eq (setPort_deck s p x) (setPort_sectors s p x)

/-- The derived figures of the sector table are those of the core. -/
theorem Same.figures {s t : State} (h : Same s t) (g : Sector) :
    (t.sector g).table.enabled = (s.sector g).table.enabled ∧ (t.sector g).table.nbrs = (s.sector g).table.nbrs
      ∧ (t.sector g).table.len = (s.sector g).table.len ∧ (t.sector g).table.elev = (s.sector g).table.elev
      ∧ (t.sector g).table.margin = (s.sector g).table.margin ∧ t.stack g = s.stack g
      ∧ (t.sector g).group = (s.sector g).group := by
  have hc := h.core g
  simp only [SectorState.core, Prod.mk.injEq, SectorRec.mk.injEq] at hc
  obtain ⟨⟨h1, h2, h3, h4, h5, -⟩, h6, h7⟩ := hc
  exact ⟨h1, h2, h3, h4, h5, h6, h7⟩

/-! ### The pacing unit (chapter 4), with the entries to CLIMB and HOLD -/

/-- Everything deck-wide that the pacing unit never writes. -/
def State.unpaced (s : State) :=
  (s.settings, s.tables, s.feed, s.ports, s.supply, s.pressureOrder, s.surveyReq, s.surveyState, s.visit, s.line, s.waiting, s.due)

/-- From s to t the pacing unit and the mode have moved: of a sector's records only the pace has changed, with the dwell counter kept and no count raised; demands have joined only where the dwell counter is at the limit (R77); alerts have been entered. -/
structure Repaced (s t : State) : Prop where
  unpaced : t.unpaced = s.unpaced
  sector : ∀ g, t.sector g = { s.sector g with pace := (t.sector g).pace }
  dwell : ∀ g, (t.sector g).pace.dwell = (s.sector g).pace.dwell
  count : ∀ g, (t.sector g).pace.count ≤ (s.sector g).pace.count
  demanded : ∀ g, t.demanded g = true → s.demanded g = true ∨ s.deck.dwell ≤ (s.sector g).pace.dwell
  alerted : Alerted s t

theorem Repaced.settings {s t : State} (h : Repaced s t) : t.settings = s.settings := congrArg (·.1) h.unpaced
theorem Repaced.tables {s t : State} (h : Repaced s t) : t.tables = s.tables := congrArg (·.2.1) h.unpaced
theorem Repaced.feed {s t : State} (h : Repaced s t) : t.feed = s.feed := congrArg (·.2.2.1) h.unpaced
theorem Repaced.ports {s t : State} (h : Repaced s t) : t.ports = s.ports := congrArg (·.2.2.2.1) h.unpaced
theorem Repaced.supply {s t : State} (h : Repaced s t) : t.supply = s.supply := congrArg (·.2.2.2.2.1) h.unpaced
theorem Repaced.deck {s t : State} (h : Repaced s t) : t.deck = s.deck := congrArg (·.2.2.1) h.settings

theorem Repaced.refl (s : State) : Repaced s s :=
  ⟨rfl, fun _ => rfl, fun _ => rfl, fun _ => Nat.le_refl _, fun _ h => .inl h, .refl s⟩

theorem Repaced.trans {s t u : State} (h : Repaced s t) (k : Repaced t u) : Repaced s u := by
  refine ⟨k.unpaced.trans h.unpaced, fun g => ?_, fun g => (k.dwell g).trans (h.dwell g), fun g => (k.count g).trans (h.count g),
    fun g hd => ?_, h.alerted.trans k.alerted⟩
  · rw [k.sector g, h.sector g]
  · rcases k.demanded g hd with hd | hd
    · exact h.demanded g hd
    · rw [h.deck, h.dwell g] at hd; exact .inr hd

/-- The deck-wide fields of the pacing unit, of the mode and of the arbitration tables. -/
theorem Repaced.update (s : State) (m : DeckMode) (es : List CreepEntry) (a : Vector (Option Sector) 32) (j : Nat) (l d : Bool)
    (he : ∀ e ∈ es, e ∈ s.creepList ∨ s.deck.dwell ≤ (s.sector e.sector).pace.dwell) :
    Repaced s { s with mode := m, creepList := es, active := a, scanPtr := j, loadPending := l, passDue := d } := by
  refine ⟨rfl, fun _ => rfl, fun _ => rfl, fun _ => Nat.le_refl _, fun g hd => ?_, .of_eq rfl rfl⟩
  obtain ⟨e, hm, hg⟩ := List.any_eq_true.1 hd
  have hg : e.sector = g := by simpa using hg
  rcases he e hm with h | h
  · exact .inl (List.any_eq_true.2 ⟨e, h, by simp [hg]⟩)
  · exact .inr (hg ▸ h)

/-- As `update`, where no demand joins. -/
theorem Repaced.update' (s : State) (m : DeckMode) (a : Vector (Option Sector) 32) (j : Nat) (l d : Bool) :
    Repaced s { s with mode := m, active := a, scanPtr := j, loadPending := l, passDue := d } :=
  Repaced.update s m s.creepList a j l d fun _ h => .inl h

theorem Repaced.modPace (s : State) (g : Sector) (f : Pace → Pace) (hd : ∀ p, (f p).dwell = p.dwell)
    (hc : (f (s.sector g).pace).count ≤ (s.sector g).pace.count) : Repaced s (s.modPace g f) := by
  refine ⟨rfl, fun h => ?_, fun h => ?_, fun h => ?_, fun _ h => .inl h, .of_eq rfl rfl⟩ <;>
    simp only [modPace_eq, sector_modSector] <;> split
  · next e => subst e; rfl
  · rfl
  · next e => subst e; exact hd _
  · rfl
  · next e => subst e; exact hc
  · exact Nat.le_refl _

theorem Repaced.mapPace (s : State) (f : Pace → Pace) (hd : ∀ p, (f p).dwell = p.dwell) (hc : ∀ p, (f p).count ≤ p.count) :
    Repaced s (s.mapSectors fun x => { x with pace := f x.pace }) := by
  refine ⟨rfl, fun h => ?_, fun h => ?_, fun h => ?_, fun _ h => .inl h, .of_eq rfl rfl⟩ <;> simp only [sector_mapSectors]
  · exact hd _
  · exact hc _

theorem Repaced.enterAlert (k : AlertKind) (g : Option Sector) (s : State) : Repaced s (enterAlert k g s) := by
  have ha := Alerted.enterAlert k g s
  rw [enterAlert_eq] at ha ⊢
  exact ⟨rfl, fun _ => rfl, fun _ => rfl, fun _ => Nat.le_refl _, fun _ h => .inl h, ha⟩

theorem Repaced.forEach (gs : List Sector) (f : Sector → State → State) (hf : ∀ g s, Repaced s (f g s)) (s : State) :
    Repaced s (forEach gs f s) :=
  forEach_keeps (P := Repaced s) gs f (fun g t h => h.trans (hf g t)) s (.refl s)

theorem Repaced.checkLoad (s : State) : Repaced s (checkLoad s) := by
  unfold Machine.checkLoad; split
  · exact Repaced.update' s _ _ _ _ _
  · exact .refl s

theorem Repaced.setCount (g : Sector) (n : Nat) (s : State) (hn : n ≤ (s.sector g).pace.count) : Repaced s (setCount g n s) := by
  have h : Repaced s (s.modPace g fun p => { p with count := n }) := .modPace s g _ (fun _ => rfl) hn
  unfold Machine.setCount; dsimp only; split
  · exact h.trans (.checkLoad _)
  · exact h

theorem Repaced.consumeRequest (g : Sector) (s : State) : Repaced s (consumeRequest g s) := .setCount g _ s (Nat.sub_le _ _)

theorem Repaced.stopCounters (s : State) : Repaced s (stopCounters s) :=
  Repaced.mapPace s (fun p => { p with running := false, counter := 0 }) (fun _ => rfl) fun _ => Nat.le_refl _

theorem Repaced.clearCounts (s : State) : Repaced s (clearCounts s) := by
  have h := Repaced.mapPace s (fun p => { p with count := 0 }) (fun _ => rfl) fun _ => Nat.zero_le _
  unfold Machine.clearCounts; dsimp only; split
  · exact h
  · exact h.trans (.checkLoad _)

theorem Repaced.startCounter (g : Sector) (s : State) : Repaced s (startCounter g s) := .modPace s g _ (by intro; rfl) (by exact Nat.le_refl _)

theorem Repaced.updateGoal (g : Sector) (s : State) : Repaced s (updateGoal g s) := by
  have h : Repaced s (s.modPace g fun p => { p with atGoal := s.isAtGoal g }) := .modPace s g _ (by intro; rfl) (by exact Nat.le_refl _)
  unfold Machine.updateGoal; dsimp only; split
  · exact (h.trans (.modPace _ g _ (by intro; rfl) (by exact Nat.le_refl _))).trans (.setCount g 0 _ (Nat.zero_le _))
  · split
    · exact h.trans (.startCounter g _)
    · exact h

theorem mem_insertByDwell {s : State} {g h : Sector} {gs : List Sector} : h ∈ insertByDwell s g gs ↔ h = g ∨ h ∈ gs := by
  induction gs with
  | nil => simp [insertByDwell]
  | cons k gs ih =>
    unfold insertByDwell; split
    · simp only [List.mem_cons, ih]; tauto
    · simp

theorem mem_sortByDwell {s : State} {h : Sector} {gs : List Sector} : h ∈ sortByDwell s gs ↔ h ∈ gs := by
  induction gs with
  | nil => simp [sortByDwell]
  | cons k gs ih => rw [sortByDwell, List.foldr_cons, mem_insertByDwell, ← sortByDwell, ih, List.mem_cons]

theorem dwell_of_wantsDemand {s : State} {g : Sector} (h : s.wantsDemand g = true) : s.deck.dwell ≤ (s.sector g).pace.dwell := by
  simp only [State.wantsDemand, Bool.and_eq_true, decide_eq_true_eq] at h
  obtain ⟨⟨⟨-, hd⟩, -⟩, -⟩ := h
  exact hd

theorem Repaced.raiseDemands (s : State) : Repaced s (raiseDemands s) := by
  unfold Machine.raiseDemands; split
  · exact .refl s
  · refine Repaced.update s _ _ _ _ _ _ fun e he => ?_
    rcases List.mem_append.1 he with he | he
    · exact .inl he
    · obtain ⟨g, hg, rfl⟩ := List.mem_map.1 he
      exact .inr (dwell_of_wantsDemand (List.mem_filter.1 (mem_sortByDwell.1 hg)).2)

theorem Repaced.enterHold (s : State) : Repaced s (enterHold s) := by
  have hm : Repaced s { s with mode := .hold } := Repaced.update' s _ _ _ _ _
  have hc := (hm.trans (.stopCounters _)).trans (.clearCounts _)
  refine (hc.trans ?_).trans ((Repaced.raiseDemands _).trans (Repaced.update' _ _ _ _ _ _))
  exact Repaced.update _ _ _ _ _ _ _ fun e he => .inl (List.mem_filter.1 he).1

theorem Repaced.goalTest (s : State) : Repaced s (goalTest s) := by
  unfold Machine.goalTest; split
  · exact (Repaced.enterAlert _ _ s).trans (.enterHold _)
  · exact .refl s

theorem Repaced.rederive (g : Sector) (s : State) : Repaced s (rederive g s) := by
  unfold Machine.rederive; dsimp only; split
  · exact .updateGoal g s
  · exact (Repaced.updateGoal g s).trans (.goalTest _)

theorem Repaced.enterClimb (s : State) : Repaced s (enterClimb s) := by
  have hm : Repaced s { s with mode := .climb } := Repaced.update' s _ _ _ _ _
  have hc := hm.trans (Repaced.forEach (allSectors.filter fun g => s.paced g) _ (fun g t => .startCounter g t) _)
  exact (hc.trans ((Repaced.raiseDemands _).trans (Repaced.update' _ _ _ _ _ _))).trans (.goalTest _)

theorem Repaced.same {s t : State} (h : Repaced s t) : Same s t := ⟨h.deck, fun g => by rw [h.sector g]; rfl⟩

/-! ### The level trim unit and the survey (chapter 8), with the entries to STANDBY and UNSET -/

/-- From s to t trims, visits, the sensor line and the mode have moved, and alerts have been entered. -/
structure Aside (s t : State) : Prop extends Kept s t where
  group : ∀ g, (t.sector g).group = (s.sector g).group
  alerted : Alerted s t

theorem Aside.refl (s : State) : Aside s s := ⟨.refl s, fun _ => rfl, .refl s⟩

theorem Aside.trans {s t u : State} (h : Aside s t) (k : Aside t u) : Aside s u :=
  ⟨h.toKept.trans k.toKept, fun g => (k.group g).trans (h.group g), h.alerted.trans k.alerted⟩

theorem Aside.same {s t : State} (h : Aside s t) : Same s t := by
  refine ⟨congrArg (·.2.2.1) h.settings, fun g => ?_⟩
  have hh := h.held g
  simp only [SectorState.held, Prod.mk.injEq] at hh
  obtain ⟨ht, hl, -⟩ := hh
  rw [SectorState.core, ht, hl, h.group g]; rfl

/-- The deck-wide fields of the survey, of the sensor line and of the mode. -/
theorem Aside.update (s : State) (m : DeckMode) (es : List CreepEntry) (q : Option Sector) (st : SurveyState)
    (v : Option (Sector × VisitPhase)) (l : Option Try) (w : List Try) (d : Bool) :
    Aside s { s with mode := m, creepList := es, surveyReq := q, surveyState := st, visit := v, line := l, waiting := w, passDue := d } :=
  ⟨⟨rfl, rfl, rfl, rfl, rfl, rfl, rfl, rfl, rfl, fun _ => rfl, fun _ => rfl⟩, fun _ => rfl, .of_eq rfl rfl⟩

theorem Aside.modTrim (s : State) (g : Sector) (f : Trim → Trim) : Aside s (s.modTrim g f) := by
  refine ⟨.modTrim s g f, fun h => ?_, .of_eq rfl rfl⟩
  rw [modTrim_eq, sector_modSector]; split
  · next e => subst e; rfl
  · rfl

theorem Aside.mapTrim (s : State) (f : SectorState → Trim) : Aside s (s.mapSectors fun x => { x with trim := f x }) :=
  ⟨Kept.mapTrim s _ fun _ => ⟨rfl, rfl⟩, fun g => by rw [sector_mapSectors], .of_eq rfl rfl⟩

theorem Aside.enterAlert (k : AlertKind) (g : Option Sector) (s : State) : Aside s (enterAlert k g s) :=
  ⟨.enterAlert k g s, fun _ => by rw [enterAlert_eq]; rfl, .enterAlert k g s⟩

theorem Aside.forEach (gs : List Sector) (f : Sector → State → State) (hf : ∀ g s, Aside s (f g s)) (s : State) :
    Aside s (forEach gs f s) :=
  forEach_keeps (P := Aside s) gs f (fun g t h => h.trans (hf g t)) s (.refl s)

theorem Aside.serveLine (s : State) : Aside s (serveLine s) := by
  unfold Machine.serveLine; split
  · exact Aside.update s _ _ _ _ _ _ _ _
  · exact .refl s

theorem Aside.requestTry (k : TryKind) (g : Sector) (a : Nat) (s : State) : Aside s (requestTry k g a s) :=
  (Aside.update s _ _ _ _ _ _ _ _).trans (.serveLine _)

theorem Aside.abandonTries (p : Try → Bool) (s : State) : Aside s (abandonTries p s) := Aside.update s _ _ _ _ _ _ _ _

theorem Aside.setOutcome (g : Sector) (o : VisitOutcome) (s : State) : Aside s (setOutcome g o s) := .modTrim s g _

theorem Aside.abandonBefore (g : Sector) (s : State) : Aside s (abandonBefore g s) := (Aside.abandonTries _ s).trans (.modTrim _ g _)

theorem Aside.startBefore (g : Sector) (s : State) : Aside s (startBefore g s) := (Aside.modTrim s g _).trans (.requestTry _ _ _ _)

theorem Aside.writeResult (g : Sector) (kind : TrimKind) (code : TrimCode) (n : Nat) (d : Option Int) (s : State) :
    Aside s (writeResult g kind code n d s) := by
  unfold Machine.writeResult; dsimp only; split
  · exact (Aside.modTrim s g _).trans (.enterAlert _ _ _)
  · exact .modTrim s g _

theorem Aside.writeRejected (g : Sector) (kind : TrimKind) (s : State) : Aside s (writeRejected g kind s) := .writeResult _ _ _ _ _ _

theorem Aside.dropTrimRequests (s : State) : Aside s (dropTrimRequests s) := (Aside.abandonTries _ s).trans (.mapTrim _ _)

theorem Aside.enterStandby (s : State) : Aside s (enterStandby s) := (Aside.update s _ _ _ _ _ _ _ _).trans (.dropTrimRequests _)

theorem Aside.enterUnset (s : State) : Aside s (enterUnset s) := Aside.update s _ _ _ _ _ _ _ _

theorem Aside.completenessTest (s : State) : Aside s (completenessTest s) := by
  unfold Machine.completenessTest; split
  · split
    · exact .enterStandby s
    · exact .refl s
  · split
    · exact .refl s
    · exact .enterUnset s
  all_goals exact .refl s

theorem Aside.surveyDone (s : State) : Aside s (surveyDone s) :=
  ((Aside.update s _ _ _ _ _ _ _ _).trans (.enterStandby _)).trans (.enterAlert _ _ _)

theorem Aside.beginVisits (gs : List Sector) (s : State) : Aside s (beginVisits gs s) := by
  induction gs generalizing s with
  | nil => exact .surveyDone s
  | cons g rest ih =>
    unfold Machine.beginVisits; split
    · split
      · exact (Aside.setOutcome _ _ _).trans (ih _)
      · exact (Aside.update s _ _ _ _ _ _ _ _).trans (.startBefore _ _)
    · exact ih s

theorem Aside.visitEnded (s : State) : Aside s (visitEnded s) := by
  have h : Aside s { s with visit := none } := Aside.update s _ _ _ _ _ _ _ _
  unfold Machine.visitEnded; dsimp only; split
  · exact h.trans (.beginVisits _ _)
  · exact (Aside.update s _ _ _ _ _ _ _ _).trans (.enterStandby _)
  · exact h

theorem Aside.visitBlocked (g : Sector) (s : State) : Aside s (visitBlocked g s) := (Aside.setOutcome g _ s).trans (.visitEnded _)

theorem Aside.trimOnIdle (g : Sector) (s : State) : Aside s (trimOnIdle g s) := by
  unfold Machine.trimOnIdle; split
  · exact (Aside.modTrim s g _).trans (.startBefore g _)
  · exact .refl s

theorem Aside.trimOnGrant (g : Sector) (kind : StrokeKind) (s : State) : Aside s (trimOnGrant g kind s) := by
  have h : Aside s (match (s.sector g).trim.request with
      | .none => s
      | .held => s.modTrim g fun t => { t with request := .none, underWay := true }
      | .waiting => Machine.writeRejected g .short (s.modTrim g fun t => { t with request := .none })
      | .reading => Machine.writeRejected g .short (Machine.abandonBefore g (s.modTrim g fun t => { t with request := .none }))) := by
    split
    · exact .refl s
    · exact .modTrim s g _
    · exact (Aside.modTrim s g _).trans (.writeRejected _ _ _)
    · exact ((Aside.modTrim s g _).trans (.abandonBefore g _)).trans (.writeRejected _ _ _)
  unfold Machine.trimOnGrant; dsimp only; split
  · exact h.trans (Aside.update _ _ _ _ _ _ _ _ _)
  · exact h

theorem Aside.closeTrim (g : Sector) (kind : TrimKind) (code : TrimCode) (s : State) : Aside s (closeTrim g kind code s) := by
  cases kind with
  | short => exact Aside.modTrim s g fun t => { t with underWay := false, before := [], after := [] }
  | survey => exact ((Aside.modTrim s g _).trans (Aside.update _ _ _ _ _ _ _ _ _)).trans (.setOutcome g _ _)

theorem Aside.rejectAwaiting (g : Sector) (s : State) : Aside s (rejectAwaiting g s) := by
  unfold Machine.rejectAwaiting; split
  · exact (Aside.writeRejected g _ s).trans (.closeTrim g _ _ _)
  · exact .refl s

theorem Aside.startAfter (g : Sector) (s : State) : Aside s (startAfter g s) := by
  unfold Machine.startAfter; split
  · exact (Aside.modTrim s g _).trans (.requestTry _ _ _ _)
  · exact .refl s

theorem Aside.abortPending (s : State) : Aside s (abortPending s) := .forEach _ _ (fun g t => .setOutcome g _ t) s

theorem Aside.abortVisit (s : State) : Aside s (abortVisit s) := by
  unfold Machine.abortVisit; split
  · exact ((Aside.setOutcome _ _ s).trans (.abandonBefore _ _)).trans (Aside.update _ _ _ _ _ _ _ _ _)
  · exact ((Aside.setOutcome _ _ s).trans (.abandonBefore _ _)).trans (Aside.update _ _ _ _ _ _ _ _ _)
  · exact .refl s

theorem Aside.stopSurvey (s : State) : Aside s (stopSurvey s) :=
  ((Aside.abortPending s).trans (.abortVisit _)).trans (Aside.update _ _ _ _ _ _ _ _ _)

theorem Aside.visitOnIdle (g : Sector) (s : State) : Aside s (visitOnIdle g s) := by
  unfold Machine.visitOnIdle; split
  · exact .visitEnded s
  · exact .refl s

theorem Aside.visitOnFault (g : Sector) (s : State) : Aside s (visitOnFault g s) := by
  unfold Machine.visitOnFault; split
  · split
    · split
      · exact ((Aside.setOutcome g _ s).trans (.abandonBefore g _)).trans (.visitEnded _)
      · exact (((Aside.setOutcome g _ s).trans (.abandonBefore g _)).trans (Aside.update _ _ _ _ _ _ _ _ _)).trans (.visitEnded _)
      · exact ((Aside.rejectAwaiting g s).trans (.setOutcome g _ _)).trans (.visitEnded _)
      · exact (Aside.setOutcome g _ s).trans (.visitEnded _)
    · exact .refl s
  · exact .refl s

theorem Aside.trimOnFault (g : Sector) (s : State) : Aside s (trimOnFault g s) := by
  have h1 : Aside s (if (s.sector g).trim.request = .reading then
      (Machine.abandonBefore g s).modTrim g fun t => { t with request := .waiting } else s) := by
    split
    · exact (Aside.abandonBefore g s).trans (.modTrim _ g _)
    · exact .refl s
  have h2 : ∀ u : State, Aside u (if u.awaiting g = some .short then Machine.rejectAwaiting g u else u) := by
    intro u; split
    · exact .rejectAwaiting g u
    · exact .refl u
  exact (h1.trans (h2 _)).trans (.visitOnFault g _)

theorem Aside.askTrim (g : Sector) (s : State) : Aside s (askTrim g s) := by
  unfold Machine.askTrim; split
  · dsimp only; split
    · exact (Aside.modTrim s g _).trans (.trimOnIdle g _)
    · exact .modTrim s g _
  · exact .refl s

theorem Aside.beginSurvey (s : State) : Aside s (beginSurvey s) :=
  (((Aside.mapTrim s _).trans (Aside.update _ _ _ _ _ _ _ _ _)).trans (.beginVisits _ _)).trans (Aside.update _ _ _ _ _ _ _ _ _)

theorem Aside.endSurvey (s : State) : Aside s (endSurvey s) := by
  unfold Machine.endSurvey; dsimp only; split
  · exact (Aside.abortPending s).trans (Aside.update _ _ _ _ _ _ _ _ _)
  · exact ((Aside.abortPending s).trans (.abortVisit _)).trans ((Aside.update _ _ _ _ _ _ _ _ _).trans (.enterStandby _))

theorem Aside.beforeTaken (g : Sector) (s : State) : Aside s (beforeTaken g s) := by
  unfold Machine.beforeTaken; split
  · exact (Aside.modTrim s g _).trans (Aside.update _ _ _ _ _ _ _ _ _)
  · exact (Aside.modTrim s g _).trans (.writeRejected _ _ _)

theorem Aside.visitReadingsTaken (g : Sector) (s : State) : Aside s (visitReadingsTaken g s) := by
  unfold Machine.visitReadingsTaken; split
  · exact Aside.update s _ _ _ _ _ _ _ _
  · exact ((Aside.writeRejected g _ s).trans (.setOutcome g _ _)).trans (.visitEnded _)

theorem Aside.beforeReading (g : Sector) (v : Option Nat) (s : State) : Aside s (beforeReading g v s) := by
  unfold Machine.beforeReading; dsimp only; split
  · exact (Aside.modTrim s g _).trans (.requestTry _ _ _ _)
  · split
    · exact (Aside.modTrim s g _).trans (.visitReadingsTaken g _)
    · exact (Aside.modTrim s g _).trans (.beforeTaken g _)

theorem Aside.pollRound (s : State) : Aside s (pollRound s) := .forEach _ _ (fun g t => .requestTry _ g _ t) s

theorem Aside.driftCheck (s : State) : Aside s (driftCheck s) := .forEach _ _ (fun g t => .requestTry _ g _ t) s

end Sys2Proof.Machine
end

