-- ==== Sys2Proof/Proofs/Keeps.lean ====
section
/-! SUPPORT. What keeps the laws of open strokes and of tilt (R5, R6, R8, R9), and what leaves every elevation and every stack alone. -/

namespace Sys2Proof.Machine

/-! ### The laws, one sector at a time -/

/-- The law of R8 in one sector. -/
def SectorState.StrokeOk (x : SectorState) : Prop :=
  (x.group.isOpen = true ↔ x.group.state = .pressurizing ∨ x.group.state = .stalled
      ∨ (x.group.state = .venting ∧ x.group.failed = true))
  ∧ (x.group.failed = true → x.group.state = .venting)
  ∧ (x.group.isOpen = true → x.group.latched.isSome = true ∧ x.table.margin = 0)

theorem strokeLaw_iff (s : State) : StrokeLaw s ↔ ∀ g, (s.sector g).StrokeOk := Iff.rfl

/-- E, 0 while unset. -/
def SectorState.elev (x : SectorState) : Int := x.table.elev.getD 0

/-- The reach of R8, of one sector's records. -/
def SectorState.reach (x : SectorState) : Int := x.elev + (x.group.openLen : Int) + (x.table.margin : Int)

theorem elev_eq (s : State) (g : Sector) : s.elev g = (s.sector g).elev := rfl
theorem reach_eq (s : State) (g : Sector) : s.reach g = (s.sector g).reach := rfl

theorem openLen_of_closed {r : Group} (h : r.isOpen = false) : r.openLen = 0 := by simp [Group.openLen, h]

theorem openLen_of_open {r : Group} (h : r.isOpen = true) : r.openLen = r.latched.getD 0 := by simp [Group.openLen, h]

/-- A group outside PRESSURIZING, STALLED and VENTING has no open stroke (R8). -/
theorem SectorState.StrokeOk.closed {x : SectorState} (h : x.StrokeOk) (h1 : x.group.state ≠ .pressurizing)
    (h2 : x.group.state ≠ .stalled) (h3 : x.group.state ≠ .venting) : x.group.isOpen = false := by
  simpa [h1, h2, h3] using h.1

/-- From x to y a sector has come no higher by its reach and no lower by E, with L kept or within the limit: no such change breaks the tilt law. -/
structure SectorState.Settles (limit : Nat) (x y : SectorState) : Prop where
  enabled : y.table.enabled = x.table.enabled
  nbrs : y.table.nbrs = x.table.nbrs
  established : y.table.elev.isSome = x.table.elev.isSome
  elev : x.elev ≤ y.elev
  reach : y.reach ≤ x.reach
  len : y.table.len = x.table.len ∨ y.table.len.getD 0 ≤ limit

theorem mem_nbrSet {s : State} {a b : Sector} :
    b ∈ s.nbrSet a ↔ b ≠ a ∧ (b ∈ (s.sector a).table.nbrs ∨ a ∈ (s.sector b).table.nbrs) := by
  simp [State.nbrSet, mem_allSectors]

theorem mem_nbrSet_comm {s : State} {a b : Sector} : b ∈ s.nbrSet a ↔ a ∈ s.nbrSet b := by
  simp only [mem_nbrSet, ne_comm, or_comm]

/-- The neighbour sets depend on the neighbour lists alone (R3). -/
theorem nbrSet_congr {s t : State} (h : ∀ g, (t.sector g).table.nbrs = (s.sector g).table.nbrs) {a b : Sector} :
    b ∈ t.nbrSet a ↔ b ∈ s.nbrSet a := by simp only [mem_nbrSet, h]

/-! ### What keeps the laws -/

/-- The step from s to t keeps the law of R8, and with it the tilt law. -/
structure Keeps (s t : State) : Prop where
  stroke : StrokeLaw s → StrokeLaw t
  tilt : StrokeLaw s → TiltLaw s → TiltLaw t

theorem Keeps.refl (s : State) : Keeps s s := ⟨id, fun _ => id⟩

theorem Keeps.trans {s t u : State} (h : Keeps s t) (k : Keeps t u) : Keeps s u :=
  ⟨fun hs => k.stroke (h.stroke hs), fun hs ht => k.tilt (h.stroke hs) (h.tilt hs ht)⟩

/-- Where every sector keeps the law of R8 and settles, under the same DECK block, the laws are kept. -/
theorem Keeps.of_settles {s t : State} (hd : t.deck = s.deck)
    (h : ∀ g, (s.sector g).StrokeOk → (t.sector g).StrokeOk ∧ (s.sector g).Settles (10 * s.deck.tilt) (t.sector g)) : Keeps s t := by
  refine ⟨fun hs g => (h g (hs g)).1, fun hs ⟨h1, h2, h3, h4⟩ => ?_⟩
  have k : ∀ g, (s.sector g).Settles (10 * s.deck.tilt) (t.sector g) := fun g => (h g (hs g)).2
  have hen : ∀ g, t.enabled g = s.enabled g := fun g => (k g).enabled
  have hes : ∀ g, t.established g = s.established g := fun g => (k g).established
  refine ⟨fun a b hb => ?_, fun g hg => ?_, fun g hg => ?_, by rw [hd]; exact h4⟩
  · rw [hen, hes, hen, hes]
    intro ea sa eb sb
    have hle := h1 a b ((nbrSet_congr fun g => (k g).nbrs).1 hb) ea sa eb sb
    have hr := (k a).reach
    have he := (k b).elev
    simp only [State.t10, elev_eq, reach_eq, hd] at *
    omega
  · rw [hen] at hg
    have hl := h2 g hg
    rw [hd]
    rcases (k g).len with e | e
    · rw [State.len, e]; exact hl
    · exact e
  · rw [hes] at hg
    have he := h3 g hg
    have k1 := (k g).elev
    have k2 := (k g).reach
    simp only [elev_eq, reach_eq] at *
    omega

/-- A change of one sector keeps the laws where its new E and reach pass the tilt relation with every neighbour (R9). -/
theorem Keeps.of_moved {s t : State} {g : Sector} (hd : t.deck = s.deck) (ho : ∀ k, k ≠ g → t.sector k = s.sector k)
    (ht : (t.sector g).table.enabled = (s.sector g).table.enabled ∧ (t.sector g).table.nbrs = (s.sector g).table.nbrs
      ∧ (t.sector g).table.len = (s.sector g).table.len)
    (hs : (s.sector g).StrokeOk → (t.sector g).StrokeOk)
    (hm : StrokeLaw s → TiltLaw s → t.established g = true →
      (s.enabled g = true → ∀ n ∈ s.nbrSet g, s.enabled n = true → s.established n = true →
        t.reach g ≤ s.elev n + s.t10 ∧ s.reach n ≤ t.elev g + s.t10)
      ∧ 0 ≤ t.elev g ∧ t.reach g ≤ 2500000) : Keeps s t := by
  have figures : ∀ k, (t.sector k).table.enabled = (s.sector k).table.enabled ∧ (t.sector k).table.nbrs = (s.sector k).table.nbrs
      ∧ (t.sector k).table.len = (s.sector k).table.len := fun k => by
    by_cases e : k = g
    · rw [e]; exact ht
    · rw [ho k e]; exact ⟨rfl, rfl, rfl⟩
  have others : ∀ k, k ≠ g → t.reach k = s.reach k ∧ t.elev k = s.elev k ∧ t.established k = s.established k := fun k e => by
    simp only [reach_eq, elev_eq, State.established, ho k e, and_self]
  have hen : ∀ k, t.enabled k = s.enabled k := fun k => (figures k).1
  refine ⟨fun hk k => ?_, fun hk hl => ?_⟩
  · change (t.sector k).StrokeOk
    by_cases e : k = g
    · subst e; exact hs (hk k)
    · rw [ho k e]; exact hk k
  have hmove := hm hk hl
  obtain ⟨h1, h2, h3, h4⟩ := hl
  refine ⟨fun a b hb => ?_, fun k => ?_, fun k => ?_, by rw [hd]; exact h4⟩
  · replace hb := (nbrSet_congr (s := s) (t := t) fun k => (figures k).2.1).1 hb
    rw [hen, hen, State.t10, hd, ← State.t10]
    intro ea sa eb sb
    by_cases e1 : a = g
    · subst e1
      obtain ⟨-, o2, o3⟩ := others b (mem_nbrSet.1 hb).1
      rw [o2]
      exact ((hmove sa).1 ea b hb eb (o3 ▸ sb)).1
    · obtain ⟨o1, -, o3⟩ := others a e1
      rw [o1]
      by_cases e2 : b = g
      · subst e2
        exact ((hmove sb).1 eb a (mem_nbrSet_comm.1 hb) ea (o3 ▸ sa)).2
      · obtain ⟨-, p2, p3⟩ := others b e2
        rw [p2]
        exact h1 a b hb ea (o3 ▸ sa) eb (p3 ▸ sb)
  · rw [hen, State.len, (figures k).2.2, hd]; exact h2 k
  · by_cases e : k = g
    · subst e; exact fun sk => (hmove sk).2
    · obtain ⟨o1, o2, o3⟩ := others k e
      rw [o1, o2, o3]; exact h3 k

theorem Keeps.of_same {s t : State} (h : Same s t) : Keeps s t := by
  refine .of_settles h.deck fun g hg => ?_
  obtain ⟨h1, h2, h3, h4, h5, -, h7⟩ := h.figures g
  have hr : (t.sector g).reach = (s.sector g).reach := by simp only [SectorState.reach, SectorState.elev, h4, h5, h7]
  exact ⟨by simpa only [SectorState.StrokeOk, h5, h7] using hg, h1, h2, by rw [h4], by rw [SectorState.elev, SectorState.elev, h4], hr.le, .inl h3⟩

/-! ### What leaves elevations and stacks alone -/

/-- From s to t every E and every stack is kept. -/
structure Level (s t : State) : Prop where
  elev : ∀ g, (t.sector g).table.elev = (s.sector g).table.elev
  stack : ∀ g, t.stack g = s.stack g

theorem Level.trans {s t u : State} (h : Level s t) (k : Level t u) : Level s u :=
  ⟨fun g => (k.elev g).trans (h.elev g), fun g => (k.stack g).trans (h.stack g)⟩

theorem Level.modSector (s : State) (g : Sector) (f : SectorState → SectorState)
    (he : (f (s.sector g)).table.elev = (s.sector g).table.elev)
    (hl : (f (s.sector g)).layers.stack = (s.sector g).layers.stack) : Level s (s.modSector g f) := by
  refine ⟨fun k => ?_, fun k => ?_⟩
  · rw [sector_modSector]; split
    · next e => subst e; exact he
    · rfl
  · simp only [State.stack, sector_modSector]; split
    · next e => subst e; exact hl
    · rfl

theorem Kept.tables_eq {s t : State} (h : Kept s t) (g : Sector) :
    (t.sector g).table = (s.sector g).table ∧ (t.sector g).layers = (s.sector g).layers := by
  have hg := h.held g
  simp only [SectorState.held, Prod.mk.injEq] at hg
  exact ⟨hg.1, hg.2.1⟩

theorem Kept.deck {s t : State} (h : Kept s t) : t.deck = s.deck := congrArg (·.2.2.1) h.settings

theorem Level.of_kept {s t : State} (h : Kept s t) : Level s t :=
  ⟨fun g => by rw [(h.tables_eq g).1], fun g => by rw [State.stack, (h.tables_eq g).2]; rfl⟩

/-- The step from s to t keeps the laws of strokes and tilt, the DECK block, every E and every stack. -/
structure Steady (s t : State) : Prop extends Keeps s t, Level s t where
  deck : t.deck = s.deck

theorem Steady.of_same {s t : State} (h : Same s t) : Steady s t :=
  ⟨.of_same h, ⟨fun g => (h.figures g).2.2.2.1, fun g => (h.figures g).2.2.2.2.2.1⟩, h.deck⟩

theorem Steady.refl (s : State) : Steady s s := .of_same (.refl s)

theorem Steady.trans {s t u : State} (h : Steady s t) (k : Steady t u) : Steady s u :=
  ⟨h.toKeeps.trans k.toKeeps, h.toLevel.trans k.toLevel, k.deck.trans h.deck⟩

theorem Steady.then {s t u : State} (h : Steady s t) (k : Same t u) : Steady s u := h.trans (.of_same k)

theorem Steady.forEach (gs : List Sector) (f : Sector → State → State) (hf : ∀ g s, Steady s (f g s)) (s : State) :
    Steady s (forEach gs f s) :=
  forEach_keeps (P := Steady s) gs f (fun g t h => h.trans (hf g t)) s (.refl s)

/-- A change of one sector's records that keeps the law of R8 and settles, E and stack kept. -/
theorem Steady.modSector (s : State) (g : Sector) (f : SectorState → SectorState)
    (h : (s.sector g).StrokeOk → (f (s.sector g)).StrokeOk ∧ (s.sector g).Settles (10 * s.deck.tilt) (f (s.sector g)))
    (he : (f (s.sector g)).table.elev = (s.sector g).table.elev)
    (hl : (f (s.sector g)).layers.stack = (s.sector g).layers.stack) : Steady s (s.modSector g f) := by
  refine ⟨.of_settles rfl fun k hk => ?_, .modSector s g f he hl, rfl⟩
  rw [sector_modSector]; split
  · next e => subst e; exact h hk
  · exact ⟨hk, rfl, rfl, rfl, Int.le_refl _, Int.le_refl _, .inl rfl⟩

/-- A change of one group that keeps the law of R8 and opens no stroke. -/
theorem Steady.modGroup (s : State) (g : Sector) (f : Group → Group)
    (h : (s.sector g).StrokeOk → SectorState.StrokeOk { s.sector g with group := f (s.sector g).group }
      ∧ (f (s.sector g).group).openLen ≤ (s.sector g).group.openLen) : Steady s (s.modGroup g f) :=
  .modSector s g _ (fun hk => by
    obtain ⟨h1, h2⟩ := h hk
    refine ⟨h1, rfl, rfl, rfl, Int.le_refl _, ?_, .inl rfl⟩
    show (s.sector g).elev + ((f (s.sector g).group).openLen : Int) + _ ≤ (s.sector g).elev + _ + _
    have : (f (s.sector g).group).openLen ≤ (s.sector g).group.openLen := h2
    have : ((f (s.sector g).group).openLen : Int) ≤ (s.sector g).group.openLen := by exact_mod_cast this
    simp only; omega) rfl rfl

/-- A change of a group that leaves its stroke as it is: switches, timers, the window count. -/
theorem Steady.modGroup_same (s : State) (g : Sector) (f : Group → Group)
    (h : (f (s.sector g).group).state = (s.sector g).group.state ∧ (f (s.sector g).group).isOpen = (s.sector g).group.isOpen
      ∧ (f (s.sector g).group).latched = (s.sector g).group.latched ∧ (f (s.sector g).group).failed = (s.sector g).group.failed) :
    Steady s (s.modGroup g f) := by
  obtain ⟨h1, h2, h3, h4⟩ := h
  refine .modGroup s g f fun hk => ⟨?_, ?_⟩
  · simpa only [SectorState.StrokeOk, h1, h2, h3, h4] using hk
  · simp only [Group.openLen, h2, h3, Nat.le_refl]

/-! ### Orders of the arbiter -/

/-- What a grant writes in the group (R89). -/
def Group.granted (r : Group) (len window : Nat) (kind : StrokeKind) : Group :=
  { r with state := .pressurizing, isOpen := true, latched := some len, kind := some kind, windows := 1, failed := false, timer := some ⟨.window, window⟩ }

/-- A grant is the change of the group and of the pressure order, and what it does to the trim of the group. -/
theorem Aside.grant (g : Sector) (kind : StrokeKind) (s : State) :
    Aside { s.modGroup g (fun r => r.granted (s.len g) s.deck.window kind) with pressureOrder := s.pressureOrder ++ [g] }
      (grant g kind s) := .trimOnGrant g kind _

/-- What R66 asks of every grant. -/
theorem grantable_iff {s : State} {g : Sector} : s.grantable g = true ↔
    s.enabled g = true ∧ s.groupState g = .idle ∧ (s.sector g).table.margin = 0 ∧ s.tiltTest g (s.len g) = true := by
  simp [State.grantable, State.suspect, and_assoc]

theorem tiltTest_iff {s : State} {g : Sector} {l : Nat} : s.tiltTest g l = true ↔
    (∀ n ∈ s.nbrSet g, s.enabled n = true → s.established n = true → s.reach g + l ≤ s.elev n + s.t10) ∧ s.reach g + l ≤ 2500000 := by
  simp only [State.tiltTest, Bool.and_eq_true, List.all_eq_true, Bool.or_eq_true, Bool.not_eq_true', decide_eq_true_eq, Bool.and_eq_false_iff]
  constructor
  · rintro ⟨h, k⟩
    refine ⟨fun n hn h1 h2 => ?_, k⟩
    rcases h n hn with (h | h) | h
    · simp [h1] at h
    · simp [h2] at h
    · exact h
  · rintro ⟨h, k⟩
    refine ⟨fun n hn => ?_, k⟩
    cases h1 : s.enabled n <;> cases h2 : s.established n <;> simp
    exact h n hn h1 h2

/-- A grant that passed the tests of R66 keeps the laws: the tilt test of R9 is made with the length that the grant latches. -/
theorem Keeps.grant {s : State} {g : Sector} (kind : StrokeKind) (h : s.grantable g = true) : Keeps s (grant g kind s) := by
  obtain ⟨hen, hidle, hm, ht⟩ := grantable_iff.1 h
  obtain ⟨htn, htr⟩ := tiltTest_iff.1 ht
  refine Keeps.trans ?_ (.of_same (Aside.grant g kind s).same)
  generalize hu : { s.modGroup g (fun r => r.granted (s.len g) s.deck.window kind) with pressureOrder := s.pressureOrder ++ [g] } = u
  have hsec : ∀ k, u.sector k = (s.modGroup g fun r => r.granted (s.len g) s.deck.window kind).sector k := fun k => by rw [← hu]; rfl
  have hself : u.sector g = { s.sector g with group := (s.sector g).group.granted (s.len g) s.deck.window kind } := by
    rw [hsec, modGroup_eq, sector_modSector_self]
  refine .of_moved (g := g) (by rw [← hu]; rfl) (fun k hk => ?_) ?_ (fun _ => ?_) fun hs hl sg => ?_
  · rw [hsec, modGroup_eq, sector_modSector_ne s _ hk]
  · rw [hself]; exact ⟨rfl, rfl, rfl⟩
  · rw [hself]; simp [SectorState.StrokeOk, Group.granted, hm]
  · obtain ⟨h1, -, h3, -⟩ := hl
    have hidle : (s.sector g).group.state = .idle := hidle
    have hcl : (s.sector g).group.isOpen = false := SectorState.StrokeOk.closed (hs g) (by simp [hidle]) (by simp [hidle]) (by simp [hidle])
    have hreach : u.reach g = s.reach g + s.len g := by
      simp only [reach_eq, SectorState.reach, SectorState.elev, hself, Group.granted, openLen_of_closed hcl, openLen_of_open, Option.getD_some]
      omega
    have helev : u.elev g = s.elev g := by simp only [elev_eq, SectorState.elev, hself]
    have sg : s.established g = true := by rw [State.established, hself] at sg; exact sg
    rw [hreach, helev]
    exact ⟨fun eg n hn en sn => ⟨htn n hn en sn, h1 n g (mem_nbrSet_comm.1 hn) en sn eg sg⟩, (h3 g sg).1, htr⟩

theorem Steady.grant {s : State} {g : Sector} (kind : StrokeKind) (h : s.grantable g = true) : Steady s (grant g kind s) :=
  ⟨.grant kind h, .of_kept (.grant g kind s), (Kept.grant g kind s).deck⟩

/-- A resume order at a STALLED group (R98). -/
theorem Steady.resumeGroup {s : State} {g : Sector} (h : s.groupState g = .stalled) : Steady s (resumeGroup g s) := by
  have h : (s.sector g).group.state = .stalled := h
  refine .modGroup s g _ fun hk => ⟨?_, Nat.le_refl _⟩
  simpa [SectorState.StrokeOk, h] using hk

/-- A stall order (R97). -/
theorem Steady.stallGroup (g : Sector) (s : State) : Steady s (stallGroup g s) := by
  unfold Machine.stallGroup
  split
  · next h =>
    have h : (s.sector g).group.state = .pressurizing := h
    refine .modGroup s g _ fun hk => ⟨?_, Nat.le_refl _⟩
    simpa [SectorState.StrokeOk, h] using hk
  · exact .refl s

theorem Steady.stallTo (k : Nat) (s : State) : Steady s (stallTo k s) := .forEach _ _ (fun g t => .stallGroup g t) s

theorem grantable_of_paced {s : State} {g : Sector} (h : s.pacedEligible g = true) : s.grantable g = true := by
  simp only [State.pacedEligible, Bool.and_eq_true] at h
  exact h.1.1.1.1

theorem grantable_of_creep {s : State} {g : Sector} (h : s.creepEligible g = true) : s.grantable g = true := by
  simp only [State.creepEligible, Bool.and_eq_true] at h
  exact h.1.1

theorem grantable_of_survey {s : State} {g : Sector} (h : s.surveyEligible g = true) : s.grantable g = true := by
  simp only [State.surveyEligible, Bool.and_eq_true] at h
  exact h.1

/-- A group the stalled list names is STALLED (R109). -/
theorem stalled_of_mem {s : State} {g : Sector} (h : g ∈ s.stalledList) : s.groupState g = .stalled := by
  simpa using (List.mem_filter.1 h).2

/-- What a service can be (R111): what a relation holds of each order, of each load of the tables and of a withdrawn survey request, it holds of every service. -/
theorem serveOne_induct {R : State → State → Prop} (refl : ∀ s, R s s) (trans : ∀ {s t u}, R s t → R t u → R s u)
    (resume : ∀ s g, g ∈ s.stalledList → R s (resumeGroup g s))
    (grant : ∀ s g kind, kind ≠ .survey → s.grantable g = true → R s (grant g kind s))
    (survey : ∀ s g, s.surveyReq = some g → s.grantable g = true → R s (Machine.grant g .survey { s with surveyReq := none }))
    (blocked : ∀ s g, s.surveyReq = some g → R s (visitBlocked g { s with surveyReq := none }))
    (table : ∀ s a j l, R s { s with active := a, scanPtr := j, loadPending := l }) (s : State) : R s (serveOne s).1 := by
  have boundary : ∀ u, R u (passBoundary u) := by
    intro u; unfold Machine.passBoundary; split
    · exact table u _ _ _
    · exact refl u
  have scan : ∀ n j u, R u (pacedScan n j u).1 := by
    intro n
    induction n with
    | zero => exact fun j u => refl u
    | succ n ih =>
      intro j u
      unfold Machine.pacedScan
      split
      · next g hg =>
        have hg : u.grantable g = true := by
          obtain ⟨-, h⟩ := Option.filter_eq_some_iff.1 hg
          exact grantable_of_paced h
        have h : R u { Machine.grant g .paced u with scanPtr := (j + 1) % 32 } :=
          trans (grant u g .paced (by simp) hg) (table _ _ _ _)
        dsimp only
        split
        · exact trans h (boundary _)
        · exact h
      · split
        · exact refl u
        · split
          · exact trans (boundary u) (ih _ _)
          · exact ih _ _
  unfold Machine.serveOne
  split
  · next g hg =>
    split at hg
    · exact resume s g (List.mem_of_mem_head? hg)
    · cases hg
  · split
    · next g hg =>
      have hq : s.surveyReq = some g := by
        split at hg
        · exact hg
        · cases hg
      unfold Machine.serveSurvey
      dsimp only
      split
      · next he => exact survey s g hq (grantable_of_survey he)
      · exact blocked s g hq
    · split
      · next g hg =>
        have he : s.creepEligible g = true := by
          split at hg
          · exact List.find?_some hg
          · cases hg
        exact grant s g .creep (by simp) (grantable_of_creep he)
      · split
        · exact scan _ _ s
        · exact refl s

/-- What holds of every service holds of the end of an event (R110, R111). -/
theorem finish_induct {R : State → State → Prop} (refl : ∀ s, R s s) (trans : ∀ {s t u}, R s t → R t u → R s u)
    (service : ∀ s, R s (serveOne s).1) (pass : ∀ s, R s { s with passDue := false }) (s : State) : R s (finish s) := by
  unfold finish; split
  · exact trans (grantPass_keeps (P := fun t => R s t) (fun t h _ => trans h (service t)) passFuel s (refl s)) (pass _)
  · exact refl s

theorem Steady.finish (s : State) : Steady s (finish s) := by
  have same : ∀ {u v : State}, v.deck = u.deck → v.sectors = u.sectors → Steady u v := fun h1 h2 => .of_same (.of_eq h1 h2)
  refine finish_induct (R := Steady) .refl .trans (fun s => ?_) (fun s => same rfl rfl) s
  refine serveOne_induct (R := Steady) .refl .trans (fun s g h => .resumeGroup (stalled_of_mem h)) (fun s g kind _ h => .grant kind h)
    (fun s g _ h => ?_) (fun s g _ => ?_) (fun s a j l => same rfl rfl) s
  · exact Steady.trans (t := { s with surveyReq := none }) (same rfl rfl) (.grant (s := { s with surveyReq := none }) .survey h)
  · exact Steady.trans (t := { s with surveyReq := none }) (same rfl rfl) (.of_same (Aside.visitBlocked g _).same)

end Sys2Proof.Machine
end

