-- ==== Sys2Proof/Proofs/Steady.lean ====
section
/-! SUPPORT. The operations that keep the laws of strokes and tilt with every E and every stack: faults and timers, the events that are due, the sensor line, the clock, the warm reset, and all requests but ESTABLISH, ADJUST, PLACED, LAYER RESTORE and the MIX write. -/

namespace Sys2Proof.Machine

theorem Same.passSet (s : State) (d : Bool) : Same s { s with passDue := d } := .of_eq rfl rfl

theorem modSector_modSector (s : State) (g : Sector) (f f' : SectorState → SectorState) :
    (s.modSector g f).modSector g f' = s.modSector g fun x => f' (f x) := by
  show { s with sectors := (s.modSector g f).sectors.set g.val (f' ((s.modSector g f).sector g)) } = _
  rw [sector_modSector_self]
  simp only [State.modSector, Vector.set_set]

/-! ### FAULT (R99) -/

/-- What the entry to FAULT writes in the group (R99). -/
def Group.faulted (r : Group) (kind : FaultKind) : Group :=
  { r with state := .fault, fault := some kind, timer := none, windows := 0, isOpen := false, failed := false }

theorem Same.handOnFault (g : Sector) (m v : Bool) (s : State) : Same s (handOnFault g m v s) := by
  have h2 : ∀ u : State, Same u (if m then Machine.enterAlert .suspectPosition (some g) u else u) := by
    intro u; split
    · exact (Aside.enterAlert _ _ u).same
    · exact .refl u
  have h4 : ∀ u : State, Same u (if u.mode = .climb then Machine.enterHold u else u) := by
    intro u; split
    · exact (Repaced.enterHold u).same
    · exact .refl u
  have h5 := (((Aside.enterAlert .groupFault (some g) s).same.trans (h2 _)).trans (Repaced.goalTest _).same).trans
    ((h4 _).trans (Aside.trimOnFault g _).same)
  unfold Machine.handOnFault; dsimp only; split
  · exact h5.trans (.passSet _ _)
  · exact h5

/-- The entry to FAULT is the change of the group, and what it hands on. -/
theorem Same.enterFault (g : Sector) (kind : FaultKind) (m v : Bool) (s : State) :
    Same (s.modGroup g fun r => r.faulted kind) (enterFault g kind m v s) := by
  unfold Machine.enterFault; dsimp only; split
  · exact .handOnFault g m v _
  · exact .refl _

theorem Steady.enterFault (g : Sector) (kind : FaultKind) (m v : Bool) (s : State) : Steady s (enterFault g kind m v s) := by
  refine Steady.then (.modGroup s g _ fun _ => ⟨?_, ?_⟩) (.enterFault g kind m v s)
  · simp [SectorState.StrokeOk, Group.faulted]
  · simp [Group.openLen, Group.faulted]

/-- A stroke that fails for good: it closes into the margin, so that the reach stays where the open stroke had it (R10). -/
theorem Steady.failStroke {g : Sector} {s : State} (kind : FaultKind) (m v : Bool) (hs : s.groupState g = .venting)
    (hf : (s.sector g).group.failed = true) : Steady s (Machine.enterFault g kind m v (closeIntoMargin g s)) := by
  refine Steady.then ?_ (.enterFault g kind m v _)
  have hs : (s.sector g).group.state = .venting := hs
  rw [modGroup_eq, closeIntoMargin, modTable_eq, modSector_modSector]
  refine .modSector s g _ (fun hk => ⟨?_, rfl, rfl, rfl, Int.le_refl _, ?_, .inl rfl⟩) rfl rfl
  · simp [SectorState.StrokeOk, Group.faulted]
  · have ho : (s.sector g).group.isOpen = true := hk.1.2 (.inr (.inr ⟨hs, hf⟩))
    simp [SectorState.reach, SectorState.elev, Group.openLen, Group.faulted, ho, (hk.2.2 ho).2]

theorem Same.noteSwitchFault (g : Sector) (s : State) : Same s (noteSwitchFault g s) := by
  unfold Machine.noteSwitchFault; split
  · exact (Same.modFlags s g _).trans (Aside.enterAlert _ _ _).same
  · exact .refl s

/-! ### Trims that set L (R146) -/

/-- The new L of a trim that is not REJECTED is at most T (R5, R146). -/
theorem trimOutcome_le {l : Nat} {t : Int} {b a : List (Option Nat)} (h : (trimOutcome l t b a).1 ≠ .rejected) :
    ((trimOutcome l t b a).2.1 : Int) ≤ max t 0 := by
  unfold trimOutcome at *
  split
  · next x y hx hy =>
    simp only [hx, hy] at h ⊢
    split
    · next hd => exact absurd (by rw [if_pos hd]) h
    · have : limitLen l t ((y / 4 : Nat) - (x / 4 : Nat)) ≤ t := min_le_left _ _
      dsimp only
      omega
  · next hn =>
    exfalso
    split at h
    · next hx hy => exact hn _ _ hx hy
    · simp at h

theorem Steady.setLen {s : State} {g : Sector} {n : Nat} (h : n ≤ 10 * s.deck.tilt) :
    Steady s (s.modTable g fun r => { r with len := some n }) :=
  .modSector s g _ (fun hk => ⟨hk, rfl, rfl, rfl, Int.le_refl _, Int.le_refl _, .inr h⟩) rfl rfl

theorem Steady.makeResult (g : Sector) (kind : TrimKind) (s : State) : Steady s (makeResult g kind s) := by
  have h1 : ∀ c n d, Aside s (closeTrim g kind c (writeResult g kind c n d s)) := fun c n d =>
    (Aside.writeResult g kind c n d s).trans (.closeTrim g kind c _)
  unfold Machine.makeResult; dsimp only; split
  · exact .of_same (h1 _ _ _).same
  · next hr =>
    have hl := trimOutcome_le hr
    refine ((Steady.of_same (h1 _ _ _).same).trans (.setLen ?_)).then (Repaced.rederive g _).same
    rw [(h1 _ _ _).same.deck]
    simp only [State.t10] at hl ⊢
    omega

theorem Steady.endSettle (g : Sector) (s : State) : Steady s (endSettle g s) := by
  have h := Steady.of_same (Aside.abandonTries (fun t => t.kind == .after && t.sector == g) s).same
  unfold Machine.endSettle; dsimp only; split
  · exact h.trans (.makeResult g _ _)
  · exact h

theorem Steady.afterReading (g : Sector) (v : Option Nat) (s : State) : Steady s (afterReading g v s) := by
  have h := Steady.of_same (Aside.modTrim s g fun t => { t with after := t.after ++ [v] }).same
  unfold Machine.afterReading; dsimp only; split
  · exact h.then (Aside.requestTry _ _ _ _).same
  · split
    · exact h.trans (.makeResult g _ _)
    · exact h

/-! ### Timer expiries and the way home (R92 to R95) -/

theorem Steady.settleExpiry (g : Sector) (s : State) : Steady s (settleExpiry g s) := by
  unfold Machine.settleExpiry; split
  · next h =>
    have h : (s.sector g).group.state = .holding := h
    refine Steady.trans (.modGroup s g _ fun hk => ⟨?_, Nat.le_refl _⟩) (.endSettle g _)
    obtain ⟨h1, h2, h3⟩ := hk
    simp only [h, reduceCtorEq, false_and, or_false, imp_false, Bool.not_eq_true] at h1 h2
    simp [SectorState.StrokeOk, h1, h2]
  · exact .refl s

theorem Steady.windowExpiry (g : Sector) (s : State) : Steady s (windowExpiry g s) := by
  unfold Machine.windowExpiry; split
  · next h =>
    have h : (s.sector g).group.state = .pressurizing := h
    dsimp only; split
    · exact (Steady.modGroup_same s g _ ⟨rfl, rfl, rfl, rfl⟩).then ((Same.modFlags _ g _).trans (Aside.enterAlert _ _ _).same)
    · have hv : Steady s (s.modGroup g fun r => { r with failed := true, state := .venting, timer := some ⟨.vent, s.deck.vent⟩ }) := by
        refine .modGroup s g _ fun hk => ⟨?_, Nat.le_refl _⟩
        have ho := hk.1.2 (.inl h)
        simp [SectorState.StrokeOk, ho, hk.2.2]
      exact hv.then (.of_eq rfl rfl)
  · exact .refl s

theorem Steady.ventExpiry (g : Sector) (s : State) : Steady s (ventExpiry g s) := by
  unfold Machine.ventExpiry; split
  · next h =>
    split
    · next hf => exact .failStroke _ _ _ h hf
    · exact .enterFault _ _ _ _ _
  · exact .refl s

theorem Steady.timerExpiry (g : Sector) (s : State) : Steady s (timerExpiry g s) := by
  unfold Machine.timerExpiry; split
  · exact .windowExpiry g s
  · exact .settleExpiry g s
  · exact .ventExpiry g s
  · exact .refl s

theorem Steady.expireTimers (s : State) : Steady s (expireTimers s) :=
  .forEach _ _ (fun g t => (Steady.timerExpiry g t).trans (.finish _)) s

/-- A group with no open stroke takes another state outside PRESSURIZING and STALLED: it comes home (R94, R100). -/
theorem Steady.goHome (s : State) (g : Sector) (f : Group → Group) (hs : (s.sector g).StrokeOk → (s.sector g).group.isOpen = false
      ∧ (s.sector g).group.failed = false) (hf : ∀ r, (f r).state = .idle ∧ (f r).isOpen = r.isOpen ∧ (f r).failed = r.failed) :
    Steady s (s.modGroup g f) := by
  refine .modGroup s g f fun hk => ?_
  obtain ⟨h1, h2⟩ := hs hk
  obtain ⟨k1, k2, k3⟩ := hf (s.sector g).group
  rw [h1] at k2
  rw [h2] at k3
  exact ⟨by simp [SectorState.StrokeOk, k1, k2, k3], by simp [openLen_of_closed k2]⟩

theorem Steady.enterIdle {g : Sector} {s : State} (hs : s.groupState g = .venting) (hf : (s.sector g).group.failed = false) :
    Steady s (enterIdle g s) := by
  have hs : (s.sector g).group.state = .venting := hs
  have hh : Steady s (s.modGroup g fun r => { r with state := .idle, fault := none, timer := none, windows := 0 }) :=
    .goHome s g _ (fun hk => ⟨by simpa [hs, hf] using hk.1, hf⟩) (by intro r; exact ⟨rfl, rfl, rfl⟩)
  exact hh.then (((Aside.trimOnIdle g _).trans (.visitOnIdle g _)).same.trans (.passSet _ _))

theorem Steady.clearFault {g : Sector} {s : State} (hs : s.groupState g = .fault) : Steady s (clearFault g s) := by
  have hs : (s.sector g).group.state = .fault := hs
  have hh : Steady s (s.modGroup g fun r => { r with state := .idle, fault := none }) :=
    .goHome s g _ (fun hk => ⟨hk.closed (by simp [hs]) (by simp [hs]) (by simp [hs]), by simpa [hs] using hk.2.1⟩)
      (by intro r; exact ⟨rfl, rfl, rfl⟩)
  exact hh.then (((Repaced.goalTest _).same.trans (Aside.trimOnIdle g _).same).trans (.passSet _ _))

/-! ### Switches (R86, R88, R94, R103) -/

theorem Steady.setSwitch (g : Sector) (w : SwitchId) (x : Switch) (s : State) : Steady s (setSwitch g w x s) := by
  refine .modGroup_same s g _ ?_
  cases w <;> exact ⟨rfl, rfl, rfl, rfl⟩

theorem Steady.switchChange (g : Sector) (w : SwitchId) (l : Bool) (event : State → State) (h : ∀ s, Steady s (event s)) (s : State) :
    Steady s (switchChange g w l event s) := by
  unfold Machine.switchChange; split
  · exact (Steady.setSwitch g w _ s).trans (h _)
  · exact .refl s

theorem Steady.inputChange (g : Sector) (w : SwitchId) (l : Bool) (s : State) : Steady s (inputChange g w l s) := by
  unfold Machine.inputChange; dsimp only; split
  · exact .setSwitch g w _ s
  · exact .refl s

theorem Steady.inputReturn (g : Sector) (w : SwitchId) (s : State) : Steady s (inputReturn g w s) := by
  unfold Machine.inputReturn; dsimp only; split
  · exact .setSwitch g w _ s
  · exact .refl s

theorem Steady.firstState (g : Sector) (w : SwitchId) (l : Bool) (s : State) : Steady s (firstState g w l s) := by
  unfold Machine.firstState; dsimp only; split
  · refine (Steady.setSwitch g w ⟨some l, none⟩ s).trans ?_
    split
    · refine .modGroup _ g _ fun _ => ⟨?_, ?_⟩
      · simp [SectorState.StrokeOk]
      · simp [Group.openLen]
    · exact .refl _
  · exact .refl s

theorem Steady.retractedEvent (g : Sector) (s : State) : Steady s (retractedEvent g s) := by
  have hn : ∀ b : Bool, Same s (if b then Machine.noteSwitchFault g s else s) := by
    intro b; cases b
    · exact .refl s
    · exact .noteSwitchFault g s
  unfold Machine.retractedEvent; dsimp only; split
  · split
    · exact (Steady.of_same (.noteSwitchFault g s)).trans (.enterFault _ _ _ _ _)
    · exact .refl s
  · next h =>
    have hn := hn ((s.sector g).group.endSw.state == some true)
    generalize (if ((s.sector g).group.endSw.state == some true) = true then noteSwitchFault g s else s) = u at hn ⊢
    have hg : (u.sector g).group = (s.sector g).group := (hn.figures g).2.2.2.2.2.2
    have hu : u.groupState g = .venting := by rw [State.groupState, hg]; exact h
    refine (Steady.of_same hn).trans ?_
    split
    · next hf => exact .failStroke _ _ _ hu (by rw [hg]; exact hf)
    · next hf => exact .enterIdle hu (by rw [hg]; simpa using hf)
  all_goals exact .of_same (hn _)

theorem Steady.retractedLostEvent (g : Sector) (s : State) : Steady s (retractedLostEvent g s) := by
  unfold Machine.retractedLostEvent; split
  · exact .of_same (.noteSwitchFault g s)
  · exact .refl s

/-! ### The sensor line (R43, R44, R143 to R152) -/

theorem Same.driftReading (g : Sector) (v : Nat) (s : State) : Same s (driftReading g v s) := by
  unfold Machine.driftReading; dsimp only; split
  · split
    · exact (Same.modTrim s g _).trans (.modFlags _ g _)
    · exact (((Same.modTrim s g _).trans (.modFlags _ g _)).trans (.modTrim _ g _)).trans (Aside.enterAlert _ _ _).same
  · exact (Same.modTrim s g _).trans (.modTrim _ g _)

theorem Steady.readingEnds (t : Try) (v : Option Nat) (s : State) : Steady s (readingEnds t v s) := by
  unfold Machine.readingEnds; split
  · split
    · exact .of_same (.driftReading _ _ s)
    · exact .refl s
  · exact .of_same (Aside.beforeReading _ v s).same
  · exact .afterReading _ v s
  · exact .refl s

theorem Same.pollGood (g : Sector) (a : Nat) (h : Int) (s : State) : Same s (pollGood g a h s) := by
  unfold Machine.pollGood; dsimp only; split
  · exact (Same.modProbe s g _).trans (.modFlags _ g _)
  · exact Same.modProbe s g _

theorem Steady.tryFailed (t : Try) (s : State) : Steady s (tryFailed t s) := by
  unfold Machine.tryFailed; split
  · exact .of_same (Aside.requestTry _ _ _ s).same
  · split
    · exact .of_same (Same.modProbe s _ _)
    · exact .readingEnds t none s

theorem Steady.tryEnds (t : Try) (act : State → State) (h : ∀ s, Steady s (act s)) (s : State) : Steady s (tryEnds t act s) := by
  have h0 : Steady s { s with line := none } := .of_same (.of_eq rfl rfl)
  unfold Machine.tryEnds; dsimp only
  refine Steady.then ?_ (Aside.serveLine _).same
  split
  · exact h0.trans (h _)
  · exact h0

theorem Steady.probeAnswered (h : Int) (c : Bool) (s : State) : Steady s (probeAnswered h c s) := by
  unfold Machine.probeAnswered; split
  · split
    · refine .tryEnds _ _ (fun u => ?_) s
      cases c
      · exact .of_same (.pollGood _ _ _ u)
      · exact .tryFailed _ u
    · exact .refl s
  · exact .refl s

theorem Steady.receiverAnswered (n : Nat) (c : Bool) (s : State) : Steady s (receiverAnswered n c s) := by
  unfold Machine.receiverAnswered; split
  · split
    · exact .refl s
    · next t _ _ =>
      refine .tryEnds _ _ (fun u => ?_) s
      cases c
      · exact .readingEnds t (some n) u
      · exact .tryFailed t u
  · exact .refl s

theorem Steady.tryTimedOut (s : State) : Steady s (tryTimedOut s) := by
  unfold Machine.tryTimedOut; split
  · exact .tryEnds _ _ (fun u => .tryFailed _ u) s
  · exact .refl s

/-! ### What a clock event makes due -/

theorem Same.dueSet (s : State) (d : Due) : Same s { s with due := d } := .of_eq rfl rfl

theorem Same.takeAging (s : State) : Same s (takeAging s) := by
  unfold Machine.takeAging; split
  · exact .of_eq rfl rfl
  · exact .refl s

theorem Same.expireTickets (s : State) : Same s (expireTickets s) := by
  have h : ∀ es u, Same u (List.foldl expireTicket u es) := by
    intro es
    induction es with
    | nil => exact fun u => .refl u
    | cons e es ih =>
      intro u
      have hj : Same (u.setTicket e.sector none) { u.setTicket e.sector none with expired := joinExpired e (u.setTicket e.sector none).expired } :=
        .of_eq rfl rfl
      exact (((Same.setTicket u e.sector none).trans hj).trans (Aside.enterAlert .ticketExpired (some e.sector) _).same).trans (ih _)
  exact (h s.expiring s).trans (.of_eq rfl rfl)

theorem Same.takeExpiry (s : State) : Same s (takeExpiry s) := by
  unfold Machine.takeExpiry; split
  · exact (Same.takeAging s).trans ((Same.dueSet _ _).trans (.expireTickets _))
  · exact .refl s

theorem Same.raiseBond (g : Sector) (s : State) : Same s (raiseBond g s) := (Same.modFlags s g _).trans (Aside.enterAlert _ _ _).same

theorem Same.takeBond (s : State) : Same s (takeBond s) :=
  (Same.dueSet s _).trans (.forEach _ _ (fun g t => .raiseBond g t) _)

theorem Steady.takeLapse (s : State) : Steady s (takeLapse s) := by
  unfold Machine.takeLapse; split
  · have h : Same s { s with due := { s.due with lapse := false }, supply := { s.supply with state := .lapsed, lapseRunning := false } } :=
      .of_eq rfl rfl
    exact ((Steady.of_same h).trans (.stallTo 0 _)).then (Aside.enterAlert _ _ _).same
  · exact .refl s

theorem Same.takeDwell (s : State) : Same s (takeDwell s) := by
  unfold Machine.takeDwell; split
  · exact (Same.dueSet s _).trans (Repaced.raiseDemands _).same
  · exact .refl s

theorem Same.paceExpiry (g : Sector) (s : State) : Same s (paceExpiry g s) := by
  unfold Machine.paceExpiry; dsimp only; split
  · split
    · exact (Repaced.startCounter g s).same.trans ((Same.modPace _ g fun q => { q with count := q.count + 1 }).trans (.passSet _ _))
    · exact (Repaced.startCounter g s).same.trans ((Same.modFlags _ g _).trans (Aside.enterAlert _ _ _).same)
  · exact .refl s

theorem Same.takePace (s : State) : Same s (takePace s) := by
  unfold Machine.takePace; split
  · exact (Same.dueSet s _).trans (.forEach _ _ (fun g t => .paceExpiry g t) _)
  · exact .refl s

theorem Steady.finishDue (s : State) : Steady s (finishDue s) := by
  unfold Machine.finishDue; split
  · exact .finish s
  · exact .refl s

theorem Steady.settleDue (s : State) : Steady s (settleDue s) := by
  unfold Machine.settleDue; split
  · exact .refl s
  · have h := ((Same.takeAging s).trans (.takeExpiry _)).trans (.takeBond _)
    exact (((Steady.of_same h).trans (.takeLapse _)).then ((Same.takeDwell _).trans (.takePace _))).trans (.finish _)

/-! ### The clock (R41, R42) -/

/-- A second at a sector counts timers and counters only. -/
theorem Steady.secondTick (m : DeckMode) (s : State) : Steady s (s.mapSectors (secondTick m)) := by
  refine ⟨.of_settles rfl fun g hg => ?_, ⟨fun g => by rw [sector_mapSectors]; rfl, fun g => by rw [State.stack, sector_mapSectors]; rfl⟩, rfl⟩
  rw [sector_mapSectors]
  exact ⟨hg, rfl, rfl, rfl, Int.le_refl _, Int.le_refl _, .inl rfl⟩

theorem Steady.secondWork (s : State) : Steady s (secondWork s) := (Steady.secondTick s.mode s).then (.of_eq rfl rfl)

theorem Same.advanceClock (b : Bool) (s : State) : Same s (advanceClock b s) := by
  cases b <;> exact .of_eq rfl rfl

theorem Same.stalenessTest (s : State) : Same s (stalenessTest s) :=
  .forEach _ _ (fun g t => (Same.modProbe t g _).trans (Aside.enterAlert _ _ _).same) s

theorem Same.setTemps (s : State) : Same s (setTemps s) := .forEach _ _ (fun g t => .modProbe t g _) s

theorem Same.handOnReady (b s : State) : Same s (handOnReady b s) := by
  unfold Machine.handOnReady; split
  · exact .of_eq rfl rfl
  · exact .refl s

/-! ### Warm reset (R17, R104, R169) -/

/-- A warm reset places each group by its state; an open stroke not yet failed closes into the margin, so that no reach rises. -/
theorem resetSector_settles (v n : Nat) (b : Bool) {x : SectorState} (h : x.StrokeOk) :
    (resetSector v b x).StrokeOk ∧ x.Settles n (resetSector v b x) := by
  obtain ⟨h1, h2, h3⟩ := h
  cases hs : x.group.state <;> simp only [hs, reduceCtorEq, false_and, true_and, or_false, false_or, imp_false, iff_true, iff_false, Bool.not_eq_true] at h1 h2 h3
  all_goals refine ⟨?_, ?_, ?_, ?_, ?_, ?_, .inl ?_⟩
  all_goals simp_all [SectorState.StrokeOk, resetSector, resetGroup, ventGroup, GroupState.closedByReset, SectorState.reach, SectorState.elev,
      Group.openLen]

theorem sector_resetRecords (s : State) (g : Sector) :
    (resetRecords s).sector g = resetSector s.deck.vent (s.underVisit g) (s.sector g) := by
  show (forEach allSectors (fun g s' => s'.modSector g (resetSector s.deck.vent (s.underVisit g))) s).sector g = _
  rw [sector_forEach_modSector nodup_allSectors, if_pos (mem_allSectors g)]

theorem deck_resetRecords (s : State) : (resetRecords s).deck = s.deck := by
  unfold resetRecords
  dsimp only
  rw [forEach_modSector_eq]

theorem Steady.resetRecords (s : State) : Steady s (resetRecords s) := by
  refine ⟨.of_settles (deck_resetRecords s) fun g hg => ?_, ⟨fun g => ?_, fun g => ?_⟩, deck_resetRecords s⟩
  · rw [sector_resetRecords]; exact resetSector_settles _ _ _ hg
  · rw [sector_resetRecords, resetSector]; dsimp only; split <;> rfl
  · rw [State.stack, sector_resetRecords]; rfl

theorem Same.alertClosed (b s : State) : Same s (alertClosed b s) := .forEach _ _ (fun _ t => (Aside.enterAlert _ _ t).same) s

theorem Same.deriveGoal (s : State) : Same s (deriveGoal s) := .forEach _ _ (fun g t => .modPace t g _) s

theorem Steady.warmReset (s : State) : Steady s (warmReset s) := by
  have h : Same (Machine.resetRecords s) (raiseDemands (Machine.deriveGoal (Machine.alertClosed s (Machine.resetRecords s)))) :=
    ((Same.alertClosed s _).trans (.deriveGoal _)).trans (Repaced.raiseDemands _).same
  exact (Steady.resetRecords s).then (h.trans (.passSet _ _))

end Sys2Proof.Machine
end

