-- ==== Sys2Proof/Proofs/Rises.lean ====
section
/-! SUPPORT. What raises E or sets it: the raise with its releases (R7, R29, R22), the commit of a stroke (R90, R91), ADJUST (R11), ESTABLISH (R13); and the DECK and SECTOR writes, which are tested against the tilt law (R4, R172). -/

namespace Sys2Proof.Machine

/-! ### The raise of E -/

/-- The stack and the concrete top once the form bottom stands at b (R22, R29). -/
def LayerTable.released (t : LayerTable) (b : Int) : LayerTable :=
  { t with stack := staying b t.stack, top := if (staying b t.stack).isEmpty then t.top.map (max · b) else t.top }

/-- A sector whose form bottom has come to b: on an emptied stack the dwell counter is 0 (R29, R76). -/
def SectorState.released (x : SectorState) (b : Int) : SectorState :=
  { x with
    layers := x.layers.released b
    pace := if (staying b x.layers.stack).isEmpty then { x.pace with dwell := 0 } else x.pace }

theorem modSector_congr {s : State} {g : Sector} {f f' : SectorState → SectorState} (h : f (s.sector g) = f' (s.sector g)) :
    s.modSector g f = s.modSector g f' := by unfold State.modSector; rw [h]

@[simp] theorem sector_logReleases (g : Sector) (ls : List Layer) (s : State) (h : Sector) : (logReleases g ls s).sector h = s.sector h := rfl

/-- The creep list once the stack of g is ls: an emptied stack has no demand (R78). -/
def demandsLeft (g : Sector) (ls : List Layer) (es : List CreepEntry) : List CreepEntry :=
  if ls.isEmpty then es.filter fun e => e.sector != g else es

/-- A new form bottom changes the sector's records, the release log and the creep list. -/
theorem takeBottom_eq (g : Sector) (s : State) :
    takeBottom g s =
      { (logReleases g (leaving (s.bottom g) (s.stack g)) s).modSector g fun x => x.released (s.bottom g) with
        creepList := demandsLeft g (staying (s.bottom g) (s.stack g)) s.creepList } := by
  unfold takeBottom
  dsimp only
  split
  · next he =>
    rw [modPace_eq, modLayers_eq, modSector_modSector, modSector_congr (f' := fun x => x.released (s.bottom g)), demandsLeft, if_pos he]
    · rfl
    · have he : (staying (s.bottom g) (s.sector g).layers.stack).isEmpty = true := he
      simp only [sector_logReleases, SectorState.released, LayerTable.released, State.stack, he, if_true]
  · next he =>
    rw [modLayers_eq, modSector_congr (f' := fun x => x.released (s.bottom g)), demandsLeft, if_neg he]
    · rfl
    · have he : (staying (s.bottom g) (s.sector g).layers.stack).isEmpty = false := Bool.eq_false_iff.2 he
      simp only [sector_logReleases, SectorState.released, LayerTable.released, State.stack, he, Bool.false_eq_true, if_false]

/-- The form bottom of g once E has risen by n. -/
def State.raisedBottom (s : State) (g : Sector) (n : Nat) : Int := ((s.sector g).table.elev.map (· + (n : Int))).getD 0 - s.h10

/-- A sector's record of the sector table with E raised by n. -/
def SectorRec.raised (r : SectorRec) (n : Nat) : SectorRec := { r with elev := r.elev.map (· + (n : Int)) }

/-- A sector with E raised by n, its form bottom come to b. -/
def SectorState.raised (x : SectorState) (n : Nat) (b : Int) : SectorState := { x with table := x.table.raised n }.released b

/-- The raise of E changes the sector's records, the release log and the creep list. -/
theorem raiseElev_eq (g : Sector) (n : Nat) (s : State) :
    raiseElev g n s =
      { (logReleases g (leaving (s.raisedBottom g n) (s.stack g)) s).modSector g fun x => x.raised n (s.raisedBottom g n) with
        creepList := demandsLeft g (staying (s.raisedBottom g n) (s.stack g)) s.creepList } := by
  have hx : (s.modSector g fun x => { x with table := x.table.raised n }).sector g = { s.sector g with table := (s.sector g).table.raised n } :=
    sector_modSector_self s g _
  have hb : (s.modSector g fun x => { x with table := x.table.raised n }).bottom g = s.raisedBottom g n := by
    simp only [State.bottom, State.elev, hx]; rfl
  have hs : (s.modSector g fun x => { x with table := x.table.raised n }).stack g = s.stack g := by simp only [State.stack, hx]
  have h := takeBottom_eq g (s.modSector g fun x => { x with table := x.table.raised n })
  have hl : ∀ ls f, (logReleases g ls (s.modSector g fun x => { x with table := x.table.raised n })).modSector g f =
      (logReleases g ls s).modSector g fun x => f { x with table := x.table.raised n } :=
    fun ls f => modSector_modSector (logReleases g ls s) g (fun x => { x with table := x.table.raised n }) f
  rw [hb, hs, hl] at h
  exact h

theorem sector_raiseElev (g : Sector) (n : Nat) (s : State) (h : Sector) :
    (raiseElev g n s).sector h = if h = g then (s.sector g).raised n (s.raisedBottom g n) else s.sector h := by
  have hs : (raiseElev g n s).sectors = (s.modSector g fun x => x.raised n (s.raisedBottom g n)).sectors := by rw [raiseElev_eq]; rfl
  rw [State.sector, hs]
  exact sector_modSector s g h _

theorem sector_raiseElev_self (g : Sector) (n : Nat) (s : State) :
    (raiseElev g n s).sector g = (s.sector g).raised n (s.raisedBottom g n) := by rw [sector_raiseElev, if_pos rfl]

theorem sector_raiseElev_ne {g h : Sector} (n : Nat) (s : State) (e : h ≠ g) : (raiseElev g n s).sector h = s.sector h := by
  rw [sector_raiseElev, if_neg e]

theorem raiseElev_deck (g : Sector) (n : Nat) (s : State) : (raiseElev g n s).deck = s.deck := by rw [raiseElev_eq]; rfl

/-- From s to t the E of one sector has risen by n: the layers the form has left are released there, every other sector keeps E and stack. -/
structure Raised (g : Sector) (n : Nat) (s t : State) : Prop where
  elev : (t.sector g).table.elev = (s.sector g).table.elev.map (· + (n : Int))
  stack : t.stack g = staying (t.bottom g) (s.stack g)
  others : ∀ h, h ≠ g → (t.sector h).table.elev = (s.sector h).table.elev ∧ t.stack h = s.stack h

theorem Raised.raiseElev (g : Sector) (n : Nat) (s : State) : Raised g n s (raiseElev g n s) := by
  have hself := sector_raiseElev_self g n s
  have hb : (Machine.raiseElev g n s).bottom g = s.raisedBottom g n := by
    rw [State.bottom, State.elev, hself, State.h10, raiseElev_deck]; rfl
  refine ⟨by rw [hself]; rfl, by rw [hb, State.stack, hself]; rfl, fun h e => ?_⟩
  rw [State.stack, sector_raiseElev_ne n s e]
  exact ⟨rfl, rfl⟩

theorem Raised.after {g : Sector} {n : Nat} {s t u : State} (h : Raised g n s t) (hd : u.deck = t.deck) (k : Level t u) : Raised g n s u := by
  have hb : u.bottom g = t.bottom g := by simp only [State.bottom, State.elev, k.elev, State.h10, hd]
  refine ⟨by rw [k.elev]; exact h.elev, by rw [k.stack, hb]; exact h.stack, fun i e => ?_⟩
  rw [k.elev, k.stack]; exact h.others i e

theorem Raised.before {g : Sector} {n : Nat} {s t u : State} (k : Level s t) (h : Raised g n t u) : Raised g n s u := by
  refine ⟨by rw [← k.elev]; exact h.elev, by rw [← k.stack]; exact h.stack, fun i e => ?_⟩
  rw [← k.elev, ← k.stack]; exact h.others i e

/-- A stroke or a margin that goes into E lifts no reach: the change f takes at least n from them. -/
theorem Keeps.raiseElev (s : State) (g : Sector) (f : SectorState → SectorState) (n : Nat)
    (h : (s.sector g).StrokeOk → (f (s.sector g)).StrokeOk
      ∧ (f (s.sector g)).group.openLen + (f (s.sector g)).table.margin + n ≤ (s.sector g).group.openLen + (s.sector g).table.margin)
    (ht : (f (s.sector g)).table.enabled = (s.sector g).table.enabled ∧ (f (s.sector g)).table.nbrs = (s.sector g).table.nbrs
      ∧ (f (s.sector g)).table.len = (s.sector g).table.len ∧ (f (s.sector g)).table.elev = (s.sector g).table.elev) :
    Keeps s (raiseElev g n (s.modSector g f)) := by
  obtain ⟨h1, h2, h3, h4⟩ := ht
  refine .of_settles (raiseElev_deck g n _) fun k hk => ?_
  by_cases e : k = g
  · subst e
    obtain ⟨ho, hr⟩ := h hk
    rw [sector_raiseElev_self, sector_modSector_self]
    refine ⟨ho, h1, h2, ?_, ?_, ?_, .inl h3⟩
    · simp [SectorState.raised, SectorState.released, SectorRec.raised, h4]
    · simp only [SectorState.elev, SectorState.raised, SectorState.released, SectorRec.raised, h4]
      cases (s.sector k).table.elev <;> simp
    · simp only [SectorState.reach, SectorState.elev, SectorState.raised, SectorState.released, SectorRec.raised, h4]
      cases (s.sector k).table.elev <;> simp <;> omega
  · rw [sector_raiseElev_ne n _ e, sector_modSector_ne s f e]
    exact ⟨hk, rfl, rfl, rfl, Int.le_refl _, Int.le_refl _, .inl rfl⟩

/-! ### The commit of a stroke (R90, R91, R93) -/

theorem Same.removeDemand (g : Sector) (s : State) : Same s (removeDemand g s) := .of_eq rfl rfl

/-- After the raise, a commit moves the pacing unit and the creep list alone. -/
theorem Same.commitRise (g : Sector) (s : State) :
    Same (Machine.raiseElev g ((s.sector g).group.latched.getD 0) s) (commitRise g s) := by
  have h := Same.modPace (Machine.raiseElev g ((s.sector g).group.latched.getD 0) s) g fun p => { p with dwell := 0 }
  exact ((h.trans (Repaced.consumeRequest g _).same).trans (.removeDemand g _)).trans (Repaced.rederive g _).same

/-- The group at a commit in time: HOLDING with the settle time, no stroke open (R91, R101). -/
def Group.committed (r : Group) (settle : Nat) : Group :=
  { countStroke r with isOpen := false, windows := 0, state := .holding, timer := some ⟨.settle, settle⟩ }

/-- The group at a late commit: VENTING still, the failed mark clear (R93, R101). -/
def Group.committedLate (r : Group) : Group := { countStroke r with isOpen := false, failed := false }

/-- The state in which the raise of a commit in time takes place. -/
def beforeRise (g : Sector) (s : State) : State := (leavePressure g s).modGroup g fun r => r.committed s.deck.settle

theorem commit_eq (g : Sector) (s : State) :
    commit g s =
      if s.deck.settle = 0 then settleExpiry g { startAfter g (commitRise g (beforeRise g s)) with passDue := true }
      else { startAfter g (commitRise g (beforeRise g s)) with passDue := true } := rfl

theorem Steady.afterRise (g : Sector) (s : State) :
    Steady (Machine.raiseElev g ((s.sector g).group.latched.getD 0) (beforeRise g s)) (commit g s) := by
  have hl : ((beforeRise g s).sector g).group.latched = (s.sector g).group.latched := by
    rw [beforeRise, modGroup_eq, sector_modSector_self]; rfl
  have h : Same (Machine.raiseElev g ((s.sector g).group.latched.getD 0) (beforeRise g s))
      { startAfter g (Machine.commitRise g (beforeRise g s)) with passDue := true } := by
    rw [← hl]
    exact ((Same.commitRise g _).trans (Aside.startAfter g _).same).trans (.passSet _ _)
  rw [commit_eq]
  split
  · exact (Steady.of_same h).trans (.settleExpiry g _)
  · exact .of_same h

theorem Keeps.commit {g : Sector} {s : State} (hs : s.groupState g = .pressurizing ∨ s.groupState g = .stalled) : Keeps s (commit g s) := by
  have hs : (s.sector g).group.state = .pressurizing ∨ (s.sector g).group.state = .stalled := hs
  refine Keeps.trans ?_ (Steady.afterRise g s).toKeeps
  refine Keeps.trans (t := leavePressure g s) (.of_same (.of_eq rfl rfl)) (.raiseElev _ g _ _ (fun hk => ?_) ⟨rfl, rfl, rfl, rfl⟩)
  have hk : (s.sector g).StrokeOk := hk
  have ho : (s.sector g).group.isOpen = true := hk.1.2 (hs.imp id .inl)
  have hf : (s.sector g).group.failed = false := by
    cases hf : (s.sector g).group.failed
    · rfl
    · rcases hs with h | h <;> simp [hk.2.1 hf] at h
  refine ⟨?_, ?_⟩
  · show SectorState.StrokeOk { s.sector g with group := (s.sector g).group.committed s.deck.settle }
    simp [SectorState.StrokeOk, Group.committed, countStroke, hf]
  · show ((s.sector g).group.committed s.deck.settle).openLen + (s.sector g).table.margin + _ ≤ (s.sector g).group.openLen + (s.sector g).table.margin
    rw [openLen_of_open ho, openLen_of_closed rfl]; omega

theorem Same.afterLateRise (g : Sector) (s : State) :
    Same (Machine.raiseElev g ((s.sector g).group.latched.getD 0) (s.modGroup g Group.committedLate)) (lateCommit g s) := by
  have hl : ((s.modGroup g Group.committedLate).sector g).group.latched = (s.sector g).group.latched := by
    rw [modGroup_eq, sector_modSector_self]; rfl
  have h := (Same.commitRise g (s.modGroup g Group.committedLate)).trans ((Aside.rejectAwaiting g _).same.trans (.passSet _ true))
  rw [hl] at h
  exact h

theorem Keeps.lateCommit {g : Sector} {s : State} (hs : s.groupState g = .venting) (ho : (s.sector g).group.isOpen = true) :
    Keeps s (lateCommit g s) := by
  have hs : (s.sector g).group.state = .venting := hs
  refine Keeps.trans ?_ (.of_same (Same.afterLateRise g s))
  refine .raiseElev s g _ _ (fun hk => ⟨?_, ?_⟩) ⟨rfl, rfl, rfl, rfl⟩
  · show SectorState.StrokeOk { s.sector g with group := (s.sector g).group.committedLate }
    simp [SectorState.StrokeOk, Group.committedLate, countStroke, hs]
  · show ((s.sector g).group.committedLate).openLen + (s.sector g).table.margin + _ ≤ (s.sector g).group.openLen + _
    rw [openLen_of_open ho, openLen_of_closed rfl]; omega

/-! ### ADJUST (R11) and ESTABLISH (R13) -/

/-- ADJUST passes at most the margin on to E. -/
theorem Keeps.adjustElev {g : Sector} {c : Nat} {s : State} (hc : c ≤ (s.sector g).table.margin) : Keeps s (adjustElev g c s) := by
  refine Keeps.trans ?_ (.of_same ((Repaced.rederive g _).same.trans (.passSet _ true)))
  rw [modTable_eq]
  refine .raiseElev s g _ _ (fun hk => ⟨⟨hk.1, hk.2.1, fun ho => ⟨(hk.2.2 ho).1, rfl⟩⟩, ?_⟩) ⟨rfl, rfl, rfl, rfl⟩
  show (s.sector g).group.openLen + 0 + c ≤ _
  omega

theorem inFlight_of_open {x : SectorState} (h : x.StrokeOk) (ho : x.group.isOpen = true) : x.group.state.inFlight = true := by
  rcases h.1.1 ho with h | h | ⟨h, -⟩ <;> rw [h] <;> rfl

theorem not_inFlight {s : State} (h : s.anyInFlight = false) (g : Sector) : (s.groupState g).inFlight = false := by
  have := List.any_eq_false.1 h g (mem_allSectors g)
  simpa using this

/-- ESTABLISH on a quiet deck, its elevation tested against the neighbours (R12). -/
theorem Keeps.establish {g : Sector} {e : Nat} {s : State} (hq : s.anyInFlight = false) (ht : s.establishTilts g (s.elevTaken e) = false) :
    Keeps s (s.modTable g fun r => { r with elev := some (s.elevTaken e), margin := 0 }) := by
  have hself : (s.modTable g fun r => { r with elev := some (s.elevTaken e), margin := 0 }).sector g =
      { s.sector g with table := { (s.sector g).table with elev := some (s.elevTaken e), margin := 0 } } := sector_modSector_self s g _
  refine .of_moved (g := g) rfl (fun k hk => sector_modSector_ne s _ hk) ?_ (fun hk => ?_) fun hs hl _ => ?_
  · rw [hself]; exact ⟨rfl, rfl, rfl⟩
  · rw [hself]; exact ⟨hk.1, hk.2.1, fun ho => ⟨(hk.2.2 ho).1, rfl⟩⟩
  · have hcl : (s.sector g).group.isOpen = false := by
      by_contra ho
      have hf := inFlight_of_open (hs g) (by simpa using ho)
      rw [show (s.sector g).group.state.inFlight = false from not_inFlight hq g] at hf
      cases hf
    have helev : (s.modTable g fun r => { r with elev := some (s.elevTaken e), margin := 0 }).elev g = s.elevTaken e := by
      simp [elev_eq, SectorState.elev, hself]
    have hreach : (s.modTable g fun r => { r with elev := some (s.elevTaken e), margin := 0 }).reach g = s.elevTaken e := by
      simp [reach_eq, SectorState.reach, SectorState.elev, hself, openLen_of_closed hcl]
    rw [helev, hreach]
    refine ⟨fun eg n hn en sn => ?_, ?_⟩
    · simp only [State.establishTilts, eg, Bool.true_and, List.any_eq_false] at ht
      simpa [en, sn] using ht n hn
    · obtain ⟨-, -, -, hheight⟩ := hl
      have : s.h10 ≤ 20000 ∧ 0 ≤ s.h10 := by simp only [State.h10]; omega
      simp only [State.elevTaken, clampInt]; omega

theorem Same.rebase (g : Sector) (s : State) : Same s (rebase g s) := by
  rw [Machine.rebase, modLayers_eq]
  exact Same.modSector s g _ fun _ => rfl

/-! ### The DECK and SECTOR writes (R4, R5, R172) -/

theorem le_maxOf {z : Int} {zs : List Int} (h : z ∈ zs) : z ≤ maxOf zs := by
  have base : ∀ (l : List Int) (a : Int), a ≤ l.foldl max a := by
    intro l
    induction l with
    | nil => exact fun a => Int.le_refl a
    | cons b l ih => exact fun a => (le_max_left a b).trans (ih _)
  have hmem : ∀ (l : List Int) (a : Int), z ∈ l → z ≤ l.foldl max a := by
    intro l
    induction l with
    | nil => intro a h; cases h
    | cons b l ih =>
      intro a h
      rcases List.mem_cons.1 h with rfl | h
      · exact (le_max_right a z).trans (base l _)
      · exact ih _ h
  exact hmem zs 0 h

theorem le_ceilMm (z : Int) : z ≤ 10 * (ceilMm z : Int) := by unfold ceilMm; omega

/-- What a DECK write's T is raised to covers every value it is raised over (R172). -/
theorem le_raisedTilt {s : State} {z : Int} (t : Nat) (h : z ∈ s.enabledLens ++ s.tiltGaps) : z ≤ 10 * (s.raisedTilt t : Int) := by
  have h1 := (le_maxOf h).trans (le_ceilMm _)
  have h2 : ceilMm (maxOf (s.enabledLens ++ s.tiltGaps)) ≤ s.raisedTilt t := le_max_right _ _
  omega

theorem mem_tiltGaps {s : State} {a b : Sector} (hb : b ∈ s.nbrSet a) (ea : s.enabled a = true) (sa : s.established a = true)
    (eb : s.enabled b = true) (sb : s.established b = true) : s.reach a - s.elev b ∈ s.tiltGaps :=
  List.mem_flatMap.2 ⟨a, List.mem_filter.2 ⟨mem_allSectors a, by simp [ea, sa]⟩,
    List.mem_map.2 ⟨b, List.mem_filter.2 ⟨hb, by simp [eb, sb]⟩, rfl⟩⟩

theorem mem_enabledLens {s : State} {g : Sector} (h : s.enabled g = true) : (s.len g : Int) ∈ s.enabledLens :=
  List.mem_map.2 ⟨g, List.mem_filter.2 ⟨mem_allSectors g, h⟩, rfl⟩

theorem Keeps.deckTaken (d : DeckBlock) (s : State) : Keeps s { s with deck := s.deckTaken d, deckWritten := true } := by
  refine ⟨id, fun _ ⟨_, _, h3, _⟩ => ⟨fun a b hb ea sa eb sb => ?_, fun g hg => ?_, h3, ?_⟩⟩
  · have h := le_raisedTilt (clampDeck d).tilt (List.mem_append_right _ (mem_tiltGaps (s := s) hb ea sa eb sb))
    show s.reach a ≤ s.elev b + 10 * ((s.deckTaken d).tilt : Int)
    simp only [State.deckTaken]; omega
  · have h := le_raisedTilt (clampDeck d).tilt (List.mem_append_left _ (mem_enabledLens (s := s) hg))
    show s.len g ≤ 10 * (s.deckTaken d).tilt
    simp only [State.deckTaken]; omega
  · simp only [State.deckTaken, clampDeck, clampNat]; omega

/-- What a SECTOR write leaves meets the tilt law, or it is refused (R4, R174). -/
theorem tiltHolds_iff {s : State} : s.tiltHolds = true ↔ ∀ a b, b ∈ s.nbrSet a → s.enabled a = true → s.established a = true →
    s.enabled b = true → s.established b = true → s.reach a ≤ s.elev b + s.t10 := by
  simp only [State.tiltHolds, List.all_eq_true, List.mem_filter, Bool.and_eq_true, Bool.or_eq_true, Bool.not_eq_true',
    decide_eq_true_eq, and_imp, Bool.and_eq_false_iff]
  constructor
  · intro h a b hb ea sa eb sb
    rcases h a (mem_allSectors a) ea sa b hb with (h | h) | h
    · simp [eb] at h
    · simp [sb] at h
    · exact h
  · intro h a _ ea sa b hb
    cases eb : s.enabled b <;> cases sb : s.established b <;> simp
    exact h a b hb ea sa eb sb

/-- A SECTOR write that is not refused: E, margin and group are kept, L is at most T. -/
theorem Steady.sectorTaken {s : State} {g : Sector} (f : SectorRec → SectorRec) (n : Nat)
    (hf : ∀ r, (f r).elev = r.elev ∧ (f r).margin = r.margin ∧ (f r).len = some n) (hn : n ≤ 10 * s.deck.tilt)
    (ht : (s.modTable g f).tiltHolds = true) : Steady s (s.modTable g f) := by
  have hsec : ∀ k, ((s.modTable g f).sector k).group = (s.sector k).group ∧ (s.modTable g f).stack k = s.stack k
      ∧ ((s.modTable g f).sector k).table.elev = (s.sector k).table.elev
      ∧ ((s.modTable g f).sector k).table.margin = (s.sector k).table.margin := by
    intro k
    simp only [State.stack, modTable_eq, sector_modSector]
    split
    · next e => subst e; exact ⟨rfl, rfl, (hf _).1, (hf _).2.1⟩
    · exact ⟨rfl, rfl, rfl, rfl⟩
  refine ⟨⟨fun hs k => ?_, fun _ ⟨_, h2, h3, h4⟩ => ⟨tiltHolds_iff.1 ht, fun k hk => ?_, fun k => ?_, h4⟩⟩,
    ⟨fun k => (hsec k).2.2.1, fun k => (hsec k).2.1⟩, rfl⟩
  · obtain ⟨k1, -, -, k4⟩ := hsec k
    have hk := hs k
    change ((s.modTable g f).sector k).StrokeOk
    simpa only [SectorState.StrokeOk, State.groupState, k1, k4] using hk
  · by_cases e : k = g
    · subst e
      simp only [State.len, modTable_eq, sector_modSector_self, (hf _).2.2, Option.getD_some]
      exact hn
    · simp only [State.enabled, State.len, modTable_eq, sector_modSector_ne s _ e] at hk ⊢
      exact h2 k hk
  · obtain ⟨k1, -, k3, k4⟩ := hsec k
    simp only [State.established, State.reach, State.elev, k1, k3, k4]
    exact h3 k

end Sys2Proof.Machine
end

