-- ==== Sys2Proof/Proofs/Requests.lean ====
section
/-! SUPPORT. The requests that keep the laws of strokes and tilt with every E and every stack, one lemma each. -/

namespace Sys2Proof.Machine

/-! ### The deck profile and the run parameters -/

theorem Same.noteClamped (c : Bool) (g : Option Sector) (s : State) : Same s (noteClamped c g s) := by
  unfold Machine.noteClamped; split
  · exact (Aside.enterAlert _ _ s).same
  · exact .refl s

theorem Same.unservedCheck (b s : State) : Same s (unservedCheck b s) := .forEach _ _ (fun _ t => (Aside.enterAlert _ _ t).same) s

theorem Same.handOnDeck (b s : State) : Same s (handOnDeck b s) := by
  have h1 : Same s (if b.deck.height ≠ s.deck.height then Machine.forEach (allSectors.filter fun g => s.established g) Machine.rebase s else s) := by
    split
    · exact .forEach _ _ (fun g t => .rebase g t) s
    · exact .refl s
  exact (h1.trans (.forEach allSectors _ (fun g t => (Repaced.rederive g t).same) _)).trans (.forEach _ _ (fun g t => .raiseBond g t) _)

/-- A DECK write keeps the laws, every E and every stack; the DECK block it changes. -/
theorem serveDeckWrite_keeps (d : DeckBlock) (s : State) : Keeps s (serveDeckWrite d s).1 ∧ Level s (serveDeckWrite d s).1 := by
  have hr : Keeps s s ∧ Level s s := ⟨.refl s, (Steady.refl s).toLevel⟩
  unfold serveDeckWrite; split
  · exact hr
  · dsimp only; split
    · exact hr
    · have h0 : Level s { s with deck := s.deckTaken d, deckWritten := true } := ⟨fun _ => rfl, fun _ => rfl⟩
      have h1 : Steady { s with deck := s.deckTaken d, deckWritten := true }
          (finish (completenessTest (noteClamped (decide (s.deckTaken d ≠ d)) none
            (handOnDeck s { s with deck := s.deckTaken d, deckWritten := true })))) :=
        (Steady.of_same (((Same.handOnDeck s _).trans (.noteClamped _ none _)).trans (Aside.completenessTest _).same)).trans (.finish _)
      exact ⟨(Keeps.deckTaken d s).trans h1.toKeeps, h0.trans h1.toLevel⟩

theorem Same.leaveQueue (g : Sector) (s : State) : Same s (leaveQueue g s) := .of_eq rfl rfl

theorem Same.changeEnable (g : Sector) (b : Bool) (s : State) : Same s (changeEnable g b s) := by
  unfold Machine.changeEnable; dsimp only; split
  · exact .modProbe s g _
  · exact ((Same.modProbe s g _).trans (Aside.abandonTries _ _).same).trans (.leaveQueue g _)

theorem Same.handOnSector (g : Sector) (b s : State) : Same s (handOnSector g b s) := by
  have h1 : Same s (if b.enabled g = s.enabled g then s else Machine.changeEnable g (s.enabled g) s) := by
    split
    · exact .refl s
    · exact .changeEnable g _ s
  exact (h1.trans (Repaced.rederive g _).same).trans (.unservedCheck b _)

/-- A SECTOR write that row 6 of R174 does not refuse meets the tilt law. -/
theorem tiltHolds_of_not_refused {g : Sector} {b : Bool} {n : Nat} {s s' : State} (h : sectorRefusal g b n s s' = none) :
    s'.tiltHolds = true := by
  unfold sectorRefusal at h
  split at h
  · cases h
  · split at h
    · cases h
    · split at h
      · cases h
      · split at h
        · cases h
        · next ht => simpa using ht

theorem Steady.takeSectorWrite (g : Sector) (ns : List Sector) (m : MixClass) (f : SectorFields) (s : State) :
    Steady s (takeSectorWrite g ns m f s).1 := by
  unfold Machine.takeSectorWrite; dsimp only; split
  · exact .refl s
  · next h =>
    have hw := Steady.sectorTaken
      (fun r => { r with
        enabled := decide (f.enable = 1), nbrs := ns, len := some (s.lenTaken f.len), written := true
        offset := clampInt (-5000) 5000 f.offset, mix := m })
      (s.lenTaken f.len) (fun r => ⟨rfl, rfl, rfl⟩) (Nat.min_le_right _ _) (tiltHolds_of_not_refused h)
    exact (hw.then (((Same.handOnSector g s _).trans (.noteClamped _ _ _)).trans (Aside.completenessTest _).same)).trans (.finish _)

theorem Steady.serveSectorWrite (i : Nat) (f : SectorFields) (s : State) : Steady s (serveSectorWrite i f s).1 := by
  unfold Machine.serveSectorWrite; split
  · exact .refl s
  · split
    · split
      · exact .refl s
      · split
        · exact .refl s
        · exact .takeSectorWrite _ _ _ f s
    · exact .refl s

theorem Steady.serveSweepWrite (f : SweepFields) (s : State) : Steady s (serveSweepWrite f s).1 := by
  unfold Machine.serveSweepWrite; split
  · exact .refl s
  · split
    · next order mode _ _ =>
      split
      · exact .refl s
      · have h : Same s { s with sweep := { written := true, order := order, start := f.start, mode := mode }, queue := [], sweepCount := 0, lastSweep := none } :=
          .of_eq rfl rfl
        exact (Steady.of_same (h.trans (Aside.completenessTest _).same)).trans (.finish _)
    · exact .refl s

theorem serveProfileRead_state (b i : Nat) (s : State) : (serveProfileRead b i s).1 = s := by
  unfold serveProfileRead; split
  · rfl
  · split <;> rfl
  · split <;> rfl
  · rfl
  · rfl

theorem Steady.serveSetRate (n : Nat) (s : State) : Steady s (serveSetRate n s).1 := by
  have h : ∀ r, Same s (takeRate n r s) := by
    intro r
    unfold takeRate; split
    · exact .refl s
    · exact Same.trans (t := { s with rate := r }) (.of_eq rfl rfl) (.forEach _ _ (fun g t => .modPace t g _) _)
  exact .of_same ((h _).trans (.noteClamped _ _ _))

theorem Steady.serveSetGoal (n : Nat) (s : State) : Steady s (serveSetGoal n s).1 := by
  have h : ∀ v, Same s (Machine.forEach allSectors updateGoal { s with goal := v }) := fun v =>
    Same.trans (t := { s with goal := v }) (.of_eq rfl rfl) (.forEach _ _ (fun g t => (Repaced.updateGoal g t).same) _)
  exact (Steady.of_same (((h _).trans (Repaced.goalTest _).same).trans (.noteClamped _ _ _))).trans (.finish _)

theorem Steady.serveSetPlane (n : Nat) (s : State) : Steady s (serveSetPlane n s).1 :=
  .of_same (Same.trans (t := { s with plane := clampNat 0 2500000 n }) (.of_eq rfl rfl) (.noteClamped _ _ _))

theorem Steady.serveSetCreepSet (gs : List Nat) (s : State) : Steady s (serveSetCreepSet gs s).1 := by
  unfold Machine.serveSetCreepSet; split
  · exact .refl s
  · next set _ =>
    split
    · exact .refl s
    · have h : Same s { s with creepSet := sectorSet set } := .of_eq rfl rfl
      have h' : Same s { s with creepSet := sectorSet set, creepList := s.creepList.filter fun e => (sectorSet set).contains e.sector } :=
        .of_eq rfl rfl
      dsimp only
      refine Steady.trans (.of_same ?_) (.finish _)
      split
      · exact h'.trans (Repaced.raiseDemands _).same
      · exact h

/-! ### Flags, faults, modes, the survey and trims -/

theorem Steady.serveClearFlags (n : Nat) (b : Byte) (s : State) : Steady s (serveClearFlags n b s).1 := by
  unfold Machine.serveClearFlags; split
  · exact .of_same (.forEach _ _ (fun g t => .modFlags t g _) s)
  · split
    · exact .refl s
    · next g _ => exact .of_same (Same.modFlags s g fun f => f.clear b)

theorem Steady.serveClearFault (n : Nat) (s : State) : Steady s (serveClearFault n s).1 := by
  unfold Machine.serveClearFault; split
  · exact .refl s
  · split
    · exact .refl s
    · split
      · exact .refl s
      · dsimp only; split
        · next h => exact (Steady.clearFault h).trans (.finish _)
        · exact .refl s

theorem Steady.serveStart (s : State) : Steady s (serveStart s).1 := by
  have h : Steady s (Machine.finish (enterClimb s)) := (Steady.of_same (Repaced.enterClimb s).same).trans (.finish _)
  unfold Machine.serveStart; split
  · exact h
  · exact h
  all_goals exact .refl s

theorem Steady.finishHold (s : State) : Steady s (Machine.finish (enterHold s)) := (Steady.of_same (Repaced.enterHold s).same).trans (.finish _)

theorem Steady.finishStandby (s : State) : Steady s (Machine.finish (enterStandby s)) := (Steady.of_same (Aside.enterStandby s).same).trans (.finish _)

theorem Steady.serveHold (s : State) : Steady s (serveHold s).1 := by
  unfold Machine.serveHold; split
  · exact .finishHold s
  all_goals exact .refl s

theorem Steady.servePark (s : State) : Steady s (servePark s).1 := by
  unfold Machine.servePark; split
  · split
    · exact .refl s
    · exact .finishStandby s
  all_goals exact .refl s

theorem Steady.enterHalt (s : State) : Steady s (enterHalt s) := by
  have h1 : Steady s (Machine.stallTo 0 { s with mode := .halt, beforeHalt := some s.mode }) :=
    Steady.trans (t := { s with mode := .halt, beforeHalt := some s.mode }) (.of_same (.of_eq rfl rfl)) (.stallTo 0 _)
  have h2 : ∀ u, Same u (if s.mode = .climb then stopCounters u else u) := by
    intro u; split
    · exact (Repaced.stopCounters u).same
    · exact .refl u
  have h3 : ∀ u, Same u (if s.mode = .survey then stopSurvey u else u) := by
    intro u; split
    · exact (Aside.stopSurvey u).same
    · exact .refl u
  exact h1.then (((h2 _).trans (h3 _)).trans (.passSet _ _))

theorem Steady.serveStop (s : State) : Steady s (serveStop s).1 := by
  have h : Steady s (Machine.finish (Machine.enterHalt s)) := (Steady.enterHalt s).trans (.finish _)
  unfold Machine.serveStop; split
  iterate 4 · exact h
  all_goals exact .refl s

theorem Steady.serveResume (s : State) : Steady s (serveResume s).1 := by
  unfold Machine.serveResume; split
  · unfold leaveHalt; split
    iterate 2 · exact .finishHold s
    iterate 2 · exact .finishStandby s
    all_goals exact .refl s
  all_goals exact .refl s

theorem Steady.serveSurveyStart (s : State) : Steady s (serveSurveyStart s).1 := by
  unfold Machine.serveSurveyStart; split
  · exact .refl s
  · split
    · exact .refl s
    · exact (Steady.of_same (Aside.beginSurvey s).same).trans (.finish _)

theorem Steady.serveEndSurvey (s : State) : Steady s (serveEndSurvey s).1 := by
  unfold Machine.serveEndSurvey; split
  · exact .refl s
  · split
    · exact .refl s
    · exact (Steady.of_same (Aside.endSurvey s).same).trans (.finish _)

theorem Steady.serveTrimSector (n : Nat) (s : State) : Steady s (serveTrimSector n s).1 := by
  unfold Machine.serveTrimSector; split
  · exact .refl s
  · split
    · exact .refl s
    · exact .of_same (Aside.askTrim _ s).same

/-! ### The read cursor, the arbitration tables and the reports -/

theorem Same.serveSetCursor (g p : Nat) (s : State) : Same s (serveSetCursor g p s).1 := by
  unfold Machine.serveSetCursor; split
  · split
    · exact .of_eq rfl rfl
    · exact .refl s
  · exact .refl s

theorem Same.serveReadLayer (s : State) : Same s (serveReadLayer s).1 := by
  unfold Machine.serveReadLayer; split
  · exact .refl s
  · split
    · exact .refl s
    · unfold advanceCursor; dsimp only; split <;> exact .of_eq rfl rfl

theorem serveReadLog_state (i n : Nat) (s : State) : (serveReadLog i n s).1 = s := by
  unfold serveReadLog; split
  · rfl
  · dsimp only; split <;> rfl

theorem Same.serveWriteTable (xs : List Nat) (s : State) : Same s (serveWriteTable xs s).1 := by
  unfold Machine.serveWriteTable; split
  · exact .refl s
  · split
    · exact .refl s
    · exact .of_eq rfl rfl

theorem Steady.serveLoadTable (s : State) : Steady s (serveLoadTable s).1 := by
  unfold Machine.serveLoadTable; split
  · exact .refl s
  · have h : Same s { s with loadPending := true } := .of_eq rfl rfl
    exact (Steady.of_same (h.trans (Repaced.checkLoad _).same)).trans (.finish _)

theorem serveReadTable_state (n : Nat) (s : State) : (serveReadTable n s).1 = s := by
  unfold serveReadTable; split <;> rfl

theorem serveReadFeed_state (p g : Nat) (s : State) : (serveReadFeed p g s).1 = s := by
  unfold serveReadFeed; split
  · rfl
  · split <;> rfl

theorem serveSectorStatus_state (g : Nat) (s : State) : (serveSectorStatus g s).1 = s := by
  unfold serveSectorStatus; split <;> rfl

theorem serveReadAlerts_state (i n : Nat) (s : State) : (serveReadAlerts i n s).1 = s := by
  unfold serveReadAlerts; split
  · rfl
  · dsimp only; split <;> rfl

theorem Same.serveAckAlerts (n : Nat) (s : State) : Same s (serveAckAlerts n s).1 := .of_eq rfl rfl

/-! ### The supply and the feed scheduler -/

theorem Steady.serveSupplyState (m k : Nat) (p : Option Nat) (s : State) : Steady s (serveSupplyState m k p s).1 := by
  have h : ∀ st cap pr, Steady s (takeReport st cap pr s) := by
    intro st cap pr
    have h1 : Same s { s with supply := { state := st, cap := cap, pressure := pr, lapse := 0, lapseRunning := true } } := .of_eq rfl rfl
    exact ((Steady.of_same h1).trans (.stallTo _ _)).then (.passSet _ _)
  unfold Machine.serveSupplyState; split
  · exact .refl s
  · exact (h _ _ _).trans (.finish _)

theorem Same.issueTicket (l : FeedLine) (g : Sector) (s : State) : Same s (issueTicket l g s) :=
  (Same.setTicket s g (some (s.newTicket l g))).trans (.of_eq rfl rfl)

theorem Same.feedWalk (l : FeedLine) (gs : List Sector) (n : Nat) (s : State) : Same s (feedWalk l gs n s).1 := by
  induction gs generalizing n s with
  | nil => cases n <;> exact .refl s
  | cons g gs ih =>
    cases n with
    | zero => exact .refl s
    | succ n =>
      unfold Machine.feedWalk; split
      · exact (Same.issueTicket l g s).trans (ih n _)
      · exact ih _ s

theorem Same.serveRequestFeed (l n : Nat) (s : State) : Same s (serveRequestFeed l n s).1 := by
  unfold Machine.serveRequestFeed; split
  · exact .refl s
  · split
    · exact .refl s
    · have h1 : Same s (if s.queue.isEmpty then buildSweep s else s) := by
        split
        · exact .of_eq rfl rfl
        · exact .refl s
      unfold feedFrom; dsimp only
      generalize (if s.queue.isEmpty then buildSweep s else s) = u at h1 ⊢
      split
      · exact h1
      · exact h1.trans (.feedWalk _ _ _ _)

theorem Same.dropNamed (t : Named) (s : State) : Same s (dropNamed t s) := by
  unfold Machine.dropNamed; split
  · exact .of_eq rfl rfl
  · exact .setTicket s _ _

theorem Same.serveAbandon (n : Nat) (s : State) : Same s (serveAbandon n s).1 := by
  unfold Machine.serveAbandon; split
  · exact .refl s
  · next t _ =>
    dsimp only; split
    · exact .dropNamed t s
    · exact (Same.dropNamed t s).trans (.of_eq rfl rfl)

theorem Same.noteLate (t : Named) (s : State) : Same s (noteLate t s) := by
  unfold Machine.noteLate; split
  · exact (Aside.enterAlert _ _ s).same
  · exact .refl s

theorem Same.placeRefused (t : Named) (s : State) : Same s (placeRefused t s).1 := by
  have h1 : Same s (Machine.leaveQueue t.sector (Machine.dropNamed t s)) := (Same.dropNamed t s).trans (.leaveQueue _ _)
  exact ((h1.trans (.modFlags _ _ _)).trans (.noteLate t _)).trans (Aside.enterAlert _ _ _).same

theorem serveTicketQuery_state (n : Nat) (s : State) : (serveTicketQuery n s).1 = s := by
  unfold serveTicketQuery; split
  · rfl
  · split <;> rfl

end Sys2Proof.Machine
end

