-- ==== Sys2Proof/Proofs/Orders.lean ====
section
/-! SUPPORT. What the arbiter's orders can do to a group (R89, R97, R98, R110), and what a commit leaves in it (R91, R93). -/

namespace Sys2Proof.Machine

/-! ### Groups under the arbiter's orders -/

/-- What orders of the arbiter can make of a group: an IDLE one may be granted, a group PRESSURIZING or STALLED stays one of the two with its stroke as it is, every other group is left alone. -/
def Group.Ordered (r r' : Group) : Prop :=
  r'.strokes = r.strokes ∧
  match r.state with
  | .idle => True
  | .pressurizing => (r'.state = .pressurizing ∨ r'.state = .stalled) ∧ r'.isOpen = r.isOpen ∧ r'.latched = r.latched
  | .stalled => (r'.state = .pressurizing ∨ r'.state = .stalled) ∧ r'.isOpen = r.isOpen ∧ r'.latched = r.latched
  | .holding => r' = r
  | .venting => r' = r
  | .fault => r' = r

theorem Group.Ordered.refl (r : Group) : r.Ordered r := by
  refine ⟨rfl, ?_⟩
  cases h : r.state <;> simp

theorem Group.Ordered.trans {r r' r'' : Group} (h : r.Ordered r') (k : r'.Ordered r'') : r.Ordered r'' := by
  obtain ⟨h1, h2⟩ := h
  obtain ⟨k1, k2⟩ := k
  refine ⟨k1.trans h1, ?_⟩
  cases hs : r.state <;> simp only [hs] at h2 ⊢
  case pressurizing | stalled =>
    obtain ⟨h3, h4, h5⟩ := h2
    rcases h3 with h3 | h3 <;> simp only [h3] at k2 <;> exact ⟨k2.1, k2.2.1.trans h4, k2.2.2.trans h5⟩
  all_goals
    subst h2
    simp only [hs] at k2
    exact k2

/-- A group in flight stays in flight, and its stroke as it is. -/
theorem Group.Ordered.inFlight {r r' : Group} (h : r.Ordered r') (hf : r.state.inFlight = true) :
    r'.state.inFlight = true ∧ r'.isOpen = r.isOpen ∧ r'.latched = r.latched := by
  obtain ⟨-, h⟩ := h
  cases hs : r.state <;> simp only [hs] at h hf
  case idle => cases hf
  case pressurizing | stalled =>
    obtain ⟨h1, h2, h3⟩ := h
    refine ⟨?_, h2, h3⟩
    rcases h1 with h1 | h1 <;> rw [h1] <;> rfl
  case holding | venting => subst h; exact ⟨by rw [hs]; rfl, rfl, rfl⟩
  case fault => cases hf

/-- From s to t the groups have had orders of the arbiter alone, and the margins are kept. -/
structure Orders (s t : State) : Prop where
  margin : ∀ g, (t.sector g).table.margin = (s.sector g).table.margin
  group : ∀ g, (s.sector g).group.Ordered (t.sector g).group

theorem Orders.of_same {s t : State} (h : Same s t) : Orders s t := by
  refine ⟨fun g => (h.figures g).2.2.2.2.1, fun g => ?_⟩
  rw [(h.figures g).2.2.2.2.2.2]
  exact .refl _

theorem Orders.refl (s : State) : Orders s s := .of_same (.refl s)

theorem Orders.trans {s t u : State} (h : Orders s t) (k : Orders t u) : Orders s u :=
  ⟨fun g => (k.margin g).trans (h.margin g), fun g => (h.group g).trans (k.group g)⟩

theorem Orders.modGroup (s : State) (g : Sector) (f : Group → Group) (h : (s.sector g).group.Ordered (f (s.sector g).group)) :
    Orders s (s.modGroup g f) := by
  refine ⟨fun k => ?_, fun k => ?_⟩ <;> rw [modGroup_eq, sector_modSector] <;> split
  · next e => subst e; rfl
  · rfl
  · next e => subst e; exact h
  · exact .refl _

theorem Orders.stallGroup (g : Sector) (s : State) : Orders s (stallGroup g s) := by
  unfold Machine.stallGroup; split
  · next h =>
    have h : (s.sector g).group.state = .pressurizing := h
    exact .modGroup s g _ ⟨rfl, by simp [h]⟩
  · exact .refl s

theorem Orders.stallTo (k : Nat) (s : State) : Orders s (stallTo k s) :=
  forEach_keeps (P := Orders s) _ _ (fun g _ h => h.trans (.stallGroup g _)) s (.refl s)

theorem Same.grant (g : Sector) (kind : StrokeKind) (s : State) :
    Same (s.modGroup g fun r => r.granted (s.len g) s.deck.window kind) (grant g kind s) :=
  Same.trans (t := { s.modGroup g (fun r => r.granted (s.len g) s.deck.window kind) with pressureOrder := s.pressureOrder ++ [g] })
    (.of_eq rfl rfl) (Aside.grant g kind s).same

theorem Orders.grant {s : State} {g : Sector} (kind : StrokeKind) (h : s.grantable g = true) : Orders s (grant g kind s) := by
  have hidle : (s.sector g).group.state = .idle := (grantable_iff.1 h).2.1
  have h1 : Orders s (s.modGroup g fun r => r.granted (s.len g) s.deck.window kind) := .modGroup s g _ ⟨rfl, by simp [hidle]⟩
  exact h1.trans (.of_same (.grant g kind s))

theorem Orders.finish (s : State) : Orders s (finish s) := by
  have same : ∀ {u v : State}, v.deck = u.deck → v.sectors = u.sectors → Orders u v := fun h1 h2 => .of_same (.of_eq h1 h2)
  refine finish_induct (R := Orders) .refl .trans (fun s => ?_) (fun s => same rfl rfl) s
  refine serveOne_induct (R := Orders) .refl .trans (fun s g h => ?_) (fun s g kind _ h => .grant kind h)
    (fun s g _ h => ?_) (fun s g _ => ?_) (fun s a j l => same rfl rfl) s
  · have h : (s.sector g).group.state = .stalled := stalled_of_mem h
    exact .modGroup s g _ ⟨rfl, by simp [h]⟩
  · exact Orders.trans (t := { s with surveyReq := none }) (same rfl rfl) (.grant (s := { s with surveyReq := none }) .survey h)
  · exact Orders.trans (t := { s with surveyReq := none }) (same rfl rfl) (.of_same (Aside.visitBlocked g _).same)

theorem Orders.takeLapse (s : State) : Orders s (takeLapse s) := by
  unfold Machine.takeLapse; split
  · have h : Same s { s with due := { s.due with lapse := false }, supply := { s.supply with state := .lapsed, lapseRunning := false } } :=
      .of_eq rfl rfl
    exact ((Orders.of_same h).trans (.stallTo 0 _)).trans (.of_same (Aside.enterAlert _ _ _).same)
  · exact .refl s

/-- What a command first completes gives orders of the arbiter alone (log 2). -/
theorem Orders.settleDue (s : State) : Orders s (settleDue s) := by
  unfold Machine.settleDue; split
  · exact .refl s
  · have h := ((Same.takeAging s).trans (.takeExpiry _)).trans (.takeBond _)
    exact (((Orders.of_same h).trans (.takeLapse _)).trans (.of_same ((Same.takeDwell _).trans (.takePace _)))).trans (.finish _)

/-- With no group in flight at the end, none was in flight before. -/
theorem Orders.anyInFlight {s t : State} (h : Orders s t) (ht : t.anyInFlight = false) : s.anyInFlight = false := by
  refine List.any_eq_false.2 fun g _ => ?_
  intro hf
  have := ((h.group g).inFlight hf).1
  rw [show (t.sector g).group.state.inFlight = false from not_inFlight ht g] at this
  cases this

/-! ### What a commit leaves in its group -/

theorem makeResult_group (g : Sector) (kind : TrimKind) (s : State) (h : Sector) :
    ((makeResult g kind s).sector h).group = (s.sector h).group := by
  have h1 : ∀ c n d, Same s (closeTrim g kind c (writeResult g kind c n d s)) := fun c n d =>
    ((Aside.writeResult g kind c n d s).trans (.closeTrim g kind c _)).same
  unfold makeResult; dsimp only; split
  · exact ((h1 _ _ _).figures h).2.2.2.2.2.2
  · rw [((Repaced.rederive g _).same.figures h).2.2.2.2.2.2, modTable_eq, sector_modSector]
    split
    · next e => subst e; exact ((h1 _ _ _).figures h).2.2.2.2.2.2
    · exact ((h1 _ _ _).figures h).2.2.2.2.2.2

theorem endSettle_group (g : Sector) (s : State) (h : Sector) : ((endSettle g s).sector h).group = (s.sector h).group := by
  unfold endSettle; dsimp only; split
  · rw [makeResult_group]; rfl
  · rfl

/-- The group of a stroke that commits in time (R91), at a settle time of 0 already VENTING (R93). -/
def Group.afterCommit (r : Group) (d : DeckBlock) : Group :=
  if d.settle = 0 then { r.committed d.settle with state := .venting, timer := some ⟨.vent, d.vent⟩ } else r.committed d.settle

theorem commit_group (g : Sector) (s : State) : ((commit g s).sector g).group = (s.sector g).group.afterCommit s.deck := by
  have hb : ((beforeRise g s).sector g).group = (s.sector g).group.committed s.deck.settle := by
    rw [beforeRise, modGroup_eq, sector_modSector_self]; rfl
  have hs : Same (raiseElev g (((beforeRise g s).sector g).group.latched.getD 0) (beforeRise g s))
      { startAfter g (commitRise g (beforeRise g s)) with passDue := true } :=
    ((Same.commitRise g _).trans (Aside.startAfter g _).same).trans (.passSet _ _)
  have hg : (({ startAfter g (commitRise g (beforeRise g s)) with passDue := true } : State).sector g).group
      = (s.sector g).group.committed s.deck.settle := by
    rw [(hs.figures g).2.2.2.2.2.2, sector_raiseElev_self, ← hb]; rfl
  have hd : ({ startAfter g (commitRise g (beforeRise g s)) with passDue := true } : State).deck = s.deck := by
    rw [hs.deck, raiseElev_deck]; rfl
  rw [commit_eq, Group.afterCommit]
  generalize ({ startAfter g (commitRise g (beforeRise g s)) with passDue := true } : State) = u at hg hd
  split
  · have hold : u.groupState g = .holding := by rw [State.groupState, hg]; rfl
    unfold settleExpiry
    rw [if_pos hold, endSettle_group, modGroup_eq, sector_modSector_self, hd]
    dsimp only
    rw [hg]
  · exact hg

theorem lateCommit_group (g : Sector) (s : State) : ((lateCommit g s).sector g).group = (s.sector g).group.committedLate := by
  rw [((Same.afterLateRise g s).figures g).2.2.2.2.2.2, sector_raiseElev_self, modGroup_eq, sector_modSector_self]; rfl

theorem afterCommit_state (r : Group) (d : DeckBlock) :
    ((r.afterCommit d).state = .holding ∨ (r.afterCommit d).state = .venting) ∧ (r.afterCommit d).isOpen = false
      ∧ (r.afterCommit d).latched = r.latched := by
  unfold Group.afterCommit; split
  · exact ⟨.inr rfl, rfl, rfl⟩
  · exact ⟨.inl rfl, rfl, rfl⟩

end Sys2Proof.Machine
end

