-- ==== Sys2Proof/Proofs/Effects.lean ====
section
/-! SUPPORT. Everything a command can do to elevations and stacks, one case per cause; every command but power-on reset keeps the laws of strokes and tilt and has one of these effects. -/

namespace Sys2Proof.Machine

/-! ### The effects -/

/-- What became of the elevations and stacks from s to t, by its cause. `A k r` says that a request of kind k was answered r. -/
inductive Effect (A : ReqKind → Reply → Prop) (s t : State) : Prop
  /-- nothing -/
  | level (h : Level s t)
  /-- the minute event or a MIX write: layers have matured (R51 to R53) -/
  | cures (he : ∀ g, (t.sector g).table.elev = (s.sector g).table.elev)
      (hl : ∀ g, (∀ l ∈ s.stack g, l.maturity ≤ 65535) → List.Forall₂ Layer.Later (s.stack g) (t.stack g))
  /-- PLACED or LAYER RESTORE: a layer has joined (R19, R34) -/
  | joins (g : Sector) (l : Layer) (he : ∀ h, (t.sector h).table.elev = (s.sector h).table.elev)
      (hl : ∀ h, t.stack h = if h = g then s.stack h ++ [l] else s.stack h)
  /-- a stroke has committed (R7) -/
  | commits (g : Sector) (hr : Raised g ((s.sector g).group.latched.getD 0) s t)
      (ho : StrokeLaw s → (s.sector g).group.isOpen = true)
      (hg : (t.sector g).group.latched = (s.sector g).group.latched ∧ (t.sector g).group.isOpen = false
        ∧ (t.sector g).group.state.inFlight = true)
  /-- ADJUST (R11) -/
  | adjusts (g : Sector) (c : Nat) (limited : Bool) (hr : Raised g c s t) (hm : c ≤ (s.sector g).table.margin ∧ (t.sector g).table.margin = 0)
      (ha : A .adjust ⟨okOr limited, figB c ++ elevB (t.elev g)⟩)
  /-- ESTABLISH (R13) -/
  | establishes (g : Sector) (e : Int) (limited : Bool)
      (he : (t.sector g).table.elev = some e ∧ (t.sector g).table.margin = 0 ∧ ∀ h, h ≠ g → (t.sector h).table.elev = (s.sector h).table.elev)
      (hl : ∀ h, t.stack h = s.stack h) (hq : s.stack g = [] ∧ s.anyInFlight = false)
      (ha : A .establish ⟨okOr limited, elevB e⟩)

theorem Effect.mono {A B : ReqKind → Reply → Prop} {s t : State} (h : Effect A s t) (hAB : ∀ k r, A k r → B k r) : Effect B s t := by
  cases h with
  | level h => exact .level h
  | cures he hl => exact .cures he hl
  | joins g l he hl => exact .joins g l he hl
  | commits g hr ho hg => exact .commits g hr ho hg
  | adjusts g c b hr hm ha => exact .adjusts g c b hr hm (hAB _ _ ha)
  | establishes g e b he hl hq ha => exact .establishes g e b he hl hq (hAB _ _ ha)

theorem Same.level {s t : State} (h : Same s t) : Level s t := (Steady.of_same h).toLevel

/-- What comes after a command's effect, orders of the arbiter included, adds nothing to it. -/
theorem Effect.after {A : ReqKind → Reply → Prop} {s t u : State} (h : Effect A s t) (k : Steady t u) (o : Orders t u) : Effect A s u := by
  cases h with
  | level h => exact .level (h.trans k.toLevel)
  | cures he hc => exact .cures (fun g => by rw [k.elev, he]) fun g => by rw [k.stack]; exact hc g
  | joins g l he hj => exact .joins g l (fun i => by rw [k.elev, he]) fun i => by rw [k.stack, hj]
  | commits g hr ho hg =>
    obtain ⟨h1, h2, h3⟩ := hg
    obtain ⟨k1, k2, k3⟩ := (o.group g).inFlight h3
    exact .commits g (hr.after k.deck k.toLevel) ho ⟨k3.trans h1, k2.trans h2, k1⟩
  | adjusts g c b hr hm ha =>
    refine .adjusts g c b (hr.after k.deck k.toLevel) ⟨hm.1, by rw [o.margin]; exact hm.2⟩ ?_
    rw [State.elev, k.elev]; exact ha
  | establishes g e b he hs hq ha =>
    refine .establishes g e b ⟨by rw [k.elev]; exact he.1, by rw [o.margin]; exact he.2.1, fun i hi => ?_⟩
      (fun i => by rw [k.stack, hs]) hq ha
    rw [k.elev]; exact he.2.2 i hi

/-- What comes before a command's effect takes nothing from it, so long as it leaves levels, margins and the group's stroke alone. -/
theorem Effect.behind {A : ReqKind → Reply → Prop} {s t u : State} (k : Steady s t)
    (hm : ∀ g, (t.sector g).table.margin = (s.sector g).table.margin)
    (hg : ∀ g, (t.sector g).group.latched = (s.sector g).group.latched ∧ (t.sector g).group.isOpen = (s.sector g).group.isOpen
      ∧ t.groupState g = s.groupState g) (h : Effect A t u) : Effect A s u := by
  have hl := k.toLevel
  cases h with
  | level h => exact .level (hl.trans h)
  | cures he hc =>
    refine .cures (fun g => by rw [he, hl.elev]) fun g hm => ?_
    rw [← hl.stack] at hm ⊢; exact hc g hm
  | joins g l he hj => exact .joins g l (fun i => by rw [he, hl.elev]) fun i => by rw [hj, hl.stack]
  | commits g hr ho hc =>
    obtain ⟨g1, g2, -⟩ := hg g
    rw [g1] at hr hc; rw [g2] at ho
    exact .commits g (.before hl hr) (fun hs => ho (k.stroke hs)) hc
  | adjusts g c b hr hc ha =>
    rw [hm] at hc
    exact .adjusts g c b (.before hl hr) hc ha
  | establishes g e b he hs hq ha =>
    have hf : t.anyInFlight = s.anyInFlight := by simp only [State.anyInFlight, (hg _).2.2]
    rw [hl.stack, hf] at hq
    exact .establishes g e b ⟨he.1, he.2.1, fun i hi => by rw [he.2.2 i hi, hl.elev]⟩ (fun i => by rw [hs, hl.stack]) hq ha

theorem Effect.before {A : ReqKind → Reply → Prop} {s t u : State} (k : Same s t) (h : Effect A t u) : Effect A s u := by
  refine h.behind (.of_same k) (fun g => (k.figures g).2.2.2.2.1) fun g => ?_
  rw [State.groupState, (k.figures g).2.2.2.2.2.2]
  exact ⟨rfl, rfl, rfl⟩

/-- A command's claim here: it keeps the laws, and has one of the effects. -/
structure Does (A : ReqKind → Reply → Prop) (s t : State) : Prop extends Keeps s t where
  effect : Effect A s t

theorem Does.of_steady {A : ReqKind → Reply → Prop} {s t : State} (h : Steady s t) : Does A s t := ⟨h.toKeeps, .level h.toLevel⟩

theorem Does.of_same {A : ReqKind → Reply → Prop} {s t : State} (h : Same s t) : Does A s t := .of_steady (.of_same h)

theorem Does.of_eq {A : ReqKind → Reply → Prop} {s t : State} (h : t = s) : Does A s t := .of_same (h ▸ .refl t)

theorem Does.after {A : ReqKind → Reply → Prop} {s t u : State} (h : Does A s t) (k : Same t u) : Does A s u :=
  ⟨h.toKeeps.trans (.of_same k), h.effect.after (.of_same k) (.of_same k)⟩

theorem Does.finish {A : ReqKind → Reply → Prop} {s t : State} (h : Does A s t) : Does A s (finish t) :=
  ⟨h.toKeeps.trans (Steady.finish t).toKeeps, h.effect.after (.finish t) (.finish t)⟩

theorem Does.before {A : ReqKind → Reply → Prop} {s t u : State} (k : Same s t) (h : Does A t u) : Does A s u :=
  ⟨(Keeps.of_same k).trans h.toKeeps, .before k h.effect⟩

theorem Does.mono {A B : ReqKind → Reply → Prop} {s t : State} (h : Does A s t) (hAB : ∀ k r, A k r → B k r) : Does B s t :=
  ⟨h.toKeeps, h.effect.mono hAB⟩

/-! ### Layers that mature and layers that join -/

/-- Where sector tables and groups are kept, so are the laws of strokes and tilt. -/
theorem Keeps.of_plain {s t : State} (hd : t.deck = s.deck)
    (h : ∀ g, (t.sector g).table = (s.sector g).table ∧ (t.sector g).group = (s.sector g).group) : Keeps s t := by
  refine .of_settles hd fun g hg => ?_
  obtain ⟨h1, h2⟩ := h g
  simp only [SectorState.StrokeOk, h1, h2]
  exact ⟨hg, by rw [h1], by rw [h1], by rw [h1], by simp only [SectorState.elev, h1, Int.le_refl],
    by simp only [SectorState.reach, SectorState.elev, h1, h2, Int.le_refl], .inl (by rw [h1])⟩

theorem later_refl (l : Layer) : l.Later l := ⟨rfl, Nat.le_refl _, id⟩

theorem later_markReady (mixes : Vector MixBlock 8) (l : Layer) : l.Later (markReady mixes l) := by
  unfold markReady; split
  · exact ⟨rfl, Nat.le_refl _, fun _ => rfl⟩
  · exact later_refl l

theorem later_cure {l : Layer} (n : Nat) (h : l.maturity ≤ 65535) : l.Later (cure n l) :=
  ⟨rfl, by show l.maturity ≤ min 65535 (l.maturity + n); omega, id⟩

theorem Layer.Later.trans {l m n : Layer} (h : l.Later m) (k : m.Later n) : l.Later n := by
  obtain ⟨h1, h2, h3⟩ := h
  obtain ⟨k1, k2, k3⟩ := k
  exact ⟨by rw [k1, h1], h2.trans k2, fun hr => k3 (h3 hr)⟩

theorem forall₂_map_later {f : Layer → Layer} {ls : List Layer} (h : ∀ l ∈ ls, l.Later (f l)) : List.Forall₂ Layer.Later ls (ls.map f) := by
  rw [List.forall₂_map_right_iff, List.forall₂_same]
  exact h

/-- The step from s to t keeps the laws and the elevations, and its layers have matured. -/
structure Cures (s t : State) : Prop extends Keeps s t where
  elev : ∀ g, (t.sector g).table.elev = (s.sector g).table.elev
  later : ∀ g, (∀ l ∈ s.stack g, l.maturity ≤ 65535) → List.Forall₂ Layer.Later (s.stack g) (t.stack g)

theorem Cures.after {s t u : State} (h : Cures s t) (k : Steady t u) : Cures s u :=
  ⟨h.toKeeps.trans k.toKeeps, fun g => (k.elev g).trans (h.elev g), fun g => by rw [k.stack]; exact h.later g⟩

theorem Cures.before {s t u : State} (k : Steady s t) (h : Cures t u) : Cures s u :=
  ⟨k.toKeeps.trans h.toKeeps, fun g => (h.elev g).trans (k.elev g), fun g => by rw [← k.stack]; exact h.later g⟩

theorem Does.of_cures {A : ReqKind → Reply → Prop} {s t : State} (h : Cures s t) : Does A s t := ⟨h.toKeeps, .cures h.elev h.later⟩

/-- The integration of a minute: every layer later, nothing else of a sector touched (R51, R52). -/
theorem Cures.integrate (s : State) : Cures s (integrate s) := by
  have hd : Cures s (s.mapSectors fun x => if x.table.enabled then { x with layers := { x.layers with
      stack := x.layers.stack.map fun l =>
        let l' := cure (increment x.probe.temp) l
        if l'.flags.ready then l' else markReady s.mixes l' } } else x) := by
    refine ⟨.of_plain rfl fun g => ?_, fun g => ?_, fun g hm => ?_⟩
    · rw [sector_mapSectors]; split <;> exact ⟨rfl, rfl⟩
    · rw [sector_mapSectors]; split <;> rfl
    · rw [State.stack, State.stack, sector_mapSectors]
      split
      · refine forall₂_map_later fun l hl => ?_
        have hc := later_cure (increment (s.sector g).probe.temp) (hm l hl)
        dsimp only; split
        · exact hc
        · exact hc.trans (later_markReady _ _)
      · exact List.forall₂_same.2 fun l _ => later_refl l
  exact hd.after (.of_same (.handOnReady s _))

/-- The re-test of a MIX write (R53). -/
theorem Cures.retest (m : MixClass) (s : State) : Cures s (retest m s) := by
  have hd : Cures s (s.mapSectors fun x => { x with layers := { x.layers with
      stack := x.layers.stack.map fun l => if l.mix = m ∧ !l.flags.ready then markReady s.mixes l else l } }) := by
    refine ⟨.of_plain rfl fun g => by rw [sector_mapSectors]; exact ⟨rfl, rfl⟩, fun g => by rw [sector_mapSectors], fun g _ => ?_⟩
    rw [State.stack, State.stack, sector_mapSectors]
    refine forall₂_map_later fun l _ => ?_
    split
    · exact later_markReady _ _
    · exact later_refl l
  exact hd.after (.of_same (.handOnReady s _))

theorem joinLayer_plain (g : Sector) (l : Layer) (s : State) (h : Sector) :
    ((joinLayer g l s).sector h).table = (s.sector h).table ∧ ((joinLayer g l s).sector h).group = (s.sector h).group
      ∧ (joinLayer g l s).stack h = if h = g then s.stack h ++ [l] else s.stack h := by
  rw [State.stack, joinLayer, modLayers_eq, sector_modSector]
  split
  · next e => subst e; exact ⟨rfl, rfl, rfl⟩
  · exact ⟨rfl, rfl, rfl⟩

/-- A layer that joins by placement or restore leaves tables and groups alone. -/
theorem Does.joinLayer {A : ReqKind → Reply → Prop} (g : Sector) (l : Layer) (s : State) : Does A s (joinLayer g l s) := by
  have hj := joinLayer_plain g l s
  exact ⟨.of_plain rfl fun k => ⟨(hj k).1, (hj k).2.1⟩, .joins g l (fun k => by rw [(hj k).1]) fun k => (hj k).2.2⟩

end Sys2Proof.Machine
end

