-- ==== Sys2Proof/Proofs/Steps.lean ====
section
/-! SUPPORT. The effects of the commits, of ADJUST and ESTABLISH and of the requests that move layers; the kind of the request that a payload spells. -/

namespace Sys2Proof.Machine

/-! ### The commit at the switch (R90, R93) -/

/-- The raise at a commit in time, seen from before the commit. -/
theorem Raised.commit (g : Sector) (s : State) : Raised g ((s.sector g).group.latched.getD 0) s (commit g s) := by
  have hb : Level s (beforeRise g s) := Level.trans (t := leavePressure g s) ⟨fun _ => rfl, fun _ => rfl⟩
    (.modSector _ g (fun x => { x with group := x.group.committed s.deck.settle }) rfl rfl)
  have h := Steady.afterRise g s
  exact ((Raised.raiseElev g _ (beforeRise g s)).after h.deck h.toLevel).before hb

theorem Raised.lateCommit (g : Sector) (s : State) : Raised g ((s.sector g).group.latched.getD 0) s (lateCommit g s) := by
  have hb : Level s (s.modGroup g Group.committedLate) :=
    .modSector s g (fun x => { x with group := x.group.committedLate }) rfl rfl
  have h := Same.afterLateRise g s
  exact ((Raised.raiseElev g _ (s.modGroup g Group.committedLate)).after h.deck h.level).before hb

theorem Does.commit {A : ReqKind → Reply → Prop} {g : Sector} {s : State}
    (hs : s.groupState g = .pressurizing ∨ s.groupState g = .stalled) : Does A s (commit g s) := by
  obtain ⟨h1, h2, h3⟩ := afterCommit_state (s.sector g).group s.deck
  rw [← commit_group] at h1 h2 h3
  refine ⟨.commit hs, .commits g (.commit g s) (fun hl => (hl g).1.2 (hs.imp id .inl)) ⟨h3, h2, ?_⟩⟩
  rcases h1 with h | h <;> rw [h] <;> rfl

theorem Does.lateCommit {A : ReqKind → Reply → Prop} {g : Sector} {s : State} (hs : s.groupState g = .venting)
    (ho : (s.sector g).group.isOpen = true) : Does A s (lateCommit g s) := by
  refine ⟨.lateCommit hs ho, .commits g (.lateCommit g s) (fun _ => ho) ?_⟩
  rw [lateCommit_group]
  have hs : (s.sector g).group.state = .venting := hs
  exact ⟨rfl, rfl, by rw [Group.committedLate, countStroke, hs]; rfl⟩

/-- The stroke-end switch is taken: a commit, or nothing but flags, alerts and FAULT(SWITCH) (R87, R88, R90, R93, R96). -/
theorem Does.strokeEndEvent {A : ReqKind → Reply → Prop} (g : Sector) (s : State) : Does A s (strokeEndEvent g s) := by
  have hn : ∀ b : Bool, Same s (if b then noteSwitchFault g s else s) := by
    intro b; cases b
    · exact .refl s
    · exact .noteSwitchFault g s
  have hn := hn ((s.sector g).group.retSw.state == some true)
  unfold Machine.strokeEndEvent; dsimp only
  generalize (if ((s.sector g).group.retSw.state == some true) = true then noteSwitchFault g s else s) = u at hn ⊢
  have hg : (u.sector g).group = (s.sector g).group := (hn.figures g).2.2.2.2.2.2
  have hs : u.groupState g = s.groupState g := by rw [State.groupState, hg]; rfl
  split
  · refine .of_steady ?_
    split
    · exact (Steady.of_same (.noteSwitchFault g s)).trans (.enterFault _ _ _ _ _)
    · exact .of_same (.noteSwitchFault g s)
  · next h => exact .before hn (.commit (.inl (hs.trans h)))
  · next h => exact .before hn (.commit (.inr (hs.trans h)))
  · next h =>
    split
    · next ho =>
      rw [Bool.and_eq_true] at ho
      exact .before hn (.lateCommit (hs.trans h) (by rw [hg]; exact ho.2))
    · exact .of_same hn
  all_goals exact .of_same hn

/-! ### ADJUST and ESTABLISH -/

/-- What a request is answered. -/
def AnsweredAs (k : ReqKind) (r : Reply) : ReqKind → Reply → Prop := fun k' r' => k' = k ∧ r' = r

/-- ADJUST passes c on to E and clears the margin (R11). -/
theorem Does.adjustElev {A : ReqKind → Reply → Prop} {g : Sector} {c : Nat} {s : State} (limited : Bool)
    (hc : c ≤ (s.sector g).table.margin) (ha : A .adjust ⟨okOr limited, figB c ++ elevB ((adjustElev g c s).elev g)⟩) :
    Does A s (adjustElev g c s) := by
  have hs : Same (raiseElev g c (s.modTable g fun r => { r with margin := 0 })) (Machine.adjustElev g c s) :=
    (Repaced.rederive g _).same.trans (.passSet _ true)
  have hl : Level s (s.modTable g fun r => { r with margin := 0 }) :=
    .modSector s g (fun x => { x with table := { x.table with margin := 0 } }) rfl rfl
  refine ⟨.adjustElev hc, .adjusts g c limited (((Raised.raiseElev g c _).after hs.deck hs.level).before hl) ⟨hc, ?_⟩ ha⟩
  rw [(hs.figures g).2.2.2.2.1, sector_raiseElev_self, modTable_eq, sector_modSector_self]
  rfl

theorem Does.serveAdjust (n c : Nat) (s : State) : Does (AnsweredAs .adjust (serveAdjust n c s).2) s (serveAdjust n c s).1 := by
  unfold Machine.serveAdjust; split
  · exact .of_same (.refl s)
  · next g _ =>
    split
    · exact .of_same (.refl s)
    · refine .finish (.adjustElev (decide (min c (s.sector g).table.margin ≠ c)) (Nat.min_le_right _ _) ⟨rfl, ?_⟩)
      have he : (Machine.finish (Machine.adjustElev g (min c (s.sector g).table.margin) s)).elev g
          = (Machine.adjustElev g (min c (s.sector g).table.margin) s).elev g := by
        rw [State.elev, (Steady.finish _).elev]; rfl
      dsimp only
      rw [he]

theorem establishRefusal_none {s : State} {g : Sector} {e : Int} (h : s.establishRefusal g e = none) :
    s.anyInFlight = false ∧ s.stack g = [] ∧ s.establishTilts g e = false := by
  simp only [State.establishRefusal, ite_eq_iff, reduceCtorEq, and_false, false_or, and_true] at h
  obtain ⟨-, -, hq, hst, ht⟩ := h
  exact ⟨by simpa using hq, by simpa using hst, by simpa using ht⟩

/-- ESTABLISH on an empty stack and a quiet deck (R12, R13). -/
theorem Does.setElev {A : ReqKind → Reply → Prop} {g : Sector} {e : Nat} {s : State} (limited : Bool)
    (h : s.establishRefusal g (s.elevTaken e) = none) (ha : A .establish ⟨okOr limited, elevB (s.elevTaken e)⟩) :
    Does A s (setElev g (s.elevTaken e) s) := by
  obtain ⟨hq, hst, ht⟩ := establishRefusal_none h
  have hk := Keeps.establish hq ht
  have hs : Same _ (Machine.setElev g (s.elevTaken e) s) := (Same.rebase g _).trans (Repaced.rederive g _).same
  have hsec : ∀ h, (s.modTable g fun r => { r with elev := some (s.elevTaken e), margin := 0 }).sector h =
      if h = g then { s.sector g with table := { (s.sector g).table with elev := some (s.elevTaken e), margin := 0 } } else s.sector h :=
    fun h => sector_modSector s g h _
  refine Does.after ⟨hk, .establishes g (s.elevTaken e) limited ⟨?_, ?_, fun h hh => ?_⟩ (fun h => ?_) ⟨hst, hq⟩ ha⟩ hs
  · rw [hsec, if_pos rfl]
  · rw [hsec, if_pos rfl]
  · rw [hsec, if_neg hh]
  · rw [State.stack, hsec]; split
    · next e => subst e; rfl
    · rfl

theorem Does.serveEstablish (n e : Nat) (s : State) :
    Does (AnsweredAs .establish (serveEstablish n e s).2) s (serveEstablish n e s).1 := by
  unfold Machine.serveEstablish; split
  · exact .of_same (.refl s)
  · dsimp only; split
    · exact .of_same (.refl s)
    · next h => exact .finish (.after (.setElev _ h ⟨rfl, rfl⟩) (Aside.completenessTest _).same)

/-! ### Requests -/

theorem Does.serveMixWrite {A : ReqKind → Reply → Prop} (i : Nat) (f : MixFields) (s : State) : Does A s (serveMixWrite i f s).1 := by
  unfold Machine.serveMixWrite; split
  · exact .of_same (.refl s)
  · split
    · next m line _ _ =>
      have h0 : ∀ b : MixBlock, Same s { s with mixes := s.mixes.set m.val b } := fun b => .of_eq rfl rfl
      exact .finish (.after (.before (h0 _) (.of_cures (.retest m _)))
        (((Same.unservedCheck s _).trans (.noteClamped _ none _)).trans (Aside.completenessTest _).same))
    · exact .of_same (.refl s)

theorem Same.layerAlerts (g : Sector) (l : Layer) (s : State) : Same s (layerAlerts g l s) := by
  have h1 : Same s (if l.flags.coldJoint then enterAlert .coldJoint (some g) s else s) := by
    split
    · exact (Aside.enterAlert _ _ s).same
    · exact .refl s
  unfold Machine.layerAlerts; dsimp only; split
  · exact h1.trans (Aside.enterAlert _ _ _).same
  · exact h1

theorem Does.servePlaced {A : ReqKind → Reply → Prop} (n k : Nat) (b : Option Nat) (s : State) : Does A s (servePlaced n k b s).1 := by
  unfold Machine.servePlaced; split
  · exact .of_same (.refl s)
  · next t _ =>
    split
    · exact .of_same (.serveAbandon n s)
    · unfold placeUnder; split
      · exact .of_same (.placeRefused t s)
      · exact .finish (.after (.joinLayer t.sector _ s)
          ((((Same.dropNamed t _).trans (.noteLate t _)).trans (.layerAlerts t.sector _ _)).trans (.passSet _ true)))

theorem Does.serveLayerRestore {A : ReqKind → Reply → Prop} (f : RestoreFields) (s : State) : Does A s (serveLayerRestore f s).1 := by
  unfold Machine.serveLayerRestore; split
  · dsimp only; split
    · exact .of_same (.refl s)
    · exact .finish (.after (.joinLayer _ _ s) (.passSet _ true))
  · exact .of_same (.refl s)

/-! ### The kind of a request -/

/-- The kind whose payload spells a request (R184, R185). -/
def kindOfRequest : Request → ReqKind
  | .deckWrite _ => .profileWrite | .sectorWrite _ _ => .profileWrite | .mixWrite _ _ => .profileWrite | .sweepWrite _ => .profileWrite
  | .profileRead _ _ => .profileRead | .setRate _ => .setRate | .setGoal _ => .setGoal | .setPlane _ => .setPlane
  | .setCreepSet _ => .setCreepSet | .establish _ _ => .establish | .adjust _ _ => .adjust | .clearFlags _ _ => .clearFlags
  | .clearFault _ => .clearFault | .start => .start | .hold => .hold | .park => .park | .stop => .stop | .resume => .resume
  | .restart => .restart | .survey => .survey | .endSurvey => .endSurvey | .trimSector _ => .trimSector
  | .layerRestore _ => .layerRestore | .setLayerCursor _ _ => .setLayerCursor | .readLayer => .readLayer
  | .readReleaseLog _ _ => .readReleaseLog | .writeArbTable _ => .writeArbTable | .loadArbTable => .loadArbTable
  | .readArbTable _ => .readArbTable | .readFeed _ _ => .readFeed | .sectorStatus _ => .sectorStatus | .deckStatus => .deckStatus
  | .readAlerts _ _ => .readAlerts | .ackAlerts _ => .ackAlerts | .supplyState _ _ _ => .supplyState
  | .requestFeed _ _ => .requestFeed | .placed _ _ _ => .placed | .abandon _ => .abandon | .ticketQuery _ => .ticketQuery

theorem kind_parseNone {r q : Request} {p : List Byte} (h : parseNone q p = some r) : kindOfRequest r = kindOfRequest q := by
  unfold parseNone at h; split at h
  · cases h; rfl
  · cases h

theorem parseOne_some {q : Nat → Request} {r : Request} {p : List Byte} (h : parseOne q p = some r) : ∃ a, r = q a := by
  unfold parseOne at h; split at h
  · cases h; exact ⟨_, rfl⟩
  · cases h

theorem parseTwo_some {q : Nat → Nat → Request} {r : Request} {p : List Byte} (h : parseTwo q p = some r) : ∃ a b, r = q a b := by
  unfold parseTwo at h; split at h
  · cases h; exact ⟨_, _, rfl⟩
  · cases h

theorem parseWord_some {q : Nat → Request} {r : Request} {p : List Byte} (h : parseWord q p = some r) : ∃ a, r = q a := by
  unfold parseWord at h; split at h
  · cases h; exact ⟨_, rfl⟩
  · cases h

theorem parseLong_some {q : Nat → Request} {r : Request} {p : List Byte} (h : parseLong q p = some r) : ∃ a, r = q a := by
  unfold parseLong at h; split at h
  · cases h; exact ⟨_, rfl⟩
  · cases h

theorem kind_parseProfileWrite {r : Request} {p : List Byte} (h : parseProfileWrite p = some r) : kindOfRequest r = .profileWrite := by
  have guarded : ∀ {c : Prop} [Decidable c] {q : Request}, (if c then some q else none) = some r → r = q := fun {c} _ {q} h => by
    split at h
    · exact (Option.some.inj h).symm
    · cases h
  unfold parseProfileWrite at h
  split at h
  · split at h
    · obtain ⟨f, -, rfl⟩ := Option.map_eq_some_iff.1 h; rfl
    split at h
    · split at h
      · rw [guarded h]; rfl
      · cases h
    split at h
    · split at h
      · cases h; rfl
      · cases h
    split at h
    · split at h
      · rw [guarded h]; rfl
      · cases h
    · cases h
  · cases h

theorem kind_parseRestore {r : Request} {p : List Byte} (h : parseRestore p = some r) : kindOfRequest r = .layerRestore := by
  unfold parseRestore at h
  split at h
  · dsimp only at h
    split at h
    · cases h; rfl
    · cases h; rfl
    · cases h
  · cases h

/-- The kind of a frame is the kind of the request that its payload spells (R183). -/
theorem kind_parsePayload {k : ReqKind} {p : List Byte} {r : Request} (h : parsePayload k p = some r) : kindOfRequest r = k := by
  cases k <;> simp only [parsePayload] at h
  case start | hold | park | stop | resume | restart | survey | endSurvey | readLayer | loadArbTable | deckStatus => exact kind_parseNone h
  case clearFault | trimSector | readArbTable | sectorStatus | ackAlerts => obtain ⟨a, rfl⟩ := parseOne_some h; rfl
  case profileRead | setLayerCursor | readReleaseLog | readFeed | readAlerts | requestFeed => obtain ⟨a, b, rfl⟩ := parseTwo_some h; rfl
  case setRate | abandon | ticketQuery => obtain ⟨a, rfl⟩ := parseWord_some h; rfl
  case setGoal | setPlane => obtain ⟨a, rfl⟩ := parseLong_some h; rfl
  case profileWrite => exact kind_parseProfileWrite h
  case layerRestore => exact kind_parseRestore h
  case writeArbTable | establish | adjust | clearFlags =>
    split at h
    · cases h; rfl
    · cases h
  case supplyState | placed =>
    split at h
    · cases h; rfl
    · cases h; rfl
    · cases h
  case setCreepSet =>
    split at h
    · split at h
      · cases h; rfl
      · cases h
    · cases h

end Sys2Proof.Machine
end

