-- ==== Sys2Proof/Proofs/Commands.lean ====
section
/-! SUPPORT. Every command but power-on reset keeps the laws of strokes and tilt and has one of the effects on elevations and stacks. -/

namespace Sys2Proof.Machine

/-! ### The requests -/

/-- r is of kind k, and served with the reply rep. -/
def ServedAs (r : Request) (s : State) (k : ReqKind) (rep : Reply) : Prop := (serveRequest r s).2 = rep ∧ kindOfRequest r = k

/-- Only the requests on tables, stacks and MIX blocks move elevations or layers. -/
theorem Does.serveRequest (r : Request) (s : State) : Does (ServedAs r s) s (serveRequest r s).1 := by
  cases r with
  | deckWrite f =>
    obtain ⟨hk, hl⟩ := serveDeckWrite_keeps f s
    exact ⟨hk, .level hl⟩
  | sectorWrite i f => exact .of_steady (.serveSectorWrite i f s)
  | mixWrite i f => exact .serveMixWrite i f s
  | sweepWrite f => exact .of_steady (.serveSweepWrite f s)
  | profileRead b i => exact .of_eq (serveProfileRead_state b i s)
  | setRate v => exact .of_steady (.serveSetRate v s)
  | setGoal v => exact .of_steady (.serveSetGoal v s)
  | setPlane v => exact .of_steady (.serveSetPlane v s)
  | setCreepSet gs => exact .of_steady (.serveSetCreepSet gs s)
  | establish g e =>
    refine (Does.serveEstablish g e s).mono fun k r => ?_
    rintro ⟨rfl, rfl⟩
    exact ⟨rfl, rfl⟩
  | adjust g c =>
    refine (Does.serveAdjust g c s).mono fun k r => ?_
    rintro ⟨rfl, rfl⟩
    exact ⟨rfl, rfl⟩
  | clearFlags g f => exact .of_steady (.serveClearFlags g f s)
  | clearFault g => exact .of_steady (.serveClearFault g s)
  | start => exact .of_steady (.serveStart s)
  | hold => exact .of_steady (.serveHold s)
  | park => exact .of_steady (.servePark s)
  | stop => exact .of_steady (.serveStop s)
  | resume => exact .of_steady (.serveResume s)
  | restart => exact .of_eq rfl
  | survey => exact .of_steady (.serveSurveyStart s)
  | endSurvey => exact .of_steady (.serveEndSurvey s)
  | trimSector g => exact .of_steady (.serveTrimSector g s)
  | layerRestore f => exact .serveLayerRestore f s
  | setLayerCursor g p => exact .of_same (.serveSetCursor g p s)
  | readLayer => exact .of_same (.serveReadLayer s)
  | readReleaseLog i n => exact .of_eq (serveReadLog_state i n s)
  | writeArbTable xs => exact .of_same (.serveWriteTable xs s)
  | loadArbTable => exact .of_steady (.serveLoadTable s)
  | readArbTable n => exact .of_eq (serveReadTable_state n s)
  | readFeed p g => exact .of_eq (serveReadFeed_state p g s)
  | sectorStatus g => exact .of_eq (serveSectorStatus_state g s)
  | deckStatus => exact .of_eq rfl
  | readAlerts i n => exact .of_eq (serveReadAlerts_state i n s)
  | ackAlerts n => exact .of_same (.serveAckAlerts n s)
  | supplyState m k p => exact .of_steady (.serveSupplyState m k p s)
  | requestFeed l n => exact .of_same (.serveRequestFeed l n s)
  | placed n k b => exact .servePlaced n k b s
  | abandon n => exact .of_same (.serveAbandon n s)
  | ticketQuery n => exact .of_eq (serveTicketQuery_state n s)

theorem kindByte_of_kindOf {b : Byte} {k : ReqKind} (h : kindOf b = some k) : b = kindByte k := by
  have hb := List.find?_some (p := fun k => kindByte k == b) h
  exact (beq_iff_eq.1 hb).symm

/-- The port of a kind is answering a request of that kind with the reply r. -/
def Answered (t : State) (k : ReqKind) (r : Reply) : Prop := ∃ o, (t.port (roleOf k)).service = some ⟨kindByte k, r, o⟩

/-- What the port, as it takes a frame, says of the reply to a request of kind k. -/
def RepliedTo (p : PortId) (f : Frame) (s : State) (k : ReqKind) (r : Reply) : Prop :=
  (checkRequest p f s).2 = r ∧ f.kind = kindByte k ∧ p = roleOf k

theorem Does.checkRequest (p : PortId) (f : Frame) (s : State) : Does (RepliedTo p f s) s (checkRequest p f s).1 := by
  have hdef : Machine.checkRequest p f s = match kindOf f.kind with
    | none => refuse s .unknown
    | some k => if roleOf k ≠ p then refuse s .role else match parsePayload k f.payload with
      | none => refuse s .length
      | some r => Machine.serveRequest r s := rfl
  cases hk : kindOf f.kind with
  | none => rw [hdef, hk]; exact .of_same (.refl s)
  | some k =>
    by_cases hp : roleOf k ≠ p
    · simp only [hdef, hk, if_pos hp]; exact .of_same (.refl s)
    · cases hr : parsePayload k f.payload with
      | none => simp only [hdef, hk, if_neg hp, hr]; exact .of_same (.refl s)
      | some r =>
        have he : Machine.checkRequest p f s = Machine.serveRequest r s := by simp only [hdef, hk, if_neg hp, hr]
        rw [he]
        refine (Does.serveRequest r s).mono fun k' rep h => ?_
        obtain ⟨h1, h2⟩ := h
        obtain rfl := (kind_parsePayload hr).symm.trans h2
        exact ⟨he ▸ h1, kindByte_of_kindOf hk, (not_not.1 hp).symm⟩

/-! ### The ports -/

theorem Does.takeFrame (p : PortId) (f : Frame) (s : State) : Does (Answered (takeFrame p f s)) s (takeFrame p f s) := by
  refine ((Does.checkRequest p f s).mono fun k r h => ?_).after (.setPort _ p _)
  obtain ⟨rfl, hk, rfl⟩ := h
  refine ⟨((Machine.checkRequest (roleOf k) f s).1.port (roleOf k)).overrun, ?_⟩
  rw [Machine.takeFrame, port_setPort_self, hk]

theorem Does.deliver (p : PortId) (f : Frame) (s : State) : Does (Answered (Machine.deliver p f s)) s (Machine.deliver p f s) := by
  unfold Machine.deliver; dsimp only; split
  · exact .takeFrame p f s
  · exact .of_same (.setPort s p _)
  · exact .of_same (.setPort s p _)

theorem Same.toHunting (p : PortId) (s : State) : Same s (toHunting p s) := .setPort s p _

theorem Does.delivered (p : PortId) (f : Frame) (s : State) :
    Does (Answered (Machine.deliver p f (toHunting p s))) s (Machine.deliver p f (toHunting p s)) :=
  .before (.toHunting p s) (.deliver p f _)

theorem Does.frameByte (p : PortId) (bytes : List Byte) (s : State) : Does (Answered (frameByte p bytes s)) s (frameByte p bytes s) := by
  unfold Machine.frameByte; split
  · exact .of_same (.setPort s p _)
  · exact .of_same (.toHunting p s)
  · exact .delivered p _ s

theorem Does.receiveByte (p : PortId) (b : Byte) (s : State) : Does (Answered (receiveByte p b s)) s (receiveByte p b s) := by
  unfold Machine.receiveByte; split
  · split
    · exact .of_same (.setPort s p _)
    · exact .of_same (.refl s)
  · exact .frameByte p _ s

theorem Does.answerDone (p : PortId) (s : State) : Does (Answered (answerDone p s)) s (answerDone p s) := by
  unfold Machine.answerDone; dsimp only; split
  · exact .of_same (.refl s)
  · split
    · exact .of_steady (.warmReset s)
    · split
      · exact .before (.setPort s p _) (.takeFrame p _ _)
      · exact .of_same (.setPort s p _)

/-! ### The clock, the switches, and every command -/

theorem Cures.minuteWork (s : State) : Cures s (minuteWork s) :=
  .before (.of_same ((Same.stalenessTest s).trans (.setTemps _)))
    (.after (.integrate _) (.of_same ((Aside.driftCheck _).same.trans (.dueSet _ _))))

/-- A clock event cures the layers on a minute, and leaves elevations and stacks alone else (R41, R51). -/
theorem Does.clockEvent {A : ReqKind → Reply → Prop} (b : Bool) (s : State) : Does A s (clockEvent b s) := by
  unfold Machine.clockEvent; dsimp only
  have h0 : Steady s (expireTimers (Machine.settleDue s)) := (Steady.settleDue s).trans (.expireTimers _)
  generalize expireTimers (Machine.settleDue s) = u at h0 ⊢
  generalize (b || decide (59 ≤ u.second)) = m
  have h1 := (h0.trans (.of_same (.advanceClock m u))).trans (.secondWork _)
  generalize secondWork (advanceClock m u) = v at h1 ⊢
  have h2 : Steady s (if v.second % 10 = 0 then pollRound v else v) := by
    split
    · exact h1.trans (.of_same (Aside.pollRound v).same)
    · exact h1
  split
  · exact .of_cures (.before h2 (.after (.minuteWork _) (.finishDue _)))
  · exact .of_steady (h2.trans (.finishDue _))

theorem Does.strokeEndTaken {A : ReqKind → Reply → Prop} (g : Sector) (s : State) :
    Does A s (Machine.finish (switchChange g .strokeEnd true (Machine.strokeEndEvent g) s)) := by
  unfold switchChange; split
  · have hk := Steady.setSwitch g .strokeEnd ⟨some true, none⟩ s
    have he := Does.strokeEndEvent (A := A) g (setSwitch g .strokeEnd ⟨some true, none⟩ s)
    refine .finish ⟨hk.toKeeps.trans he.toKeeps, he.effect.behind hk (fun h => ?_) fun h => ?_⟩
    · rw [setSwitch, modGroup_eq, sector_modSector]; split
      · next e => subst e; rfl
      · rfl
    · rw [State.groupState, setSwitch, modGroup_eq, sector_modSector]; split
      · next e => subst e; exact ⟨rfl, rfl, rfl⟩
      · exact ⟨rfl, rfl, rfl⟩
  · exact .finish (.of_same (.refl s))

/-- Every command but power-on reset does something that keeps the laws, once everything due is taken (log 2); the clock work itself is steady. -/
theorem exec_does {c : Instr} {s t : State} (hc : c ≠ .powerOnReset) (h : exec c s = .next t) :
    Does (Answered t) s t ∨ Does (Answered t) (Machine.settleDue s) t := by
  have does : ∀ {u : State}, Does (Answered u) (Machine.settleDue s) u → (.next u : Result) = .next t →
      Does (Answered t) s t ∨ Does (Answered t) (Machine.settleDue s) t := by rintro u k ⟨⟩; exact .inr k
  have clock : ∀ {u : State}, Does (Answered u) s u → (.next u : Result) = .next t →
      Does (Answered t) s t ∨ Does (Answered t) (Machine.settleDue s) t := by rintro u k ⟨⟩; exact .inl k
  have steady : ∀ {u : State}, Steady (Machine.settleDue s) u → (.next u : Result) = .next t →
      Does (Answered t) s t ∨ Does (Answered t) (Machine.settleDue s) t := fun k => does (.of_steady k)
  have idle : ∀ {u : State}, Steady s u → (.next u : Result) = .next t →
      Does (Answered t) s t ∨ Does (Answered t) (Machine.settleDue s) t := fun k => clock (.of_steady k)
  have expired : ∀ (g : Sector) (k : TimerKind) (e : State → State), (∀ u, Steady u (e u)) →
      Steady (Machine.settleDue s) (Machine.finish (expireIf g k e (Machine.settleDue s))) := by
    intro g k e he
    refine Steady.trans ?_ (.finish _)
    unfold expireIf; split
    · exact he _
    · exact .refl _
  have switched : ∀ (g : Sector) (w : SwitchId) (l : Bool) (e : State → State), (∀ u, Steady u (e u)) →
      Steady (Machine.settleDue s) (Machine.finish (switchChange g w l e (Machine.settleDue s))) := fun g w l e he =>
    (Steady.switchChange g w l e he _).trans (.finish _)
  cases c with
  | powerOnReset => exact absurd rfl hc
  | warmReset => exact steady (.warmReset _) h
  | answerSent p => exact does (.answerDone p _) h
  | frameDiscarded p d => exact does (.frameByte p d _) h
  | frameByteTimeout p => exact steady (.of_same (.toHunting p _)) h
  | startByte p b => exact does (.receiveByte p b _) h
  | switchInputChange g w l => exact steady (.inputChange g w l _) h
  | switchFirstState g w l => exact steady (.firstState g w l _) h
  | inputReturnsToDebouncedState g w => exact steady (.inputReturn g w _) h
  | strokeEndTaken g => exact does (.strokeEndTaken g _) h
  | strokeEndLost g => exact steady (switched g .strokeEnd false id .refl) h
  | retractedTaken g => exact steady (switched g .retracted true _ (.retractedEvent g)) h
  | retractedLost g => exact steady (switched g .retracted false _ (.retractedLostEvent g)) h
  | pressurizeWindowExpiry g => exact steady (expired g .window _ (.windowExpiry g)) h
  | settleTimeExpiry g => exact steady (expired g .settle _ (.settleExpiry g)) h
  | ventWindowExpiry g => exact steady (expired g .vent _ (.ventExpiry g)) h
  | secondEvent => exact clock (.clockEvent false s) h
  | minuteEvent => exact clock (.clockEvent true s) h
  | paceCounterExpiry => exact idle ((Steady.of_same (.takePace s)).trans (.finishDue _)) h
  | dwellLimitReached => exact idle ((Steady.of_same (.takeDwell s)).trans (.finishDue _)) h
  | bondRisk => exact idle ((Steady.of_same (.takeBond s)).trans (.finishDue _)) h
  | supplyLapse => exact idle ((Steady.takeLapse s).trans (.finishDue _)) h
  | ticketExpiry => exact idle ((Steady.of_same (.takeExpiry s)).trans (.finishDue _)) h
  | expiredEntryAging => exact idle ((Steady.of_same (.takeAging s)).trans (.finishDue _)) h
  | probeAnswer n b => exact steady ((Steady.probeAnswered n b _).trans (.finish _)) h
  | receiverAnswer n b => exact steady ((Steady.receiverAnswered _ b _).trans (.finish _)) h
  | sensorTryTimeout => exact steady ((Steady.tryTimedOut _).trans (.finish _)) h
  | _ => exact does (.delivered _ _ _) h

end Sys2Proof.Machine
end

