-- ==== Sys2Proof/Proofs/Elevations.lean ====
section
/-! SUPPORT. The laws of strokes and tilt over every step (TiltLawKept); elevations and layers over a step (ElevationKept). -/

namespace Sys2Proof.Machine

/-! ### The laws -/

/-- A step that is not a power-on reset is exec of the front command on the queue's rest, or idles. -/
theorem step_does {s t : State} (hp : s.pending.head? ≠ some .powerOnReset) (h : step s = .next t) :
    ∃ u, Same s u ∧ u.due = s.due ∧ (Does (Answered t) u t ∨ Does (Answered t) (settleDue u) t) := by
  unfold step at h
  split at h
  · cases h; exact ⟨s, .refl s, rfl, .inl (.of_same (.refl s))⟩
  · next c rest hc =>
    refine ⟨{ s with pending := rest }, .of_eq rfl rfl, rfl, exec_does (fun e => hp ?_) h⟩
    rw [hc, e]; rfl

theorem Keeps.step {s t : State} (hp : s.pending.head? ≠ some .powerOnReset) (h : step s = .next t) : Keeps s t := by
  obtain ⟨u, hu, -, hd | hd⟩ := step_does hp h
  · exact (Keeps.of_same hu).trans hd.toKeeps
  · exact ((Keeps.of_same hu).trans (Steady.settleDue u).toKeeps).trans hd.toKeeps

/-- Over a power-on reset the laws hold anew (O60); every other step keeps them. -/
theorem laws_step {s t : State} (h : step s = .next t) : Keeps s t := by
  by_cases hp : s.pending.head? = some .powerOnReset
  · obtain ⟨rest, hr⟩ := List.head?_eq_some_iff.1 hp
    have ht : t = powerOn { s with pending := rest } := by
      rw [step, hr] at h
      exact (Host.Outcome.next.inj h).symm
    have hsec : ∀ g, t.sector g = State.reset.sector g := fun g => by rw [ht, sector_powerOn, sector_reset]
    have hk : Keeps State.reset t := .of_same ⟨by rw [ht]; rfl, fun g => by rw [hsec]⟩
    exact ⟨fun _ => hk.stroke strokeLaw_reset, fun _ _ => hk.tilt strokeLaw_reset tiltLaw_reset⟩
  · exact .step hp h

/-- Settles O55: every command's effect keeps each sector's part of the laws, or moves one sector within the tilt its test allows. -/
theorem tiltLawKept : Obligations.TiltLawKept :=
  ⟨fun _ _ hs h => (laws_step h).stroke hs, fun _ _ hs ht h => (laws_step h).tilt hs ht⟩

/-! ### Layers leave from below -/

/-- From the stack ls to ms: layers with tops at or below b have left from below, those that stay are at a later moment, at most one has joined. -/
def Descends (b : Int) (ls ms : List Layer) : Prop :=
  ∃ k, k ≤ ls.length ∧ (∀ l ∈ ls.take k, l.top ≤ b) ∧ List.Forall₂ Layer.Later (ls.drop k) (ms.take (ls.length - k))
    ∧ ms.length ≤ ls.length - k + 1

theorem descends_of_later {b : Int} {ls ms : List Layer} (h : List.Forall₂ Layer.Later ls ms) : Descends b ls ms := by
  have hl : ms.length = ls.length := h.length_eq.symm
  refine ⟨0, Nat.zero_le _, by simp, ?_, by omega⟩
  rw [Nat.sub_zero, ← hl, List.take_length]; exact h

theorem descends_refl (b : Int) (ls : List Layer) : Descends b ls ls := descends_of_later (List.forall₂_same.2 fun l _ => later_refl l)

theorem descends_append (b : Int) (ls : List Layer) (l : Layer) : Descends b ls (ls ++ [l]) := by
  refine ⟨0, Nat.zero_le _, by simp, ?_, by simp⟩
  rw [Nat.sub_zero, List.take_left]
  exact List.forall₂_same.2 fun l _ => later_refl l

theorem descends_of_gone {b : Int} {gone ls : List Layer} (h : ∀ l ∈ gone, l.top ≤ b) : Descends b (gone ++ ls) ls := by
  refine ⟨gone.length, by simp, by rwa [List.take_left], ?_, by simp⟩
  rw [List.drop_left, List.length_append, Nat.add_sub_cancel_left, List.take_length]
  exact List.forall₂_same.2 fun l _ => later_refl l

theorem descends_staying (b : Int) (ls : List Layer) : Descends b ls (staying b ls) := by
  have hgone : ∀ l ∈ leaving b ls, l.top ≤ b := fun l hl => of_decide_eq_true (List.mem_takeWhile_imp (p := fun l : Layer => decide (l.top ≤ b)) hl)
  have h := descends_of_gone (ls := staying b ls) hgone
  rwa [leaving, staying, List.takeWhile_append_dropWhile] at h

theorem Effect.descends {A : ReqKind → Reply → Prop} {s t : State} (h : Effect A s t) (g : Sector)
    (hm : ∀ l ∈ s.stack g, l.maturity ≤ 65535) : Descends (t.bottom g) (s.stack g) (t.stack g) := by
  have raised : ∀ {i n}, Raised i n s t → Descends (t.bottom g) (s.stack g) (t.stack g) := fun {i n} hr => by
    by_cases e : g = i
    · subst e; rw [hr.stack]; exact descends_staying _ _
    · rw [(hr.others g e).2]; exact descends_refl _ _
  cases h with
  | level h => rw [h.stack]; exact descends_refl _ _
  | cures _ hl => exact descends_of_later (hl g hm)
  | joins i l _ hl =>
    rw [hl]; split
    · exact descends_append _ _ _
    · exact descends_refl _ _
  | commits i hr => exact raised hr
  | adjusts i c b hr => exact raised hr
  | establishes i e b _ hl => rw [hl]; exact descends_refl _ _

/-! ### E over a step -/

/-- What a step can make of an E that is set: the causes of R6, R7, R11 and R12. -/
def Moves (g : Sector) (s t : State) (e e' : Int) : Prop :=
  e' = e
  ∨ (∃ l, (t.sector g).group.latched = some l ∧ (t.sector g).group.isOpen = false ∧ e' = e + (l : Int)
      ∧ (((s.sector g).group.isOpen = true ∧ (s.sector g).group.latched = some l)
        ∨ ((s.sector g).group.isOpen = false ∧ s.due ≠ {})))
  ∨ (∃ c limited o, t.consolePort.service = some ⟨kindByte .adjust, ⟨okOr limited, figB c ++ elevB e'⟩, o⟩
      ∧ e' = e + (c : Int) ∧ c ≤ (s.sector g).table.margin ∧ (t.sector g).table.margin = 0)
  ∨ (∃ limited o, t.consolePort.service = some ⟨kindByte .establish, ⟨okOr limited, elevB e'⟩, o⟩
      ∧ s.stack g = [] ∧ s.anyInFlight = false ∧ (t.sector g).table.margin = 0)

/-- An E that is set moves by the effect alone; what the effect starts from has come from s by orders of the arbiter, and is s but for the queue while nothing is due (log 2). -/
theorem Effect.moves {s u t : State} (h : Effect (Answered t) u t) (k : Steady s u) (o : Orders s u) (hd : s.due ≠ {} ∨ Same s u)
    (hs : StrokeLaw s) {g : Sector} {e : Int} (he : (s.sector g).table.elev = some e) :
    ∃ e', (t.sector g).table.elev = some e' ∧ Moves g s t e e' := by
  have hu : (u.sector g).table.elev = some e := (k.elev g).trans he
  have kept : (t.sector g).table.elev = (u.sector g).table.elev → ∃ e', (t.sector g).table.elev = some e' ∧ Moves g s t e e' :=
    fun hk => ⟨e, hk.trans hu, .inl rfl⟩
  have rises : ∀ {n}, Raised g n u t → (t.sector g).table.elev = some (e + (n : Int)) := fun hr => by rw [hr.elev, hu]; rfl
  cases h with
  | level h => exact kept (h.elev g)
  | cures h _ => exact kept (h g)
  | joins _ _ h _ => exact kept (h g)
  | commits i hr ho hg =>
    by_cases hi : g = i
    swap
    · exact kept (hr.others g hi).1
    subst hi
    obtain ⟨h1, h2, -⟩ := hg
    have hopen := ho (k.stroke hs)
    obtain ⟨l, hl⟩ := Option.isSome_iff_exists.1 (((k.stroke hs g).2.2 hopen).1)
    rw [hl, Option.getD_some] at hr
    refine ⟨e + l, rises hr, .inr (.inl ⟨l, h1.trans hl, h2, rfl, ?_⟩)⟩
    cases hso : (s.sector g).group.isOpen with
    | true =>
      obtain ⟨-, -, hlat⟩ := (o.group g).inFlight (inFlight_of_open (hs g) hso)
      exact .inl ⟨rfl, hlat.symm.trans hl⟩
    | false =>
      refine .inr ⟨rfl, hd.resolve_right fun hsu => ?_⟩
      rw [(hsu.figures g).2.2.2.2.2.2, hso] at hopen; cases hopen
  | adjusts i c b hr hm ha =>
    by_cases hi : g = i
    swap
    · exact kept (hr.others g hi).1
    subst hi
    obtain ⟨p, hp⟩ := ha
    have he' := rises hr
    refine ⟨e + c, he', .inr (.inr (.inl ⟨c, b, p, ?_, rfl, o.margin g ▸ hm.1, hm.2⟩))⟩
    rw [State.elev, he'] at hp
    exact hp
  | establishes i e' b ht _ hq ha =>
    obtain ⟨h1, h2, h3⟩ := ht
    by_cases hi : g = i
    swap
    · exact kept (h3 g hi)
    subst hi
    obtain ⟨p, hp⟩ := ha
    exact ⟨e', h1, .inr (.inr (.inr ⟨b, p, hp, (k.stack g).symm.trans hq.1, o.anyInFlight hq.2, h2⟩))⟩

/-- A step's effect starts from the state as it is, or as the clock work still due leaves it (log 2). -/
theorem step_effect {s t : State} (hp : s.pending.head? ≠ some .powerOnReset) (h : step s = .next t) :
    ∃ u, Steady s u ∧ Orders s u ∧ (s.due ≠ {} ∨ Same s u) ∧ Effect (Answered t) u t := by
  obtain ⟨u, hu, hdue, hd | hd⟩ := step_does hp h
  · exact ⟨u, .of_same hu, .of_same hu, .inr hu, hd.effect⟩
  · refine ⟨settleDue u, (Steady.of_same hu).trans (.settleDue u), (Orders.of_same hu).trans (.settleDue u), ?_, hd.effect⟩
    by_cases h0 : s.due = {}
    · rw [settleDue_of_due (hdue.trans h0)]; exact .inr hu
    · exact .inl h0

/-- Settles O56: every effect on elevations and stacks is one of those listed, and the clock work that a command first completes leaves both alone. -/
theorem elevationKept : Obligations.ElevationKept := by
  intro s t hp h g
  obtain ⟨u, hk, ho, hd, he⟩ := step_effect hp h
  refine ⟨fun hs e hse => he.moves hk ho hd hs hse, fun hm => ?_⟩
  have hst := he.descends g
  rw [hk.stack] at hst
  exact hst hm

end Sys2Proof.Machine
end

