-- ==== Sys2Proof/Proofs/ClearFlags.lean ====
section
/-! SUPPORT. A request served at rest whose owning block leaves the ports alone; CLEAR FLAGS (ClearFlags). -/

namespace Sys2Proof.Machine

/-! ### Requests served at rest -/

theorem port_eq_of_ports {s t : State} (h : t.ports = s.ports) (p : PortId) : t.port p = s.port p := by
  simp only [State.ports, Prod.mk.injEq] at h
  obtain ⟨h1, h2, h3⟩ := h
  cases p
  · exact h1
  · exact h2
  · exact h3

/-- What a request served at rest does when the block that owns it leaves the ports alone: the block's state, with the answer on the port (R182). -/
theorem arrive_answers {k : ReqKind} {d : List Byte} {r : Request} {s : State} (h : Rest (roleOf k) s) (hp : parsePayload k d = some r)
    (hu : (serveRequest r (toHunting (roleOf k) s)).1.ports = (toHunting (roleOf k) s).ports) :
    arrive (roleOf k) k d s = (serveRequest r (toHunting (roleOf k) s)).1.setPort (roleOf k)
        (answering (s.port (roleOf k)) k (serveRequest r (toHunting (roleOf k) s)).2)
      ∧ Answers (roleOf k) k (serveRequest r (toHunting (roleOf k) s)).2 s (arrive (roleOf k) k d s) := by
  have hport := port_eq_of_ports hu
  have ha : arrive (roleOf k) k d s = (serveRequest r (toHunting (roleOf k) s)).1.setPort (roleOf k)
      (answering (s.port (roleOf k)) k (serveRequest r (toHunting (roleOf k) s)).2) := by
    rw [arrive_of_rest h hp, hport, toHunting, port_setPort_self, answering]
  refine ⟨ha, ?_, fun q hq => ?_⟩
  · rw [ha, port_setPort_self]
  · rw [ha, port_setPort_ne _ _ hq, hport, toHunting, port_setPort_ne _ _ hq]

/-! ### CLEAR FLAGS -/

/-- A sector with flags cleared (R15). -/
def SectorState.cleared (b : Byte) (x : SectorState) : SectorState := { x with table := { x.table with flags := x.table.flags.clear b } }

/-- The sectors with the flags cleared in one of them, or in all. -/
def State.clearing (s : State) (n : Nat) (b : Byte) : State :=
  forEach (if n = 255 then allSectors else (toSector n).toList) (fun g s => s.modSector g (.cleared b)) s

theorem sector_clearing (s : State) (n : Nat) (b : Byte) (h : Sector) :
    (s.clearing n b).sector h = if n = 255 ∨ n = h.val then (s.sector h).cleared b else s.sector h := by
  rw [State.clearing, sector_forEach_modSector]
  · refine if_congr ?_ rfl rfl
    split
    · next e => simp [e, mem_allSectors]
    · next e => simp [e, toSector, Fin.ext_iff, eq_comm]; omega
  · split
    · exact nodup_allSectors
    · cases toSector n <;> simp

/-- CLEAR FLAGS changes the flags it names alone, and answers with those of a sector that it named, for ALL sector 0 (R15, R190). -/
theorem serveClearFlags_eq {n : Nat} {g : Sector} (hg : n = g.val ∨ (n = 255 ∧ g = 0)) (b : Byte) (s : State) :
    serveClearFlags n b s = ({ s with sectors := (s.clearing n b).sectors }, ⟨.ok, [((s.clearing n b).sector g).table.flags.toByte]⟩) := by
  have hs : s.clearing n b = { s with sectors := (s.clearing n b).sectors } := forEach_modSector_eq _ (fun _ => .cleared b) s
  rw [← hs]
  rcases hg with rfl | ⟨rfl, rfl⟩
  · have hg : g.val ≠ 255 := by have := g.isLt; omega
    simp only [serveClearFlags, State.clearing, if_neg hg, toSector_val]
    rfl
  · have hf : (fun (g : Sector) (s : State) => s.modFlags g fun f => f.clear b) = fun g s => s.modSector g (.cleared b) := rfl
    simp only [serveClearFlags, State.clearing, if_true, hf, State.flagsByte]

/-- Settles O16: CLEAR FLAGS at rest is the flags' change, and its answer. -/
theorem clearFlags : Obligations.ClearFlags := by
  intro s n b hr hn
  have hb : (byteOf n).toNat = n := by rw [byteOf_toNat]; omega
  have hp : parsePayload .clearFlags [byteOf n, b] = some (.clearFlags n b) := by
    show some (Request.clearFlags (byteOf n).toNat b) = _
    rw [hb]
  have hall : ∀ g : Sector, n = g.val ∨ (n = 255 ∧ g = 0) → arrive .console .clearFlags [byteOf n, b] s =
      answer .console .clearFlags ⟨.ok, [(((toHunting .console s).clearing n b).sector g).table.flags.toByte]⟩
        { s with sectors := ((toHunting .console s).clearing n b).sectors } := by
    intro g hg
    have hq := serveClearFlags_eq hg b (toHunting .console s)
    have ha := arrive_answers (k := .clearFlags) hr hp
    rw [show serveRequest (.clearFlags n b) (toHunting (roleOf .clearFlags) s) = _ from hq] at ha
    exact (ha rfl).1
  obtain ⟨g0, hg0⟩ : ∃ g : Sector, n = g.val ∨ (n = 255 ∧ g = 0) := by
    rcases hn with hn | hn
    · exact ⟨⟨n, hn⟩, .inl rfl⟩
    · exact ⟨0, .inr ⟨hn, rfl⟩⟩
  have hsec : ∀ h, (arrive .console .clearFlags [byteOf n, b] s).sector h = ((toHunting .console s).clearing n b).sector h := by
    intro h; rw [hall g0 hg0]; rfl
  have hsecs : (arrive .console .clearFlags [byteOf n, b] s).sectors = ((toHunting .console s).clearing n b).sectors := by
    rw [hall g0 hg0]; rfl
  refine ⟨_, rfl, fun h => ?_, fun g hg => ?_⟩
  · rw [hsec, sector_clearing, toHunting, sector_setPort]; rfl
  · rw [hsec, hsecs]; exact hall g hg

end Sys2Proof.Machine
end

