-- ==== Sys2Proof/Proofs/Adjust.lean ====
section
/-! SUPPORT. What a raise of E leaves alone and what it releases; ADJUST (Adjust). -/

namespace Sys2Proof.Machine

/-! ### What the raise of E releases, and what it leaves alone -/

/-- The raise of E releases the layers the form has left, lowest first (R29 to R31). -/
theorem released_raiseElev (g : Sector) (n : Nat) (s : State) :
    Released g (leaving (s.raisedBottom g n) (s.stack g)) s (raiseElev g n s) := by
  rw [raiseElev_eq]; exact ⟨rfl, rfl⟩

theorem Released.congr {g : Sector} {gone : List Layer} {s s' t t' : State} (h : Released g gone s t) (hm : s'.minute = s.minute)
    (hs : s'.tables = s.tables) (ht : t'.tables = t.tables) : Released g gone s' t' := by
  have tables : ∀ {u v : State}, u.tables = v.tables → u.releaseLog = v.releaseLog ∧ u.releaseCount = v.releaseCount := fun e =>
    ⟨congrArg (·.2.1) e, congrArg (·.2.2.1) e⟩
  unfold Released at *
  rwa [hm, (tables hs).1, (tables hs).2, (tables ht).1, (tables ht).2]

theorem raiseElev_frame (g : Sector) (n : Nat) (s : State) :
    (raiseElev g n s).settings = s.settings ∧ (raiseElev g n s).feed = s.feed ∧ (raiseElev g n s).ports = s.ports
      ∧ (raiseElev g n s).supply = s.supply := by
  simp [State.settings, State.feed, State.ports, logReleases, raiseElev_eq]

theorem raisedBottom_eq {s : State} {g : Sector} {e : Int} (h : (s.sector g).table.elev = some e) (n : Nat) :
    s.raisedBottom g n = e + n - s.h10 := by
  rw [State.raisedBottom, h]; rfl

theorem released_eq (t : LayerTable) (b : Int) :
    t.released b = { t with stack := staying b t.stack, top := if staying b t.stack = [] then t.top.map (max · b) else t.top } := by
  simp only [LayerTable.released, List.isEmpty_iff]

/-! ### ADJUST -/

/-- ADJUST of a SUSPECT sector at rest is taken (R11). -/
theorem adjustRefusal_none {s : State} {g : Sector} {e : Int} (he : (s.sector g).table.elev = some e) (hs : s.suspect g = true)
    (hf : (s.groupState g).inFlight = false) : s.adjustRefusal g = none := by
  have hest : s.established g = true := by rw [State.established, he]; rfl
  simp [State.adjustRefusal, hest, hs, hf]

theorem Repaced.passSet (s : State) (d : Bool) : Repaced s { s with passDue := d } := Repaced.update' s _ _ _ _ _

/-- From s to t the pacing unit and the mode have moved, then a grant pass has run. -/
structure Settled (s t : State) : Prop where
  held : ∀ g, (t.sector g).held = (s.sector g).held
  dwell : ∀ g, (t.sector g).pace.dwell = (s.sector g).pace.dwell
  group : ∀ g, (s.sector g).group.Ordered (t.sector g).group
  settings : t.settings = s.settings
  tables : t.tables = s.tables
  feed : t.feed = s.feed
  supply : t.supply = s.supply
  ports : t.ports = s.ports

theorem Repaced.settled {s t : State} (h : Repaced s t) : Settled s (finish t) := by
  have k := Kept.finish t
  have o := Orders.finish t
  refine ⟨fun g => ?_, fun g => ?_, fun g => ?_, k.settings.trans h.settings, k.tables.trans h.tables, k.feed.trans h.feed,
    k.supply.trans h.supply, k.ports.trans h.ports⟩
  · rw [k.held, h.sector g]; rfl
  · rw [k.pace, h.dwell g]
  · have := o.group g
    rwa [h.sector g] at this

/-- The margin's clearing, the first step of a taken ADJUST (R11). -/
def unmargined (g : Sector) (s : State) : State := s.modTable g fun r => { r with margin := 0 }

theorem adjustElev_settled (g : Sector) (c : Nat) (s : State) : Settled (raiseElev g c (unmargined g s)) (finish (adjustElev g c s)) :=
  ((Repaced.rederive g (raiseElev g c (unmargined g s))).trans (.passSet _ true)).settled

/-- What a taken ADJUST of c tenths leaves of s (R11, R22, R29 to R31). -/
structure Adjusted (g : Sector) (c : Nat) (e : Int) (s t : State) : Prop where
  table : (t.sector g).table = { (s.sector g).table with elev := some (e + c), margin := 0 }
  layers : (t.sector g).layers = (s.sector g).layers.released (e + c - s.h10)
  released : Released g (leaving (e + c - s.h10) (s.stack g)) s t
  strokes : (t.sector g).group.strokes = (s.sector g).group.strokes
  dwell : staying (e + c - s.h10) (s.stack g) ≠ [] → (t.sector g).pace.dwell = (s.sector g).pace.dwell
  others : ∀ h, h ≠ g → (t.sector h).held = (s.sector h).held
  settings : t.settings = s.settings
  feed : t.feed = s.feed
  supply : t.supply = s.supply

/-- A taken ADJUST, the goal test and the grant pass after it (R11). -/
theorem Adjusted.finish {s : State} {g : Sector} {e : Int} (c : Nat) (he : (s.sector g).table.elev = some e) :
    Adjusted g c e s (Machine.finish (adjustElev g c s)) := by
  have hmg : (unmargined g s).sector g = { s.sector g with table := { (s.sector g).table with margin := 0 } } := sector_modSector_self s g _
  have hmh : ∀ h, h ≠ g → (unmargined g s).sector h = s.sector h := fun h e => sector_modSector_ne s _ e
  have hst : (unmargined g s).stack g = s.stack g := by rw [State.stack, hmg]; rfl
  have hb : (unmargined g s).raisedBottom g c = e + c - s.h10 := raisedBottom_eq (by rw [hmg]; exact he) c
  have hr : (raiseElev g c (unmargined g s)).sector g = ((unmargined g s).sector g).raised c (e + c - s.h10) := by
    rw [sector_raiseElev_self, hb]
  obtain ⟨f1, f2, f3, f4⟩ := raiseElev_frame g c (unmargined g s)
  have hs := adjustElev_settled g c s
  have hrel := released_raiseElev g c (unmargined g s)
  rw [hb, hst] at hrel
  obtain ⟨ht, hl, -⟩ := (Prod.ext_iff.1 (hs.held g)).imp id Prod.ext_iff.1
  refine ⟨?_, ?_, hrel.congr rfl rfl hs.tables, ?_, fun hne => ?_, fun h e => ?_, hs.settings.trans f1, hs.feed.trans f2, hs.supply.trans f4⟩
  · rw [show ((Machine.finish (adjustElev g c s)).sector g).table = _ from ht, hr, hmg]
    simp only [SectorState.raised, SectorState.released, SectorRec.raised, SectorState.held, he, Option.map_some]
  · rw [show ((Machine.finish (adjustElev g c s)).sector g).layers = _ from hl, hr, hmg]; rfl
  · rw [(hs.group g).1, hr, hmg]; rfl
  · have hne : (staying (e + c - s.h10) (s.sector g).layers.stack).isEmpty = false := by simpa [State.stack] using hne
    rw [hs.dwell, hr, hmg]
    simp only [SectorState.raised, SectorState.released, hne, Bool.false_eq_true, if_false]
  · rw [hs.held, sector_raiseElev_ne _ _ e, hmh h e]

theorem adjustElev_ports (g : Sector) (c : Nat) (s : State) : (finish (adjustElev g c s)).ports = s.ports :=
  (adjustElev_settled g c s).ports.trans (raiseElev_frame g c (unmargined g s)).2.2.1

/-- What the ports hold does not matter to it. -/
theorem Adjusted.of_setPort {g : Sector} {c : Nat} {e : Int} {s u : State} {p q : PortId} {x y : Port} (h : Adjusted g c e (s.setPort p x) u) :
    Adjusted g c e s (u.setPort q y) := by
  obtain ⟨h1, h2, h3, h4, h5, h6, h7, h8, h9⟩ := h
  cases p <;> cases q <;> exact ⟨h1, h2, h3, h4, h5, h6, h7, h8, h9⟩

/-- ADJUST of a SUSPECT sector whose group is not in flight is taken, c limited to the margin (R11). -/
theorem serveAdjust_eq {s : State} {g : Sector} {e : Int} (c : Nat) (he : (s.sector g).table.elev = some e) (hs : s.suspect g = true)
    (hf : (s.groupState g).inFlight = false) :
    serveAdjust g.val c s = (finish (adjustElev g (min c (s.sector g).table.margin) s),
      ⟨okOr (decide ((s.sector g).table.margin < c)),
        figB (min c (s.sector g).table.margin) ++ elevB (e + (min c (s.sector g).table.margin : Nat))⟩) := by
  have hclamp : (min c (s.sector g).table.margin ≠ c) = ((s.sector g).table.margin < c) := propext (by omega)
  have ht := (Adjusted.finish (min c (s.sector g).table.margin) he).table
  have hel : (finish (adjustElev g (min c (s.sector g).table.margin) s)).elev g = e + (min c (s.sector g).table.margin : Nat) := by
    rw [State.elev, ht]; rfl
  simp only [serveAdjust, toSector_val, adjustRefusal_none he hs hf, hel, hclamp]

/-- Settles O15: ADJUST is the raise of E by what it takes of the margin, the goal test and a grant pass. -/
theorem adjust : Obligations.Adjust := by
  intro s g c e hr he hs hf hc taken bottom gone left
  have hp : parsePayload .adjust (byteOf g.val :: be16 c) = some (.adjust g.val c) := by
    have hg : (byteOf g.val).toNat = g.val := by rw [byteOf_toNat]; omega
    show some (Request.adjust (byteOf g.val).toNat (u16 (byteOf (c / 256)) (byteOf c))) = _
    rw [hg, u16_be16 hc]
  have hserve : serveRequest (.adjust g.val c) (toHunting .console s) = _ :=
    serveAdjust_eq (s := toHunting .console s) c (by rw [toHunting, sector_setPort]; exact he) hs hf
  have h := Adjusted.finish (s := toHunting .console s) (g := g) taken (by rw [toHunting, sector_setPort]; exact he)
  have ha := arrive_answers (k := .adjust) hr hp
  rw [show serveRequest (.adjust g.val c) (toHunting (roleOf .adjust) s) = _ from hserve] at ha
  obtain ⟨ht, hans⟩ := ha (adjustElev_ports g _ _)
  have h : Adjusted g taken e s (arrive .console .adjust (byteOf g.val :: be16 c) s) := by
    rw [show arrive .console .adjust (byteOf g.val :: be16 c) s = _ from ht]
    exact h.of_setPort
  exact ⟨_, rfl, hans, h.table, h.layers.trans (released_eq _ _), h.released, h.strokes, h.dwell, h.others, h.settings, h.feed, h.supply⟩

end Sys2Proof.Machine
end

