-- ==== Sys2Proof/Proofs/Establish.lean ====
section
/-! SUPPORT. The completeness test (R158), and a grant pass that finds nothing to serve (R111); ESTABLISH (Establish). -/

namespace Sys2Proof.Machine

/-! ### The completeness test -/

theorem profileReady_iff (s : State) : ProfileReady s ↔ (s.complete && s.allEstablished) = true := by
  have hne : (!s.enabledSectors.isEmpty) = true ↔ ∃ g, s.enabled g = true := by
    simp only [Bool.not_eq_true', List.isEmpty_eq_false_iff, ne_eq, State.enabledSectors, List.filter_eq_nil_iff, not_forall, not_not]
    exact ⟨fun ⟨g, _, h⟩ => ⟨g, h⟩, fun ⟨g, h⟩ => ⟨g, mem_allSectors g, h⟩⟩
  have hall : ∀ p : Sector → Bool, s.enabledSectors.all p = true ↔ ∀ g, s.enabled g = true → p g = true := fun p => by
    simp only [State.enabledSectors, List.all_eq_true, List.mem_filter]
    exact ⟨fun h g hg => h g ⟨mem_allSectors g, hg⟩, fun h g hg => h g hg.2⟩
  simp only [ProfileReady, State.complete, State.allEstablished, Bool.and_eq_true, hne, hall]
  exact ⟨fun ⟨h1, h2, h3, h4⟩ => ⟨⟨⟨⟨h1, h2⟩, h3⟩, fun g hg => ⟨(h4 g hg).1, (h4 g hg).2.1⟩⟩, fun g hg => (h4 g hg).2.2⟩,
    fun ⟨⟨⟨⟨h1, h2⟩, h3⟩, h4⟩, h5⟩ => ⟨h1, h2, h3, fun g hg => ⟨(h4 g hg).1, (h4 g hg).2, h5 g hg⟩⟩⟩

/-- A profile stays ready where settings and SECTOR blocks are kept and established sectors stay established. -/
theorem ProfileReady.mono {s t : State} (h : ProfileReady s) (hs : t.settings = s.settings)
    (hb : ∀ g, t.enabled g = s.enabled g ∧ (t.sector g).table.written = (s.sector g).table.written
      ∧ (t.sector g).table.mix = (s.sector g).table.mix) (he : ∀ g, s.established g = true → t.established g = true) : ProfileReady t := by
  obtain ⟨h1, h2, ⟨i, h3⟩, h4⟩ := h
  have hd : t.deckWritten = s.deckWritten := congrArg (·.2.2.2.1) hs
  have hm : ∀ m, t.mix m = s.mix m := fun m => by rw [State.mix, State.mix, show t.mixes = s.mixes from congrArg (·.2.2.2.2.1) hs]
  have hw : t.sweep = s.sweep := congrArg (·.2.2.2.2.2.1) hs
  refine ⟨hd.trans h1, by rw [hw]; exact h2, ⟨i, (hb i).1.trans h3⟩, fun g hg => ?_⟩
  obtain ⟨b1, b2, b3⟩ := hb g
  obtain ⟨k1, k2, k3⟩ := h4 g (b1.symm.trans hg)
  exact ⟨b2.trans k1, by rw [b3, hm]; exact k2, he g k3⟩

theorem Kept.profileReady {s t : State} (h : Kept s t) : ProfileReady t ↔ ProfileReady s := by
  have ht : ∀ g, (t.sector g).table = (s.sector g).table := fun g => congrArg (·.1) (h.held g)
  refine ⟨fun k => k.mono h.settings.symm (fun g => ?_) fun g => ?_, fun k => k.mono h.settings (fun g => ?_) fun g => ?_⟩ <;>
    simp [State.enabled, State.established, ht]

theorem enterStandby_mode (s : State) : (enterStandby s).mode = .standby := rfl

/-- In UNSET and STANDBY the completeness test leaves the mode that the profile asks for (R158). -/
theorem modeTested_completenessTest {s : State} (hm : s.mode = .unset ∨ s.mode = .standby) : ModeTested (completenessTest s) := by
  have hiff := (Aside.completenessTest s).toKept.profileReady
  rw [ModeTested, hiff, profileReady_iff]
  cases hc : s.complete && s.allEstablished <;> rcases hm with hm | hm <;> simp [completenessTest, hm, hc, enterUnset, enterStandby_mode]

/-! ### A grant pass that finds nothing -/

/-- Outside SURVEY, CLIMB and HOLD, with no group STALLED, there is nothing to serve (R111). -/
theorem serveOne_idle {s : State} (hm : s.mode = .unset ∨ s.mode = .standby) (hf : s.anyInFlight = false) : serveOne s = (s, false) := by
  have hst : s.stalledList = [] := by
    refine List.filter_eq_nil_iff.2 fun g _ hg => ?_
    have hg : s.groupState g = .stalled := by simpa using hg
    have := not_inFlight hf g
    rw [hg] at this; cases this
  rcases hm with hm | hm <;> simp [serveOne, hm, hst, DeckMode.permitsResume, DeckMode.permitsCreep]

theorem finish_idle {s : State} (hm : s.mode = .unset ∨ s.mode = .standby) (hf : s.anyInFlight = false) :
    finish s = { s with passDue := false } := by
  have hg : ∀ n, grantPass n s = s := fun n => by
    cases n with
    | zero => rfl
    | succ n =>
      rw [grantPass, serveOne_idle hm hf]
      simp
  unfold finish; split
  · rw [hg]
  · next h => rw [← Bool.eq_false_iff.2 h]

/-! ### ESTABLISH -/

theorem updateGoal_mode (g : Sector) (s : State) : (updateGoal g s).mode = s.mode := by
  have hload : ∀ u, (checkLoad u).mode = u.mode := fun u => by unfold checkLoad; split <;> rfl
  unfold updateGoal setCount; dsimp only; split
  · split
    · rw [hload]; rfl
    · rfl
  · split <;> rfl

/-- Outside CLIMB a change of the at-goal state leaves the mode (R75). -/
theorem rederive_mode {s : State} (hm : s.mode ≠ .climb) (g : Sector) : (rederive g s).mode = s.mode := by
  unfold rederive; dsimp only; split
  · exact updateGoal_mode g s
  · rw [goalTest, updateGoal_mode, if_neg (by simp [hm])]; exact updateGoal_mode g s

/-- The records of the sector as ESTABLISH sets them (R13). -/
def SectorState.founded (x : SectorState) (e b : Int) : SectorState :=
  { x with table := { x.table with elev := some e, margin := 0 }, layers := { x.layers with top := some b, wallBase := some b } }

theorem setElev_repaced (g : Sector) (e : Int) (s : State) :
    Repaced (s.modSector g fun x => x.founded e (e - s.h10)) (setElev g e s) := by
  have h : rebase g (s.modTable g fun r => { r with elev := some e, margin := 0 }) = s.modSector g fun x => x.founded e (e - s.h10) := by
    have hb : (s.modTable g fun r => { r with elev := some e, margin := 0 }).bottom g = e - s.h10 := by
      rw [State.bottom, State.elev, modTable_eq, sector_modSector_self]; rfl
    rw [rebase, hb, modTable_eq, modLayers_eq, modSector_modSector]
    rfl
  rw [← h]
  exact .rederive g _

theorem setElev_mode {s : State} (hm : s.mode ≠ .climb) (g : Sector) (e : Int) : (setElev g e s).mode = s.mode :=
  rederive_mode (s := rebase g (s.modTable g fun r => { r with elev := some e, margin := 0 })) hm g

/-- What a taken ESTABLISH leaves of s (R13, R158). -/
structure Founded (g : Sector) (e : Int) (s t : State) : Prop where
  table : (t.sector g).table = { (s.sector g).table with elev := some e, margin := 0 }
  layers : (t.sector g).layers = { (s.sector g).layers with top := some (e - s.h10), wallBase := some (e - s.h10) }
  mode : ModeTested t
  others : ∀ h, h ≠ g → (t.sector h).held = (s.sector h).held
  group : ∀ h, (t.sector h).group = (s.sector h).group
  settings : t.settings = s.settings
  feed : t.feed = s.feed
  tables : t.tables = s.tables
  supply : t.supply = s.supply

theorem Founded.finish {s : State} (hm : s.mode = .unset ∨ s.mode = .standby) (hf : s.anyInFlight = false) (g : Sector) (e : Int) :
    Founded g e s (Machine.finish (completenessTest (setElev g e s))) := by
  have hr := setElev_repaced g e s
  have hk := Aside.completenessTest (setElev g e s)
  have hself : (s.modSector g fun x => x.founded e (e - s.h10)).sector g = (s.sector g).founded e (e - s.h10) := sector_modSector_self s g _
  have hsec : ∀ h, (setElev g e s).sector h = { (s.modSector g fun x => x.founded e (e - s.h10)).sector h with pace := ((setElev g e s).sector h).pace } :=
    hr.sector
  have hgroup : ∀ h, ((completenessTest (setElev g e s)).sector h).group = (s.sector h).group := fun h => by
    rw [hk.group, hsec, sector_modSector]; split
    · next e => subst e; rfl
    · rfl
  have hmode : (setElev g e s).mode = .unset ∨ (setElev g e s).mode = .standby := by
    rw [setElev_mode (by rcases hm with h | h <;> rw [h] <;> decide)]; exact hm
  have htest := modeTested_completenessTest hmode
  have hmode' : (completenessTest (setElev g e s)).mode = .unset ∨ (completenessTest (setElev g e s)).mode = .standby := by
    by_cases hp : ProfileReady (completenessTest (setElev g e s))
    · exact .inr (htest.1 hp)
    · exact .inl (htest.2 hp)
  have hf' : (completenessTest (setElev g e s)).anyInFlight = false := by
    simp only [State.anyInFlight, State.groupState, hgroup]; exact hf
  have heldOf : ∀ h, ((completenessTest (setElev g e s)).sector h).held
      = ((s.modSector g fun x => x.founded e (e - s.h10)).sector h).held := fun h => by rw [hk.held, hsec]; rfl
  have hg := heldOf g
  rw [hself] at hg
  simp only [SectorState.held, SectorState.founded, Prod.mk.injEq] at hg
  obtain ⟨ht, hl, -⟩ := hg
  rw [finish_idle hmode' hf']
  have hset : (completenessTest (setElev g e s)).settings = s.settings := hk.settings.trans (hr.settings.trans rfl)
  refine ⟨ht, hl, ?_, fun h hh => ?_, hgroup, hset, hk.feed.trans hr.feed, hk.tables.trans hr.tables, hk.supply.trans hr.supply⟩
  · exact htest
  · exact (heldOf h).trans (by rw [sector_modSector_ne _ _ hh])

/-- A profile that was ready is ready with one more sector established. -/
theorem Founded.ready {g : Sector} {e : Int} {s t : State} (h : Founded g e s t) (hs : ProfileReady s) : ProfileReady t := by
  have table : ∀ i, (t.sector i).table = if i = g then { (s.sector g).table with elev := some e, margin := 0 } else (s.sector i).table := by
    intro i; split
    · next hi => subst hi; exact h.table
    · next hi => exact congrArg (·.1) (h.others i hi)
  refine hs.mono h.settings (fun i => ?_) fun i hi => ?_
  · rw [State.enabled, State.enabled, table]; split
    · next hi => subst hi; exact ⟨rfl, rfl, rfl⟩
    · exact ⟨rfl, rfl, rfl⟩
  · rw [State.established, table]; split
    · rfl
    · exact hi

/-- What the ports hold does not matter to it. -/
theorem Founded.of_setPort {g : Sector} {e : Int} {s u : State} {p q : PortId} {x y : Port} (h : Founded g e (s.setPort p x) u)  :
    Founded g e s (u.setPort q y) := by
  obtain ⟨h1, h2, h3, h4, h5, h6, h7, h8, h9⟩ := h
  cases p <;> cases q <;> exact ⟨h1, h2, h3, h4, h5, h6, h7, h8, h9⟩

theorem establish_ports (g : Sector) (e : Int) (s : State) : (finish (completenessTest (setElev g e s))).ports = s.ports :=
  (Kept.finish _).ports.trans ((Aside.completenessTest _).ports.trans (setElev_repaced g e s).ports)

/-- ESTABLISH that passes R12's rows is taken. -/
theorem establishRefusal_eq_none {s : State} {g : Sector} {e : Int} (hm : s.mode = .unset ∨ s.mode = .standby) (hd : s.deckWritten = true)
    (hw : (s.sector g).table.written = true) (hf : s.anyInFlight = false) (hst : s.stack g = [])
    (ht : s.enabled g = true → ∀ n ∈ s.nbrSet g, s.enabled n = true → s.established n = true → e ≤ s.elev n + s.t10 ∧ s.reach n ≤ e + s.t10) :
    s.establishRefusal g e = none := by
  have htilt : s.establishTilts g e = false := by
    refine Bool.eq_false_iff.2 fun h => ?_
    simp only [State.establishTilts, Bool.and_eq_true, List.any_eq_true, Bool.or_eq_true, decide_eq_true_eq] at h
    obtain ⟨hg, n, hn, ⟨h1, h2⟩, h3⟩ := h
    have := ht hg n hn h1 h2
    omega
  have hmode : ¬(s.mode ≠ .unset ∧ s.mode ≠ .standby) := by tauto
  simp [State.establishRefusal, hmode, hd, hw, hf, hst, htilt]

/-- Settles O14: ESTABLISH sets E, the completeness test follows, and the grant pass finds nothing to serve. -/
theorem establish : Obligations.Establish := by
  intro s g e hr hm hd hw hf hst he taken ht
  have hp : parsePayload .establish (byteOf g.val :: be32 e) = some (.establish g.val e) := by
    have hg : (byteOf g.val).toNat = g.val := by rw [byteOf_toNat]; omega
    show some (Request.establish (byteOf g.val).toNat (u32 (byteOf (e / 16777216)) (byteOf (e / 65536)) (byteOf (e / 256)) (byteOf e))) = _
    rw [hg, u32_be32 he]
  have hn : (toHunting .console s).establishRefusal g taken = none := establishRefusal_eq_none hm hd hw hf hst ht
  have hserve : serveRequest (.establish g.val e) (toHunting .console s) =
      (finish (completenessTest (setElev g taken (toHunting .console s))), ⟨okOr (decide (taken ≠ (e : Int))), elevB taken⟩) := by
    show serveEstablish g.val e (toHunting .console s) = _
    have htaken : (toHunting .console s).elevTaken e = taken := rfl
    simp only [serveEstablish, toSector_val, htaken, hn]
  have h := Founded.finish (s := toHunting .console s) hm hf g taken
  have ha := arrive_answers (k := .establish) hr hp
  rw [show serveRequest (.establish g.val e) (toHunting (roleOf .establish) s) = _ from hserve] at ha
  obtain ⟨harr, hans⟩ := ha (establish_ports g _ _)
  have h : Founded g taken s (arrive .console .establish (byteOf g.val :: be32 e) s) := by
    rw [show arrive .console .establish (byteOf g.val :: be32 e) s = _ from harr]
    exact h.of_setPort
  refine ⟨_, rfl, hans, h.table, h.layers, fun _ => h.mode, fun _ hready => h.mode.1 (h.ready hready), h.others, h.group, h.settings, h.feed, h.tables, h.supply⟩

end Sys2Proof.Machine
end

