-- ==== Sys2Proof/Proofs/Passes.lean ====
section
/-! SUPPORT. Alerts once entered stay entered; what a grant pass leaves alone at a group HOLDING or VENTING (R111), and of the visits while no survey request is pending (R113). -/

namespace Sys2Proof.Machine

/-! ### Alerts stay entered -/

/-- An entry that has just been entered has a count of at most 255 (R187). -/
theorem enterAlert_count_le {k : AlertKind} {g : Option Sector} {s : State} {a : Alert} (h : a ∈ (enterAlert k g s).alerts)
    (hk : a.kind = k) (hg : a.sector = g) : a.count ≤ 255 := by
  unfold enterAlert at h
  split at h
  · obtain ⟨b, -, rfl⟩ := List.mem_map.1 h
    split
    · exact Nat.min_le_left _ _
    · next hn => rw [if_neg hn] at hk hg; exact absurd (by simp [hk, hg]) hn
  · next hn =>
    have hnot : a ∉ s.alerts := fun ha => hn (List.any_eq_true.2 ⟨a, ha, by simp [hk, hg]⟩)
    split at h
    · rcases List.mem_append.1 h with h | h
      · exact absurd h hnot
      · obtain rfl := List.mem_singleton.1 h; exact (by decide : 1 ≤ 255)
    · exact absurd h hnot

/-- An alert entered after others is entered over the whole stretch. -/
theorem entered_of_alerted {s t : State} (h : Alerted s t) (k : AlertKind) (g : Option Sector) : Entered k g s (enterAlert k g t) := by
  rcases entered_enterAlert k g t with ⟨a, ha, hk, hg, hmax⟩ | ⟨hnone, hfull, hlen⟩
  · refine .inl ⟨a, ha, hk, hg, fun b hb b1 b2 => ?_⟩
    obtain ⟨c, hc, c1, c2, hcount⟩ := h.held b hb
    have hle := enterAlert_count_le ha hk hg
    have := hmax c hc (c1.trans b1) (c2.trans b2)
    omega
  · refine .inr ⟨fun b hb hkg => ?_, hfull, hlen⟩
    obtain ⟨c, hc, c1, c2, -⟩ := h.held b hb
    exact hnone c hc ⟨c1.trans hkg.1, c2.trans hkg.2⟩

/-- What has been entered stays entered. -/
theorem Entered.later {k : AlertKind} {g : Option Sector} {s t u : State} (h : Entered k g s t) (hu : Alerted t u) : Entered k g s u := by
  rcases h with ⟨a, ha, hk, hg, hmax⟩ | ⟨hnone, hfull, hlen⟩
  · obtain ⟨b, hb, b1, b2, hcount⟩ := hu.held a ha
    refine .inl ⟨b, hb, b1.trans hk, b2.trans hg, fun c hc c1 c2 => ?_⟩
    have := hmax c hc c1 c2
    omega
  · exact .inr ⟨hnone, hu.full hfull, hlen.trans hu.length⟩

/-! ### What a grant pass leaves alone at a group past its stroke -/

/-- From s to t the group of g, its trim's after-readings and result, its place in the pressure order and its demand are left alone, but that a demand may leave; alerts have been entered. -/
structure Spared (g : Sector) (s t : State) : Prop where
  group : (t.sector g).group = (s.sector g).group
  after : (t.sector g).trim.after = (s.sector g).trim.after
  result : (t.sector g).trim.result = (s.sector g).trim.result
  underWay : (t.sector g).trim.underWay = (s.sector g).trim.underWay
  tries : s.tryUnderWay .after g = true → t.tryUnderWay .after g = true
  order : g ∉ s.pressureOrder → g ∉ t.pressureOrder
  demand : t.demanded g = true → s.demanded g = true
  alerted : Alerted s t

theorem Spared.refl (g : Sector) (s : State) : Spared g s s := ⟨rfl, rfl, rfl, rfl, id, id, id, .refl s⟩

theorem Spared.trans {g : Sector} {s t u : State} (h : Spared g s t) (k : Spared g t u) : Spared g s u :=
  ⟨k.group.trans h.group, k.after.trans h.after, k.result.trans h.result, k.underWay.trans h.underWay, fun x => k.tries (h.tries x),
    fun x => k.order (h.order x), fun x => h.demand (k.demand x), h.alerted.trans k.alerted⟩

/-- The fields of a trim that matter to its after-readings and its result. -/
def Trim.later (t : Trim) := (t.after, t.result, t.underWay)

theorem Spared.of_eq {g : Sector} {s t : State} (hg : (t.sector g).group = (s.sector g).group)
    (ht : (t.sector g).trim.later = (s.sector g).trim.later) (hl : t.line = s.line) (hw : t.waiting = s.waiting)
    (ho : g ∉ s.pressureOrder → g ∉ t.pressureOrder) (hc : ∀ e ∈ t.creepList, e ∈ s.creepList) (ha : t.alerts = s.alerts)
    (hf : t.alertFull = s.alertFull) : Spared g s t := by
  simp only [Trim.later, Prod.mk.injEq] at ht
  refine ⟨hg, ht.1, ht.2.1, ht.2.2, fun h => ?_, ho, fun h => ?_, .of_eq ha hf⟩
  · rwa [State.tryUnderWay, hl, hw]
  · obtain ⟨e, he, hk⟩ := List.any_eq_true.1 h
    exact List.any_eq_true.2 ⟨e, hc e he, hk⟩

theorem Spared.enterAlert (g : Sector) (k : AlertKind) (i : Option Sector) (s : State) : Spared g s (enterAlert k i s) := by
  have ha := Alerted.enterAlert k i s
  rw [enterAlert_eq] at ha ⊢
  exact ⟨rfl, rfl, rfl, rfl, id, id, id, ha⟩

theorem Spared.mapSectors (g : Sector) (s : State) (f : SectorState → SectorState)
    (hf : ∀ x, (f x).group = x.group ∧ (f x).trim.later = x.trim.later) : Spared g s (s.mapSectors f) := by
  refine .of_eq ?_ ?_ rfl rfl id (fun _ h => h) rfl rfl <;> rw [sector_mapSectors]
  · exact (hf _).1
  · exact (hf _).2

theorem Spared.modTrim (g h : Sector) (s : State) (f : Trim → Trim) (hf : h = g → (f (s.sector g).trim).later = (s.sector g).trim.later) :
    Spared g s (s.modTrim h f) := by
  refine .of_eq ?_ ?_ rfl rfl id (fun _ h => h) rfl rfl <;> rw [modTrim_eq, sector_modSector] <;> split
  · next e => subst e; rfl
  · rfl
  · next e => subst e; exact hf rfl
  · rfl

theorem Spared.modGroup {g h : Sector} (e : g ≠ h) (s : State) (f : Group → Group) : Spared g s (s.modGroup h f) := by
  refine .of_eq ?_ ?_ rfl rfl id (fun _ h => h) rfl rfl <;> rw [modGroup_eq, sector_modSector_ne _ _ e]

theorem mem_serveLine {s : State} {t : Try} : t ∈ (serveLine s).line.toList ++ (serveLine s).waiting ↔ t ∈ s.line.toList ++ s.waiting := by
  unfold serveLine; split
  · next hl hw => simp [hl, hw]
  · rfl

theorem tryUnderWay_iff (s : State) (k : TryKind) (g : Sector) :
    s.tryUnderWay k g = true ↔ ∃ t ∈ s.line.toList ++ s.waiting, t.kind = k ∧ t.sector = g ∧ t.live = true := by
  simp only [State.tryUnderWay, List.any_eq_true, Bool.and_eq_true, beq_iff_eq, and_assoc]

/-- A try requested is under way, and those under way stay so. -/
theorem tryUnderWay_requestTry (k k' : TryKind) (g h : Sector) (a : Nat) (s : State)
    (hs : s.tryUnderWay k g = true ∨ (k' = k ∧ h = g)) : (requestTry k' h a s).tryUnderWay k g = true := by
  rw [tryUnderWay_iff] at *
  rcases hs with ⟨t, ht, hk⟩ | ⟨rfl, rfl⟩
  · exact ⟨t, mem_serveLine.2 (by simpa [or_assoc] using Or.inl (List.mem_append.1 ht)), hk⟩
  · exact ⟨⟨k', h, a, true⟩, mem_serveLine.2 (by simp), rfl, rfl, rfl⟩

theorem requestTry_frame (k : TryKind) (g : Sector) (a : Nat) (s : State) :
    requestTry k g a s = { s with line := (requestTry k g a s).line, waiting := (requestTry k g a s).waiting } := by
  unfold requestTry serveLine; split <;> rfl

theorem Spared.requestTry (g h : Sector) (k : TryKind) (a : Nat) (s : State) : Spared g s (requestTry k h a s) := by
  have ht := fun hs => tryUnderWay_requestTry .after k g h a s (.inl hs)
  rw [requestTry_frame] at ht ⊢
  exact ⟨rfl, rfl, rfl, rfl, ht, id, id, .of_eq rfl rfl⟩

/-- Abandoning tries of another kind leaves the after-readings under way. -/
theorem Spared.abandonTries (g : Sector) (p : Try → Bool) (hp : ∀ t, p t = true → t.kind ≠ .after) (s : State) :
    Spared g s (abandonTries p s) := by
  refine ⟨rfl, rfl, rfl, rfl, fun h => ?_, id, id, .of_eq rfl rfl⟩
  rw [tryUnderWay_iff] at *
  obtain ⟨t, ht, hk, hg, hl⟩ := h
  have hpt : p t = false := Bool.eq_false_iff.2 fun h => hp t h hk
  refine ⟨t, ?_, hk, hg, hl⟩
  rcases List.mem_append.1 ht with ht | ht
  · refine List.mem_append_left _ ?_
    have hline : s.line = some t := by simpa using ht
    simp [Machine.abandonTries, hline, hpt]
  · exact List.mem_append_right _ (List.mem_filter.2 ⟨ht, by simp [hpt]⟩)

theorem Spared.setOutcome (g h : Sector) (o : VisitOutcome) (s : State) : Spared g s (setOutcome h o s) := .modTrim g h s _ (by intro; rfl)

theorem Spared.startBefore (g h : Sector) (s : State) : Spared g s (startBefore h s) :=
  (Spared.modTrim g h s _ (by intro; rfl)).trans (.requestTry g h _ _ _)

theorem Spared.abandonBefore (g h : Sector) (s : State) : Spared g s (abandonBefore h s) :=
  (Spared.abandonTries g _ (fun t ht => by simp at ht; simp [ht.1]) s).trans (.modTrim g h _ _ (by intro; rfl))

theorem Spared.writeRejected {g h : Sector} (e : h ≠ g) (k : TrimKind) (s : State) : Spared g s (writeRejected h k s) := by
  unfold Machine.writeRejected writeResult; dsimp only; split
  · exact (Spared.modTrim g h s _ (absurd · e)).trans (.enterAlert g _ _ _)
  · exact .modTrim g h s _ (absurd · e)

theorem Spared.dropTrimRequests (g : Sector) (s : State) : Spared g s (dropTrimRequests s) :=
  (Spared.abandonTries g _ (fun t ht => by simp at ht; simp [ht.1]) s).trans (.mapSectors g _ _ fun _ => ⟨rfl, rfl⟩)

/-- The deck-wide fields that a service writes. -/
theorem Spared.update (g : Sector) (s : State) (m : DeckMode) (q : Option Sector) (st : SurveyState) (v : Option (Sector × VisitPhase))
    (a : Vector (Option Sector) 32) (j : Nat) (l d : Bool) :
    Spared g s { s with mode := m, surveyReq := q, surveyState := st, visit := v, active := a, scanPtr := j, loadPending := l, passDue := d } :=
  .of_eq rfl rfl rfl rfl id (fun _ h => h) rfl rfl

theorem Spared.enterStandby (g : Sector) (s : State) : Spared g s (enterStandby s) := by
  have h : Spared g s { s with mode := .standby, creepList := [], surveyReq := none, passDue := true } :=
    .of_eq rfl rfl rfl rfl id (fun _ h => absurd h List.not_mem_nil) rfl rfl
  exact h.trans (.dropTrimRequests g _)

theorem Spared.surveyDone (g : Sector) (s : State) : Spared g s (surveyDone s) :=
  ((Spared.update g s _ _ _ _ _ _ _ _).trans (.enterStandby g _)).trans (.enterAlert g _ _ _)

theorem Spared.beginVisits (g : Sector) (gs : List Sector) (s : State) : Spared g s (beginVisits gs s) := by
  induction gs generalizing s with
  | nil => exact .surveyDone g s
  | cons h gs ih =>
    unfold Machine.beginVisits; split
    · split
      · exact (Spared.setOutcome g h _ s).trans (ih _)
      · exact (Spared.update g s _ _ _ _ _ _ _ _).trans (.startBefore g h _)
    · exact ih s

theorem Spared.visitEnded (g : Sector) (s : State) : Spared g s (visitEnded s) := by
  have hv : Spared g s { s with visit := none } := .update g s _ _ _ _ _ _ _ _
  unfold Machine.visitEnded; dsimp only; split
  · exact hv.trans (.beginVisits g _ _)
  · exact (hv.trans (.update g _ _ _ _ _ _ _ _ _)).trans (.enterStandby g _)
  · exact hv

theorem Spared.visitBlocked (g h : Sector) (s : State) : Spared g s (visitBlocked h s) :=
  (Spared.setOutcome g h .blocked s).trans (.visitEnded g _)

theorem Spared.trimOnGrant {g h : Sector} (e : h ≠ g) (kind : StrokeKind) (s : State) : Spared g s (trimOnGrant h kind s) := by
  have hm : ∀ f, Spared g s (s.modTrim h f) := fun f => .modTrim g h s f (absurd · e)
  have h1 : Spared g s (match (s.sector h).trim.request with
      | .none => s
      | .held => s.modTrim h fun t => { t with request := .none, underWay := true }
      | .waiting => Machine.writeRejected h .short (s.modTrim h fun t => { t with request := .none })
      | .reading => Machine.writeRejected h .short (Machine.abandonBefore h (s.modTrim h fun t => { t with request := .none }))) := by
    split
    · exact .refl g s
    · exact hm _
    · exact (hm _).trans (.writeRejected e _ _)
    · exact ((hm _).trans (.abandonBefore g h _)).trans (.writeRejected e _ _)
  unfold Machine.trimOnGrant; dsimp only; split
  · exact h1.trans (.update g _ _ _ _ _ _ _ _ _)
  · exact h1

theorem Spared.grant {g h : Sector} (e : h ≠ g) (kind : StrokeKind) (s : State) : Spared g s (grant h kind s) := by
  have h1 : Spared g s (s.modGroup h fun r => r.granted (s.len h) s.deck.window kind) := .modGroup e.symm s _
  have h2 : ∀ u : State, Spared g u { u with pressureOrder := u.pressureOrder ++ [h] } := fun u =>
    .of_eq rfl rfl rfl rfl (fun hn => by simp [hn, e.symm]) (fun _ h => h) rfl rfl
  exact (h1.trans (h2 _)).trans (.trimOnGrant e kind _)

/-- From s to t a group that holds or vents is spared. -/
def SparesAtRest (g : Sector) (s t : State) : Prop := s.groupState g = .holding ∨ s.groupState g = .venting → Spared g s t

theorem SparesAtRest.trans {g : Sector} {s t u : State} (h : SparesAtRest g s t) (k : SparesAtRest g t u) : SparesAtRest g s u := by
  intro hs
  have ht := h hs
  refine ht.trans (k ?_)
  rwa [State.groupState, ht.group]

/-- A group that holds or vents is spared by a grant pass: resumes go to STALLED groups, grants to IDLE ones. -/
theorem SparesAtRest.finish (g : Sector) (s : State) : SparesAtRest g s (finish s) := by
  have refl : ∀ s, SparesAtRest g s s := fun s _ => .refl g s
  have ne : ∀ {u : State} {h : Sector}, u.groupState g = .holding ∨ u.groupState g = .venting → u.groupState h ≠ .holding →
      u.groupState h ≠ .venting → h ≠ g := by rintro u h hu h1 h2 rfl; exact hu.elim h1 h2
  have grant : ∀ (u : State) (h : Sector) (kind : StrokeKind), u.grantable h = true → SparesAtRest g u (Machine.grant h kind u) := by
    intro u h kind hg hu
    have hidle : u.groupState h = .idle := (grantable_iff.1 hg).2.1
    exact .grant (ne hu (by simp [hidle]) (by simp [hidle])) kind u
  have unasked : ∀ u : State, Spared g u { u with surveyReq := none } := fun u => .update g u _ _ _ _ _ _ _ _
  refine finish_induct (R := SparesAtRest g) refl .trans (fun s => ?_) (fun s _ => .update g s _ _ _ _ _ _ _ _) s
  refine serveOne_induct (R := SparesAtRest g) refl .trans (fun s h hm hs => ?_) (fun s h kind _ => grant s h kind) (fun s h _ hg hs => ?_)
    (fun s h _ _ => ?_) (fun s a j l _ => .update g s _ _ _ _ _ _ _ _) s
  · have hst := stalled_of_mem hm
    exact .modGroup (ne hs (by simp [hst]) (by simp [hst])).symm s _
  · exact (unasked s).trans (grant { s with surveyReq := none } h .survey hg hs)
  · exact (unasked s).trans (.visitBlocked g h _)

/-! ### Visits while no survey request is pending -/

/-- With no survey request pending in s, none is in t, and visit and outcomes are kept. -/
def Unvisited (s t : State) : Prop :=
  s.surveyReq = none → t.surveyReq = none ∧ t.visit = s.visit ∧ ∀ g, (t.sector g).trim.outcome = (s.sector g).trim.outcome

theorem Unvisited.refl (s : State) : Unvisited s s := fun h => ⟨h, rfl, fun _ => rfl⟩

theorem Unvisited.trans {s t u : State} (h : Unvisited s t) (k : Unvisited t u) : Unvisited s u := by
  intro hs
  obtain ⟨h1, h2, h3⟩ := h hs
  obtain ⟨k1, k2, k3⟩ := k h1
  exact ⟨k1, k2.trans h2, fun g => (k3 g).trans (h3 g)⟩

theorem Unvisited.of_eq {s t : State} (hq : t.surveyReq = s.surveyReq) (hv : t.visit = s.visit)
    (ho : ∀ g, (t.sector g).trim.outcome = (s.sector g).trim.outcome) : Unvisited s t := fun h => ⟨hq.trans h, hv, ho⟩

theorem Unvisited.enterAlert (k : AlertKind) (g : Option Sector) (s : State) : Unvisited s (enterAlert k g s) := by
  rw [enterAlert_eq]; exact .of_eq rfl rfl fun _ => rfl

theorem Unvisited.modSector (g : Sector) (s : State) (f : SectorState → SectorState) (hf : ∀ x, (f x).trim.outcome = x.trim.outcome) :
    Unvisited s (s.modSector g f) := by
  refine .of_eq rfl rfl fun h => ?_
  rw [sector_modSector]; split
  · next e => subst e; exact hf _
  · rfl

theorem Unvisited.modTrim (g : Sector) (s : State) (f : Trim → Trim) (hf : ∀ t, (f t).outcome = t.outcome) : Unvisited s (s.modTrim g f) :=
  .modSector g s _ fun _ => hf _

theorem Unvisited.writeRejected (g : Sector) (k : TrimKind) (s : State) : Unvisited s (writeRejected g k s) := by
  unfold Machine.writeRejected writeResult; dsimp only; split
  · exact (Unvisited.modTrim g s _ (by intro; rfl)).trans (.enterAlert _ _ _)
  · exact .modTrim g s _ (by intro; rfl)

theorem Unvisited.trimOnGrant (g : Sector) {kind : StrokeKind} (hk : kind ≠ .survey) (s : State) : Unvisited s (trimOnGrant g kind s) := by
  have hm : ∀ f : Trim → Trim, (∀ t, (f t).outcome = t.outcome) → Unvisited s (s.modTrim g f) := fun f hf => .modTrim g s f hf
  have ha : ∀ u : State, Unvisited u (abandonBefore g u) := fun u =>
    Unvisited.trans (t := abandonTries (fun t => t.kind == .before && t.sector == g) u) (.of_eq rfl rfl fun _ => rfl) (.modTrim g _ _ (by intro; rfl))
  unfold Machine.trimOnGrant; dsimp only
  rw [if_neg hk]
  split
  · exact .refl s
  · exact hm _ (by intro; rfl)
  · exact (hm _ (by intro; rfl)).trans (.writeRejected g _ _)
  · exact ((hm _ (by intro; rfl)).trans (ha _)).trans (.writeRejected g _ _)

theorem Unvisited.grant (g : Sector) {kind : StrokeKind} (hk : kind ≠ .survey) (s : State) : Unvisited s (grant g kind s) := by
  have h1 : Unvisited s (s.modGroup g fun r => r.granted (s.len g) s.deck.window kind) := .modSector g s _ (by intro; rfl)
  have h2 : ∀ u : State, Unvisited u { u with pressureOrder := u.pressureOrder ++ [g] } := fun u => .of_eq rfl rfl fun _ => rfl
  exact (h1.trans (h2 _)).trans (.trimOnGrant g hk _)

/-- With no survey request pending, a grant pass leaves the visits alone. -/
theorem Unvisited.finish (s : State) : Unvisited s (finish s) := by
  refine finish_induct (R := Unvisited) .refl .trans (fun s => ?_) (fun s => .of_eq rfl rfl fun _ => rfl) s
  refine serveOne_induct (R := Unvisited) .refl .trans (fun s g _ => .modSector g s _ (by intro; rfl)) (fun s g kind hk _ => .grant g hk s)
    (fun s g hq _ hn => ?_) (fun s g hq hn => ?_) (fun s a j l => .of_eq rfl rfl fun _ => rfl) s
  · rw [hq] at hn; cases hn
  · rw [hq] at hn; cases hn

end Sys2Proof.Machine
end

