-- ==== Sys2Proof/Proofs/Commits.lean ====
section
/-! SUPPORT. The commit of a stroke in three parts: what marks the group and its flags, the rise of E, and the trim that the stroke serves. -/

namespace Sys2Proof.Machine

/-! ### The marks on the group and its flags -/

/-- What the switch's debounce, a switch fault's note and the commit's own marks on its group leave alone. -/
def State.unmarked (s : State) := (s.settings, s.tables, s.feed, s.supply, s.ports, s.creepList, s.surveyReq, s.visit)

/-- From s to t only the group and the flags of g, the pressure order and the alert list have changed, the flags to f. -/
structure Marked (g : Sector) (f : StickyFlags) (s t : State) : Prop where
  sector : t.sector g = { s.sector g with table := { (s.sector g).table with flags := f }, group := (t.sector g).group }
  others : ∀ h, h ≠ g → t.sector h = s.sector h
  rest : t.unmarked = s.unmarked
  alerted : Alerted s t

theorem Marked.refl (g : Sector) (s : State) : Marked g (s.sector g).table.flags s s := ⟨rfl, fun _ _ => rfl, rfl, .refl s⟩

theorem Marked.modGroup {g : Sector} {f : StickyFlags} {s t : State} (h : Marked g f s t) (k : Group → Group) : Marked g f s (t.modGroup g k) := by
  refine ⟨?_, fun i e => ?_, h.rest, h.alerted.trans (.of_eq rfl rfl)⟩
  · rw [modGroup_eq, sector_modSector_self, h.sector]
  · rw [modGroup_eq, sector_modSector_ne _ _ e]; exact h.others i e

theorem Marked.leavePressure {g : Sector} {f : StickyFlags} {s t : State} (h : Marked g f s t) (i : Sector) :
    Marked g f s (leavePressure i t) := ⟨h.sector, h.others, h.rest, h.alerted.trans (.of_eq rfl rfl)⟩

theorem sector_enterAlert (k : AlertKind) (g : Option Sector) (s : State) (h : Sector) : (enterAlert k g s).sector h = s.sector h := by
  rw [enterAlert_eq]; rfl

theorem enterAlert_unmarked (k : AlertKind) (g : Option Sector) (s : State) : (enterAlert k g s).unmarked = s.unmarked := by
  rw [enterAlert_eq]; rfl

/-- A switch fault is noted in an enabled sector (R87). -/
theorem Marked.noteSwitchFault {g : Sector} {f : StickyFlags} {s t : State} (h : Marked g f s t) (he : t.enabled g = true) :
    Marked g { f with switchFault := true } s (noteSwitchFault g t) ∧ Entered .switchFault (some g) s (noteSwitchFault g t) := by
  have hn : Machine.noteSwitchFault g t = enterAlert .switchFault (some g) (t.modFlags g fun f => { f with switchFault := true }) := by
    rw [Machine.noteSwitchFault, if_pos he]
  have ha : Alerted s (t.modFlags g fun f => { f with switchFault := true }) := h.alerted.trans (.of_eq rfl rfl)
  rw [hn]
  refine ⟨⟨?_, fun i e => ?_, ?_, ha.trans (.enterAlert _ _ _)⟩, entered_of_alerted ha _ _⟩
  · rw [sector_enterAlert, modFlags_eq, sector_modSector_self, h.sector]
  · rw [sector_enterAlert, modFlags_eq, sector_modSector_ne _ _ e]; exact h.others i e
  · rw [enterAlert_unmarked]; exact h.rest

/-! ### The rise of E at a commit -/

theorem sector_checkLoad (s : State) (g : Sector) : (checkLoad s).sector g = s.sector g := by unfold checkLoad; split <;> rfl

theorem consumeRequest_count (g : Sector) (s : State) : ((consumeRequest g s).sector g).pace.count = (s.sector g).pace.count - 1 := by
  have h : ((s.modPace g fun p => { p with count := (s.sector g).pace.count - 1 }).sector g).pace.count = (s.sector g).pace.count - 1 := by
    rw [modPace_eq, sector_modSector_self]
  unfold consumeRequest setCount; dsimp only; split
  · rw [sector_checkLoad]; exact h
  · exact h

/-- What the rise of E by l leaves at a commit (R7, R29, R71, R76, R78). -/
structure Risen (g : Sector) (e : Int) (l : Nat) (s t : State) : Prop where
  table : (t.sector g).table = { (s.sector g).table with elev := some (e + l) }
  layers : (t.sector g).layers = (s.sector g).layers.released (e + l - s.h10)
  group : (t.sector g).group = (s.sector g).group
  trim : (t.sector g).trim = (s.sector g).trim
  dwell : (t.sector g).pace.dwell = 0
  count : (t.sector g).pace.count ≤ (s.sector g).pace.count - 1
  demand : 0 < s.deck.dwell → t.demanded g = false
  released : Released g (leaving (e + l - s.h10) (s.stack g)) s t
  others : ∀ h, h ≠ g → (t.sector h).held = (s.sector h).held
  settings : t.settings = s.settings
  feed : t.feed = s.feed
  supply : t.supply = s.supply
  ports : t.ports = s.ports
  visit : t.visit = s.visit
  surveyReq : t.surveyReq = s.surveyReq
  order : t.pressureOrder = s.pressureOrder
  alerted : Alerted s t

theorem Repaced.removeDemand (g : Sector) (s : State) : Repaced s (removeDemand g s) :=
  Repaced.update s s.mode (s.creepList.filter fun e => e.sector != g) s.active s.scanPtr s.loadPending s.passDue fun _ h =>
    .inl (List.mem_filter.1 h).1

theorem demanded_removeDemand (g : Sector) (s : State) : (removeDemand g s).demanded g = false := by
  simp [Machine.removeDemand, State.demanded]

/-- After the raise the dwell counter is 0, one paced request is consumed, the demand is removed, and the goal's state is derived again (R71, R74, R76, R78). -/
theorem commitRise_eq {g : Sector} {l : Nat} {s : State} (hl : (s.sector g).group.latched = some l) :
    commitRise g s = rederive g (removeDemand g (consumeRequest g ((raiseElev g l s).modPace g fun p => { p with dwell := 0 }))) := by
  rw [commitRise, hl]; rfl

theorem raiseElev_alerts (g : Sector) (n : Nat) (s : State) :
    (raiseElev g n s).alerts = s.alerts ∧ (raiseElev g n s).alertFull = s.alertFull := by
  simp [logReleases, raiseElev_eq]

theorem raiseElev_arbiter (g : Sector) (n : Nat) (s : State) :
    (raiseElev g n s).pressureOrder = s.pressureOrder ∧ (raiseElev g n s).surveyReq = s.surveyReq ∧ (raiseElev g n s).visit = s.visit := by
  simp [logReleases, raiseElev_eq]

theorem Risen.commitRise {g : Sector} {e : Int} {l : Nat} {s : State} (he : (s.sector g).table.elev = some e)
    (hl : (s.sector g).group.latched = some l) : Risen g e l s (commitRise g s) := by
  have hr : (raiseElev g l s).sector g = (s.sector g).raised l (e + l - s.h10) := by rw [sector_raiseElev_self, raisedBottom_eq he]
  have hrel := released_raiseElev g l s
  rw [raisedBottom_eq he] at hrel
  rw [commitRise_eq hl]
  generalize hu : (raiseElev g l s).modPace g (fun p => { p with dwell := 0 }) = u
  have hug : u.sector g = { (s.sector g).raised l (e + l - s.h10) with pace := { ((s.sector g).raised l (e + l - s.h10)).pace with dwell := 0 } } := by
    rw [← hu, modPace_eq, sector_modSector_self, hr]
  have huh : ∀ h, h ≠ g → u.sector h = s.sector h := fun h e => by
    rw [← hu, modPace_eq, sector_modSector_ne _ _ e, sector_raiseElev_ne _ _ e]
  have hurest : u.unpaced = (raiseElev g l s).unpaced := by rw [← hu]; rfl
  have hc := Repaced.consumeRequest g u
  have hd := Repaced.removeDemand g (consumeRequest g u)
  have ht := Repaced.rederive g (removeDemand g (consumeRequest g u))
  have hall := (hc.trans hd).trans ht
  obtain ⟨f1, f2, f3, f4⟩ := raiseElev_frame g l s
  obtain ⟨a1, a2⟩ := raiseElev_alerts g l s
  obtain ⟨r1, r2, r3⟩ := raiseElev_arbiter g l s
  have halert : Alerted s u := by rw [← hu]; exact .of_eq a1 a2
  have hsec := hall.sector g
  have hrest := hall.unpaced.trans hurest
  simp only [State.unpaced, Prod.mk.injEq, f1, f2, f3, f4, r1, r2, r3] at hrest
  obtain ⟨e1, e2, e3, e4, e5, e6, e7, -, e9, -⟩ := hrest
  have hdwell : ((removeDemand g (consumeRequest g u)).sector g).pace.dwell = 0 := by rw [(hc.trans hd).dwell, hug]
  refine ⟨?_, ?_, ?_, ?_, ?_, ?_, fun hlim => ?_, hrel.congr rfl rfl e2, fun h e => ?_, e1, e3, e5, e4, e9, e7, e6, halert.trans hall.alerted⟩
  · rw [hsec, hug]; simp only [SectorState.raised, SectorState.released, SectorRec.raised, he, Option.map_some]
  · rw [hsec, hug]; rfl
  · rw [hsec, hug]; rfl
  · rw [hsec, hug]; rfl
  · rw [ht.dwell, hdwell]
  · have hcount : (((s.sector g).raised l (e + l - s.h10)).pace).count = (s.sector g).pace.count := by
      simp only [SectorState.raised, SectorState.released]; split <;> rfl
    have h1 := consumeRequest_count g u
    rw [hug] at h1
    have h2 := (hd.trans ht).count g
    rw [h1] at h2
    exact h2.trans (Nat.sub_le_sub_right (Nat.le_of_eq hcount) 1)
  · refine Bool.eq_false_iff.2 fun hdem => ?_
    rcases ht.demanded g hdem with h | h
    · rw [demanded_removeDemand] at h; cases h
    · have hdeck : (removeDemand g (consumeRequest g u)).deck = s.deck := by
        rw [(hc.trans hd).deck, ← hu]; exact raiseElev_deck g l s
      rw [hdwell, hdeck] at h; omega
  · rw [hall.sector h, huh h e]; rfl

end Sys2Proof.Machine
end

