-- ==== Sys2Proof/Proofs/CommitTrims.lean ====
section
/-! SUPPORT. The trim that a committing stroke serves: its after-readings begin, or it is REJECTED (R91, R93, R150, R152). -/

namespace Sys2Proof.Machine

/-! ### What the trim's part of a commit leaves alone -/

/-- From s to t trims, tries, visits and groups have moved and alerts have been entered; demands and the pressure order are kept. -/
structure Closes (s t : State) : Prop extends Kept s t where
  creepList : t.creepList = s.creepList
  order : t.pressureOrder = s.pressureOrder
  alerted : Alerted s t

theorem Closes.trans {s t u : State} (h : Closes s t) (k : Closes t u) : Closes s u :=
  ⟨h.toKept.trans k.toKept, k.creepList.trans h.creepList, k.order.trans h.order, h.alerted.trans k.alerted⟩

theorem Closes.modTrim (s : State) (g : Sector) (f : Trim → Trim) : Closes s (s.modTrim g f) := ⟨.modTrim s g f, rfl, rfl, .of_eq rfl rfl⟩

theorem Closes.modGroup (s : State) (g : Sector) (f : Group → Group) : Closes s (s.modGroup g f) := ⟨.modGroup s g f, rfl, rfl, .of_eq rfl rfl⟩

theorem Closes.enterAlert (k : AlertKind) (g : Option Sector) (s : State) : Closes s (enterAlert k g s) := by
  refine ⟨.enterAlert k g s, ?_, ?_, .enterAlert k g s⟩ <;> rw [enterAlert_eq]

theorem Closes.requestTry (k : TryKind) (g : Sector) (a : Nat) (s : State) : Closes s (requestTry k g a s) := by
  refine ⟨.requestTry k g a s, ?_, ?_, ?_⟩ <;> rw [requestTry_frame]
  exact .of_eq rfl rfl

theorem Closes.abandonTries (p : Try → Bool) (s : State) : Closes s (abandonTries p s) := ⟨.abandonTries p s, rfl, rfl, .of_eq rfl rfl⟩

theorem Closes.passSet (s : State) (d : Bool) : Closes s { s with passDue := d } :=
  ⟨⟨rfl, rfl, rfl, rfl, rfl, rfl, rfl, rfl, rfl, fun _ => rfl, fun _ => rfl⟩, rfl, rfl, .of_eq rfl rfl⟩

theorem Closes.visitSet (s : State) (v : Option (Sector × VisitPhase)) : Closes s { s with visit := v } :=
  ⟨⟨rfl, rfl, rfl, rfl, rfl, rfl, rfl, rfl, rfl, fun _ => rfl, fun _ => rfl⟩, rfl, rfl, .of_eq rfl rfl⟩

/-! ### A trim rejected -/

/-- The trim of g, of that kind, closed with a REJECTED result without a level difference (R147, R150, R152). -/
def rejectTrim (g : Sector) (kind : TrimKind) (s : State) : State := closeTrim g kind .rejected (writeRejected g kind s)

/-- That result, at the length and the minute of s. -/
def State.rejected (s : State) (g : Sector) (kind : TrimKind) : TrimResult :=
  { kind := kind, code := .rejected, oldLen := s.len g, newLen := s.len g, diff := none, minute := s.minute }

theorem writeRejected_eq (g : Sector) (kind : TrimKind) (s : State) :
    writeRejected g kind s = enterAlert .trimRejected (some g) (s.modTrim g fun t => { t with result := some (s.rejected g kind) }) := rfl

theorem Closes.closeTrim (g : Sector) (kind : TrimKind) (code : TrimCode) (s : State) : Closes s (closeTrim g kind code s) := by
  cases kind with
  | short => exact .modTrim s g fun t => { t with underWay := false, before := [], after := [] }
  | survey =>
    have h1 : Closes s (s.modTrim g fun t => { t with before := [], after := [] }) := .modTrim s g _
    exact (h1.trans (.visitSet _ (some (g, .resultMade)))).trans (.modTrim _ g fun t => { t with outcome := some code.outcome })

theorem Closes.rejectTrim (g : Sector) (kind : TrimKind) (s : State) : Closes s (rejectTrim g kind s) := by
  have h : Closes s (writeRejected g kind s) := by
    rw [writeRejected_eq]; exact (Closes.modTrim s g _).trans (.enterAlert _ _ _)
  exact h.trans (.closeTrim g kind _ _)

/-- A visit whose trim has a result keeps the result, and takes its outcome (R152). -/
theorem trim_closeTrim_survey (g : Sector) (code : TrimCode) (s : State) :
    ((closeTrim g .survey code s).sector g).trim = { (s.sector g).trim with before := [], after := [], outcome := some code.outcome } := by
  have h := sector_modSector_self s g fun x => { x with trim := { x.trim with before := [], after := [] } }
  rw [closeTrim, setOutcome, modTrim_eq, sector_modSector_self]
  exact congrArg (fun x : SectorState => { x.trim with outcome := some code.outcome }) h

/-- What t holds of the trim of g rejected, with the length and the minute of s. -/
structure Rejects (g : Sector) (kind : TrimKind) (s t : State) : Prop where
  entered : ∀ r, Alerted r s → Entered .trimRejected (some g) r t
  result : (t.sector g).trim.result = some (s.rejected g kind)
  short : kind = .short → (t.sector g).trim.underWay = false
  survey : kind = .survey → (t.sector g).trim.outcome = some .rejected ∧ t.visit = some (g, .resultMade)
  surveyReq : t.surveyReq = s.surveyReq

theorem Rejects.rejectTrim (g : Sector) (kind : TrimKind) (s : State) : Rejects g kind s (rejectTrim g kind s) := by
  have hent : ∀ r, Alerted r s → Entered .trimRejected (some g) r (writeRejected g kind s) := fun r h => by
    have h' : Alerted r (s.modTrim g fun t => { t with result := some (s.rejected g kind) }) := ⟨h.held, h.full, h.length⟩
    rw [writeRejected_eq]; exact entered_of_alerted h' _ _
  have hres : ((writeRejected g kind s).sector g).trim.result = some (s.rejected g kind) := by
    rw [writeRejected_eq, sector_enterAlert, modTrim_eq, sector_modSector_self]
  have hreq : (writeRejected g kind s).surveyReq = s.surveyReq := by rw [writeRejected_eq, enterAlert_eq]; rfl
  unfold Machine.rejectTrim
  generalize writeRejected g kind s = u at hent hres hreq
  cases kind with
  | short =>
    refine ⟨hent, ?_, fun _ => ?_, nofun, hreq⟩ <;> rw [closeTrim, modTrim_eq, sector_modSector_self]
    exact hres
  | survey =>
    refine ⟨hent, ?_, nofun, fun _ => ⟨?_, rfl⟩, hreq⟩ <;> rw [trim_closeTrim_survey]
    · exact hres
    · rfl

/-- It is enough to look at what the result and the alert read. -/
theorem Rejects.from {g : Sector} {kind : TrimKind} {s t u : State} (h : Rejects g kind t u) (ha : Alerted s t) (hl : t.len g = s.len g)
    (hm : t.minute = s.minute) (hq : t.surveyReq = s.surveyReq) : Rejects g kind s u :=
  ⟨fun r k => h.entered r (k.trans ha), by rw [h.result, State.rejected, hl, hm]; rfl, h.short, h.survey, h.surveyReq.trans hq⟩

/-- Without after-readings the result is REJECTED, the level difference absent (R146). -/
theorem makeResult_of_no_after {g : Sector} {s : State} (h : (s.sector g).trim.after = []) (kind : TrimKind) :
    makeResult g kind s = rejectTrim g kind s := by
  have ho : trimOutcome (s.len g) s.t10 (s.sector g).trim.before (s.sector g).trim.after = (.rejected, s.len g, none) := by
    rw [h, trimOutcome]; cases fourSum (s.sector g).trim.before <;> rfl
  rw [makeResult, ho]; rfl

/-- A late commit: the trim that awaits its result is REJECTED (R93, R150). -/
theorem rejectAwaiting_rejects (g : Sector) (s : State) :
    Closes s { rejectAwaiting g s with passDue := true }
      ∧ ∀ kind, s.awaiting g = some kind → Rejects g kind s { rejectAwaiting g s with passDue := true } := by
  unfold rejectAwaiting
  cases ha : s.awaiting g with
  | none => exact ⟨.passSet s true, nofun⟩
  | some kind =>
    refine ⟨(Closes.rejectTrim g kind s).trans (.passSet _ true), fun k hk => ?_⟩
    obtain rfl := Option.some.inj hk
    obtain ⟨h1, h2, h3, h4, h5⟩ := Rejects.rejectTrim g kind s
    exact ⟨h1, h2, h3, h4, h5⟩

/-! ### After-readings begin -/

/-- From s to t the after-readings of the trim of g have begun (R91, R150). -/
structure Begins (g : Sector) (s t : State) : Prop where
  after : (t.sector g).trim.after = []
  tries : t.tryUnderWay .after g = true
  result : (t.sector g).trim.result = (s.sector g).trim.result
  underWay : (t.sector g).trim.underWay = (s.sector g).trim.underWay
  visit : t.visit = s.visit
  surveyReq : t.surveyReq = s.surveyReq

theorem awaiting_congr {s t : State} {g : Sector} (hv : t.visit = s.visit) (hu : (t.sector g).trim.underWay = (s.sector g).trim.underWay) :
    t.awaiting g = s.awaiting g := by rw [State.awaiting, State.awaiting, hv, hu]

theorem startAfter_begins (g : Sector) (s : State) :
    Closes s { startAfter g s with passDue := true }
      ∧ (∀ kind, s.awaiting g = some kind → Begins g s { startAfter g s with passDue := true })
      ∧ ({ startAfter g s with passDue := true } : State).awaiting g = s.awaiting g
      ∧ ({ startAfter g s with passDue := true } : State).surveyReq = s.surveyReq := by
  unfold startAfter
  cases ha : s.awaiting g with
  | none => exact ⟨.passSet s true, nofun, ha, rfl⟩
  | some kind =>
    have hself := sector_modSector_self s g fun x => { x with trim := { x.trim with after := [] } }
    have htry := tryUnderWay_requestTry .after .after g g 1 (s.modTrim g fun t => { t with after := [] }) (.inr ⟨rfl, rfl⟩)
    have hclose : Closes s (requestTry .after g 1 (s.modTrim g fun t => { t with after := [] })) :=
      (Closes.modTrim s g _).trans (.requestTry _ _ _ _)
    dsimp only
    rw [requestTry_frame] at htry hclose ⊢
    refine ⟨hclose.trans (.passSet _ true), fun _ _ => ⟨?_, htry, ?_, ?_, rfl, rfl⟩, ?_, rfl⟩
    · exact congrArg (·.trim.after) hself
    · exact congrArg (·.trim.result) hself
    · exact congrArg (·.trim.underWay) hself
    · rw [← ha]
      refine awaiting_congr (s := s) ?_ ?_
      · rfl
      · exact congrArg (·.trim.underWay) hself

/-! ### A settle time of 0 -/

/-- The group has entered VENTING at the end of the settle time, the after-readings abandoned (R93, R150). -/
def vented (g : Sector) (s : State) : State :=
  abandonTries (fun t => t.kind == .after && t.sector == g)
    (s.modGroup g fun r => { r with state := .venting, timer := some ⟨.vent, s.deck.vent⟩ })

theorem settleExpiry_eq {g : Sector} {s : State} (h : s.groupState g = .holding) :
    settleExpiry g s = match (vented g s).awaiting g with
      | some kind => makeResult g kind (vented g s)
      | none => vented g s := by
  rw [settleExpiry, if_pos h]; rfl

theorem trim_vented (g : Sector) (s : State) : ((vented g s).sector g).trim = (s.sector g).trim :=
  congrArg (·.trim) (sector_modSector_self s g fun x => { x with group := { x.group with state := .venting, timer := some ⟨.vent, s.deck.vent⟩ } })

theorem Closes.vented (g : Sector) (s : State) : Closes s (vented g s) := (Closes.modGroup s g _).trans (.abandonTries _ _)

/-- At a settle time of 0 the after-readings end as they begin: the trim is REJECTED (R93, R150). -/
theorem settleExpiry_rejects {g : Sector} {s : State} (hs : s.groupState g = .holding)
    (ha : ∀ kind, s.awaiting g = some kind → (s.sector g).trim.after = []) :
    Closes s (settleExpiry g s) ∧ ∀ kind, s.awaiting g = some kind → Rejects g kind s (settleExpiry g s) := by
  have hv := Closes.vented g s
  have haw : (vented g s).awaiting g = s.awaiting g := awaiting_congr rfl (congrArg (·.underWay) (trim_vented g s))
  rw [settleExpiry_eq hs, haw]
  cases hk : s.awaiting g with
  | none => exact ⟨hv, nofun⟩
  | some kind =>
    have hmake : makeResult g kind (vented g s) = rejectTrim g kind (vented g s) :=
      makeResult_of_no_after (by rw [trim_vented]; exact ha kind hk) kind
    dsimp only
    rw [hmake]
    refine ⟨hv.trans (.rejectTrim g kind _), fun k h => ?_⟩
    obtain rfl := Option.some.inj h
    have hlen : (vented g s).len g = s.len g := by
      rw [State.len, State.len, show ((vented g s).sector g).table = _ from congrArg (·.1) (hv.held g)]; rfl
    exact (Rejects.rejectTrim g kind (vented g s)).from hv.alerted hlen rfl rfl

/-- The trim's part of a commit with a settle time of 0 (R91 step 3, R93, R150). -/
theorem noSettle_rejects {g : Sector} {s : State} (hs : s.groupState g = .holding) :
    Closes s (settleExpiry g { startAfter g s with passDue := true })
      ∧ ∀ kind, s.awaiting g = some kind → Rejects g kind s (settleExpiry g { startAfter g s with passDue := true }) := by
  obtain ⟨hc, hb, haw, hq⟩ := startAfter_begins g s
  have hg : ({ startAfter g s with passDue := true } : State).groupState g = .holding := by
    rw [State.groupState, ((Aside.startAfter g s).same.trans (.passSet _ true)).figures g |>.2.2.2.2.2.2]; exact hs
  obtain ⟨hc', hr⟩ := settleExpiry_rejects hg fun kind hk => (hb kind (haw.symm.trans hk)).after
  refine ⟨hc.trans hc', fun kind hk => (hr kind (haw.trans hk)).from hc.alerted ?_ ?_ hq⟩
  · rw [State.len, State.len, show (({ startAfter g s with passDue := true } : State).sector g).table = _ from congrArg (·.1) (hc.held g)]; rfl
  · exact congrArg (·.2.1) hc.settings

end Sys2Proof.Machine
end

