-- ==== Sys2Proof/Proofs/StrokeCommits.lean ====
section
/-! SUPPORT. STROKE_END_TAKEN commits the stroke, in time or late (StrokeCommits). -/

namespace Sys2Proof.Machine

/-! ### The switch -/

/-- The stroke-end switch's debounced state has been set, and a switch fault is noted when the retracted switch is on (R86, R87). -/
def switchedOn (g : Sector) (s : State) : State :=
  if (s.sector g).group.retSw.state == some true then noteSwitchFault g (setSwitch g .strokeEnd ⟨some true, none⟩ s)
  else setSwitch g .strokeEnd ⟨some true, none⟩ s

theorem group_setSwitch (g : Sector) (s : State) :
    ((setSwitch g .strokeEnd ⟨some true, none⟩ s).sector g).group = { (s.sector g).group with endSw := { state := some true, timing := none } } := by
  rw [setSwitch, modGroup_eq, sector_modSector_self]

theorem group_switchedOn (g : Sector) (s : State) :
    ((switchedOn g s).sector g).group = { (s.sector g).group with endSw := { state := some true, timing := none } } := by
  unfold switchedOn; split
  · rw [((Same.noteSwitchFault g _).figures g).2.2.2.2.2.2, group_setSwitch]
  · exact group_setSwitch g s

theorem strokeEndEvent_commits {g : Sector} {s : State} (hs : s.groupState g = .pressurizing ∨ s.groupState g = .stalled) :
    strokeEndEvent g (setSwitch g .strokeEnd ⟨some true, none⟩ s) = commit g (switchedOn g s) := by
  have hg := group_setSwitch g s
  have hst : (setSwitch g .strokeEnd ⟨some true, none⟩ s).groupState g = s.groupState g := by rw [State.groupState, hg]; rfl
  rcases hs with hs | hs <;> rw [strokeEndEvent, hst, hs, hg] <;> dsimp only [switchedOn]

theorem strokeEndEvent_commits_late {g : Sector} {s : State} (hs : s.groupState g = .venting) (hf : (s.sector g).group.failed = true)
    (ho : (s.sector g).group.isOpen = true) :
    strokeEndEvent g (setSwitch g .strokeEnd ⟨some true, none⟩ s) = lateCommit g (switchedOn g s) := by
  have hg := group_setSwitch g s
  have hst : (setSwitch g .strokeEnd ⟨some true, none⟩ s).groupState g = s.groupState g := by rw [State.groupState, hg]; rfl
  rw [strokeEndEvent, hst, hs, hg]
  dsimp only [switchedOn]
  rw [hf, ho]; rfl

/-- The command at rest, the input timed at the new level (R86). -/
theorem strokeEndTaken_eq {g : Sector} {s : State} {ms : Nat} (hq : Quiet s)
    (hw : (s.sector g).group.endSw = { state := some false, timing := some ⟨true, ms⟩ }) :
    exec (.strokeEndTaken g) s = .next (finish (strokeEndEvent g (setSwitch g .strokeEnd ⟨some true, none⟩ s))) := by
  have hr : ((s.sector g).group.switch .strokeEnd).ready true = true := by
    rw [show (s.sector g).group.switch .strokeEnd = _ from hw]; rfl
  show Host.Outcome.next (finish (switchChange g .strokeEnd true (strokeEndEvent g) (settleDue s))) = _
  rw [settleDue_of_due hq.1, switchChange, if_pos hr]

/-- Whether the event notes a switch fault. -/
def notes (g : Sector) (s : State) : Prop := (s.sector g).group.retSw.state = some true ∧ s.enabled g = true

/-- The sector's flags after the event's note (R87). -/
theorem marked_switchedOn (g : Sector) (s : State) :
    ∃ f, Marked g f s (switchedOn g s)
      ∧ (notes g s → f = { (s.sector g).table.flags with switchFault := true } ∧ Entered .switchFault (some g) s (switchedOn g s))
      ∧ (¬notes g s → f = (s.sector g).table.flags) := by
  have h0 : Marked g (s.sector g).table.flags s (setSwitch g .strokeEnd ⟨some true, none⟩ s) := (Marked.refl g s).modGroup _
  have hen : (setSwitch g .strokeEnd ⟨some true, none⟩ s).enabled g = s.enabled g := by rw [State.enabled, h0.sector]; rfl
  unfold switchedOn
  by_cases hr : (s.sector g).group.retSw.state = some true
  · rw [if_pos (beq_iff_eq.2 hr)]
    by_cases he : s.enabled g = true
    · obtain ⟨h1, h2⟩ := h0.noteSwitchFault (hen.trans he)
      exact ⟨_, h1, fun _ => ⟨rfl, h2⟩, fun hn => absurd ⟨hr, he⟩ hn⟩
    · rw [noteSwitchFault, if_neg (by rw [hen]; exact he)]
      exact ⟨_, h0, fun hn => absurd hn.2 he, fun _ => rfl⟩
  · rw [if_neg (by simpa using hr)]
    exact ⟨_, h0, fun hn => absurd hn.1 hr, fun _ => rfl⟩

/-! ### What the command leaves -/

/-- What the commit of a stroke of length l and the grant pass after it leave (R7, R29 to R31, R71, R76, R78). -/
structure Committed (g : Sector) (e : Int) (l : Nat) (f : StickyFlags) (s t : State) : Prop where
  table : (t.sector g).table = { (s.sector g).table with elev := some (e + l), flags := f }
  layers : (t.sector g).layers = (s.sector g).layers.released (e + l - s.h10)
  dwell : (t.sector g).pace.dwell = 0
  count : (t.sector g).pace.count ≤ (s.sector g).pace.count - 1
  demand : t.demanded g = false
  released : Released g (leaving (e + l - s.h10) (s.stack g)) s t
  others : ∀ h, h ≠ g → (t.sector h).held = (s.sector h).held
  settings : t.settings = s.settings
  feed : t.feed = s.feed
  supply : t.supply = s.supply
  ports : t.ports = s.ports

/-- The parts of a commit, before the grant pass: the marks (s to b), the rise (b to c), the trim's part (c to d), which leaves the group HOLDING or VENTING. -/
structure CommitParts (g : Sector) (e : Int) (l : Nat) (f : StickyFlags) (s b c d : State) : Prop where
  marked : Marked g f s b
  risen : Risen g e l b c
  closes : Closes c d
  rests : d.groupState g = .holding ∨ d.groupState g = .venting

theorem Marked.fields {g : Sector} {f : StickyFlags} {s b : State} (h : Marked g f s b) :
    b.settings = s.settings ∧ b.tables = s.tables ∧ b.feed = s.feed ∧ b.supply = s.supply ∧ b.ports = s.ports
      ∧ b.surveyReq = s.surveyReq ∧ b.visit = s.visit := by
  have hrest := h.rest
  simp only [State.unmarked, Prod.mk.injEq] at hrest
  obtain ⟨h1, h2, h3, h4, h5, -, h7, h8⟩ := hrest
  exact ⟨h1, h2, h3, h4, h5, h7, h8⟩

section
variable {g : Sector} {e : Int} {l : Nat} {f : StickyFlags} {s b c d : State}

theorem CommitParts.spared (h : CommitParts g e l f s b c d) : Spared g d (finish d) := SparesAtRest.finish g d h.rests

theorem CommitParts.committed (h : CommitParts g e l f s b c d) (hd : 0 < s.deck.dwell) : Committed g e l f s (finish d) := by
  obtain ⟨m1, m2, m3, m4, m5, -, -⟩ := h.marked.fields
  have hk := h.closes.toKept.trans (Kept.finish d)
  have hsec := h.marked.sector
  have hdeck : b.deck = s.deck := congrArg (·.2.2.1) m1
  have hh10 : b.h10 = s.h10 := by rw [State.h10, State.h10, hdeck]
  have hstack : b.stack g = s.stack g := by rw [State.stack, hsec]; rfl
  have hheld := hk.held g
  simp only [SectorState.held, Prod.mk.injEq] at hheld
  obtain ⟨ht, hl, -⟩ := hheld
  have hrel := h.risen.released
  rw [hh10, hstack] at hrel
  refine ⟨?_, ?_, ?_, ?_, ?_, hrel.congr (congrArg (·.2.1) m1).symm m2.symm hk.tables, fun i hi => ?_, hk.settings.trans (h.risen.settings.trans m1),
    hk.feed.trans (h.risen.feed.trans m3), hk.supply.trans (h.risen.supply.trans m4), hk.ports.trans (h.risen.ports.trans m5)⟩
  · rw [ht, h.risen.table, hsec]
  · rw [hl, h.risen.layers, hh10, hsec]
  · rw [hk.pace, h.risen.dwell]
  · have hc := h.risen.count
    rw [hsec] at hc
    rw [hk.pace]; exact hc
  · refine Bool.eq_false_iff.2 fun hdem => ?_
    have hdc : d.demanded g = true := h.spared.demand hdem
    rw [State.demanded, h.closes.creepList] at hdc
    have hno : c.demanded g = false := h.risen.demand (by rw [hdeck]; exact hd)
    rw [State.demanded, hdc] at hno; cases hno
  · rw [hk.held, h.risen.others i hi, h.marked.others i hi]

theorem CommitParts.alerted (h : CommitParts g e l f s b c d) : Alerted s c := h.marked.alerted.trans h.risen.alerted

/-- What a commit's state before the trim's part has of the trim, the visit and the survey request is what s has. -/
theorem CommitParts.before (h : CommitParts g e l f s b c d) :
    (c.sector g).trim = (s.sector g).trim ∧ c.visit = s.visit ∧ c.surveyReq = s.surveyReq ∧ c.awaiting g = s.awaiting g
      ∧ ∀ kind, c.rejected g kind = s.rejected g kind := by
  obtain ⟨m1, -, -, -, -, m7, m8⟩ := h.marked.fields
  have htrim : (c.sector g).trim = (s.sector g).trim := by rw [h.risen.trim, h.marked.sector]
  have hvisit := h.risen.visit.trans m8
  have hlen : c.len g = s.len g := by rw [State.len, h.risen.table, h.marked.sector]; rfl
  have hmin : c.minute = s.minute := congrArg (·.2.1) (h.risen.settings.trans m1)
  exact ⟨htrim, hvisit, h.risen.surveyReq.trans m7, awaiting_congr hvisit (congrArg (·.underWay) htrim),
    fun kind => by rw [State.rejected, State.rejected, hlen, hmin]⟩

/-- The trim that awaited its result is REJECTED (R147, R150, R152). -/
structure TrimRejected (g : Sector) (kind : TrimKind) (s t : State) : Prop where
  entered : Entered .trimRejected (some g) s t
  result : (t.sector g).trim.result = some (s.rejected g kind)
  short : kind = .short → (t.sector g).trim.underWay = false
  survey : kind = .survey → s.surveyReq = none → (t.sector g).trim.outcome = some .rejected ∧ t.visit = some (g, .resultMade)

theorem CommitParts.rejects (h : CommitParts g e l f s b c d) {kind : TrimKind} (hr : Rejects g kind c d) : TrimRejected g kind s (finish d) := by
  obtain ⟨-, -, h3, -, h5⟩ := h.before
  refine ⟨(hr.entered s h.alerted).later h.spared.alerted, by rw [h.spared.result, hr.result, h5], fun hk => ?_, fun hk hq => ?_⟩
  · rw [h.spared.underWay]; exact hr.short hk
  · obtain ⟨-, u2, u3⟩ := Unvisited.finish d (hr.surveyReq.trans (h3.trans hq))
    rw [u2, u3]; exact hr.survey hk

/-- The after-readings of the trim have begun (R91, R150). -/
structure AfterBegun (g : Sector) (s t : State) : Prop where
  after : (t.sector g).trim.after = []
  tries : t.tryUnderWay .after g = true
  result : (t.sector g).trim.result = (s.sector g).trim.result
  underWay : (t.sector g).trim.underWay = (s.sector g).trim.underWay
  visit : s.surveyReq = none → t.visit = s.visit

theorem CommitParts.begins (h : CommitParts g e l f s b c d) (hb : Begins g c d) : AfterBegun g s (finish d) := by
  obtain ⟨h1, h2, h3, -, -⟩ := h.before
  refine ⟨h.spared.after.trans hb.after, h.spared.tries hb.tries, ?_, ?_, fun hq => ?_⟩
  · rw [h.spared.result, hb.result, h1]
  · rw [h.spared.underWay, hb.underWay, h1]
  · obtain ⟨-, u2, -⟩ := Unvisited.finish d (hb.surveyReq.trans (h3.trans hq))
    rw [u2, hb.visit, h2]

end

/-! ### The two kinds of commit -/

theorem beforeRise_group (g : Sector) (s : State) : ((beforeRise g s).sector g).group = (s.sector g).group.committed s.deck.settle := by
  rw [beforeRise, modGroup_eq, sector_modSector_self]; rfl

/-- A commit in time: from HOLDING the after-readings begin, or at a settle time of 0 the trim is REJECTED (R91, R93, R150). -/
theorem commit_parts {g : Sector} {e : Int} {l : Nat} {f : StickyFlags} {s u : State} (hm : Marked g f s u)
    (hg : (u.sector g).group = { (s.sector g).group with endSw := { state := some true, timing := none } })
    (hl : (s.sector g).group.latched = some l) (he : (s.sector g).table.elev = some e) :
    ∃ b c, CommitParts g e l f s b c (commit g u)
      ∧ Alerted u (commit g u) ∧ g ∉ (commit g u).pressureOrder
      ∧ (s.deck.settle = 0 → ∀ kind, c.awaiting g = some kind → Rejects g kind c (commit g u))
      ∧ (s.deck.settle ≠ 0 → ∀ kind, c.awaiting g = some kind → Begins g c (commit g u)) := by
  have hb : Marked g f s (beforeRise g u) := (hm.leavePressure g).modGroup _
  have hdeck : u.deck = s.deck := congrArg (·.2.2.1) hm.fields.1
  have hbg := beforeRise_group g u
  have hr : Risen g e l (beforeRise g u) (commitRise g (beforeRise g u)) :=
    .commitRise (by rw [hb.sector]; exact he) (by rw [hbg, hg]; exact hl)
  have hhold : (commitRise g (beforeRise g u)).groupState g = .holding := by rw [State.groupState, hr.group, hbg]; rfl
  have hno : g ∉ (commitRise g (beforeRise g u)).pressureOrder := by
    rw [hr.order]
    intro hin
    simpa using (List.mem_filter.1 (show g ∈ u.pressureOrder.filter fun h => h != g from hin)).2
  have hrests : (commit g u).groupState g = .holding ∨ (commit g u).groupState g = .venting := by
    rw [State.groupState, commit_group]; exact (afterCommit_state _ _).1
  have hal : Alerted u (commitRise g (beforeRise g u)) := (Alerted.of_eq (s := u) (t := beforeRise g u) rfl rfl).trans hr.alerted
  refine ⟨beforeRise g u, commitRise g (beforeRise g u), ?_⟩
  rw [commit_eq, hdeck] at hrests ⊢
  by_cases h0 : s.deck.settle = 0
  · rw [if_pos h0] at hrests ⊢
    obtain ⟨hc, hrej⟩ := noSettle_rejects hhold
    exact ⟨⟨hb, hr, hc, hrests⟩, hal.trans hc.alerted, by rw [hc.order]; exact hno, fun _ => hrej, fun h => absurd h0 h⟩
  · rw [if_neg h0] at hrests ⊢
    obtain ⟨hc, hbeg, -⟩ := startAfter_begins g (commitRise g (beforeRise g u))
    exact ⟨⟨hb, hr, hc, hrests⟩, hal.trans hc.alerted, by rw [hc.order]; exact hno, fun h => absurd h h0, fun _ => hbeg⟩

/-- A late commit: the trim is REJECTED (R93, R150). -/
theorem lateCommit_parts {g : Sector} {e : Int} {l : Nat} {f : StickyFlags} {s u : State} (hm : Marked g f s u)
    (hg : (u.sector g).group = { (s.sector g).group with endSw := { state := some true, timing := none } })
    (hl : (s.sector g).group.latched = some l) (he : (s.sector g).table.elev = some e) (hs : s.groupState g = .venting) :
    ∃ b c, CommitParts g e l f s b c (lateCommit g u)
      ∧ Alerted u (lateCommit g u) ∧ ∀ kind, c.awaiting g = some kind → Rejects g kind c (lateCommit g u) := by
  have hb : Marked g f s (u.modGroup g Group.committedLate) := hm.modGroup _
  have hbg : ((u.modGroup g Group.committedLate).sector g).group = (u.sector g).group.committedLate := by
    rw [modGroup_eq, sector_modSector_self]
  have hr : Risen g e l (u.modGroup g Group.committedLate) (commitRise g (u.modGroup g Group.committedLate)) :=
    .commitRise (by rw [hb.sector]; exact he) (by rw [hbg, hg]; exact hl)
  have hrests : (lateCommit g u).groupState g = .venting := by rw [State.groupState, lateCommit_group, hg]; exact hs
  obtain ⟨hc, hrej⟩ := rejectAwaiting_rejects g (commitRise g (u.modGroup g Group.committedLate))
  have hal := (Alerted.of_eq (s := u) (t := u.modGroup g Group.committedLate) rfl rfl).trans (hr.alerted.trans hc.alerted)
  exact ⟨_, _, ⟨hb, hr, hc, .inr hrests⟩, hal, hrej⟩

/-- The group after STROKE_END_TAKEN (R86, R91, R93, R101). -/
def Group.strokeEnded (r : Group) (d : DeckBlock) : Group :=
  if r.state = .venting then { r with endSw := { state := some true, timing := none } }.committedLate
  else { r with endSw := { state := some true, timing := none } }.afterCommit d

/-- The command at rest: its commit in three parts, then the grant pass. -/
theorem strokeEndTaken_parts {s : State} {g : Sector} {e : Int} {l ms : Nat} (hq : Quiet s)
    (hw : (s.sector g).group.endSw = { state := some false, timing := some ⟨true, ms⟩ })
    (hs : s.groupState g = .pressurizing ∨ s.groupState g = .stalled
      ∨ (s.groupState g = .venting ∧ (s.sector g).group.failed = true ∧ (s.sector g).group.isOpen = true))
    (hl : (s.sector g).group.latched = some l) (he : (s.sector g).table.elev = some e) {f : StickyFlags} (hm : Marked g f s (switchedOn g s)) :
    ∃ b c d, exec (.strokeEndTaken g) s = .next (finish d) ∧ CommitParts g e l f s b c d
      ∧ Alerted (switchedOn g s) d
      ∧ (d.sector g).group = (s.sector g).group.strokeEnded s.deck
      ∧ (s.groupState g = .venting ∨ g ∉ d.pressureOrder)
      ∧ (s.groupState g = .venting ∨ s.deck.settle = 0 → ∀ kind, c.awaiting g = some kind → Rejects g kind c d)
      ∧ (s.groupState g ≠ .venting → s.deck.settle ≠ 0 → ∀ kind, c.awaiting g = some kind → Begins g c d) := by
  have hg := group_switchedOn g s
  rw [strokeEndTaken_eq hq hw]
  rcases or_assoc.2 hs with hs | ⟨hs, hf, ho⟩
  · have hv : s.groupState g ≠ .venting := by rcases hs with h | h <;> rw [h] <;> decide
    have hdeck : (switchedOn g s).deck = s.deck := congrArg (·.2.2.1) hm.fields.1
    rw [strokeEndEvent_commits hs]
    obtain ⟨b, c, hp, hal, ho, hr, hb⟩ := commit_parts hm hg hl he
    refine ⟨b, c, _, rfl, hp, hal, ?_, .inr ho, fun h => hr (h.resolve_left hv), fun _ => hb⟩
    rw [commit_group, hg, hdeck]; exact (if_neg hv).symm
  · rw [strokeEndEvent_commits_late hs hf ho]
    obtain ⟨b, c, hp, hal, hr⟩ := lateCommit_parts hm hg hl he hs
    refine ⟨b, c, _, rfl, hp, hal, ?_, .inl hs, fun _ => hr, fun h => absurd hs h⟩
    rw [lateCommit_group, hg]; exact (if_pos hs).symm

/-- Settles O38: the marks, the rise of E and the trim's part of the commit, none of them touched by the grant pass. -/
theorem strokeCommits : Obligations.StrokeCommits := by
  intro s g e l ms hq hw hs hl he hd late both bottom gone left survey short
  obtain ⟨f, hm, hnote, hplain⟩ := marked_switchedOn g s
  obtain ⟨b, c, d, hexec, hp, hal, hgroup, horder, hrej, hbeg⟩ := strokeEndTaken_parts hq hw hs hl he hm
  have hc := hp.committed hd
  have hsp := hp.spared
  obtain ⟨-, -, -, haw, -⟩ := hp.before
  have hsurvey : survey → c.awaiting g = some .survey := fun h => by rw [haw, State.awaiting, if_pos h]
  have hshort : short → c.awaiting g = some .short := fun h => by rw [haw, State.awaiting, if_neg h.1, if_pos h.2]
  have hflags : f = if both then { (s.sector g).table.flags with switchFault := true } else (s.sector g).table.flags := by
    split
    · next h => exact (hnote h).1
    · next h => exact hplain h
  have rejected : ∀ {kind}, late ∨ s.deck.settle = 0 → c.awaiting g = some kind → TrimRejected g kind s (finish d) :=
    fun h hk => hp.rejects (hrej h _ hk)
  refine ⟨finish d, hexec, ?_, fun h => ((hnote h).2.later hal).later hsp.alerted, hc.layers.trans (released_eq _ _), ?_, hc.dwell, hc.count,
    hc.demand, horder.imp id hsp.order, hc.released, fun h => ⟨fun hk => ?_, fun hk hv => ?_⟩, fun hv h0 hk => ?_, hc.others, hc.settings, hc.feed,
    hc.supply, hc.ports⟩
  · rw [hc.table, hflags]
  · rw [hsp.group, hgroup]; rfl
  · have hr := rejected h (hshort hk)
    exact ⟨⟨hr.entered, hr.result⟩, hr.short rfl⟩
  · have hr := rejected h (hsurvey hk)
    obtain ⟨h1, h2⟩ := hr.survey rfl hv
    exact ⟨⟨hr.entered, hr.result⟩, h1, h2⟩
  · have begun : AfterBegun g s (finish d) := by
      rcases hk with hk | ⟨hk, -⟩
      · exact hp.begins (hbeg hv h0 _ (hshort hk))
      · exact hp.begins (hbeg hv h0 _ (hsurvey hk))
    refine ⟨begun.after, begun.tries, begun.result, begun.underWay, fun hs => begun.visit ?_⟩
    exact hk.elim (fun h => absurd hs h.1) fun h => h.2

end Sys2Proof.Machine
end

