-- ==== Sys2Proof/Proofs/Walls.lean ====
section
/-! SUPPORT. What the laws of the layer table read, and the operations that leave it alone, one frame lemma each. -/

namespace Sys2Proof.Machine

/-! ### What the laws of the layer table read -/

/-- A sector's part of the layer table, its E and its reach. -/
def SectorState.wall (x : SectorState) : LayerTable × Option Int × Int := (x.layers, x.table.elev, x.reach)

/-- The DECK block, the MIX blocks and every sector's wall. -/
def State.walls (s : State) : DeckBlock × Vector MixBlock 8 × (Sector → LayerTable × Option Int × Int) :=
  (s.deck, s.mixes, fun g => (s.sector g).wall)

theorem walls_modSector (s : State) (g : Sector) (f : SectorState → SectorState) (hf : (f (s.sector g)).wall = (s.sector g).wall) :
    (s.modSector g f).walls = s.walls := by
  refine congrArg (fun w => (s.deck, s.mixes, w)) (funext fun h => ?_)
  rw [sector_modSector]; split
  · next e => subst e; exact hf
  · rfl

theorem walls_of_eq {s t : State} (hd : t.deck = s.deck) (hm : t.mixes = s.mixes) (hs : t.sectors = s.sectors) : t.walls = s.walls := by
  simp only [State.walls, State.sector, hd, hm, hs]

theorem walls_passSet (s : State) (d : Bool) : ({ s with passDue := d } : State).walls = s.walls := walls_of_eq rfl rfl rfl

theorem Kept.mixes {s t : State} (h : Kept s t) : t.mixes = s.mixes := congrArg (·.2.2.2.2.1) h.settings

theorem walls_of_aside {s t : State} (h : Aside s t) : t.walls = s.walls := by
  have hw : ∀ g, (t.sector g).wall = (s.sector g).wall := fun g => by
    obtain ⟨ht, hl⟩ := h.toKept.tables_eq g
    simp only [SectorState.wall, SectorState.reach, SectorState.elev, ht, hl, h.group g]
  simp only [State.walls, h.deck, h.toKept.mixes, hw]

theorem walls_of_repaced {s t : State} (h : Repaced s t) : t.walls = s.walls := by
  have hm : t.mixes = s.mixes := congrArg (·.2.2.2.2.1) h.settings
  have hw : ∀ g, (t.sector g).wall = (s.sector g).wall := fun g => by rw [h.sector g]; rfl
  simp only [State.walls, h.deck, hm, hw]

theorem walls_forEach (gs : List Sector) (f : Sector → State → State) (h : ∀ g s, (f g s).walls = s.walls) (s : State) :
    (forEach gs f s).walls = s.walls := forEach_frame State.walls gs f h s

/-! ### One sector's records, the ports and the alert list -/

theorem walls_modFlags (s : State) (g : Sector) (f : StickyFlags → StickyFlags) : (s.modFlags g f).walls = s.walls :=
  walls_modSector s g (fun x => { x with table := { x.table with flags := f x.table.flags } }) rfl
theorem walls_modProbe (s : State) (g : Sector) (f : Probe → Probe) : (s.modProbe g f).walls = s.walls :=
  walls_modSector s g (fun x => { x with probe := f x.probe }) rfl
theorem walls_modPace (s : State) (g : Sector) (f : Pace → Pace) : (s.modPace g f).walls = s.walls :=
  walls_modSector s g (fun x => { x with pace := f x.pace }) rfl
theorem walls_modTrim (s : State) (g : Sector) (f : Trim → Trim) : (s.modTrim g f).walls = s.walls :=
  walls_modSector s g (fun x => { x with trim := f x.trim }) rfl
theorem walls_setTicket (s : State) (g : Sector) (t : Option Ticket) : (s.setTicket g t).walls = s.walls :=
  walls_modSector s g (fun x => { x with ticket := t }) rfl
theorem walls_setPort (s : State) (p : PortId) (x : Port) : (s.setPort p x).walls = s.walls := by cases p <;> rfl
theorem walls_enterAlert (k : AlertKind) (g : Option Sector) (s : State) : (enterAlert k g s).walls = s.walls :=
  walls_of_aside (.enterAlert k g s)

/-- A change of a group that leaves its open stroke as it is. -/
theorem walls_modGroup (s : State) (g : Sector) (f : Group → Group)
    (h : (f (s.sector g).group).isOpen = (s.sector g).group.isOpen ∧ (f (s.sector g).group).latched = (s.sector g).group.latched) :
    (s.modGroup g f).walls = s.walls := by
  obtain ⟨h1, h2⟩ := h
  refine walls_modSector s g (fun x => { x with group := f x.group }) ?_
  simp only [SectorState.wall, SectorState.reach, SectorState.elev, Group.openLen, h1, h2]

/-! ### Groups (chapter 5) -/

theorem walls_stallGroup (g : Sector) (s : State) : (stallGroup g s).walls = s.walls := by
  unfold stallGroup; split
  · exact walls_modGroup s g _ ⟨rfl, rfl⟩
  · rfl

theorem walls_stallTo (k : Nat) (s : State) : (stallTo k s).walls = s.walls := walls_forEach _ _ walls_stallGroup s

theorem walls_resumeGroup (g : Sector) (s : State) : (resumeGroup g s).walls = s.walls := walls_modGroup s g _ ⟨rfl, rfl⟩

theorem walls_noteSwitchFault (g : Sector) (s : State) : (noteSwitchFault g s).walls = s.walls := by
  unfold noteSwitchFault; split
  · exact (walls_enterAlert _ _ _).trans (walls_modFlags s g _)
  · rfl

theorem walls_handOnFault (g : Sector) (m v : Bool) (s : State) : (handOnFault g m v s).walls = s.walls := by
  have h1 : ∀ u : State, (if m then enterAlert .suspectPosition (some g) u else u).walls = u.walls := by
    intro u; split
    · exact walls_enterAlert _ _ u
    · rfl
  have h2 : ∀ u : State, (if u.mode = .climb then enterHold u else u).walls = u.walls := by
    intro u; split
    · exact walls_of_repaced (.enterHold u)
    · rfl
  have h := ((walls_of_aside (.trimOnFault g _)).trans (h2 _)).trans
    (((walls_of_repaced (.goalTest _)).trans (h1 _)).trans (walls_enterAlert .groupFault (some g) s))
  unfold handOnFault; dsimp only; split
  · rw [walls_passSet]; exact h
  · exact h

theorem walls_setLen (s : State) (g : Sector) (n : Nat) : (s.modTable g fun r => { r with len := some n }).walls = s.walls :=
  walls_modSector s g (fun x => { x with table := { x.table with len := some n } }) rfl

theorem walls_makeResult (g : Sector) (kind : TrimKind) (s : State) : (makeResult g kind s).walls = s.walls := by
  have h : ∀ c n d, (closeTrim g kind c (writeResult g kind c n d s)).walls = s.walls := fun c n d =>
    walls_of_aside ((Aside.writeResult g kind c n d s).trans (.closeTrim g kind c _))
  unfold makeResult; dsimp only; split
  · exact h _ _ _
  · exact ((walls_of_repaced (.rederive g _)).trans (walls_setLen _ g _)).trans (h _ _ _)

theorem walls_endSettle (g : Sector) (s : State) : (endSettle g s).walls = s.walls := by
  unfold endSettle; dsimp only; split
  · exact walls_makeResult g _ _
  · rfl

theorem walls_afterReading (g : Sector) (v : Option Nat) (s : State) : (afterReading g v s).walls = s.walls := by
  have h := walls_modTrim s g fun t => { t with after := t.after ++ [v] }
  unfold afterReading; dsimp only; split
  · exact (walls_of_aside (.requestTry _ _ _ _)).trans h
  · split
    · exact (walls_makeResult g _ _).trans h
    · exact h

theorem walls_settleExpiry (g : Sector) (s : State) : (settleExpiry g s).walls = s.walls := by
  unfold settleExpiry; split
  · exact (walls_endSettle g _).trans (walls_modGroup s g _ ⟨rfl, rfl⟩)
  · rfl

theorem walls_windowExpiry (g : Sector) (s : State) : (windowExpiry g s).walls = s.walls := by
  unfold windowExpiry; split
  · dsimp only; split
    · exact ((walls_enterAlert _ _ _).trans (walls_modFlags _ g _)).trans (walls_modGroup s g _ ⟨rfl, rfl⟩)
    · refine Eq.trans rfl (walls_modGroup s g (fun r => { r with failed := true, state := .venting, timer := some ⟨.vent, s.deck.vent⟩ }) ?_)
      exact ⟨rfl, rfl⟩
  · rfl

theorem walls_enterIdle (g : Sector) (s : State) : (enterIdle g s).walls = s.walls := by
  unfold enterIdle
  rw [walls_passSet, walls_of_aside (.visitOnIdle g _), walls_of_aside (.trimOnIdle g _)]
  exact walls_modGroup s g _ ⟨rfl, rfl⟩

theorem walls_clearFault (g : Sector) (s : State) : (clearFault g s).walls = s.walls := by
  unfold clearFault
  rw [walls_passSet, walls_of_aside (.trimOnIdle g _), walls_of_repaced (.goalTest _)]
  exact walls_modGroup s g _ ⟨rfl, rfl⟩

theorem walls_setSwitch (g : Sector) (w : SwitchId) (x : Switch) (s : State) : (setSwitch g w x s).walls = s.walls := by
  cases w <;> exact walls_modGroup s g _ ⟨rfl, rfl⟩

theorem walls_inputChange (g : Sector) (w : SwitchId) (l : Bool) (s : State) : (inputChange g w l s).walls = s.walls := by
  unfold inputChange; dsimp only; split
  · exact walls_setSwitch g w _ s
  · rfl

theorem walls_inputReturn (g : Sector) (w : SwitchId) (s : State) : (inputReturn g w s).walls = s.walls := by
  unfold inputReturn; dsimp only; split
  · exact walls_setSwitch g w _ s
  · rfl

theorem walls_retractedLostEvent (g : Sector) (s : State) : (retractedLostEvent g s).walls = s.walls := by
  unfold retractedLostEvent; split
  · exact walls_noteSwitchFault g s
  · rfl

/-! ### The sensor line (R43, R44, R143 to R152) -/

theorem walls_driftReading (g : Sector) (v : Nat) (s : State) : (driftReading g v s).walls = s.walls := by
  unfold driftReading; dsimp only; split
  · split
    · exact (walls_modFlags _ g _).trans (walls_modTrim s g _)
    · exact (((walls_enterAlert _ _ _).trans (walls_modTrim _ g _)).trans (walls_modFlags _ g _)).trans (walls_modTrim s g _)
  · exact (walls_modTrim _ g _).trans (walls_modTrim s g _)

theorem walls_readingEnds (t : Try) (v : Option Nat) (s : State) : (readingEnds t v s).walls = s.walls := by
  unfold readingEnds; split
  · split
    · exact walls_driftReading _ _ s
    · rfl
  · exact walls_of_aside (.beforeReading _ v s)
  · exact walls_afterReading _ v s
  · rfl

theorem walls_pollGood (g : Sector) (a : Nat) (h : Int) (s : State) : (pollGood g a h s).walls = s.walls := by
  unfold pollGood; dsimp only; split
  · exact (walls_modFlags _ g _).trans (walls_modProbe s g _)
  · exact walls_modProbe s g _

theorem walls_tryFailed (t : Try) (s : State) : (tryFailed t s).walls = s.walls := by
  unfold tryFailed; split
  · exact walls_of_aside (.requestTry _ _ _ s)
  · split
    · exact walls_modProbe s _ _
    · exact walls_readingEnds t none s

theorem walls_tryEnds (t : Try) (act : State → State) (h : ∀ s, (act s).walls = s.walls) (s : State) : (tryEnds t act s).walls = s.walls := by
  unfold tryEnds; dsimp only
  refine (walls_of_aside (.serveLine _)).trans ?_
  split
  · exact h _
  · rfl

theorem walls_probeAnswered (h : Int) (c : Bool) (s : State) : (probeAnswered h c s).walls = s.walls := by
  unfold probeAnswered; split
  · split
    · refine walls_tryEnds _ _ (fun u => ?_) s
      cases c
      · exact walls_pollGood _ _ _ u
      · exact walls_tryFailed _ u
    · rfl
  · rfl

theorem walls_receiverAnswered (n : Nat) (c : Bool) (s : State) : (receiverAnswered n c s).walls = s.walls := by
  unfold receiverAnswered; split
  · split
    · rfl
    · next t _ _ =>
      refine walls_tryEnds _ _ (fun u => ?_) s
      cases c
      · exact walls_readingEnds t (some n) u
      · exact walls_tryFailed t u
  · rfl

theorem walls_tryTimedOut (s : State) : (tryTimedOut s).walls = s.walls := by
  unfold tryTimedOut; split
  · exact walls_tryEnds _ _ (walls_tryFailed _) s
  · rfl

/-! ### What a clock event makes due, and the clock -/

theorem walls_takeAging (s : State) : (takeAging s).walls = s.walls := by unfold takeAging; split <;> rfl

theorem walls_expireTickets (s : State) : (expireTickets s).walls = s.walls := by
  have h : ∀ es u, (List.foldl expireTicket u es).walls = u.walls := by
    intro es
    induction es with
    | nil => exact fun u => rfl
    | cons e es ih => exact fun u => (ih _).trans ((walls_enterAlert .ticketExpired (some e.sector) _).trans (walls_setTicket u e.sector none))
  exact h s.expiring s

theorem walls_takeExpiry (s : State) : (takeExpiry s).walls = s.walls := by
  unfold takeExpiry; split
  · exact (walls_expireTickets _).trans (walls_takeAging s)
  · rfl

theorem walls_raiseBond (g : Sector) (s : State) : (raiseBond g s).walls = s.walls :=
  (walls_enterAlert _ _ _).trans (walls_modFlags s g _)

theorem walls_takeBond (s : State) : (takeBond s).walls = s.walls := walls_forEach _ _ walls_raiseBond _

theorem walls_takeLapse (s : State) : (takeLapse s).walls = s.walls := by
  unfold takeLapse; split
  · exact (walls_enterAlert _ _ _).trans (walls_stallTo 0 _)
  · rfl

theorem walls_takeDwell (s : State) : (takeDwell s).walls = s.walls := by
  unfold takeDwell; split
  · exact (walls_of_repaced (.raiseDemands _)).trans rfl
  · rfl

theorem walls_paceExpiry (g : Sector) (s : State) : (paceExpiry g s).walls = s.walls := by
  have h := walls_of_repaced (.startCounter g s)
  unfold paceExpiry; dsimp only; split
  · split
    · exact (walls_modPace _ g fun q => { q with count := q.count + 1 }).trans h
    · exact ((walls_enterAlert _ _ _).trans (walls_modFlags _ g _)).trans h
  · rfl

theorem walls_takePace (s : State) : (takePace s).walls = s.walls := by
  unfold takePace; split
  · exact walls_forEach _ _ walls_paceExpiry _
  · rfl

theorem walls_secondWork (s : State) : (secondWork s).walls = s.walls := by
  have h : ∀ g, ((s.mapSectors (secondTick s.mode)).sector g).wall = (s.sector g).wall := fun g => by rw [sector_mapSectors]; rfl
  exact congrArg (fun w => (s.deck, s.mixes, w)) (funext h)

theorem walls_advanceClock (b : Bool) (s : State) : (advanceClock b s).walls = s.walls := by cases b <;> rfl

theorem walls_stalenessTest (s : State) : (stalenessTest s).walls = s.walls :=
  walls_forEach _ _ (fun g t => (walls_enterAlert _ _ _).trans (walls_modProbe t g _)) s

theorem walls_setTemps (s : State) : (setTemps s).walls = s.walls := walls_forEach _ _ (fun g t => walls_modProbe t g _) s

theorem walls_handOnReady (b s : State) : (handOnReady b s).walls = s.walls := by unfold handOnReady; split <;> rfl

/-! ### The deck profile, the run parameters and the requests -/

theorem walls_noteClamped (c : Bool) (g : Option Sector) (s : State) : (noteClamped c g s).walls = s.walls := by
  unfold noteClamped; split
  · exact walls_enterAlert _ _ s
  · rfl

theorem walls_unservedCheck (b s : State) : (unservedCheck b s).walls = s.walls := walls_forEach _ _ (fun _ t => walls_enterAlert _ _ t) s

theorem walls_bondAtWrite (b s : State) : (bondAtWrite b s).walls = s.walls := walls_forEach _ _ walls_raiseBond s

theorem walls_leaveQueue (g : Sector) (s : State) : (leaveQueue g s).walls = s.walls := rfl

theorem walls_changeEnable (g : Sector) (b : Bool) (s : State) : (changeEnable g b s).walls = s.walls := by
  unfold changeEnable; dsimp only; split
  · exact walls_modProbe s g _
  · exact ((walls_leaveQueue g _).trans (walls_of_aside (.abandonTries _ _))).trans (walls_modProbe s g _)

theorem walls_handOnSector (g : Sector) (b s : State) : (handOnSector g b s).walls = s.walls := by
  have h : (if b.enabled g = s.enabled g then s else changeEnable g (s.enabled g) s).walls = s.walls := by
    split
    · rfl
    · exact walls_changeEnable g _ s
  exact ((walls_unservedCheck b _).trans (walls_of_repaced (.rederive g _))).trans h

theorem walls_takeRate (n r : Nat) (s : State) : (takeRate n r s).walls = s.walls := by
  unfold takeRate; split
  · rfl
  · exact walls_forEach _ _ (fun g t => walls_modPace t g _) _

theorem walls_serveClearFlags (n : Nat) (b : Byte) (s : State) : (serveClearFlags n b s).1.walls = s.walls := by
  unfold serveClearFlags; split
  · exact walls_forEach _ _ (fun g t => walls_modFlags t g _) s
  · split
    · rfl
    · next g _ => exact walls_modFlags s g fun f => f.clear b

theorem walls_serveReadLayer (s : State) : (serveReadLayer s).1.walls = s.walls := by
  unfold serveReadLayer; split
  · rfl
  · split
    · rfl
    · unfold advanceCursor; dsimp only; split <;> rfl

theorem walls_serveSetCursor (g p : Nat) (s : State) : (serveSetCursor g p s).1.walls = s.walls := by
  unfold serveSetCursor; split
  · split <;> rfl
  · rfl

theorem walls_serveWriteTable (xs : List Nat) (s : State) : (serveWriteTable xs s).1.walls = s.walls := by
  unfold serveWriteTable; split
  · rfl
  · split
    · rfl
    · exact walls_of_eq rfl rfl rfl

theorem walls_issueTicket (l : FeedLine) (g : Sector) (s : State) : (issueTicket l g s).walls = s.walls :=
  walls_setTicket s g (some (s.newTicket l g))

theorem walls_feedWalk (l : FeedLine) (gs : List Sector) (n : Nat) (s : State) : (feedWalk l gs n s).1.walls = s.walls := by
  induction gs generalizing n s with
  | nil => cases n <;> rfl
  | cons g gs ih =>
    cases n with
    | zero => rfl
    | succ n =>
      unfold feedWalk; split
      · exact (ih n _).trans (walls_issueTicket l g s)
      · exact ih _ s

theorem walls_serveRequestFeed (l n : Nat) (s : State) : (serveRequestFeed l n s).1.walls = s.walls := by
  unfold serveRequestFeed; split
  · rfl
  · split
    · rfl
    · have h : (if s.queue.isEmpty then buildSweep s else s).walls = s.walls := by split <;> rfl
      unfold feedFrom; dsimp only
      generalize (if s.queue.isEmpty then buildSweep s else s) = u at h ⊢
      split
      · exact h
      · exact (walls_feedWalk _ _ _ _).trans h

theorem walls_dropNamed (t : Named) (s : State) : (dropNamed t s).walls = s.walls := by
  unfold dropNamed; split
  · rfl
  · exact walls_setTicket s _ _

theorem walls_serveAbandon (n : Nat) (s : State) : (serveAbandon n s).1.walls = s.walls := by
  unfold serveAbandon; split
  · rfl
  · next t _ => dsimp only; split <;> exact walls_dropNamed t s

theorem walls_noteLate (t : Named) (s : State) : (noteLate t s).walls = s.walls := by
  unfold noteLate; split
  · exact walls_enterAlert _ _ s
  · rfl

theorem walls_placeRefused (t : Named) (s : State) : (placeRefused t s).1.walls = s.walls :=
  ((walls_enterAlert _ _ _).trans (walls_noteLate t _)).trans ((walls_modFlags _ _ _).trans (walls_dropNamed t s))

theorem walls_layerAlerts (g : Sector) (l : Layer) (s : State) : (layerAlerts g l s).walls = s.walls := by
  have h : (if l.flags.coldJoint then enterAlert .coldJoint (some g) s else s).walls = s.walls := by
    split
    · exact walls_enterAlert _ _ s
    · rfl
  unfold layerAlerts; dsimp only; split
  · exact (walls_enterAlert _ _ _).trans h
  · exact h

end Sys2Proof.Machine
end

