-- ==== Sys2Proof/Proofs/LayerLaws.lean ====
section
/-! SUPPORT. The laws of the layer table one sector at a time, what keeps them, and that a grant which passed the allowance tests keeps them (R20, R21, R25, R52, R60 to R62). -/

namespace Sys2Proof.Machine

/-! ### The laws, one sector at a time -/

/-- The law of R20 in one sector. -/
def StackAt (s : State) (g : Sector) : Prop := layerLaw (s.sector g).layers = true

/-- What the concrete law says of a layer under the MIX blocks in force (R52). -/
def Layer.Sound (mixes : Vector MixBlock 8) (l : Layer) : Prop :=
  l.base < l.top ∧ l.maturity ≤ 65535 ∧ (l.flags.ready = false → l.maturity < (mixes.get l.mix).threshold)

/-- The concrete law in one sector. -/
def ConcreteAt (s : State) (g : Sector) : Prop :=
  (∀ l ∈ s.stack g, l.Sound s.mixes)
    ∧ (s.established g = true → (s.sector g).layers.top.isSome = true ∧ s.bottom g ≤ s.concreteTop g)

theorem concreteLaw_iff (s : State) : ConcreteLaw s ↔ ∀ g, ConcreteAt s g := Iff.rfl

/-- An established sector keeps the exposure law of R25. -/
def Clear (s : State) (g : Sector) : Prop := s.established g = true → ¬Exposed s g

/-- An established sector's concrete top is at or above its reach bottom. -/
def Ground (s : State) (g : Sector) : Prop := s.established g = true → Grounded s g

/-- The laws that the exposure law rests on. -/
structure Lawful (s : State) (g : Sector) : Prop where
  stroke : StrokeLaw s
  stack : StackAt s g
  concrete : ConcreteAt s g

theorem layerLaw_iff (l : LayerTable) :
    layerLaw l = true ↔ l.stack.length ≤ 12 ∧ contiguous l.stack = true ∧ ∀ x, l.stack.getLast? = some x → l.top = some x.top := by
  unfold layerLaw
  cases l.stack.getLast? <;> simp [and_assoc]

theorem concreteTop_of_last {s : State} {g : Sector} {x : Layer} (h : StackAt s g) (hx : (s.stack g).getLast? = some x) :
    s.concreteTop g = x.top := by
  obtain ⟨-, -, ht⟩ := (layerLaw_iff _).1 h
  rw [State.concreteTop, ht x hx]; rfl

/-! ### Contiguous stacks -/

/-- In a contiguous stack of layers with a thickness, the lowest base is that of slot 0. -/
theorem base_le_of_contiguous {a l : Layer} {ls : List Layer} (h : contiguous (a :: ls) = true) (ht : ∀ m ∈ a :: ls, m.base < m.top)
    (hl : l ∈ a :: ls) : a.base ≤ l.base := by
  induction ls generalizing a with
  | nil => rw [List.mem_singleton.1 hl]
  | cons b rest ih =>
    rcases List.mem_cons.1 hl with rfl | hl
    · exact Int.le_refl _
    · have hab : a.top = b.base := by simp only [contiguous, Bool.and_eq_true, decide_eq_true_eq] at h; exact h.1
      have := ht a List.mem_cons_self
      have := ih (contiguous_tail h) (fun m hm => ht m (List.mem_cons_of_mem _ hm)) hl
      omega

/-- In a contiguous stack of layers with a thickness, the highest top is that of the topmost layer. -/
theorem top_le_last {l x : Layer} {ls : List Layer} (h : contiguous ls = true) (ht : ∀ m ∈ ls, m.base < m.top) (hl : l ∈ ls)
    (hx : ls.getLast? = some x) : l.top ≤ x.top := by
  induction ls generalizing l with
  | nil => cases hl
  | cons a rest ih =>
    cases rest with
    | nil =>
      obtain rfl := List.mem_singleton.1 hl
      obtain rfl := Option.some.inj hx
      exact Int.le_refl _
    | cons b rest =>
      have ih : ∀ m ∈ b :: rest, m.top ≤ x.top := fun m hm =>
        ih (contiguous_tail h) (fun n hn => ht n (List.mem_cons_of_mem _ hn)) hm (by simpa using hx)
      rcases List.mem_cons.1 hl with rfl | hl
      · have hab : l.top = b.base := by simp only [contiguous, Bool.and_eq_true, decide_eq_true_eq] at h; exact h.1
        have := ht b (by simp)
        have := ih b (by simp)
        omega
      · exact ih l hl

/-- The cure term is at or below the base of every layer that is not READY (R59). -/
theorem lowestUnready_base_le {l : Layer} {ls : List Layer} (h : contiguous ls = true) (ht : ∀ m ∈ ls, m.base < m.top) (hl : l ∈ ls)
    (hr : l.flags.ready = false) : ∃ x, lowestUnready ls = some x ∧ x.base ≤ l.base := by
  induction ls with
  | nil => cases hl
  | cons a rest ih =>
    cases ha : a.flags.ready with
    | false => exact ⟨a, by simp [lowestUnready, ha], base_le_of_contiguous h ht hl⟩
    | true =>
      have hl : l ∈ rest := (List.mem_cons.1 hl).resolve_left (by rintro rfl; simp [ha] at hr)
      obtain ⟨x, hx, hle⟩ := ih (contiguous_tail h) (fun m hm => ht m (List.mem_cons_of_mem _ hm)) hl
      exact ⟨x, by simpa [lowestUnready, ha] using hx, hle⟩

/-- A stack whose layers have other maturities is as contiguous as it was. -/
theorem contiguous_map {f : Layer → Layer} (hf : ∀ l, (f l).base = l.base ∧ (f l).top = l.top) (ls : List Layer) :
    contiguous (ls.map f) = contiguous ls := by
  induction ls with
  | nil => rfl
  | cons a rest ih =>
    cases rest with
    | nil => rfl
    | cons b rest => simp only [List.map_cons, contiguous, (hf a).2, (hf b).1]; rw [← ih]; rfl

/-! ### What keeps the laws of the layer table -/

/-- From s to t the laws of the layer table are kept in a sector: the exposure law and the ground each on their own. -/
structure HoldsAt (s t : State) (g : Sector) : Prop where
  stack : StackAt s g → StackAt t g
  concrete : StackAt s g → ConcreteAt s g → ConcreteAt t g
  clear : Lawful s g → Clear s g → Clear t g
  ground : Lawful s g → Ground s g → Ground t g

/-- From s to t the law of R8 and the laws of the layer table are kept. -/
structure Holds (s t : State) : Prop where
  stroke : StrokeLaw s → StrokeLaw t
  sector : ∀ g, HoldsAt s t g

theorem Holds.lawful {s t : State} (h : Holds s t) {g : Sector} (hs : Lawful s g) : Lawful t g :=
  ⟨h.stroke hs.stroke, (h.sector g).stack hs.stack, (h.sector g).concrete hs.stack hs.concrete⟩

theorem Holds.trans {s t u : State} (h : Holds s t) (k : Holds t u) : Holds s u := by
  refine ⟨fun hs => k.stroke (h.stroke hs), fun g => ?_⟩
  have hg := h.sector g
  have kg := k.sector g
  exact ⟨fun hs => kg.stack (hg.stack hs), fun hs hc => kg.concrete (hg.stack hs) (hg.concrete hs hc),
    fun hl hc => kg.clear (h.lawful hl) (hg.clear hl hc), fun hl hc => kg.ground (h.lawful hl) (hg.ground hl hc)⟩

/-- Where a sector keeps layers and E and its reach comes no higher, its laws are kept. -/
theorem HoldsAt.of_lower {s t : State} {g : Sector} (hd : t.deck = s.deck) (hm : t.mixes = s.mixes)
    (hl : (t.sector g).layers = (s.sector g).layers) (he : (t.sector g).table.elev = (s.sector g).table.elev)
    (hr : StrokeLaw s → t.reach g ≤ s.reach g) : HoldsAt s t g := by
  have hst : t.stack g = s.stack g := by rw [State.stack, hl]; rfl
  have hct : t.concreteTop g = s.concreteTop g := by rw [State.concreteTop, hl]; rfl
  have hes : t.established g = s.established g := by rw [State.established, he]; rfl
  have hh : t.h10 = s.h10 := by rw [State.h10, hd]; rfl
  have hc : t.c10 = s.c10 := by rw [State.c10, hd]; rfl
  have hb : t.bottom g = s.bottom g := by rw [State.bottom, State.elev, he, hh]; rfl
  refine ⟨fun h => by rw [StackAt, hl]; exact h, fun _ h => ?_, fun hs h ht => ?_, fun hs h ht hne => ?_⟩
  · rw [ConcreteAt, hst, hm, hes, hl, hb, hct]; exact h
  · rintro ⟨l, hl, hu, hx⟩
    rw [hes] at ht
    rw [hst] at hl
    have := hr hs.stroke
    simp only [State.reachBottom, hh, hc] at hx
    exact h ht ⟨l, hl, hu, by simp only [State.reachBottom]; omega⟩
  · rw [hes] at ht
    rw [hst] at hne
    have := hr hs.stroke
    have := h ht hne
    simp only [State.reachBottom, hh, hct] at *
    omega

/-- Where a sector's wall is kept, its laws are. -/
theorem HoldsAt.of_wall {s t : State} {g : Sector} (hd : t.deck = s.deck) (hm : t.mixes = s.mixes)
    (hw : (t.sector g).wall = (s.sector g).wall) : HoldsAt s t g := by
  simp only [SectorState.wall, Prod.mk.injEq] at hw
  obtain ⟨hl, he, hr⟩ := hw
  exact .of_lower hd hm hl he fun _ => hr.le

theorem Holds.of_walls {s t : State} (hk : StrokeLaw s → StrokeLaw t) (hw : t.walls = s.walls) : Holds s t := by
  simp only [State.walls, Prod.mk.injEq] at hw
  obtain ⟨hd, hm, hw⟩ := hw
  exact ⟨hk, fun g => .of_wall hd hm (congrFun hw g)⟩

theorem Holds.of_steady {s t : State} (h : Steady s t) (hw : t.walls = s.walls) : Holds s t := .of_walls h.stroke hw

theorem Holds.of_same {s t : State} (h : Same s t) (hw : t.walls = s.walls) : Holds s t := .of_steady (.of_same h) hw

theorem Holds.of_eq {s t : State} (hd : t.deck = s.deck) (hm : t.mixes = s.mixes) (hs : t.sectors = s.sectors) : Holds s t :=
  .of_same (.of_eq hd hs) (walls_of_eq hd hm hs)

theorem Holds.refl (s : State) : Holds s s := .of_eq rfl rfl rfl

theorem Holds.of_aside {s t : State} (h : Aside s t) : Holds s t := .of_same h.same (walls_of_aside h)

theorem Holds.of_repaced {s t : State} (h : Repaced s t) : Holds s t := .of_same h.same (walls_of_repaced h)

theorem Holds.forEach (gs : List Sector) (f : Sector → State → State) (hf : ∀ g s, Holds s (f g s)) (s : State) :
    Holds s (forEach gs f s) :=
  forEach_keeps (P := Holds s) gs f (fun g t h => h.trans (hf g t)) s (.refl s)

/-- A step that keeps the law of R8 and lowers no E, its reaches no higher, the layers and profile as they are. -/
theorem Holds.of_lower {s t : State} (h : Steady s t) (hm : t.mixes = s.mixes) (hl : ∀ g, (t.sector g).layers = (s.sector g).layers)
    (hr : StrokeLaw s → ∀ g, t.reach g ≤ s.reach g) : Holds s t :=
  ⟨h.stroke, fun g => .of_lower h.deck hm (hl g) (h.elev g) fun hs => hr hs g⟩

/-- A change of one sector's records: the other sectors' laws are kept. -/
theorem Holds.of_sector {s t : State} {g : Sector} (hk : StrokeLaw s → StrokeLaw t) (hd : t.deck = s.deck) (hm : t.mixes = s.mixes)
    (ho : ∀ k, k ≠ g → t.sector k = s.sector k) (hg : HoldsAt s t g) : Holds s t := by
  refine ⟨hk, fun k => ?_⟩
  by_cases e : k = g
  · rw [e]; exact hg
  · exact .of_wall hd hm (by rw [ho k e])

/-! ### Grants (R60 to R62, R66) -/

theorem atMost_mono {z x : Int} {term : Option Int} (h : atMost z term = true) (hx : 0 ≤ x) : atMost z (term.map (· + x)) = true := by
  cases term with
  | none => rfl
  | some y => simp only [atMost, Option.map_some, decide_eq_true_eq] at h ⊢; omega

/-- The creep test is the widest of the three (R60 to R62). -/
theorem creepTest_of_surveyTest {s : State} {g : Sector} (h : s.surveyTest g = true) : s.creepTest g = true := by
  simp only [State.surveyTest, State.cureOk, Bool.and_eq_true] at h
  obtain ⟨⟨he, hc⟩, hk⟩ := h
  simp only [State.creepTest, he, hk, atMost_mono hc (by simp only [State.c10]; omega : 0 ≤ s.c10), Bool.and_self]

theorem creepTest_of_pacedTest {s : State} {g : Sector} (h : s.pacedTest g = true) : s.creepTest g = true := by
  simp only [State.pacedTest, State.fillOk, Bool.and_eq_true, decide_eq_true_eq] at h
  obtain ⟨⟨he, hc⟩, hf⟩ := h
  refine creepTest_of_surveyTest ?_
  have hk : s.bottom g + s.len g ≤ s.concreteTop g := by simp only [State.m10] at hf; omega
  simp only [State.surveyTest, State.concreteOk, he, hc, hk, decide_true, Bool.or_true, Bool.and_self]

/-- A grant that passed the creep test brings the reach bottom no higher than the exposure law and the concrete top allow. -/
theorem HoldsAt.of_creepTest {s t : State} {g : Sector} (hd : t.deck = s.deck) (hm : t.mixes = s.mixes)
    (hl : (t.sector g).layers = (s.sector g).layers) (he : (t.sector g).table.elev = (s.sector g).table.elev)
    (hr : t.reachBottom g = s.bottom g + s.len g) (ht : s.creepTest g = true) : HoldsAt s t g := by
  have hst : t.stack g = s.stack g := by rw [State.stack, hl]; rfl
  have hct : t.concreteTop g = s.concreteTop g := by rw [State.concreteTop, hl]; rfl
  have hc : t.c10 = s.c10 := by rw [State.c10, hd]; rfl
  simp only [State.creepTest, State.concreteOk, Bool.and_eq_true, Bool.or_eq_true, List.isEmpty_iff, decide_eq_true_eq] at ht
  obtain ⟨⟨hes, hcure⟩, hok⟩ := ht
  refine ⟨fun h => by rw [StackAt, hl]; exact h, fun _ h => ?_, fun hs _ _ => ?_, fun _ _ _ hne => ?_⟩
  · have hes : t.established g = s.established g := by rw [State.established, he]; rfl
    have hb : t.bottom g = s.bottom g := by rw [State.bottom, State.elev, he, State.h10, hd]; rfl
    rw [ConcreteAt, hst, hm, hes, hl, hb, hct]; exact h
  · rintro ⟨l, hmem, hu, hx⟩
    rw [hst] at hmem
    obtain ⟨-, hcont, -⟩ := (layerLaw_iff _).1 hs.stack
    obtain ⟨x, hx1, hx2⟩ := lowestUnready_base_le hcont (fun m hm => (hs.concrete.1 m hm).1) hmem hu
    rw [State.cureTerm, show lowestUnready (s.stack g) = some x from hx1] at hcure
    simp only [Option.map_some, atMost, decide_eq_true_eq] at hcure
    rw [hr, hc] at hx
    omega
  · rw [hst] at hne
    rw [hr, hct]
    exact hok.resolve_left hne

theorem Holds.grant {s : State} {g : Sector} (kind : StrokeKind) (h : s.grantable g = true) (ht : s.creepTest g = true) :
    Holds s (grant g kind s) := by
  have hm := (grantable_iff.1 h).2.2.1
  have hself : ((s.modGroup g fun r => r.granted (s.len g) s.deck.window kind).sector g) =
      { s.sector g with group := (s.sector g).group.granted (s.len g) s.deck.window kind } := by rw [modGroup_eq, sector_modSector_self]
  have hw : (Machine.grant g kind s).walls = (s.modGroup g fun r => r.granted (s.len g) s.deck.window kind).walls :=
    (walls_of_aside (.grant g kind s)).trans (walls_of_eq rfl rfl rfl)
  simp only [State.walls, Prod.mk.injEq] at hw
  obtain ⟨hd, hx, hw⟩ := hw
  refine ⟨(Steady.grant kind h).stroke, fun k => ?_⟩
  have hwk := congrFun hw k
  by_cases e : k = g
  · subst e
    rw [hself] at hwk
    simp only [SectorState.wall, Prod.mk.injEq] at hwk
    obtain ⟨h1, h2, h3⟩ := hwk
    refine .of_creepTest hd hx h1 h2 ?_ ht
    rw [State.reachBottom, reach_eq, h3, State.h10, hd]
    simp only [SectorState.reach, SectorState.elev, Group.granted, Group.openLen, hm, if_true, Option.getD_some, State.bottom, State.elev, modGroup_eq, modSector_deck, State.h10]
    omega
  · rw [modGroup_eq, sector_modSector_ne s _ e] at hwk
    exact .of_wall hd hx hwk

end Sys2Proof.Machine
end

