-- ==== Sys2Proof/Proofs/LayerEvents.lean ====
section
/-! SUPPORT. The events that keep the laws of the layer table: the grant pass, faults and timers, the switches, the sensor line, what a clock event makes due, the clock, the warm reset; and the rise of E at a commit and at an ADJUST. -/

namespace Sys2Proof.Machine

/-! ### The grant pass (R110 to R115) -/

theorem Holds.passBoundary (s : State) : Holds s (passBoundary s) := by
  unfold Machine.passBoundary; split
  · exact .of_eq rfl rfl rfl
  · exact .refl s

theorem Holds.pacedScan (n j : Nat) (s : State) : Holds s (pacedScan n j s).1 := by
  induction n generalizing j s with
  | zero => exact .refl s
  | succ n ih =>
    unfold Machine.pacedScan; split
    · next g hg =>
      have hg : s.pacedEligible g = true := (Option.filter_eq_some_iff.1 hg).2
      have ht : s.pacedTest g = true := by
        simp only [State.pacedEligible, Bool.and_eq_true] at hg
        exact hg.1.2
      have h : Holds s { Machine.grant g .paced s with scanPtr := (j + 1) % 32 } :=
        (Holds.grant .paced (grantable_of_paced hg) (creepTest_of_pacedTest ht)).trans (.of_eq rfl rfl rfl)
      dsimp only; split
      · exact h.trans (.passBoundary _)
      · exact h
    · split
      · exact .refl s
      · split
        · exact (Holds.passBoundary s).trans (ih _ _)
        · exact ih _ _

theorem Holds.serveSurvey (g : Sector) (s : State) : Holds s (serveSurvey g s) := by
  have h0 : Holds s { s with surveyReq := none } := .of_eq rfl rfl rfl
  unfold Machine.serveSurvey; dsimp only; split
  · next he =>
    have ht : s.surveyTest g = true := by
      simp only [State.surveyEligible, Bool.and_eq_true] at he
      exact he.2
    exact h0.trans (.grant (s := { s with surveyReq := none }) .survey (grantable_of_survey (s := s) he) (creepTest_of_surveyTest (s := s) ht))
  · exact h0.trans (.of_aside (.visitBlocked g _))

theorem Holds.serveOne (s : State) : Holds s (serveOne s).1 := by
  unfold Machine.serveOne; split
  · next g hg =>
    have hg : g ∈ s.stalledList := by
      split at hg
      · exact List.mem_of_mem_head? hg
      · cases hg
    exact .of_steady (.resumeGroup (stalled_of_mem hg)) (walls_resumeGroup g s)
  · split
    · exact .serveSurvey _ s
    · split
      · next g hg =>
        have he : s.creepEligible g = true := by
          split at hg
          · exact List.find?_some hg
          · cases hg
        refine .grant .creep (grantable_of_creep he) ?_
        simp only [State.creepEligible, Bool.and_eq_true] at he
        exact he.2
      · split
        · exact .pacedScan _ _ s
        · exact .refl s

theorem Holds.finish (s : State) : Holds s (finish s) :=
  finish_induct (R := Holds) .refl .trans .serveOne (fun _ => .of_eq rfl rfl rfl) s

/-! ### FAULT, timers and switches (R86 to R95, R99) -/

/-- A change of one sector that keeps the law of R8, the layers and E and lifts no reach, with what it hands on. -/
theorem Holds.of_lowered {s t : State} {g : Sector} {f : SectorState → SectorState} (h : Steady s t) (hw : t.walls = (s.modSector g f).walls)
    (hl : (f (s.sector g)).layers = (s.sector g).layers) (hr : (s.sector g).StrokeOk → (f (s.sector g)).reach ≤ (s.sector g).reach) :
    Holds s t := by
  simp only [State.walls, Prod.mk.injEq] at hw
  obtain ⟨-, hm, hw⟩ := hw
  have hk : ∀ k, (t.sector k).layers = (s.sector k).layers ∧ (StrokeLaw s → t.reach k ≤ s.reach k) := fun k => by
    have hwk := congrFun hw k
    simp only [SectorState.wall, sector_modSector, Prod.mk.injEq] at hwk
    obtain ⟨h1, -, h3⟩ := hwk
    rw [reach_eq, reach_eq, h1, h3]
    split
    · next e => subst e; exact ⟨hl, fun hs => hr (hs k)⟩
    · exact ⟨rfl, fun _ => Int.le_refl _⟩
  exact .of_lower h hm (fun k => (hk k).1) fun hs k => (hk k).2 hs

theorem walls_enterFault (g : Sector) (kind : FaultKind) (m v : Bool) (s : State) :
    (enterFault g kind m v s).walls = (s.modGroup g fun r => r.faulted kind).walls := by
  unfold enterFault; dsimp only; split
  · exact walls_handOnFault g m v _
  · rfl

theorem Holds.enterFault (g : Sector) (kind : FaultKind) (m v : Bool) (s : State) : Holds s (enterFault g kind m v s) := by
  refine .of_lowered (.enterFault g kind m v s) (walls_enterFault g kind m v s) rfl fun _ => ?_
  simp only [SectorState.reach, SectorState.elev, Group.faulted, Group.openLen, Bool.false_eq_true, if_false]
  omega

/-- A stroke that fails for good goes into the margin, and the reach stays (R10). -/
theorem Holds.failStroke {g : Sector} {s : State} (kind : FaultKind) (m v : Bool) (hs : s.groupState g = .venting)
    (hf : (s.sector g).group.failed = true) : Holds s (Machine.enterFault g kind m v (closeIntoMargin g s)) := by
  have hw := walls_enterFault g kind m v (closeIntoMargin g s)
  rw [modGroup_eq, closeIntoMargin, modTable_eq, modSector_modSector] at hw
  refine .of_lowered (.failStroke kind m v hs hf) hw rfl fun hk => ?_
  have ho : (s.sector g).group.isOpen = true := hk.1.2 (.inr (.inr ⟨hs, hf⟩))
  simp [SectorState.reach, SectorState.elev, Group.openLen, Group.faulted, ho, (hk.2.2 ho).2]

theorem Holds.ventExpiry (g : Sector) (s : State) : Holds s (ventExpiry g s) := by
  unfold Machine.ventExpiry; split
  · next h =>
    split
    · next hf => exact .failStroke _ _ _ h hf
    · exact .enterFault _ _ _ _ _
  · exact .refl s

theorem Holds.windowExpiry (g : Sector) (s : State) : Holds s (windowExpiry g s) := .of_steady (.windowExpiry g s) (walls_windowExpiry g s)

theorem Holds.settleExpiry (g : Sector) (s : State) : Holds s (settleExpiry g s) := .of_steady (.settleExpiry g s) (walls_settleExpiry g s)

theorem Holds.timerExpiry (g : Sector) (s : State) : Holds s (timerExpiry g s) := by
  unfold Machine.timerExpiry; split
  · exact .windowExpiry g s
  · exact .settleExpiry g s
  · exact .ventExpiry g s
  · exact .refl s

theorem Holds.expireTimers (s : State) : Holds s (expireTimers s) :=
  .forEach _ _ (fun g t => (Holds.timerExpiry g t).trans (.finish _)) s

theorem Holds.noteSwitchFault (g : Sector) (s : State) : Holds s (noteSwitchFault g s) := .of_same (.noteSwitchFault g s) (walls_noteSwitchFault g s)

theorem Holds.setSwitch (g : Sector) (w : SwitchId) (x : Switch) (s : State) : Holds s (setSwitch g w x s) :=
  .of_steady (.setSwitch g w x s) (walls_setSwitch g w x s)

theorem Holds.switchChange (g : Sector) (w : SwitchId) (l : Bool) (event : State → State) (h : ∀ s, Holds s (event s)) (s : State) :
    Holds s (switchChange g w l event s) := by
  unfold Machine.switchChange; split
  · exact (Holds.setSwitch g w _ s).trans (h _)
  · exact .refl s

theorem Holds.firstState (g : Sector) (w : SwitchId) (l : Bool) (s : State) : Holds s (firstState g w l s) := by
  unfold Machine.firstState; dsimp only; split
  · refine (Holds.setSwitch g w ⟨some l, none⟩ s).trans ?_
    split
    · refine .of_lowered (.modGroup _ g _ fun _ => ⟨?_, ?_⟩) rfl rfl fun _ => ?_
      · simp [SectorState.StrokeOk]
      · simp [Group.openLen]
      · simp only [SectorState.reach, SectorState.elev, Group.openLen, Bool.false_eq_true, if_false]
        omega
    · exact .refl _
  · exact .refl s

theorem Holds.retractedEvent (g : Sector) (s : State) : Holds s (retractedEvent g s) := by
  have hn : ∀ b : Bool, Same s (if b then Machine.noteSwitchFault g s else s) ∧ Holds s (if b then Machine.noteSwitchFault g s else s) := by
    intro b; cases b
    · exact ⟨.refl s, .refl s⟩
    · exact ⟨.noteSwitchFault g s, .noteSwitchFault g s⟩
  unfold Machine.retractedEvent; dsimp only; split
  · split
    · exact (Holds.noteSwitchFault g s).trans (.enterFault _ _ _ _ _)
    · exact .refl s
  · next h =>
    obtain ⟨hsame, hn⟩ := hn ((s.sector g).group.endSw.state == some true)
    generalize (if ((s.sector g).group.endSw.state == some true) = true then Machine.noteSwitchFault g s else s) = u at hsame hn ⊢
    have hg : (u.sector g).group = (s.sector g).group := (hsame.figures g).2.2.2.2.2.2
    have hu : u.groupState g = .venting := by rw [State.groupState, hg]; exact h
    refine hn.trans ?_
    split
    · next hf => exact .failStroke _ _ _ hu (by rw [hg]; exact hf)
    · next hf => exact .of_steady (.enterIdle hu (by rw [hg]; simpa using hf)) (walls_enterIdle g u)
  all_goals exact (hn _).2

theorem Holds.retractedLostEvent (g : Sector) (s : State) : Holds s (retractedLostEvent g s) :=
  .of_steady (.retractedLostEvent g s) (walls_retractedLostEvent g s)

/-! ### What a clock event makes due, and the clock -/

theorem Holds.finishDue (s : State) : Holds s (finishDue s) := by
  unfold Machine.finishDue; split
  · exact .finish s
  · exact .refl s

theorem Holds.takeAging (s : State) : Holds s (takeAging s) := .of_same (.takeAging s) (walls_takeAging s)
theorem Holds.takeExpiry (s : State) : Holds s (takeExpiry s) := .of_same (.takeExpiry s) (walls_takeExpiry s)
theorem Holds.takeBond (s : State) : Holds s (takeBond s) := .of_same (.takeBond s) (walls_takeBond s)
theorem Holds.takeLapse (s : State) : Holds s (takeLapse s) := .of_steady (.takeLapse s) (walls_takeLapse s)
theorem Holds.takeDwell (s : State) : Holds s (takeDwell s) := .of_same (.takeDwell s) (walls_takeDwell s)
theorem Holds.takePace (s : State) : Holds s (takePace s) := .of_same (.takePace s) (walls_takePace s)

theorem Holds.settleDue (s : State) : Holds s (settleDue s) := by
  unfold Machine.settleDue; split
  · exact .refl s
  · exact ((((((Holds.takeAging s).trans (.takeExpiry _)).trans (.takeBond _)).trans (.takeLapse _)).trans (.takeDwell _)).trans
      (.takePace _)).trans (.finish _)

theorem walls_alertClosed (b s : State) : (alertClosed b s).walls = s.walls := walls_forEach _ _ (fun _ t => walls_enterAlert _ _ t) s

theorem walls_deriveGoal (s : State) : (deriveGoal s).walls = s.walls := walls_forEach _ _ (fun g t => walls_modPace t g _) s

theorem walls_warmReset (s : State) : (warmReset s).walls = (resetRecords s).walls := by
  unfold warmReset
  rw [walls_passSet, walls_of_repaced (.raiseDemands _), walls_deriveGoal, walls_alertClosed]

theorem Holds.warmReset (s : State) : Holds s (warmReset s) := by
  have hw := walls_warmReset s
  simp only [State.walls, Prod.mk.injEq] at hw
  obtain ⟨-, hm, hw⟩ := hw
  have hm : (Machine.warmReset s).mixes = s.mixes := by
    rw [hm, resetRecords]
    dsimp only
    rw [forEach_modSector_eq]
  have hk : ∀ g, ((Machine.warmReset s).sector g).layers = (s.sector g).layers := fun g => by
    have hwg := congrFun hw g
    simp only [SectorState.wall, sector_resetRecords, Prod.mk.injEq] at hwg
    rw [hwg.1]; rfl
  refine .of_lower (.warmReset s) hm hk fun hs g => ?_
  have hwg := congrFun hw g
  simp only [SectorState.wall, sector_resetRecords, Prod.mk.injEq] at hwg
  rw [reach_eq, reach_eq, hwg.2.2]
  exact (resetSector_settles s.deck.vent 0 (s.underVisit g) (hs g)).2.reach

/-! ### Layers that mature (R51 to R53) -/

/-- A stack whose layers have matured, its E and its reach as they were. -/
theorem HoldsAt.of_cured {s t : State} {g : Sector} (f : Layer → Layer) (hd : t.deck = s.deck)
    (hl : (t.sector g).layers = { (s.sector g).layers with stack := (s.stack g).map f })
    (he : (t.sector g).table.elev = (s.sector g).table.elev) (hr : t.reach g = s.reach g)
    (hf : ∀ l, (f l).base = l.base ∧ (f l).top = l.top) (hs : ∀ l ∈ s.stack g, l.Sound s.mixes → (f l).Sound t.mixes)
    (hu : ∀ l, (f l).flags.ready = false → l.flags.ready = false) : HoldsAt s t g := by
  have hst : t.stack g = (s.stack g).map f := by rw [State.stack, hl]
  have hct : t.concreteTop g = s.concreteTop g := by rw [State.concreteTop, hl]; rfl
  have hes : t.established g = s.established g := by rw [State.established, he]; rfl
  have hh : t.h10 = s.h10 := by rw [State.h10, hd]; rfl
  have hc : t.c10 = s.c10 := by rw [State.c10, hd]; rfl
  have hb : t.bottom g = s.bottom g := by rw [State.bottom, State.elev, he, hh]; rfl
  have hrb : t.reachBottom g = s.reachBottom g := by rw [State.reachBottom, hr, hh]; rfl
  refine ⟨fun h => ?_, fun _ h => ?_, fun _ h ht => ?_, fun _ h ht hne => ?_⟩
  · obtain ⟨h1, h2, h3⟩ := (layerLaw_iff _).1 h
    refine (layerLaw_iff _).2 ⟨?_, ?_, fun x hx => ?_⟩
    · rw [hl]; exact (List.length_map f).trans_le h1
    · rw [hl]; exact (contiguous_map hf _).trans h2
    · rw [hl] at hx ⊢
      simp only [List.getLast?_map, Option.map_eq_some_iff] at hx
      obtain ⟨y, hy, rfl⟩ := hx
      rw [(hf y).2]; exact h3 y hy
  · refine ⟨fun l hmem => ?_, fun ht => ?_⟩
    · rw [hst] at hmem
      obtain ⟨m, hm, rfl⟩ := List.mem_map.1 hmem
      exact hs m hm (h.1 m hm)
    · rw [hes] at ht
      rw [hl, hb, hct]; exact h.2 ht
  · rintro ⟨l, hmem, hr, hx⟩
    rw [hes] at ht
    rw [hst] at hmem
    obtain ⟨m, hm, rfl⟩ := List.mem_map.1 hmem
    rw [(hf m).1, hc, hrb] at hx
    exact h ht ⟨m, hm, hu m hr, hx⟩
  · rw [hes] at ht
    rw [hst, ne_eq, List.map_eq_nil_iff] at hne
    rw [hrb, hct]; exact h ht hne

theorem markReady_frame (mixes : Vector MixBlock 8) (l : Layer) :
    (markReady mixes l).base = l.base ∧ (markReady mixes l).top = l.top ∧ (markReady mixes l).mix = l.mix
      ∧ (markReady mixes l).maturity = l.maturity ∧ ((markReady mixes l).flags.ready = false →
        l.flags.ready = false ∧ l.maturity < (mixes.get l.mix).threshold) := by
  unfold markReady; split
  · exact ⟨rfl, rfl, rfl, rfl, fun h => by simp at h⟩
  · next h => exact ⟨rfl, rfl, rfl, rfl, fun hr => ⟨hr, Nat.not_le.1 h⟩⟩

/-- One minute's maturity on a layer and its readiness test (R51, R52). -/
def matured (mixes : Vector MixBlock 8) (n : Nat) (l : Layer) : Layer :=
  if (cure n l).flags.ready then cure n l else markReady mixes (cure n l)

theorem matured_frame (mixes : Vector MixBlock 8) (n : Nat) (l : Layer) :
    (matured mixes n l).base = l.base ∧ (matured mixes n l).top = l.top ∧ ((matured mixes n l).flags.ready = false → l.flags.ready = false)
      ∧ (l.base < l.top → (matured mixes n l).Sound mixes) := by
  obtain ⟨h1, h2, h3, h4, h5⟩ := markReady_frame mixes (cure n l)
  have hle : (cure n l).maturity ≤ 65535 := Nat.min_le_left _ _
  unfold matured; split
  · next h => exact ⟨rfl, rfl, id, fun hb => ⟨hb, hle, fun hr => by rw [h] at hr; cases hr⟩⟩
  · refine ⟨h1, h2, fun hr => (h5 hr).1, fun hb => ⟨?_, h4 ▸ hle, fun hr => ?_⟩⟩
    · rw [h1, h2]; exact hb
    · rw [h3, h4]; exact (h5 hr).2

/-- A sector's layers after a minute (R51, R52). -/
def SectorState.matured (mixes : Vector MixBlock 8) (x : SectorState) : SectorState :=
  if x.table.enabled then
    { x with layers := { x.layers with stack := x.layers.stack.map (Machine.matured mixes (increment x.probe.temp)) } }
  else x

theorem integrate_eq (s : State) : integrate s = handOnReady s (s.mapSectors (.matured s.mixes)) := rfl

/-- What stands in t once its walls are those of an update of every sector alike. -/
theorem wall_of_mapSectors {s t : State} {f : SectorState → SectorState} (hw : t.walls = (s.mapSectors f).walls) (g : Sector) :
    t.deck = s.deck ∧ t.mixes = s.mixes ∧ (t.sector g).wall = (f (s.sector g)).wall := by
  simp only [State.walls, Prod.mk.injEq] at hw
  obtain ⟨hd, hm, hw⟩ := hw
  have hg := congrFun hw g
  rw [sector_mapSectors] at hg
  exact ⟨hd, hm, hg⟩

theorem Holds.integrate (s : State) : Holds s (integrate s) := by
  refine ⟨(Cures.integrate s).stroke, fun g => ?_⟩
  rw [integrate_eq]
  obtain ⟨hd, hm, hw⟩ := wall_of_mapSectors (walls_handOnReady s (s.mapSectors (.matured s.mixes))) g
  cases he : (s.sector g).table.enabled with
  | false =>
    rw [SectorState.matured, he] at hw
    exact .of_wall hd hm hw
  | true =>
    rw [SectorState.matured, he] at hw
    simp only [SectorState.wall, Prod.mk.injEq] at hw
    obtain ⟨h1, h2, h3⟩ := hw
    refine .of_cured (Machine.matured s.mixes (increment (s.sector g).probe.temp)) hd h1 h2 h3
      (fun l => ⟨(matured_frame _ _ l).1, (matured_frame _ _ l).2.1⟩) (fun l _ h => ?_) fun l => (matured_frame _ _ l).2.2.1
    rw [hm]
    exact (matured_frame s.mixes _ l).2.2.2 h.1

/-- The re-test of a layer at a MIX write (R53). -/
def retested (m : MixClass) (mixes : Vector MixBlock 8) (l : Layer) : Layer :=
  if l.mix = m ∧ !l.flags.ready then markReady mixes l else l

/-- A sector's layers after the re-test. -/
def SectorState.retested (m : MixClass) (mixes : Vector MixBlock 8) (x : SectorState) : SectorState :=
  { x with layers := { x.layers with stack := x.layers.stack.map (Machine.retested m mixes) } }

theorem retest_eq (m : MixClass) (s : State) : retest m s = handOnReady s (s.mapSectors (.retested m s.mixes)) := rfl

/-- A MIX block is written and the layers of its class are tested against it (R53, R176). -/
theorem Holds.mixTaken (m : MixClass) (b : MixBlock) (s : State) : Holds s (retest m { s with mixes := s.mixes.set m.val b }) := by
  refine ⟨fun hs => (Cures.retest m { s with mixes := s.mixes.set m.val b }).stroke hs, fun g => ?_⟩
  rw [retest_eq]
  obtain ⟨hd, hm, hw⟩ := wall_of_mapSectors (walls_handOnReady { s with mixes := s.mixes.set m.val b }
    (State.mapSectors { s with mixes := s.mixes.set m.val b } (.retested m (s.mixes.set m.val b)))) g
  simp only [SectorState.wall, Prod.mk.injEq] at hw
  obtain ⟨h1, h2, h3⟩ := hw
  have hfr := fun l => markReady_frame (s.mixes.set m.val b) l
  refine .of_cured (retested m (s.mixes.set m.val b)) hd h1 h2 h3 (fun l => ?_) (fun l _ h => ?_) fun l => ?_
  · unfold retested; split
    · exact ⟨(hfr l).1, (hfr l).2.1⟩
    · exact ⟨rfl, rfl⟩
  · obtain ⟨hb, hle, hr⟩ := h
    obtain ⟨f1, f2, f3, f4, f5⟩ := hfr l
    rw [hm]
    unfold retested; split
    · exact ⟨by rw [f1, f2]; exact hb, by rw [f4]; exact hle, fun hu => by rw [f3, f4]; exact (f5 hu).2⟩
    · next hn =>
      refine ⟨hb, hle, fun hu => ?_⟩
      have hne : m.val ≠ l.mix.val := fun e => hn ⟨(Fin.ext e).symm, by simp [hu]⟩
      rw [Vector.get_eq_getElem, Vector.getElem_set_ne _ _ hne]
      exact hr hu
  · unfold retested; split
    · exact fun hr => ((hfr l).2.2.2.2 hr).1
    · exact id

theorem Holds.minuteWork (s : State) : Holds s (minuteWork s) := by
  have hread := ((Holds.of_same ((Same.stalenessTest s).trans (.setTemps _)) ((walls_setTemps _).trans (walls_stalenessTest s))).trans
    (.integrate _)).trans (.of_aside (.driftCheck _))
  unfold Machine.minuteWork
  generalize driftCheck (Machine.integrate (setTemps (Machine.stalenessTest s))) = u at hread ⊢
  exact hread.trans (.of_eq rfl rfl rfl)

theorem Holds.clockEvent (b : Bool) (s : State) : Holds s (clockEvent b s) := by
  unfold Machine.clockEvent; dsimp only
  have h0 : Holds s (Machine.expireTimers (Machine.settleDue s)) := (Holds.settleDue s).trans (.expireTimers _)
  generalize Machine.expireTimers (Machine.settleDue s) = u at h0 ⊢
  generalize (b || decide (59 ≤ u.second)) = m
  have h1 := (h0.trans (.of_same (.advanceClock m u) (walls_advanceClock m u))).trans (.of_steady (.secondWork _) (walls_secondWork _))
  generalize secondWork (advanceClock m u) = v at h1 ⊢
  have h2 : Holds s (if v.second % 10 = 0 then pollRound v else v) := by
    split
    · exact h1.trans (.of_aside (.pollRound v))
    · exact h1
  split
  · exact (h2.trans (.minuteWork _)).trans (.finishDue _)
  · exact h2.trans (.finishDue _)

end Sys2Proof.Machine
end

