-- ==== Sys2Proof/Proofs/LayerRises.lean ====
section
/-! SUPPORT. What moves E, layers or the profile and keeps the laws of the layer table: the rise of E at a commit and at an ADJUST (R7, R11, R29), ESTABLISH (R13), the DECK write with its re-base (R172, R173), and a layer that joins (R24, R33). -/

namespace Sys2Proof.Machine

/-! ### The rise of E -/

/-- Where layers stay, the topmost reaches above the form bottom (R29). -/
theorem lt_last_of_staying {b : Int} {ls : List Layer} {x : Layer} (h : contiguous ls = true) (ht : ∀ m ∈ ls, m.base < m.top)
    (hx : (staying b ls).getLast? = some x) : b < x.top := by
  have hc : contiguous (staying b ls) = true := contiguous_dropWhile _ h
  have ht : ∀ m ∈ staying b ls, m.base < m.top := fun m hm => ht m ((List.dropWhile_sublist _).mem hm)
  have hne : staying b ls ≠ [] := fun e => by rw [e] at hx; cases hx
  have ha : b < ((staying b ls).head hne).top := by
    have h := List.head_dropWhile_not (fun l : Layer => decide (l.top ≤ b)) hne
    exact Int.not_le.1 (of_decide_eq_false h)
  exact ha.trans_le (top_le_last hc ht (List.head_mem hne) hx)

/-- The form bottom comes to where it stands in t, and the layers it has left are released: the laws are kept so long as no reach rises. -/
theorem HoldsAt.of_released {s t : State} {g : Sector} (hd : t.deck = s.deck) (hm : t.mixes = s.mixes)
    (hl : (t.sector g).layers = (s.sector g).layers.released (t.bottom g)) (he : t.established g = s.established g)
    (hr : StrokeLaw s → t.reach g ≤ s.reach g) : HoldsAt s t g := by
  have hst : t.stack g = staying (t.bottom g) (s.stack g) := by rw [State.stack, hl]; rfl
  have htop : (t.sector g).layers.top =
      if t.stack g = [] then (s.sector g).layers.top.map (max · (t.bottom g)) else (s.sector g).layers.top := by
    rw [hst, hl, LayerTable.released]
    simp only [List.isEmpty_iff]
    rfl
  have hsub : ∀ l ∈ t.stack g, l ∈ s.stack g := fun l h => (List.dropWhile_sublist _).mem (hst ▸ h)
  have hlast : t.stack g ≠ [] → (t.stack g).getLast? = (s.stack g).getLast? := fun h => by
    rw [hst] at h ⊢
    exact getLast?_dropWhile _ h
  have hh : t.h10 = s.h10 := by rw [State.h10, hd]; rfl
  have hc : t.c10 = s.c10 := by rw [State.c10, hd]; rfl
  have hstack : StackAt s g → StackAt t g := fun h => by
    obtain ⟨h1, h2, h3⟩ := (layerLaw_iff _).1 h
    refine (layerLaw_iff _).2 ⟨?_, ?_, fun x hx => ?_⟩
    · rw [hl]; exact (List.dropWhile_sublist _).length_le.trans h1
    · rw [hl]; exact contiguous_dropWhile _ h2
    · have hne : t.stack g ≠ [] := fun e => by
        rw [show (t.sector g).layers.stack = [] from e] at hx; cases hx
      rw [htop, if_neg hne]
      exact h3 x ((hlast hne).symm.trans hx)
  refine ⟨hstack, fun h hk => ⟨fun l hmem => hm ▸ hk.1 l (hsub l hmem), fun ht => ?_⟩, fun h hk ht => ?_, fun h hk ht hne => ?_⟩
  · obtain ⟨hsome, -⟩ := hk.2 (he ▸ ht)
    by_cases hne : t.stack g = []
    · obtain ⟨z, hz⟩ := Option.isSome_iff_exists.1 hsome
      rw [State.concreteTop, htop, if_pos hne, hz]
      exact ⟨rfl, le_max_right _ _⟩
    · have hx := List.getLast?_eq_some_getLast hne
      have hlt : t.bottom g < ((t.stack g).getLast hne).top :=
        lt_last_of_staying ((layerLaw_iff _).1 h).2.1 (fun m hmem => (hk.1 m hmem).1) (hst ▸ hx)
      rw [concreteTop_of_last (hstack h) hx, htop, if_neg hne]
      exact ⟨hsome, hlt.le⟩
  · rintro ⟨l, hmem, hu, hx⟩
    have := hr h.stroke
    simp only [State.reachBottom, hh, hc] at hx
    exact hk (he ▸ ht) ⟨l, hsub l hmem, hu, by simp only [State.reachBottom]; omega⟩
  · have := hr h.stroke
    have hg := hk (he ▸ ht) (List.ne_nil_of_mem (hsub _ (List.getLast_mem hne)))
    simp only [State.reachBottom, State.concreteTop, hh, htop, if_neg hne] at *
    omega

theorem bottom_raiseElev (g : Sector) (n : Nat) (s : State) : (raiseElev g n s).bottom g = s.raisedBottom g n := by
  rw [State.bottom, State.elev, sector_raiseElev_self, State.h10, raiseElev_deck]; rfl

theorem raiseElev_mixes (g : Sector) (n : Nat) (s : State) : (raiseElev g n s).mixes = s.mixes := by rw [raiseElev_eq]; rfl

/-- E rises by n out of an open stroke or a margin that the change f takes away (R7, R11). -/
theorem Holds.of_raised {s t : State} {g : Sector} {f : SectorState → SectorState} {n : Nat} (hk : StrokeLaw s → StrokeLaw t)
    (hw : t.walls = (raiseElev g n (s.modSector g f)).walls) (hl : (f (s.sector g)).layers = (s.sector g).layers)
    (he : (f (s.sector g)).table.elev = (s.sector g).table.elev)
    (hr : (s.sector g).StrokeOk →
      (f (s.sector g)).group.openLen + (f (s.sector g)).table.margin + n ≤ (s.sector g).group.openLen + (s.sector g).table.margin) :
    Holds s t := by
  have hself := sector_raiseElev_self g n (s.modSector g f)
  rw [sector_modSector_self] at hself
  have hb := bottom_raiseElev g n (s.modSector g f)
  simp only [State.walls, raiseElev_deck, raiseElev_mixes, Prod.mk.injEq] at hw
  obtain ⟨hd, hm, hw⟩ := hw
  refine ⟨hk, fun k => ?_⟩
  have hwk := congrFun hw k
  by_cases e : k = g
  swap
  · rw [sector_raiseElev_ne n _ e, sector_modSector_ne s f e] at hwk
    exact .of_wall hd hm hwk
  subst e
  simp only [SectorState.wall, Prod.mk.injEq] at hwk
  obtain ⟨h1, h2, h3⟩ := hwk
  have hbt : t.bottom k = (s.modSector k f).raisedBottom k n := by
    rw [← hb, State.bottom, State.bottom, State.elev, State.elev, h2, State.h10, State.h10, raiseElev_deck, hd]
  refine .of_released hd hm ?_ ?_ fun hs => ?_
  · rw [hbt, h1, hself, ← hl]; rfl
  · rw [State.established, State.established, h2, hself, ← he]; exact Option.isSome_map
  · have := hr (hs k)
    rw [reach_eq, reach_eq, h3, hself]
    simp only [SectorState.reach, SectorState.elev, SectorState.raised, SectorState.released, SectorRec.raised, he]
    cases (s.sector k).table.elev <;> simp <;> omega

theorem walls_removeDemand (g : Sector) (s : State) : (removeDemand g s).walls = s.walls := walls_of_eq rfl rfl rfl

theorem walls_commitRise (g : Sector) (s : State) :
    (commitRise g s).walls = (raiseElev g ((s.sector g).group.latched.getD 0) s).walls := by
  unfold commitRise
  rw [walls_of_repaced (.rederive g _), walls_removeDemand, walls_of_repaced (.consumeRequest g _), walls_modPace]

theorem walls_commit (g : Sector) (s : State) :
    (commit g s).walls = (raiseElev g ((s.sector g).group.latched.getD 0) (beforeRise g s)).walls := by
  have hl : ((beforeRise g s).sector g).group.latched = (s.sector g).group.latched := by
    rw [beforeRise, modGroup_eq, sector_modSector_self]; rfl
  have h : ({ startAfter g (commitRise g (beforeRise g s)) with passDue := true } : State).walls =
      (raiseElev g ((s.sector g).group.latched.getD 0) (beforeRise g s)).walls := by
    rw [walls_passSet, walls_of_aside (.startAfter g _), walls_commitRise, hl]
  rw [commit_eq]
  split
  · exact (walls_settleExpiry g _).trans h
  · exact h

theorem Holds.commit {g : Sector} {s : State} (hs : s.groupState g = .pressurizing ∨ s.groupState g = .stalled) : Holds s (commit g s) := by
  refine Holds.trans (t := leavePressure g s) (.of_eq rfl rfl rfl) ?_
  refine .of_raised (g := g) (f := fun x => { x with group := x.group.committed s.deck.settle }) (Keeps.commit hs).stroke
    (walls_commit g s) rfl rfl fun hk => ?_
  have hk : (s.sector g).StrokeOk := hk
  have ho : (s.sector g).group.isOpen = true := hk.1.2 (hs.imp id .inl)
  show ((s.sector g).group.committed s.deck.settle).openLen + (s.sector g).table.margin + _ ≤ (s.sector g).group.openLen + (s.sector g).table.margin
  rw [openLen_of_open ho, openLen_of_closed rfl]; omega

theorem walls_lateCommit (g : Sector) (s : State) :
    (lateCommit g s).walls = (raiseElev g ((s.sector g).group.latched.getD 0) (s.modGroup g Group.committedLate)).walls := by
  have hl : ((s.modGroup g Group.committedLate).sector g).group.latched = (s.sector g).group.latched := by
    rw [modGroup_eq, sector_modSector_self]; rfl
  have h := walls_commitRise g (s.modGroup g Group.committedLate)
  rw [hl] at h
  unfold lateCommit
  rw [walls_passSet, walls_of_aside (.rejectAwaiting g _)]
  exact h

theorem Holds.lateCommit {g : Sector} {s : State} (hs : s.groupState g = .venting) (ho : (s.sector g).group.isOpen = true) :
    Holds s (lateCommit g s) := by
  refine .of_raised (g := g) (f := fun x => { x with group := x.group.committedLate }) (Keeps.lateCommit hs ho).stroke
    (walls_lateCommit g s) rfl rfl fun _ => ?_
  show ((s.sector g).group.committedLate).openLen + (s.sector g).table.margin + _ ≤ (s.sector g).group.openLen + _
  rw [openLen_of_open ho, openLen_of_closed rfl]; omega

/-- The stroke-end switch is taken (R87, R88, R90, R93, R96). -/
theorem Holds.strokeEndEvent (g : Sector) (s : State) : Holds s (strokeEndEvent g s) := by
  have hn : ∀ b : Bool, Same s (if b then Machine.noteSwitchFault g s else s) ∧ Holds s (if b then Machine.noteSwitchFault g s else s) := by
    intro b; cases b
    · exact ⟨.refl s, .refl s⟩
    · exact ⟨.noteSwitchFault g s, .noteSwitchFault g s⟩
  obtain ⟨hsame, hn⟩ := hn ((s.sector g).group.retSw.state == some true)
  unfold Machine.strokeEndEvent; dsimp only
  generalize (if ((s.sector g).group.retSw.state == some true) = true then Machine.noteSwitchFault g s else s) = u at hsame hn ⊢
  have hg : (u.sector g).group = (s.sector g).group := (hsame.figures g).2.2.2.2.2.2
  have hs : u.groupState g = s.groupState g := by rw [State.groupState, hg]; rfl
  split
  · split
    · exact (Holds.noteSwitchFault g s).trans (.enterFault _ _ _ _ _)
    · exact .noteSwitchFault g s
  · next h => exact hn.trans (.commit (.inl (hs.trans h)))
  · next h => exact hn.trans (.commit (.inr (hs.trans h)))
  · next h =>
    split
    · next ho =>
      rw [Bool.and_eq_true] at ho
      exact hn.trans (.lateCommit (hs.trans h) (by rw [hg]; exact ho.2))
    · exact hn
  all_goals exact hn

/-- ADJUST passes at most the margin on to E (R11). -/
theorem Holds.adjustElev {g : Sector} {c : Nat} {s : State} (hc : c ≤ (s.sector g).table.margin) : Holds s (adjustElev g c s) := by
  have hw : (Machine.adjustElev g c s).walls =
      (Machine.raiseElev g c (s.modSector g fun x => { x with table := { x.table with margin := 0 } })).walls := by
    unfold Machine.adjustElev
    rw [walls_passSet, walls_of_repaced (.rederive g _)]; rfl
  refine .of_raised (Keeps.adjustElev hc).stroke hw rfl rfl fun _ => ?_
  show (s.sector g).group.openLen + 0 + c ≤ _
  omega

/-! ### ESTABLISH and the re-base (R13, R23, R173) -/

/-- On an empty stack the concrete top at the form bottom keeps every law of the layer table. -/
theorem HoldsAt.of_rebased {s t : State} {g : Sector} (hl : t.stack g = [])
    (ht : t.established g = true → (t.sector g).layers.top = some (t.bottom g)) : HoldsAt s t g := by
  have hl' : (t.sector g).layers.stack = [] := hl
  refine ⟨fun _ => (layerLaw_iff _).2 (by simp [hl', contiguous]), fun _ _ => ⟨by simp [hl], fun he => ?_⟩, fun _ _ _ => ?_,
    fun _ _ _ hne => absurd hl hne⟩
  · rw [State.concreteTop, ht he]; exact ⟨rfl, Int.le_refl _⟩
  · rintro ⟨l, hm, -⟩
    rw [hl] at hm; cases hm

/-- A sector re-based to the form bottom under a form height of h tenths (R23). -/
def SectorState.rebased (h : Int) (x : SectorState) : SectorState :=
  { x with layers := { x.layers with top := some (x.elev - h), wallBase := some (x.elev - h) } }

theorem rebase_eq (g : Sector) (s : State) : rebase g s = s.modSector g (.rebased s.h10) := rfl

theorem Holds.setElev {g : Sector} {e : Nat} {s : State} (h : s.establishRefusal g (s.elevTaken e) = none) :
    Holds s (setElev g (s.elevTaken e) s) := by
  obtain ⟨hq, hst, ht⟩ := establishRefusal_none h
  have hk := Keeps.establish hq ht
  generalize s.elevTaken e = z at hk ⊢
  refine Holds.trans (t := rebase g (s.modTable g fun r => { r with elev := some z, margin := 0 })) ?_ (.of_repaced (.rederive g _))
  have hself : (rebase g (s.modTable g fun r => { r with elev := some z, margin := 0 })).sector g =
      ({ s.sector g with table := { (s.sector g).table with elev := some z, margin := 0 } } : SectorState).rebased s.h10 := by
    rw [rebase_eq, sector_modSector_self, modTable_eq, sector_modSector_self]; rfl
  refine .of_sector (g := g) (fun hs => (Keeps.of_same (Same.rebase g _)).stroke (hk.stroke hs)) rfl rfl (fun k e => ?_) (.of_rebased ?_ fun _ => ?_)
  · rw [rebase_eq, sector_modSector_ne _ _ e, modTable_eq, sector_modSector_ne _ _ e]
  · rw [State.stack, hself]; exact hst
  · rw [State.bottom, State.elev, hself]; rfl

/-! ### The DECK write (R172, R173) -/

theorem forEach_rebase (gs : List Sector) (s : State) :
    forEach gs rebase s = forEach gs (fun g u => u.modSector g (.rebased s.h10)) s := by
  induction gs generalizing s with
  | nil => rfl
  | cons g gs ih => exact ih (rebase g s)

/-- The sectors at the end of a geometry re-base (R173). -/
theorem sector_rebaseEstablished (s : State) (g : Sector) :
    (forEach (allSectors.filter fun g => s.established g) rebase s).sector g =
      if s.established g = true then (s.sector g).rebased s.h10 else s.sector g := by
  rw [forEach_rebase, sector_forEach_modSector (nodup_allSectors.filter _)]
  simp [mem_allSectors]

/-- With the form height kept, the creep tolerance taken covers every exposure (R172 step 3). -/
theorem HoldsAt.of_deckTaken {s : State} {d : DeckBlock} (hh : (s.deckTaken d).height = s.deck.height) (g : Sector) :
    HoldsAt s { s with deck := s.deckTaken d, deckWritten := true } g := by
  have hb : ({ s with deck := s.deckTaken d, deckWritten := true } : State).h10 = s.h10 := by rw [State.h10, State.h10, hh]
  refine ⟨id, fun _ h => ?_, fun _ _ he => ?_, fun _ h he hne => ?_⟩
  · obtain ⟨h1, h2⟩ := h
    refine ⟨h1, fun he => ?_⟩
    rw [State.bottom, hb]; exact h2 he
  · rintro ⟨l, hm, hu, hx⟩
    have hmem : s.reachBottom g - l.base ∈ s.exposures :=
      List.mem_flatMap.2 ⟨g, List.mem_filter.2 ⟨mem_allSectors g, he⟩, List.mem_map.2 ⟨l, List.mem_filter.2 ⟨hm, by simp [hu]⟩, rfl⟩⟩
    have hle := (le_maxOf hmem).trans (le_ceilMm _)
    have hc : ceilMm (maxOf s.exposures) ≤ (s.deckTaken d).creepTol := le_max_right _ _
    rw [State.reachBottom, hb] at hx
    have hx : l.base + 10 * ((s.deckTaken d).creepTol : Int) < s.reachBottom g := hx
    omega
  · rw [State.reachBottom, hb]; exact h he hne

/-- A DECK write re-bases where the form height changes, which it can on empty stacks alone (R172, R173). -/
theorem Holds.deckTaken {s : State} {d : DeckBlock} (h : ¬(s.holdsLayers = true ∧ (s.deckTaken d).height ≠ s.deck.height)) :
    Holds s (handOnDeck s { s with deck := s.deckTaken d, deckWritten := true }) := by
  generalize hu : ({ s with deck := s.deckTaken d, deckWritten := true } : State) = u
  have hs : StrokeLaw s → StrokeLaw u := by subst hu; exact id
  unfold handOnDeck; dsimp only
  refine Holds.trans ?_ (.of_same (.forEach _ _ (fun g t => .raiseBond g t) _) (walls_bondAtWrite s _))
  refine Holds.trans ?_ (.forEach _ _ (fun g t => .of_repaced (.rederive g t)) _)
  by_cases hh : s.deck.height = u.deck.height
  · rw [if_neg (not_not.2 hh)]
    subst hu
    exact ⟨hs, fun g => .of_deckTaken hh.symm g⟩
  · rw [if_pos hh]
    have hne : s.holdsLayers = false := by
      cases hl : s.holdsLayers
      · rfl
      · exact absurd ⟨hl, by subst hu; exact fun e => hh e.symm⟩ h
    have hempty : ∀ g, u.stack g = [] := fun g => by
      have hg : s.stack g = [] := by simpa using List.any_eq_false.1 hne g (mem_allSectors g)
      subst hu
      exact hg
    refine ⟨fun h0 => (Keeps.of_same (Same.forEach _ _ (fun g t => .rebase g t) u)).stroke (hs h0), fun g => ?_⟩
    have hd : (Machine.forEach (allSectors.filter fun g => u.established g) rebase u).deck = u.deck :=
      forEach_frame State.deck _ rebase (fun _ _ => rfl) u
    refine .of_rebased ?_ fun he => ?_
    · rw [State.stack, sector_rebaseEstablished]
      split
      · exact hempty g
      · exact hempty g
    · rw [State.established, sector_rebaseEstablished] at he
      have he : u.established g = true := by
        split at he
        · assumption
        · exact he
      rw [State.bottom, State.elev, State.h10, hd, sector_rebaseEstablished, if_pos he]; rfl

end Sys2Proof.Machine
end

