-- ==== Sys2Proof/Proofs/LayerRequests.lean ====
section
/-! SUPPORT. The requests that keep the laws of the layer table, and PLACED and LAYER RESTORE, which bring a layer (R24, R33). -/

namespace Sys2Proof.Machine

/-! ### The requests that bring no layer -/

theorem Holds.serveDeckWrite (d : DeckBlock) (s : State) : Holds s (serveDeckWrite d s).1 := by
  unfold Machine.serveDeckWrite; split
  · exact .refl s
  · dsimp only; split
    · exact .refl s
    · next h =>
      have h : ¬(s.holdsLayers = true ∧ (s.deckTaken d).height ≠ s.deck.height) := fun ⟨h1, h2⟩ => h ⟨h1, fun e => h2 e.1⟩
      exact (((Holds.deckTaken h).trans (.of_same (.noteClamped _ none _) (walls_noteClamped _ _ _))).trans
        (.of_aside (.completenessTest _))).trans (.finish _)

theorem Holds.takeSectorWrite (g : Sector) (ns : List Sector) (m : MixClass) (f : SectorFields) (s : State) :
    Holds s (takeSectorWrite g ns m f s).1 := by
  have hst := Steady.takeSectorWrite g ns m f s
  unfold Machine.takeSectorWrite at hst ⊢; dsimp only at hst ⊢; split
  · exact .refl s
  · next h =>
    have hw := Steady.sectorTaken
      (fun r => { r with
        enabled := decide (f.enable = 1), nbrs := ns, len := some (s.lenTaken f.len), written := true
        offset := clampInt (-5000) 5000 f.offset, mix := m })
      (s.lenTaken f.len) (fun r => ⟨rfl, rfl, rfl⟩) (Nat.min_le_right _ _) (tiltHolds_of_not_refused h)
    refine ((Holds.of_steady hw (walls_modSector s g _ ?_)).trans (.of_same (.handOnSector g s _) (walls_handOnSector g s _))).trans ?_
    · rfl
    · exact ((Holds.of_same (.noteClamped _ _ _) (walls_noteClamped _ _ _)).trans (.of_aside (.completenessTest _))).trans (.finish _)

theorem Holds.serveSectorWrite (i : Nat) (f : SectorFields) (s : State) : Holds s (serveSectorWrite i f s).1 := by
  unfold Machine.serveSectorWrite; split
  · exact .refl s
  · split
    · split
      · exact .refl s
      · split
        · exact .refl s
        · exact .takeSectorWrite _ _ _ f s
    · exact .refl s

theorem Holds.serveMixWrite (i : Nat) (f : MixFields) (s : State) : Holds s (serveMixWrite i f s).1 := by
  unfold Machine.serveMixWrite; split
  · exact .refl s
  · split
    · next m line _ _ =>
      exact ((Holds.mixTaken m _ s).trans (.of_same ((Same.unservedCheck s _).trans (.noteClamped _ none _))
        ((walls_noteClamped _ none _).trans (walls_unservedCheck s _)))).trans ((Holds.of_aside (.completenessTest _)).trans (.finish _))
    · exact .refl s

theorem Holds.serveSweepWrite (f : SweepFields) (s : State) : Holds s (serveSweepWrite f s).1 := by
  unfold Machine.serveSweepWrite; split
  · exact .refl s
  · split
    · next order mode _ _ =>
      split
      · exact .refl s
      · have h : Holds s { s with sweep := { written := true, order := order, start := f.start, mode := mode }, queue := [], sweepCount := 0, lastSweep := none } :=
          .of_eq rfl rfl rfl
        exact (h.trans (.of_aside (.completenessTest _))).trans (.finish _)
    · exact .refl s

theorem Holds.serveSetRate (n : Nat) (s : State) : Holds s (serveSetRate n s).1 :=
  .of_steady (.serveSetRate n s) ((walls_noteClamped _ _ _).trans (walls_takeRate _ _ s))

theorem Holds.serveSetGoal (n : Nat) (s : State) : Holds s (serveSetGoal n s).1 := by
  have h : ∀ v, Holds s (Machine.forEach allSectors updateGoal { s with goal := v }) := fun v =>
    Holds.trans (t := { s with goal := v }) (.of_eq rfl rfl rfl) (.forEach _ _ (fun g t => .of_repaced (.updateGoal g t)) _)
  exact (((h _).trans (.of_repaced (.goalTest _))).trans (.of_same (.noteClamped _ _ _) (walls_noteClamped _ _ _))).trans (.finish _)

theorem Holds.serveSetPlane (n : Nat) (s : State) : Holds s (serveSetPlane n s).1 :=
  .of_steady (.serveSetPlane n s) ((walls_noteClamped _ _ _).trans (walls_of_eq rfl rfl rfl))

theorem Holds.serveSetCreepSet (gs : List Nat) (s : State) : Holds s (serveSetCreepSet gs s).1 := by
  unfold Machine.serveSetCreepSet; split
  · exact .refl s
  · next set _ =>
    split
    · exact .refl s
    · have h : Holds s { s with creepSet := sectorSet set, creepList := s.creepList.filter fun e => (sectorSet set).contains e.sector } :=
        .of_eq rfl rfl rfl
      dsimp only
      refine Holds.trans ?_ (.finish _)
      split
      · exact h.trans (.of_repaced (.raiseDemands _))
      · exact .of_eq rfl rfl rfl

theorem Holds.serveEstablish (n e : Nat) (s : State) : Holds s (serveEstablish n e s).1 := by
  unfold Machine.serveEstablish; split
  · exact .refl s
  · dsimp only; split
    · exact .refl s
    · next h => exact ((Holds.setElev h).trans (.of_aside (.completenessTest _))).trans (.finish _)

theorem Holds.serveAdjust (n c : Nat) (s : State) : Holds s (serveAdjust n c s).1 := by
  unfold Machine.serveAdjust; split
  · exact .refl s
  · split
    · exact .refl s
    · exact (Holds.adjustElev (Nat.min_le_right _ _)).trans (.finish _)

theorem Holds.serveClearFault (n : Nat) (s : State) : Holds s (serveClearFault n s).1 := by
  unfold Machine.serveClearFault; split
  · exact .refl s
  · next g _ =>
    split
    · exact .refl s
    · split
      · exact .refl s
      · dsimp only; split
        · next h => exact (Holds.of_steady (.clearFault h) (walls_clearFault g s)).trans (.finish _)
        · exact .refl s

theorem Holds.serveStart (s : State) : Holds s (serveStart s).1 := by
  have h : Holds s (Machine.finish (enterClimb s)) := (Holds.of_repaced (.enterClimb s)).trans (.finish _)
  unfold Machine.serveStart; split
  · exact h
  · exact h
  all_goals exact .refl s

theorem Holds.finishHold (s : State) : Holds s (Machine.finish (enterHold s)) := (Holds.of_repaced (.enterHold s)).trans (.finish _)

theorem Holds.finishStandby (s : State) : Holds s (Machine.finish (enterStandby s)) := (Holds.of_aside (.enterStandby s)).trans (.finish _)

theorem Holds.serveHold (s : State) : Holds s (serveHold s).1 := by
  unfold Machine.serveHold; split
  · exact .finishHold s
  all_goals exact .refl s

theorem Holds.servePark (s : State) : Holds s (servePark s).1 := by
  unfold Machine.servePark; split
  · split
    · exact .refl s
    · exact .finishStandby s
  all_goals exact .refl s

theorem walls_enterHalt (s : State) : (enterHalt s).walls = s.walls := by
  have h1 : (stallTo 0 { s with mode := .halt, beforeHalt := some s.mode }).walls = s.walls :=
    (walls_stallTo 0 _).trans (walls_of_eq rfl rfl rfl)
  have h2 : ∀ u : State, (if s.mode = .climb then stopCounters u else u).walls = u.walls := by
    intro u; split
    · exact walls_of_repaced (.stopCounters u)
    · rfl
  have h3 : ∀ u : State, (if s.mode = .survey then stopSurvey u else u).walls = u.walls := by
    intro u; split
    · exact walls_of_aside (.stopSurvey u)
    · rfl
  unfold enterHalt; dsimp only
  rw [walls_passSet, h3, h2, h1]

theorem Holds.serveStop (s : State) : Holds s (serveStop s).1 := by
  have h : Holds s (Machine.finish (Machine.enterHalt s)) := (Holds.of_steady (.enterHalt s) (walls_enterHalt s)).trans (.finish _)
  unfold Machine.serveStop; split
  iterate 4 · exact h
  all_goals exact .refl s

theorem Holds.serveResume (s : State) : Holds s (serveResume s).1 := by
  unfold Machine.serveResume; split
  · unfold leaveHalt; split
    iterate 2 · exact .finishHold s
    iterate 2 · exact .finishStandby s
    all_goals exact .refl s
  all_goals exact .refl s

theorem Holds.serveSurveyStart (s : State) : Holds s (serveSurveyStart s).1 := by
  unfold Machine.serveSurveyStart; split
  · exact .refl s
  · split
    · exact .refl s
    · exact (Holds.of_aside (.beginSurvey s)).trans (.finish _)

theorem Holds.serveEndSurvey (s : State) : Holds s (serveEndSurvey s).1 := by
  unfold Machine.serveEndSurvey; split
  · exact .refl s
  · split
    · exact .refl s
    · exact (Holds.of_aside (.endSurvey s)).trans (.finish _)

theorem Holds.serveTrimSector (n : Nat) (s : State) : Holds s (serveTrimSector n s).1 := by
  unfold Machine.serveTrimSector; split
  · exact .refl s
  · split
    · exact .refl s
    · exact .of_aside (.askTrim _ s)

theorem Holds.serveLoadTable (s : State) : Holds s (serveLoadTable s).1 := by
  unfold Machine.serveLoadTable; split
  · exact .refl s
  · have h : Holds s { s with loadPending := true } := .of_eq rfl rfl rfl
    exact (h.trans (.of_repaced (.checkLoad _))).trans (.finish _)

theorem Holds.serveSupplyState (m k : Nat) (p : Option Nat) (s : State) : Holds s (serveSupplyState m k p s).1 := by
  have h : ∀ st cap pr, Holds s (takeReport st cap pr s) := by
    intro st cap pr
    have h1 : Holds s { s with supply := { state := st, cap := cap, pressure := pr, lapse := 0, lapseRunning := true } } := .of_eq rfl rfl rfl
    exact (h1.trans (.of_steady (.stallTo _ _) (walls_stallTo _ _))).trans (.of_eq rfl rfl rfl)
  unfold Machine.serveSupplyState; split
  · exact .refl s
  · exact (h _ _ _).trans (.finish _)

/-! ### A layer that joins (R24, R33) -/

/-- The one way past R25: a layer without a ticket has joined the empty stack of a SUSPECT sector (R33). -/
def Corner (s t : State) (g : Sector) : Prop := s.stack g = [] ∧ s.suspect g = true ∧ ∃ l, t.stack g = [l] ∧ l.ticket = 0

/-- What a command does to the laws of the layer table: it keeps them, but that a restored layer can stand below the reach bottom (R33). -/
structure Bears (s t : State) : Prop where
  stroke : StrokeLaw s → StrokeLaw t
  stack : ∀ g, StackAt s g → StackAt t g
  concrete : ∀ g, StackAt s g → ConcreteAt s g → ConcreteAt t g
  clear : ∀ g, Lawful s g → Clear s g → Ground s g → Clear t g
  ground : ∀ g, Lawful s g → Ground s g → Ground t g ∨ Corner s t g

theorem Bears.of_holds {s t : State} (h : Holds s t) : Bears s t :=
  ⟨h.stroke, fun g => (h.sector g).stack, fun g => (h.sector g).concrete, fun g hs hc _ => (h.sector g).clear hs hc,
    fun g hs hg => .inl ((h.sector g).ground hs hg)⟩

theorem Bears.lawful {s t : State} (h : Bears s t) {g : Sector} (hs : Lawful s g) : Lawful t g :=
  ⟨h.stroke hs.stroke, h.stack g hs.stack, h.concrete g hs.stack hs.concrete⟩

/-- What comes after, the stacks left alone. -/
theorem Bears.after {s t u : State} (h : Bears s t) (k : Holds t u) (hl : Level t u) : Bears s u := by
  refine ⟨fun hs => k.stroke (h.stroke hs), fun g hs => (k.sector g).stack (h.stack g hs),
    fun g hs hc => (k.sector g).concrete (h.stack g hs) (h.concrete g hs hc),
    fun g hs hc hg => (k.sector g).clear (h.lawful hs) (h.clear g hs hc hg), fun g hs hg => ?_⟩
  refine (h.ground g hs hg).imp ((k.sector g).ground (h.lawful hs)) ?_
  rintro ⟨h1, h2, l, h3, h4⟩
  exact ⟨h1, h2, l, by rw [hl.stack]; exact h3, h4⟩

theorem Bears.then {s t u : State} (h : Bears s t) (k : Same t u) (hw : u.walls = t.walls) : Bears s u := h.after (.of_same k hw) k.level

theorem Bears.finish {s t : State} (h : Bears s t) : Bears s (finish t) := h.after (.finish t) (Steady.finish t).toLevel

/-- What comes before, stacks and margins left alone. -/
theorem Bears.before {s t u : State} (k : Holds s t) (hl : Level s t) (ho : Orders s t) (h : Bears t u) : Bears s u := by
  refine ⟨fun hs => h.stroke (k.stroke hs), fun g hs => h.stack g ((k.sector g).stack hs),
    fun g hs hc => h.concrete g ((k.sector g).stack hs) ((k.sector g).concrete hs hc),
    fun g hs hc hg => h.clear g (k.lawful hs) ((k.sector g).clear hs hc) ((k.sector g).ground hs hg), fun g hs hg => ?_⟩
  refine (h.ground g (k.lawful hs) ((k.sector g).ground hs hg)).imp id ?_
  rintro ⟨h1, h2, h3⟩
  exact ⟨by rw [← hl.stack]; exact h1, by rw [State.suspect, ← ho.margin]; exact h2, h3⟩

/-- What the layer that joins has to meet. -/
structure Fits (g : Sector) (l : Layer) (s : State) : Prop where
  room : (s.stack g).length < 12
  sound : l.Sound s.mixes
  base : StackAt s g → s.stack g ≠ [] → l.base = s.concreteTop g
  top : ConcreteAt s g → s.established g = true → s.bottom g ≤ l.top
  exposure : Ground s g → s.established g = true → l.flags.ready = false → s.reachBottom g ≤ l.base + s.c10
  ground : Lawful s g → Ground s g → s.established g = true →
    s.reachBottom g ≤ l.top ∨ (s.stack g = [] ∧ s.suspect g = true ∧ l.ticket = 0)

theorem Bears.joinLayer {g : Sector} {l : Layer} {s : State} (h : Fits g l s) : Bears s (joinLayer g l s) := by
  have hself : (Machine.joinLayer g l s).sector g = { s.sector g with layers := { (s.sector g).layers with
      stack := (s.sector g).layers.stack ++ [l], top := some l.top, nextSerial := nextSerial (s.sector g).layers.nextSerial } } := by
    rw [Machine.joinLayer, modLayers_eq, sector_modSector_self]
  have hne : ∀ k, k ≠ g → HoldsAt s (Machine.joinLayer g l s) k := fun k e => by
    refine .of_wall rfl rfl ?_
    rw [Machine.joinLayer, modLayers_eq, sector_modSector_ne s _ e]
  have hst : (Machine.joinLayer g l s).stack g = s.stack g ++ [l] := by rw [State.stack, hself]; rfl
  have hct : (Machine.joinLayer g l s).concreteTop g = l.top := by rw [State.concreteTop, hself]; rfl
  have hes : (Machine.joinLayer g l s).established g = s.established g := by rw [State.established, hself]; rfl
  have hb : (Machine.joinLayer g l s).bottom g = s.bottom g := by rw [State.bottom, State.elev, hself]; rfl
  have hrb : (Machine.joinLayer g l s).reachBottom g = s.reachBottom g := by rw [State.reachBottom, State.reach, State.elev, hself]; rfl
  have hk : Keeps s (Machine.joinLayer g l s) := .of_plain rfl fun k => ⟨(joinLayer_plain g l s k).1, (joinLayer_plain g l s k).2.1⟩
  refine ⟨hk.stroke, fun k hs => ?_,
    fun k hs hc => ?_, fun k hs hc hg => ?_, fun k hs hg => ?_⟩
  all_goals
    by_cases e : k = g
    swap
  · exact (hne k e).stack hs
  · subst e
    obtain ⟨-, h2, -⟩ := (layerLaw_iff _).1 hs
    refine (layerLaw_iff _).2 ⟨?_, ?_, fun x hx => ?_⟩
    · have := h.room
      rw [hself]
      show (s.stack k ++ [l]).length ≤ 12
      rw [List.length_append, List.length_singleton]; omega
    · rw [hself]
      refine contiguous_join h2 fun x hx => ?_
      have hne : s.stack k ≠ [] := fun e => by rw [show (s.sector k).layers.stack = [] from e] at hx; cases hx
      rw [h.base hs hne, concreteTop_of_last hs hx]
    · rw [hself] at hx ⊢
      rw [List.getLast?_concat] at hx
      rw [Option.some.inj hx]
  · exact (hne k e).concrete hs hc
  · subst e
    refine ⟨fun m hm => ?_, fun he => ?_⟩
    · rw [hst] at hm
      rcases List.mem_append.1 hm with hm | hm
      · exact hc.1 m hm
      · rw [List.mem_singleton.1 hm]; exact h.sound
    · rw [hb, hct, hself]
      exact ⟨rfl, h.top hc (hes ▸ he)⟩
  · exact (hne k e).clear hs hc
  · subst e
    rintro he ⟨m, hm, hu, hx⟩
    rw [hst] at hm
    rw [hrb] at hx
    rcases List.mem_append.1 hm with hm | hm
    · exact hc (hes ▸ he) ⟨m, hm, hu, hx⟩
    · rw [List.mem_singleton.1 hm] at hu hx
      exact absurd (h.exposure hg (hes ▸ he) hu) (Int.not_le.2 hx)
  · exact .inl ((hne k e).ground hs hg)
  · subst e
    by_cases he : s.established k = true
    · refine (h.ground hs hg he).imp (fun hle _ _ => by rw [hrb, hct]; exact hle) fun ⟨h1, h2, h3⟩ => ?_
      exact ⟨h1, h2, l, by rw [hst, h1]; rfl, h3⟩
    · exact .inl fun ht => absurd (hes ▸ ht) he

/-- A placement's layer rests on the concrete top, or on an empty stack at the reach bottom if that is higher (R24, R25). -/
theorem fits_placementLayer {g : Sector} {s : State} (n target k : Nat) (m : MixClass) (c late : Bool) (b : Option Nat)
    (hr : (s.stack g).length < 12) (hk : 0 < k) : Fits g (s.placementLayer g n m target k c late b) s := by
  have hb : (s.placementLayer g n m target k c late b).base = s.placementBase g := rfl
  have ht : (s.placementLayer g n m target k c late b).top = s.placementBase g + 10 * (k : Int) := rfl
  have hct : s.concreteTop g ≤ s.placementBase g := by
    unfold State.placementBase; split
    · exact le_max_left _ _
    · exact Int.le_refl _
  have hrb : Ground s g → s.established g = true → s.reachBottom g ≤ s.placementBase g := fun hg he => by
    unfold State.placementBase; split
    · exact le_max_right _ _
    · next hne => exact hg he (by simpa using hne)
  refine ⟨hr, ⟨by rw [hb, ht]; omega, Nat.zero_le _, fun hu => ?_⟩, fun _ hne => ?_, fun hc he => ?_, fun hg he _ => ?_, fun _ hg he => .inl ?_⟩
  · exact Nat.not_le.1 (of_decide_eq_false hu)
  · rw [hb, State.placementBase, if_neg (by simpa using hne)]
  · have := (hc.2 he).2
    rw [ht]; omega
  · have := hrb hg he
    have : 0 ≤ s.c10 := by simp only [State.c10]; omega
    rw [hb]; omega
  · have := hrb hg he
    rw [ht]; omega

theorem Bears.placeUnder (t : Named) (k : Nat) (b : Option Nat) (s : State) : Bears s (placeUnder t k b s).1 := by
  unfold Machine.placeUnder; split
  · exact .of_holds (.of_same (.placeRefused t s) (walls_placeRefused t s))
  · next h =>
    have hj := Bears.joinLayer (fits_placementLayer t.number t.target (clampNat 20 500 k) t.mix (decide (clampNat 20 500 k ≠ k)) t.late b
      (Nat.not_le.1 h) (by simp only [clampNat]; omega))
    have hs := fun l => ((Same.dropNamed t (Machine.joinLayer t.sector l s)).trans (.noteLate t _)).trans (.layerAlerts t.sector l _)
    have hw := fun l => ((walls_layerAlerts t.sector l _).trans (walls_noteLate t _)).trans (walls_dropNamed t (Machine.joinLayer t.sector l s))
    exact ((hj.then (hs _) (hw _)).then (.passSet _ true) (walls_passSet _ true)).finish

theorem Bears.servePlaced (n k : Nat) (b : Option Nat) (s : State) : Bears s (servePlaced n k b s).1 := by
  unfold Machine.servePlaced; split
  · exact .of_holds (.refl s)
  · split
    · exact .of_holds (.of_same (.serveAbandon n s) (walls_serveAbandon n s))
    · exact .placeUnder _ k b s

/-- A LAYER RESTORE that is taken has passed the rows of R33. -/
theorem restoreRefusal_none {s : State} {g : Sector} {m : MixClass} {l : Layer} (h : s.restoreRefusal g m l = none) :
    (s.groupState g).inFlight = false ∧ (s.stack g).length < 12 ∧ (s.stack g ≠ [] → l.base = s.concreteTop g)
      ∧ s.bottom g < l.top ∧ (l.flags.ready = false → s.reachBottom g ≤ l.base + s.c10) := by
  simp only [State.restoreRefusal, ite_eq_iff, reduceCtorEq, and_false, false_or, and_true] at h
  obtain ⟨-, -, hf, hr, hi, he⟩ := h
  rw [not_or] at hi he
  refine ⟨by simpa using hf, Nat.not_le.1 hr, fun hne => ?_, Int.not_le.1 he.1, fun hu => ?_⟩
  · by_contra hb
    exact hi.1 ⟨by simpa using hne, hb⟩
  · by_contra hx
    exact he.2 ⟨by simp [hu], Int.not_le.1 hx⟩

/-- A restored layer fits, but that on the empty stack of a SUSPECT sector it can stand below the reach bottom (R33). -/
theorem fits_restoredLayer {g : Sector} {m : MixClass} {f : RestoreFields} {s : State} (hm : f.maturity ≤ 65535)
    (h : s.restoreRefusal g m (s.restoredLayer g m f) = none) : Fits g (s.restoredLayer g m f) s := by
  obtain ⟨hf, hr, hb, ht, hx⟩ := restoreRefusal_none h
  generalize hl : s.restoredLayer g m f = l at *
  have hthick : l.base < l.top := by subst hl; simp only [State.restoredLayer, clampNat]; omega
  refine ⟨hr, ⟨hthick, by subst hl; exact hm, fun hu => ?_⟩, fun _ => hb, fun _ _ => ht.le, fun _ _ => hx, fun hs hg he => ?_⟩
  · subst hl; exact Nat.not_le.1 (of_decide_eq_false hu)
  · by_cases hne : s.stack g = []
    · cases hsus : s.suspect g with
      | true => exact .inr ⟨hne, rfl, by subst hl; rfl⟩
      | false =>
        have hcl : (s.sector g).group.isOpen = false := by
          by_contra ho
          have ht : (s.groupState g).inFlight = true := inFlight_of_open (hs.stroke g) (by simpa using ho)
          rw [ht] at hf; cases hf
        have hmar : (s.sector g).table.margin = 0 := by simpa [State.suspect] using hsus
        have : s.reachBottom g = s.bottom g := by
          simp only [State.reachBottom, State.reach, State.bottom, openLen_of_closed hcl, hmar]; omega
        exact .inl (by omega)
    · have := hg he hne
      rw [← hb hne] at this
      exact .inl (by omega)

theorem Bears.serveLayerRestore {f : RestoreFields} (hm : f.maturity ≤ 65535) (s : State) : Bears s (serveLayerRestore f s).1 := by
  unfold Machine.serveLayerRestore; split
  · dsimp only; split
    · exact .of_holds (.refl s)
    · next h =>
      exact ((Bears.joinLayer (fits_restoredLayer hm h)).then (.passSet _ true) (walls_passSet _ true)).finish
  · exact .of_holds (.refl s)

end Sys2Proof.Machine
end

