-- ==== Sys2Proof/Proofs/StackLaws.lean ====
section
/-! SUPPORT. Every command but power-on reset keeps the laws of the layer table, but for the corner of R33; the laws over every step (StackLawKept). -/

namespace Sys2Proof.Machine

/-! ### The requests -/

/-- The maturity of a LAYER RESTORE is a two-byte figure (R33, R190). -/
theorem maturity_of_parsed {p : List Byte} {f : RestoreFields} (h : parsePayload .layerRestore p = some (.layerRestore f)) :
    f.maturity ≤ 65535 := by
  have hu : ∀ a b : Byte, u16 a b ≤ 65535 := fun a b => by
    have := a.isLt
    have := b.isLt
    unfold u16; omega
  have h : parseRestore p = some (.layerRestore f) := h
  unfold parseRestore at h
  split at h
  · dsimp only at h
    split at h
    · cases h; exact hu _ _
    · cases h; exact hu _ _
    · cases h
  · cases h

/-- Only PLACED and LAYER RESTORE bring layers; every other request keeps the laws outright. -/
theorem Bears.serveRequest {r : Request} (hr : ∀ f, r = .layerRestore f → f.maturity ≤ 65535) (s : State) :
    Bears s (serveRequest r s).1 := by
  have holds : ∀ {t : State}, Holds s t → Bears s t := .of_holds
  have reads : ∀ {t : State}, t = s → Bears s t := fun h => .of_holds (h ▸ .refl _)
  cases r with
  | deckWrite f => exact holds (.serveDeckWrite f s)
  | sectorWrite i f => exact holds (.serveSectorWrite i f s)
  | mixWrite i f => exact holds (.serveMixWrite i f s)
  | sweepWrite f => exact holds (.serveSweepWrite f s)
  | profileRead b i => exact reads (serveProfileRead_state b i s)
  | setRate v => exact holds (.serveSetRate v s)
  | setGoal v => exact holds (.serveSetGoal v s)
  | setPlane v => exact holds (.serveSetPlane v s)
  | setCreepSet gs => exact holds (.serveSetCreepSet gs s)
  | establish g e => exact holds (.serveEstablish g e s)
  | adjust g c => exact holds (.serveAdjust g c s)
  | clearFlags g f => exact holds (.of_steady (.serveClearFlags g f s) (walls_serveClearFlags g f s))
  | clearFault g => exact holds (.serveClearFault g s)
  | start => exact holds (.serveStart s)
  | hold => exact holds (.serveHold s)
  | park => exact holds (.servePark s)
  | stop => exact holds (.serveStop s)
  | resume => exact holds (.serveResume s)
  | restart => exact reads rfl
  | survey => exact holds (.serveSurveyStart s)
  | endSurvey => exact holds (.serveEndSurvey s)
  | trimSector g => exact holds (.serveTrimSector g s)
  | layerRestore f => exact .serveLayerRestore (hr f rfl) s
  | setLayerCursor g p => exact holds (.of_same (.serveSetCursor g p s) (walls_serveSetCursor g p s))
  | readLayer => exact holds (.of_same (.serveReadLayer s) (walls_serveReadLayer s))
  | readReleaseLog i n => exact reads (serveReadLog_state i n s)
  | writeArbTable xs => exact holds (.of_same (.serveWriteTable xs s) (walls_serveWriteTable xs s))
  | loadArbTable => exact holds (.serveLoadTable s)
  | readArbTable n => exact reads (serveReadTable_state n s)
  | readFeed p g => exact reads (serveReadFeed_state p g s)
  | sectorStatus g => exact reads (serveSectorStatus_state g s)
  | deckStatus => exact reads rfl
  | readAlerts i n => exact reads (serveReadAlerts_state i n s)
  | ackAlerts n => exact holds (.of_eq rfl rfl rfl)
  | supplyState m k p => exact holds (.serveSupplyState m k p s)
  | requestFeed l n => exact holds (.of_same (.serveRequestFeed l n s) (walls_serveRequestFeed l n s))
  | placed n k b => exact .servePlaced n k b s
  | abandon n => exact holds (.of_same (.serveAbandon n s) (walls_serveAbandon n s))
  | ticketQuery n => exact reads (serveTicketQuery_state n s)

theorem Bears.checkRequest (p : PortId) (f : Frame) (s : State) : Bears s (checkRequest p f s).1 := by
  unfold Machine.checkRequest; split
  · exact .of_holds (.refl s)
  · split
    · exact .of_holds (.refl s)
    · split
      · exact .of_holds (.refl s)
      · next k _ _ _ _ hp =>
        refine .serveRequest (fun f hf => ?_) s
        subst hf
        obtain rfl : ReqKind.layerRestore = k := kind_parsePayload hp
        exact maturity_of_parsed hp

/-! ### The ports -/

theorem Holds.setPort (s : State) (p : PortId) (x : Port) : Holds s (s.setPort p x) := .of_same (.setPort s p x) (walls_setPort s p x)

theorem Bears.setPort (s : State) (p : PortId) (x : Port) : Bears s (s.setPort p x) := .of_holds (.setPort s p x)

theorem Bears.onPort {s t : State} {p : PortId} {x : Port} (h : Bears (s.setPort p x) t) : Bears s t :=
  .before (.setPort s p x) (Same.setPort s p x).level (.of_same (.setPort s p x)) h

theorem Bears.takeFrame (p : PortId) (f : Frame) (s : State) : Bears s (takeFrame p f s) :=
  (Bears.checkRequest p f s).then (.setPort _ p _) (walls_setPort _ p _)

theorem Bears.deliver (p : PortId) (f : Frame) (s : State) : Bears s (deliver p f s) := by
  unfold Machine.deliver; dsimp only; split
  · exact .takeFrame p f s
  · exact .setPort s p _
  · exact .setPort s p _

theorem Bears.delivered (p : PortId) (f : Frame) (s : State) : Bears s (Machine.deliver p f (toHunting p s)) :=
  .onPort (.deliver p f _)

theorem Bears.frameByte (p : PortId) (bytes : List Byte) (s : State) : Bears s (frameByte p bytes s) := by
  unfold Machine.frameByte; split
  · exact .setPort s p _
  · exact .setPort s p _
  · exact .delivered p _ s

theorem Bears.receiveByte (p : PortId) (b : Byte) (s : State) : Bears s (receiveByte p b s) := by
  unfold Machine.receiveByte; split
  · split
    · exact .setPort s p _
    · exact .of_holds (.refl s)
  · exact .frameByte p _ s

theorem Bears.answerDone (p : PortId) (s : State) : Bears s (answerDone p s) := by
  unfold Machine.answerDone; dsimp only; split
  · exact .of_holds (.refl s)
  · split
    · exact .of_holds (.warmReset s)
    · split
      · exact .onPort (.takeFrame p _ _)
      · exact .setPort s p _

/-! ### Every command -/

/-- Every command but power-on reset keeps the laws of the layer table, but for the corner of R33. -/
theorem exec_bears {c : Instr} {s t : State} (hc : c ≠ .powerOnReset) (h : exec c s = .next t) : Bears s t := by
  have settled : ∀ {u : State}, Bears (Machine.settleDue s) u → (.next u : Result) = .next t → Bears s t := by
    rintro u k ⟨⟩
    exact .before (.settleDue s) (Steady.settleDue s).toLevel (.settleDue s) k
  have holds : ∀ {u : State}, Holds (Machine.settleDue s) u → (.next u : Result) = .next t → Bears s t := fun k => settled (.of_holds k)
  have clock : ∀ {u : State}, Holds s u → (.next u : Result) = .next t → Bears s t := by rintro u k ⟨⟩; exact .of_holds k
  have walls : ∀ {u v : State}, Steady u v → v.walls = u.walls → Holds u (Machine.finish v) := fun k hw =>
    (Holds.of_steady k hw).trans (.finish _)
  have expired : ∀ (g : Sector) (k : TimerKind) (e : State → State), (∀ u, Holds u (e u)) →
      Holds (Machine.settleDue s) (Machine.finish (expireIf g k e (Machine.settleDue s))) := by
    intro g k e he
    refine Holds.trans ?_ (.finish _)
    unfold expireIf; split
    · exact he _
    · exact .refl _
  have switched : ∀ (g : Sector) (w : SwitchId) (l : Bool) (e : State → State), (∀ u, Holds u (e u)) →
      Holds (Machine.settleDue s) (Machine.finish (switchChange g w l e (Machine.settleDue s))) := fun g w l e he =>
    (Holds.switchChange g w l e he _).trans (.finish _)
  cases c with
  | powerOnReset => exact absurd rfl hc
  | warmReset => exact holds (.warmReset _) h
  | answerSent p => exact settled (.answerDone p _) h
  | frameDiscarded p d => exact settled (.frameByte p d _) h
  | frameByteTimeout p => exact holds (.setPort _ p _) h
  | startByte p b => exact settled (.receiveByte p b _) h
  | switchInputChange g w l => exact holds (.of_steady (.inputChange g w l _) (walls_inputChange g w l _)) h
  | switchFirstState g w l => exact holds (.firstState g w l _) h
  | inputReturnsToDebouncedState g w => exact holds (.of_steady (.inputReturn g w _) (walls_inputReturn g w _)) h
  | strokeEndTaken g => exact holds (switched g .strokeEnd true _ (.strokeEndEvent g)) h
  | strokeEndLost g => exact holds (switched g .strokeEnd false id .refl) h
  | retractedTaken g => exact holds (switched g .retracted true _ (.retractedEvent g)) h
  | retractedLost g => exact holds (switched g .retracted false _ (.retractedLostEvent g)) h
  | pressurizeWindowExpiry g => exact holds (expired g .window _ (.windowExpiry g)) h
  | settleTimeExpiry g => exact holds (expired g .settle _ (.settleExpiry g)) h
  | ventWindowExpiry g => exact holds (expired g .vent _ (.ventExpiry g)) h
  | secondEvent => exact clock (.clockEvent false s) h
  | minuteEvent => exact clock (.clockEvent true s) h
  | paceCounterExpiry => exact clock ((Holds.takePace s).trans (.finishDue _)) h
  | dwellLimitReached => exact clock ((Holds.takeDwell s).trans (.finishDue _)) h
  | bondRisk => exact clock ((Holds.takeBond s).trans (.finishDue _)) h
  | supplyLapse => exact clock ((Holds.takeLapse s).trans (.finishDue _)) h
  | ticketExpiry => exact clock ((Holds.takeExpiry s).trans (.finishDue _)) h
  | expiredEntryAging => exact clock ((Holds.takeAging s).trans (.finishDue _)) h
  | probeAnswer n b => exact holds (walls (.probeAnswered n b _) (walls_probeAnswered n b _)) h
  | receiverAnswer n b => exact holds (walls (.receiverAnswered _ b _) (walls_receiverAnswered _ b _)) h
  | sensorTryTimeout => exact holds (walls (.tryTimedOut _) (walls_tryTimedOut _)) h
  | _ => exact settled (.delivered _ _ _) h

/-! ### The laws over every step -/

/-- Over a power-on reset the laws hold anew (O60). -/
theorem Bears.powerOn (s u : State) : Bears s (powerOn u) := by
  have h : Holds State.reset (Machine.powerOn u) := .of_eq rfl rfl rfl
  have hl : ∀ g, Lawful State.reset g := fun g => ⟨strokeLaw_reset, stackLaw_reset g, concreteLaw_reset g⟩
  have hes : ∀ g, State.reset.established g = true → False := fun g he => by simp [State.established] at he
  exact ⟨fun _ => h.stroke strokeLaw_reset, fun g _ => (h.lawful (hl g)).stack, fun g _ _ => (h.lawful (hl g)).concrete,
    fun g _ _ _ => (h.sector g).clear (hl g) fun he => (hes g he).elim,
    fun g _ _ => .inl ((h.sector g).ground (hl g) fun he => (hes g he).elim)⟩

theorem step_bears {s t : State} (h : step s = .next t) : Bears s t := by
  unfold step at h
  split at h
  · cases h; exact .of_holds (.refl s)
  · next c rest _ =>
    have hu : Holds s { s with pending := rest } := .of_eq rfl rfl rfl
    have hs : Same s { s with pending := rest } := .of_eq rfl rfl
    by_cases hc : c = .powerOnReset
    · subst hc
      obtain rfl : Machine.powerOn { s with pending := rest } = t := Host.Outcome.next.inj h
      exact .powerOn _ _
    · exact .before hu hs.level (.of_same hs) (exec_bears hc h)

/-- Settles O54: every command keeps the laws sector by sector, but for the layer that LAYER RESTORE can place below the reach bottom (R33). -/
theorem stackLawKept : Obligations.StackLawKept := by
  refine ⟨fun s t hs h g => (step_bears h).stack g (hs g), fun s t hs hc h g => (step_bears h).concrete g (hs g) (hc g),
    fun s t hs hc hk hx h g he => ?_⟩
  have hb := step_bears h
  have hl : Lawful s g := ⟨hk, hs g, hc g⟩
  have hground : Ground s g := fun he => (hx g he).2
  exact ⟨hb.clear g hl (fun he => (hx g he).1) hground he, (hb.ground g hl hground).imp (fun hg => hg he) id⟩

end Sys2Proof.Machine
end

