-- ==== Sys2Proof/Proofs/Reads.lean ====
section
/-! SUPPORT. A request that leaves its port to the answer alone; the reads (ReadsChangeNothing) and the read cursor (ReadCursor). -/

namespace Sys2Proof.Machine

/-- A request served at rest whose owning block goes from s to t, whatever the port's reception: t sends the answer, nothing else of it changed. -/
theorem arrive_serves {k : ReqKind} {d : List Byte} {r : Request} {s t : State} {rep : Reply} (h : Rest (roleOf k) s)
    (hp : parsePayload k d = some r) (ht : t.ports = s.ports)
    (hs : serveRequest r (toHunting (roleOf k) s) = (toHunting (roleOf k) t, rep)) :
    arrive (roleOf k) k d s = answer (roleOf k) k rep t := by
  have hport := port_eq_of_ports ht
  have hu : (serveRequest r (toHunting (roleOf k) s)).1.ports = (toHunting (roleOf k) s).ports := by
    rw [hs, toHunting, toHunting, hport]
    simp only [State.ports, Prod.mk.injEq] at ht ⊢
    obtain ⟨h1, h2, h3⟩ := ht
    cases roleOf k <;> exact ⟨by simp [State.setPort, h1], by simp [State.setPort, h2], by simp [State.setPort, h3]⟩
  rw [(arrive_answers h hp hu).1, hs, toHunting, setPort_setPort, answer, hport]

/-! ### The reads -/

/-- A read served at rest answers and changes nothing but its port. -/
theorem arrive_reads {k : ReqKind} {d : List Byte} {r : Request} {s : State} {rep : Reply} (h : Rest (roleOf k) s)
    (hp : parsePayload k d = some r) (hs : serveRequest r (toHunting (roleOf k) s) = (toHunting (roleOf k) s, rep)) :
    arrive (roleOf k) k d s = answer (roleOf k) k rep s := arrive_serves h hp rfl hs

theorem serveReadFeed_eq (g : Sector) (s : State) :
    serveReadFeed 0 g.val s = (s, ⟨.ok, feedQueueB s⟩) ∧ serveReadFeed 1 g.val s = (s, ⟨.ok, feedTicketsB s g⟩) := by
  simp only [serveReadFeed, toSector_val, and_self]

theorem serveSectorStatus_eq (g : Sector) (s : State) : serveSectorStatus g.val s = (s, ⟨.ok, sectorStatusB s g⟩) := by
  simp only [serveSectorStatus, toSector_val]

theorem serveProfileRead_sector (g : Sector) (s : State) :
    serveProfileRead 1 g.val s = (s, ⟨.ok, boolB (s.sector g).table.written ++ sectorBlockB (s.sector g).table⟩) := by
  simp only [serveProfileRead, toSector_val]

theorem serveProfileRead_mix (m : MixClass) (s : State) :
    serveProfileRead 2 m.val s = (s, ⟨.ok, boolB (s.mix m).written ++ mixB (s.mix m)⟩) := by
  have hm : toMix m.val = some m := by simp [toMix, m.isLt]
  simp only [serveProfileRead, hm]

/-- A page of the release log, its index and count in range (R32). -/
theorem serveReadLog_eq {i n : Nat} (hi : i ≤ 31) (hn : 1 ≤ n) (hm : n ≤ 8) (s : State) :
    serveReadLog i n s = (s, if i < s.releaseLog.length then
        ⟨.ok, figB s.releaseLog.length ++ longB s.releaseCount ++ listB (((s.releaseLog.drop i).take n).map releaseB)⟩
      else ⟨.none, figB s.releaseLog.length ++ longB s.releaseCount⟩) := by
  have hc : clampNat 1 8 n = n := by simp only [clampNat]; omega
  unfold serveReadLog
  rw [if_neg (Nat.not_lt.2 hi), hc]
  simp only [ne_eq, not_true_eq_false, decide_false, page]
  split <;> rfl

theorem sector_byte (g : Sector) : (byteOf g.val).toNat = g.val := by rw [byteOf_toNat]; omega

/-- Settles O28: each read's block leaves the state as it finds it. -/
theorem readsChangeNothing : Obligations.ReadsChangeNothing := by
  intro s hr
  have reads : ∀ {k : ReqKind} {d : List Byte} {r : Request} {rep : Reply}, roleOf k = .console → parsePayload k d = some r →
      serveRequest r (toHunting .console s) = (toHunting .console s, rep) →
      (.next (arrive .console k d s) : Result) = .next (answer .console k rep s) := by
    intro k d r rep hk hp hs
    rw [← hk] at hr hs ⊢
    rw [arrive_reads hr hp hs]
  refine ⟨fun i => ?_, fun g => ?_, fun m => ?_, fun i => ?_, ?_, ?_, fun g => ⟨?_, ?_, ?_⟩, ?_, fun i n hi hn hm => ?_⟩
  · exact reads (r := .profileRead 0 i.toNat) rfl rfl rfl
  · refine reads (r := .profileRead 1 g.val) rfl ?_ (serveProfileRead_sector g _)
    show some (Request.profileRead 1 (byteOf g.val).toNat) = _
    rw [sector_byte]
  · refine reads (r := .profileRead 2 m.val) rfl ?_ (serveProfileRead_mix m _)
    show some (Request.profileRead 2 (byteOf m.val).toNat) = _
    rw [byteOf_toNat, Nat.mod_eq_of_lt (by omega)]
  · exact reads (r := .profileRead 3 i.toNat) rfl rfl rfl
  · exact reads (r := .readArbTable 0) rfl rfl rfl
  · exact reads (r := .readArbTable 1) rfl rfl rfl
  · refine reads (r := .readFeed 0 g.val) rfl ?_ (serveReadFeed_eq g _).1
    show some (Request.readFeed 0 (byteOf g.val).toNat) = _
    rw [sector_byte]
  · refine reads (r := .readFeed 1 g.val) rfl ?_ (serveReadFeed_eq g _).2
    show some (Request.readFeed 1 (byteOf g.val).toNat) = _
    rw [sector_byte]
  · refine reads (r := .sectorStatus g.val) rfl ?_ (serveSectorStatus_eq g _)
    show some (Request.sectorStatus (byteOf g.val).toNat) = _
    rw [sector_byte]
  · exact reads (r := .deckStatus) rfl rfl rfl
  · refine reads (r := .readReleaseLog i n) rfl ?_ (serveReadLog_eq hi hn hm _)
    show some (Request.readReleaseLog (byteOf i).toNat (byteOf n).toNat) = _
    rw [byteOf_toNat, byteOf_toNat, Nat.mod_eq_of_lt (by omega), Nat.mod_eq_of_lt (by omega)]

/-! ### The read cursor -/

/-- The first of the sectors, in ascending index, that a test picks. -/
theorem find_allSectors {p : Sector → Bool} {i : Sector} (hi : p i = true) (hj : ∀ j, j < i → p j = false) : allSectors.find? p = some i := by
  have hget : ∀ j : Fin 24, allSectors[j.val]? = some j := by decide
  have hlen : allSectors.length = 24 := rfl
  refine List.find?_eq_some_iff_getElem.2 ⟨hi, i.val, by rw [hlen]; exact i.isLt, ?_, fun j hji => ?_⟩
  · have := hget i
    rw [List.getElem?_eq_getElem (by rw [hlen]; exact i.isLt)] at this
    exact Option.some.inj this
  · have hj24 : j < 24 := hji.trans i.isLt
    have := hget ⟨j, hj24⟩
    rw [List.getElem?_eq_getElem (by rw [hlen]; exact hj24)] at this
    rw [Option.some.inj this, hj ⟨j, hj24⟩ hji]; rfl

/-- The cursor points at a layer, or past its stack, and the first non-empty stack after it is that of g (R37). -/
theorem cursorTarget_eq {s : State} {g : Sector} {p : Nat} {l : Layer} (hl : (s.stack g)[p]? = some l)
    (hc : (s.cursorSector = g ∧ s.cursorSlot = p) ∨ (p = 0 ∧ (s.stack s.cursorSector).length ≤ s.cursorSlot
      ∧ ∃ i : Fin 24, g = s.cursorSector + 1 + i ∧ ∀ j : Fin 24, j < i → s.stack (s.cursorSector + 1 + j) = [])) :
    s.cursorTarget = some (g, p) := by
  have hlen : p < (s.stack g).length := (List.getElem?_eq_some_iff.1 hl).1
  rcases hc with ⟨rfl, rfl⟩ | ⟨rfl, hpast, i, rfl, hj⟩
  · rw [State.cursorTarget, if_pos hlen]
  · have hne : s.stack (s.cursorSector + 1 + i) ≠ [] := List.ne_nil_of_length_pos hlen
    have hf := find_allSectors (p := fun i => !(s.stack (s.cursorSector + 1 + i)).isEmpty) (i := i) (by simpa using hne)
      fun j hji => by simp [hj j hji]
    rw [State.cursorTarget, if_neg (Nat.not_lt.2 hpast), List.find?_map]
    have hf : List.find? ((fun g => !(s.stack g).isEmpty) ∘ fun i => s.cursorSector + 1 + i) allSectors = some i := hf
    rw [hf]; rfl

theorem cursorTarget_none {s : State} (h : ∀ g, s.stack g = []) : s.cursorTarget = none := by
  simp [State.cursorTarget, h]

theorem serveReadLayer_eq {s : State} {g : Sector} {p : Nat} {l : Layer} (hl : (s.stack g)[p]? = some l) (ht : s.cursorTarget = some (g, p)) :
    serveReadLayer s = (advanceCursor g p s, ⟨.ok, sectorB g ++ [byteOf p] ++ [byteOf (s.stack g).length] ++ layerB l⟩) := by
  simp only [serveReadLayer, ht, hl]

/-- Settles O26: the cursor's target is the first layer at or after it. -/
theorem readCursor : Obligations.ReadCursor := by
  intro s hr
  have serves : ∀ {k : ReqKind} {d : List Byte} {r : Request} {rep : Reply} {t : State}, roleOf k = .console → parsePayload k d = some r →
      t.ports = s.ports → serveRequest r (toHunting .console s) = (toHunting .console t, rep) →
      (.next (arrive .console k d s) : Result) = .next (answer .console k rep t) := by
    intro k d r rep t hk hp ht hs
    rw [← hk] at hr hs ⊢
    rw [arrive_serves hr hp ht hs]
  refine ⟨fun g p hp => ?_, fun g p l hl hc => ?_, fun h => ?_⟩
  · refine serves (k := .setLayerCursor) (r := .setLayerCursor g.val p) rfl ?_ rfl ?_
    · show some (Request.setLayerCursor (byteOf g.val).toNat (byteOf p).toNat) = _
      rw [sector_byte, byteOf_toNat, Nat.mod_eq_of_lt (by omega)]
    · show serveSetCursor g.val p (toHunting .console s) = _
      simp only [serveSetCursor, toSector_val, if_pos hp]; rfl
  · have hs := serveReadLayer_eq (s := toHunting .console s) hl (cursorTarget_eq (s := toHunting .console s) hl hc)
    refine serves (k := .readLayer) (r := .readLayer) rfl rfl ?_ (hs.trans ?_)
    · split <;> rfl
    · unfold advanceCursor
      by_cases he : p + 1 = (s.stack g).length
      · rw [if_pos he, if_pos (show p + 1 = ((toHunting .console s).stack g).length from he)]; rfl
      · rw [if_neg he, if_neg (show ¬p + 1 = ((toHunting .console s).stack g).length from he)]; rfl
  · refine serves (k := .readLayer) (r := .readLayer) rfl rfl rfl ?_
    show serveReadLayer (toHunting .console s) = _
    rw [serveReadLayer, cursorTarget_none (s := toHunting .console s) h]

end Sys2Proof.Machine
end

