-- ==== Sys2Proof/Proofs/Restore.lean ====
section
/-! SUPPORT. What a layer that joins leaves of the state, the grant pass after it included; LAYER RESTORE (LayerRestore). -/

namespace Sys2Proof.Machine

/-! ### A layer that joins -/

/-- A sector once a layer has joined its stack (R19, R20). -/
def SectorState.joined (l : Layer) (x : SectorState) : SectorState :=
  { x with layers := { x.layers with
      stack := x.layers.stack ++ [l], top := some l.top, nextSerial := if x.layers.nextSerial = 65535 then 1 else x.layers.nextSerial + 1 } }

theorem sector_joinLayer (g : Sector) (l : Layer) (s : State) (h : Sector) :
    (joinLayer g l s).sector h = if h = g then (s.sector g).joined l else s.sector h := sector_modSector s g h (.joined l)

/-- In STANDBY a pass resumes groups and does nothing else (R111). -/
theorem finish_standby {s : State} (h : s.mode = .standby) : (finish s).mode = .standby := by
  have serve : ∀ u : State, u.mode = .standby → u.canServe = true → (serveOne u).1.mode = .standby := by
    intro u hu _
    have hs : u.mode ≠ .survey := by simp [hu]
    have hc : u.mode.permitsCreep = false := by rw [hu]; rfl
    have hm : u.mode ≠ .climb := by simp [hu]
    unfold serveOne
    split
    · exact hu
    · simp only [if_neg hs, hc, Bool.false_eq_true, if_false, if_neg hm]
      exact hu
  unfold finish; split
  · exact grantPass_keeps (P := fun u => u.mode = .standby) serve passFuel s h
  · exact h

/-! ### A request served, its answer sent -/

/-- t has the sectors, settings, tables, feed, supply, mode, creep list and alerts of s. -/
structure ButPorts (s t : State) : Prop where
  sector : ∀ h, t.sector h = s.sector h
  settings : t.settings = s.settings
  tables : t.tables = s.tables
  feed : t.feed = s.feed
  supply : t.supply = s.supply
  mode : t.mode = s.mode
  creepList : t.creepList = s.creepList
  alerts : t.alerts = s.alerts
  alertFull : t.alertFull = s.alertFull

theorem ButPorts.setPort (s : State) (p : PortId) (x : Port) : ButPorts s (s.setPort p x) := by
  cases p <;> exact ⟨fun _ => rfl, rfl, rfl, rfl, rfl, rfl, rfl, rfl, rfl⟩

/-- A request served at rest by a block that leaves the ports alone: the block's state but for the ports, with the block's answer. -/
theorem arrive_served {p : PortId} {k : ReqKind} {d : List Byte} {r : Request} {s u : State} {rep : Reply} (hk : roleOf k = p) (h : Rest p s)
    (hp : parsePayload k d = some r) (hs : serveRequest r (toHunting p s) = (u, rep)) (hu : u.ports = (toHunting p s).ports) :
    ∃ t, arrive p k d s = t ∧ Answers p k rep s t ∧ ButPorts u t := by
  subst hk
  obtain ⟨ht, ha⟩ := arrive_answers h hp (by rw [hs]; exact hu)
  rw [hs] at ht ha
  exact ⟨_, rfl, ha, ht ▸ .setPort u _ _⟩

/-! ### LAYER RESTORE (R33 to R35) -/

/-- A restore that meets the rows of R33 is not refused. -/
theorem restoreRefusal_eq_none {s : State} {g : Sector} {m : MixClass} {l : Layer} (hm : s.mode = .standby)
    (hs : s.enabled g = true ∧ s.established g = true ∧ (s.mix m).written = true) (hf : (s.groupState g).inFlight = false)
    (hr : (s.stack g).length < 12) (hb : s.stack g ≠ [] → l.base = s.concreteTop g) (ht : l.top ≤ s.elev g) (hbt : s.bottom g < l.top)
    (hx : l.flags.ready = true ∨ s.reachBottom g ≤ l.base + s.c10) : s.restoreRefusal g m l = none := by
  obtain ⟨h1, h2, h3⟩ := hs
  have hi : ¬((¬(s.stack g).isEmpty = true ∧ l.base ≠ s.concreteTop g) ∨ s.elev g < l.top) := by
    rintro (⟨hne, hn⟩ | hlt)
    · exact hn (hb (by simpa using hne))
    · omega
  have he : ¬(l.top ≤ s.bottom g ∨ ((!l.flags.ready) = true ∧ l.base + s.c10 < s.reachBottom g)) := by
    rintro (hle | ⟨hu, hlt⟩)
    · omega
    · rcases hx with hx | hx
      · simp [hx] at hu
      · omega
  rw [State.restoreRefusal, if_neg (not_not.2 hm), if_neg (by simp [h1, h2, h3]), if_neg (by simp [hf]), if_neg (Nat.not_le.2 hr),
    if_neg hi, if_neg he]

theorem serveLayerRestore_eq {f : RestoreFields} {s : State} {g : Sector} {m : MixClass} (hg : f.sector = g.val) (hm : f.mix = m.val)
    (h : s.restoreRefusal g m (s.restoredLayer g m f) = none) :
    serveLayerRestore f s = (finish { joinLayer g (s.restoredLayer g m f) s with passDue := true },
      ⟨okOr (s.restoredLayer g m f).flags.clamped, restoreEcho (s.restoredLayer g m f)⟩) := by
  have hm : toMix f.mix = some m := by rw [hm, toMix, dif_pos m.isLt]
  simp only [serveLayerRestore, hg, hm, toSector_val, h]

/-- The two optional bytes of a batch reference (R184). -/
def batchB (batch : Option Nat) : List Byte :=
  match batch with
  | some b => be16 b
  | none => []

theorem parseRestore_spelled (g : Sector) (m : MixClass) {base : Int} {k age mat : Nat} (fl : Byte) {batch : Option Nat}
    (hb : -2147483648 ≤ base) (hb' : base ≤ 2147483647) (hk : k < 65536) (ha : age < 4294967296) (hm : mat < 65536) (hr : ∀ b ∈ batch, b < 65536) :
    parsePayload .layerRestore (byteOf g.val :: elevB base ++ be16 k ++ [byteOf m.val] ++ be32 age ++ be16 mat ++ [fl] ++ batchB batch) =
      some (.layerRestore { sector := g.val, base := base, thickness := k, mix := m.val, age := age, maturity := mat, flags := fl, batch := batch }) := by
  have hz : (clampInt (-2147483648) 2147483647 base % 4294967296).toNat < 4294967296 := by omega
  have hbase : signed32 (clampInt (-2147483648) 2147483647 base % 4294967296).toNat = base := by
    rw [show clampInt (-2147483648) 2147483647 base = base by simp only [clampInt]; omega, signed32_mod hb hb']
  have hmix : (byteOf m.val).toNat = m.val := by rw [byteOf_toNat]; omega
  cases batch with
  | none =>
    show some (Request.layerRestore _) = _
    rw [u32_be32 hz, hbase, u16_be16 hk, u32_be32 ha, u16_be16 hm, sector_byte, hmix]
  | some b =>
    show some (Request.layerRestore _) = _
    rw [u32_be32 hz, hbase, u16_be16 hk, u32_be32 ha, u16_be16 hm, sector_byte, hmix, u16_be16 (hr b rfl)]

/-- Settles O25: the layer of R34 joins, and the grant pass after it leaves tables, layers and settings alone. -/
theorem layerRestore : Obligations.LayerRestore := by
  intro s g m base k age mat fl batch hr hmode hen hes hwr hfl hroom hb hb' hk ha hm hbt thick top hbase helev hbot hexp l
  have hp := parseRestore_spelled g m fl hb hb' hk ha hm hbt
  generalize hf : ({ sector := g.val, base := base, thickness := k, mix := m.val, age := age, maturity := mat, flags := fl, batch := batch } :
    RestoreFields) = f at hp
  have hl : (toHunting .console s).restoredLayer g m f = l := by
    subst hf
    have hage : (if age ≤ s.minute then s.minute - age else 0) = s.minute - age := by split <;> omega
    simp only [l, hage]; rfl
  have hnone : (toHunting .console s).restoreRefusal g m l = none :=
    restoreRefusal_eq_none (s := toHunting .console s) hmode ⟨hen, hes, hwr⟩ hfl hroom hbase helev hbot (hexp.imp decide_eq_true id)
  have hserve : serveRequest (.layerRestore f) (toHunting .console s) =
      (finish { joinLayer g l (toHunting .console s) with passDue := true }, ⟨okOr l.flags.clamped, restoreEcho l⟩) := by
    have h := serveLayerRestore_eq (f := f) (s := toHunting .console s) (g := g) (m := m) (by subst hf; rfl) (by subst hf; rfl) (by rw [hl]; exact hnone)
    rw [hl] at h
    exact h
  have hkept := Kept.finish { joinLayer g l (toHunting .console s) with passDue := true }
  obtain ⟨t, harr, hans, ht⟩ := arrive_served (p := .console) rfl hr hp hserve hkept.ports
  have hheld : ∀ h, (t.sector h).held = (if h = g then (s.sector g).joined l else s.sector h).held :=
    fun h => by rw [ht.sector, hkept.held, ← sector_joinLayer]; rfl
  simp only [SectorState.held, Prod.mk.injEq] at hheld
  refine ⟨t, congrArg Host.Outcome.next harr, hans, ?_, fun h => ?_, fun h hne => ?_, ht.mode.trans (finish_standby hmode), ht.settings.trans hkept.settings,
    ht.feed.trans hkept.feed, ht.tables.trans hkept.tables, ht.supply.trans hkept.supply⟩
  · obtain ⟨-, hlay, -⟩ := hheld g
    rw [if_pos rfl] at hlay
    exact hlay
  · obtain ⟨htab, -, -, htick⟩ := hheld h
    by_cases he : h = g
    · rw [if_pos he] at htab htick
      subst he
      exact ⟨htab, htick⟩
    · rw [if_neg he] at htab htick
      exact ⟨htab, htick⟩
  · obtain ⟨-, hlay, -⟩ := hheld h
    rwa [if_neg hne] at hlay

end Sys2Proof.Machine
end

