-- ==== Sys2Proof/Proofs/Placed.lean ====
section
/-! SUPPORT. A placement commit: the ticket that leaves, the alerts entered, the answer; onto a full stack (PlacementRefused) and onto one with room (PlacementCommit). -/

namespace Sys2Proof.Machine

/-! ### Alerts entered, and nothing else -/

/-- From s to t alerts have been entered and nothing else has changed. -/
structure AlertsOnly (s t : State) : Prop where
  rest : t = { s with alerts := t.alerts, alertFull := t.alertFull }
  alerted : Alerted s t

theorem AlertsOnly.refl (s : State) : AlertsOnly s s := ⟨rfl, .refl s⟩

theorem AlertsOnly.trans {s t u : State} (h : AlertsOnly s t) (k : AlertsOnly t u) : AlertsOnly s u := by
  obtain ⟨hr, ha⟩ := h
  obtain ⟨kr, ka⟩ := k
  refine ⟨?_, ha.trans ka⟩
  rw [hr] at kr
  exact kr

theorem AlertsOnly.enterAlert (k : AlertKind) (g : Option Sector) (s : State) : AlertsOnly s (enterAlert k g s) :=
  ⟨enterAlert_eq k g s, .enterAlert k g s⟩

theorem AlertsOnly.sector {s t : State} (h : AlertsOnly s t) (g : Sector) : t.sector g = s.sector g := congrArg (·.sector g) h.rest

theorem AlertsOnly.noteLate (x : Named) (s : State) : AlertsOnly s (noteLate x s) := by
  unfold Machine.noteLate; split
  · exact .enterAlert _ _ s
  · exact .refl s

theorem AlertsOnly.layerAlerts (g : Sector) (l : Layer) (s : State) : AlertsOnly s (layerAlerts g l s) := by
  have hcold : AlertsOnly s (if l.flags.coldJoint then Machine.enterAlert .coldJoint (some g) s else s) := by
    split
    · exact .enterAlert _ _ s
    · exact .refl s
  unfold Machine.layerAlerts; dsimp only; split
  · exact hcold.trans (.enterAlert _ _ _)
  · exact hcold

theorem entered_noteLate {x : Named} (h : x.late = true) (s : State) : Entered .latePlacement (some x.sector) s (noteLate x s) := by
  rw [noteLate, if_pos h]
  exact entered_enterAlert _ _ s

theorem entered_layerAlerts_coldJoint {s t : State} (h : Alerted s t) (g : Sector) {l : Layer} (hl : l.flags.coldJoint = true) :
    Entered .coldJoint (some g) s (layerAlerts g l t) := by
  have hcold := entered_of_alerted h .coldJoint (some g)
  unfold layerAlerts; rw [if_pos hl]; dsimp only; split
  · exact hcold.later (.enterAlert _ _ _)
  · exact hcold

theorem entered_layerAlerts_overfill {s t : State} (h : Alerted s t) (g : Sector) {l : Layer} (hl : l.flags.overfill = true) :
    Entered .overfill (some g) s (layerAlerts g l t) := by
  unfold layerAlerts; dsimp only; rw [if_pos hl]; split
  · exact entered_of_alerted (h.trans (.enterAlert _ _ _)) _ _
  · exact entered_of_alerted h _ _

/-- A grant pass enters alerts and removes none. -/
theorem Alerted.finish (s : State) : Alerted s (finish s) := by
  have same : ∀ {u v : State}, v.alerts = u.alerts → v.alertFull = u.alertFull → Alerted u v := .of_eq
  have grant : ∀ (u : State) (g : Sector) (kind : StrokeKind), Alerted u (grant g kind u) := fun u g kind => by
    have hgroup : Alerted u { u.modGroup g (fun r => r.granted (u.len g) u.deck.window kind) with pressureOrder := u.pressureOrder ++ [g] } :=
      same rfl rfl
    exact hgroup.trans (Aside.grant g kind u).alerted
  refine finish_induct (R := Alerted) .refl .trans (fun u => ?_) (fun u => same rfl rfl) s
  refine serveOne_induct (R := Alerted) .refl .trans (fun u g _ => same rfl rfl) (fun u g kind _ _ => grant u g kind) (fun u g _ _ => ?_)
    (fun u g _ => ?_) (fun u a j l => same rfl rfl) u
  · exact Alerted.trans (t := { u with surveyReq := none }) (same rfl rfl) (grant _ g .survey)
  · exact Alerted.trans (t := { u with surveyReq := none }) (same rfl rfl) (Aside.visitBlocked g _).alerted

/-! ### The ticket that leaves -/

theorem bne_eq_decide_ne {α : Type} [DecidableEq α] (a b : α) : (a != b) = decide (a ≠ b) := by
  by_cases h : a = b <;> simp [h]

/-- A sector once the ticket named has left: an expired entry leaves its sector as it is. -/
def SectorState.dropped (x : Named) (r : SectorState) : SectorState := { r with ticket := if x.late then r.ticket else none }

theorem dropNamed_eq (x : Named) (s : State) :
    dropNamed x s = { s with sectors := (dropNamed x s).sectors, expired := (dropNamed x s).expired } := by
  unfold dropNamed; split <;> rfl

/-- t has what s has, but for the sectors, the expired list and the queue. -/
structure ButDropped (s t : State) : Prop where
  mode : t.mode = s.mode
  settings : t.settings = s.settings
  tables : t.tables = s.tables
  supply : t.supply = s.supply
  ports : t.ports = s.ports
  creepList : t.creepList = s.creepList
  alerts : t.alerts = s.alerts
  alertFull : t.alertFull = s.alertFull

theorem ButDropped.dropNamed (x : Named) (s : State) : ButDropped s (dropNamed x s) := by
  rw [dropNamed_eq]
  exact ⟨rfl, rfl, rfl, rfl, rfl, rfl, rfl, rfl⟩

theorem sector_dropNamed (x : Named) (s : State) (h : Sector) :
    (dropNamed x s).sector h = if h = x.sector then (s.sector h).dropped x else s.sector h := by
  unfold dropNamed SectorState.dropped
  cases x.late
  · simp only [Bool.false_eq_true, if_false, closeTicket, setTicket_eq, sector_modSector]
    split
    · next e => rw [e]
    · rfl
  · simp only [if_true, ite_self]; rfl

theorem dropNamed_expired (x : Named) (s : State) :
    (dropNamed x s).expired = if x.late then s.expired.filter (fun e => decide (e.number ≠ x.number)) else s.expired := by
  unfold dropNamed
  split
  · refine List.filter_congr fun e _ => ?_
    exact bne_eq_decide_ne _ _
  · rfl

/-! ### PLACED, parsed and served -/

theorem parsePlaced_spelled {n k : Nat} {batch : Option Nat} (hn : n < 65536) (hk : k < 65536) (hb : ∀ b ∈ batch, b < 65536) :
    parsePayload .placed (be16 n ++ be16 k ++ batchB batch) = some (.placed n k batch) := by
  cases batch with
  | none =>
    show some (Request.placed _ _ _) = _
    rw [u16_be16 hn, u16_be16 hk]
  | some b =>
    show some (Request.placed _ _ (some _)) = _
    rw [u16_be16 hn, u16_be16 hk, u16_be16 (hb b rfl)]

theorem servePlaced_eq {s : State} {n k : Nat} {x : Named} (h : s.named n = some x) (hk : 1 ≤ k) (batch : Option Nat) :
    servePlaced n k batch s = placeUnder x k batch s := by
  simp only [servePlaced, h, if_neg (Nat.ne_of_gt hk)]

/-- The layer a placement commit under a ticket builds (R24 to R26). -/
def placedLayer (x : Named) (k : Nat) (batch : Option Nat) (s : State) : Layer :=
  s.placementLayer x.sector x.number x.mix x.target (clampNat 20 500 k) (decide (clampNat 20 500 k ≠ k)) x.late batch

/-- The state once that layer has joined, the ticket has left and the alerts are entered. -/
def placedState (x : Named) (l : Layer) (s : State) : State := layerAlerts x.sector l (noteLate x (dropNamed x (joinLayer x.sector l s)))

theorem placeUnder_of_full {x : Named} {s : State} (h : 12 ≤ (s.stack x.sector).length) (k : Nat) (batch : Option Nat) :
    placeUnder x k batch s = placeRefused x s := if_pos h

theorem placeUnder_of_room {x : Named} {s : State} (h : (s.stack x.sector).length < 12) (k : Nat) (batch : Option Nat) :
    placeUnder x k batch s = (finish { placedState x (placedLayer x k batch s) s with passDue := true },
      ⟨if x.late then .acceptedLate else okOr (decide (clampNat 20 500 k ≠ k)), placedB x (clampNat 20 500 k) (placedLayer x k batch s)⟩) :=
  if_neg (Nat.not_le.2 h)

/-! ### PLACED onto a full stack (R133, R134) -/

/-- A sector refused a placement: its ticket has left and DISCREPANT is set (R133). -/
def SectorState.refused (x : Named) (r : SectorState) : SectorState :=
  { r.dropped x with table := { r.table with flags := { r.table.flags with discrepant := true } } }

/-- The state a refused placement leaves, its alerts apart. -/
def refusedState (x : Named) (s : State) : State :=
  (leaveQueue x.sector (dropNamed x s)).modFlags x.sector fun f => { f with discrepant := true }

theorem placeRefused_eq (x : Named) (s : State) : placeRefused x s =
    (enterAlert .discrepant (some x.sector) (noteLate x (refusedState x s)), ⟨.stackFull, be16 x.number ++ sectorB x.sector⟩) := rfl

theorem sector_refusedState (x : Named) (s : State) (h : Sector) :
    (refusedState x s).sector h = if h = x.sector then (s.sector h).refused x else s.sector h := by
  have hdrop : (leaveQueue x.sector (dropNamed x s)).sector = fun h => if h = x.sector then (s.sector h).dropped x else s.sector h :=
    funext (sector_dropNamed x s)
  rw [refusedState, modFlags_eq, sector_modSector, hdrop]
  by_cases e : h = x.sector
  · subst e; simp only [if_true]; rfl
  · simp only [if_neg e]

theorem refusedState_queue (x : Named) (s : State) : (refusedState x s).queue = s.queue.filter (· ≠ x.sector) := by
  have hdrop : (dropNamed x s).queue = s.queue := by rw [dropNamed_eq]
  show ((dropNamed x s).queue.filter fun h => h != x.sector) = _
  rw [hdrop]
  exact List.filter_congr fun h _ => bne_eq_decide_ne _ _

theorem refusedState_rest (x : Named) (s : State) : ButDropped s (refusedState x s) := by
  have hdrop := ButDropped.dropNamed x s
  unfold refusedState
  generalize dropNamed x s = u at hdrop ⊢
  obtain ⟨h1, h2, h3, h4, h5, h6, h7, h8⟩ := hdrop
  exact ⟨h1, h2, h3, h4, h5, h6, h7, h8⟩

/-- Settles O33: the model's refused state, then alerts alone, then the answer. -/
theorem placementRefused : Obligations.PlacementRefused := by
  intro s x k hr hn hx hk hk' hfull
  have hp := parsePlaced_spelled (batch := none) hn hk' (by simp)
  have hserve : serveRequest (.placed x.number k none) (toHunting .placing s) = placeRefused x (toHunting .placing s) := by
    show servePlaced x.number k none (toHunting .placing s) = _
    rw [servePlaced_eq (s := toHunting .placing s) hx hk, placeUnder_of_full (s := toHunting .placing s) hfull]
  rw [placeRefused_eq] at hserve
  have hrest := refusedState_rest x (toHunting .placing s)
  have hnote : AlertsOnly (refusedState x (toHunting .placing s)) (noteLate x (refusedState x (toHunting .placing s))) := .noteLate _ _
  have hal := hnote.trans (.enterAlert .discrepant (some x.sector) _)
  generalize hu : enterAlert .discrepant (some x.sector) (noteLate x (refusedState x (toHunting .placing s))) = u at hserve hal
  obtain ⟨t, harr, hans, ht⟩ := arrive_served (p := .placing) rfl hr hp hserve ((congrArg (·.ports) hal.rest).trans hrest.ports)
  have hsec : ∀ h, t.sector h = if h = x.sector then (s.sector h).refused x else s.sector h := fun h => by
    rw [ht.sector, hal.sector, sector_refusedState]; rfl
  have hfeed := ht.feed.trans (congrArg (·.feed) hal.rest)
  simp only [State.feed, Prod.mk.injEq] at hfeed
  obtain ⟨hqueue, hexp, -⟩ := hfeed
  refine ⟨t, congrArg Host.Outcome.next harr, hans, ?_, fun h hne => ?_, ?_, ?_, ?_, ?_, ?_, ?_, ?_, ?_⟩
  · rw [hsec, if_pos rfl]; rfl
  · rw [hsec, if_neg hne]
  · exact hexp.trans (dropNamed_expired x _)
  · exact hqueue.trans (refusedState_queue x _)
  · have hent := entered_of_alerted hnote.alerted .discrepant (some x.sector)
    rw [hu] at hent
    exact Entered.congr hent hrest.alerts.symm ht.alerts ht.alertFull
  · exact ht.mode.trans ((congrArg (·.mode) hal.rest).trans hrest.mode)
  · exact ht.settings.trans ((congrArg (·.settings) hal.rest).trans hrest.settings)
  · exact ht.tables.trans ((congrArg (·.tables) hal.rest).trans hrest.tables)
  · exact ht.supply.trans ((congrArg (·.supply) hal.rest).trans hrest.supply)
  · exact ht.creepList.trans ((congrArg (·.creepList) hal.rest).trans hrest.creepList)

/-! ### PLACED onto a stack with room (R24 to R26, R132) -/

/-- The base of R25 and the COLD_JOINT test of R26, a stack being empty or not. -/
theorem placementBase_eq (s : State) (g : Sector) :
    s.placementBase g = if s.stack g = [] then max (s.concreteTop g) (s.reach g - s.h10) else s.concreteTop g :=
  if_congr List.isEmpty_iff rfl rfl

theorem sector_placedState (x : Named) (l : Layer) (s : State) (h : Sector) :
    (placedState x l s).sector h = if h = x.sector then ((s.sector x.sector).joined l).dropped x else s.sector h := by
  rw [placedState, (AlertsOnly.layerAlerts _ _ _).sector, (AlertsOnly.noteLate _ _).sector, sector_dropNamed, sector_joinLayer]
  split <;> rfl

/-- A placement enters its alerts over the state it finds (R132, R134). -/
theorem entered_placedState (x : Named) (l : Layer) (s : State) :
    (x.late = true → Entered .latePlacement (some x.sector) s (placedState x l s))
      ∧ (l.flags.coldJoint = true → Entered .coldJoint (some x.sector) s (placedState x l s))
      ∧ (l.flags.overfill = true → Entered .overfill (some x.sector) s (placedState x l s)) := by
  have hdrop := ButDropped.dropNamed x (joinLayer x.sector l s)
  have hnote : Alerted s (noteLate x (dropNamed x (joinLayer x.sector l s))) :=
    Alerted.trans (t := dropNamed x (joinLayer x.sector l s)) (.of_eq hdrop.alerts hdrop.alertFull) (AlertsOnly.noteLate x _).alerted
  refine ⟨fun hl => ?_, fun hl => entered_layerAlerts_coldJoint hnote x.sector hl, fun hl => entered_layerAlerts_overfill hnote x.sector hl⟩
  have hent := (entered_noteLate hl (dropNamed x (joinLayer x.sector l s))).later (AlertsOnly.layerAlerts x.sector l _).alerted
  exact Entered.congr hent hdrop.alerts.symm rfl rfl

/-- What a placement leaves alone of the deck-wide state, and the entry that leaves. -/
theorem placedState_rest (x : Named) (l : Layer) (s : State) :
    (placedState x l s).settings = s.settings ∧ (placedState x l s).tables = s.tables ∧ (placedState x l s).supply = s.supply
      ∧ (placedState x l s).ports = s.ports ∧ (placedState x l s).queue = s.queue
      ∧ (placedState x l s).expired = if x.late then s.expired.filter (fun e => decide (e.number ≠ x.number)) else s.expired := by
  have hdrop := ButDropped.dropNamed x (joinLayer x.sector l s)
  have hqueue : (dropNamed x (joinLayer x.sector l s)).queue = s.queue := by rw [dropNamed_eq]; rfl
  have hal : AlertsOnly (dropNamed x (joinLayer x.sector l s)) (placedState x l s) := (AlertsOnly.noteLate x _).trans (.layerAlerts _ _ _)
  exact ⟨(congrArg (·.settings) hal.rest).trans hdrop.settings, (congrArg (·.tables) hal.rest).trans hdrop.tables,
    (congrArg (·.supply) hal.rest).trans hdrop.supply, (congrArg (·.ports) hal.rest).trans hdrop.ports,
    (congrArg (·.queue) hal.rest).trans hqueue, (congrArg (·.expired) hal.rest).trans (dropNamed_expired x (joinLayer x.sector l s))⟩

/-- Settles O32: the layer joins, the ticket leaves, the alerts are entered, and the grant pass after it keeps all of that. -/
theorem placementCommit : Obligations.PlacementCommit := by
  intro s x k batch hr hn hx hk hk' hb hroom g thick base top cold spills l
  have hp := parsePlaced_spelled hn hk' hb
  have hl : placedLayer x k batch (toHunting .placing s) = l := by
    have hbase : (toHunting .placing s).placementBase g = base := placementBase_eq (toHunting .placing s) g
    have hready : decide (((toHunting .placing s).mix x.mix).threshold ≤ 0) = decide ((s.mix x.mix).threshold = 0) :=
      decide_eq_decide.2 Nat.le_zero
    rw [placedLayer, State.placementLayer, hbase, hready]
    rfl
  have hserve : serveRequest (.placed x.number k batch) (toHunting .placing s) =
      (finish { placedState x l (toHunting .placing s) with passDue := true },
        ⟨if x.late then .acceptedLate else okOr (decide (thick ≠ k)), placedB x thick l⟩) := by
    show servePlaced x.number k batch (toHunting .placing s) = _
    rw [servePlaced_eq (s := toHunting .placing s) hx hk, placeUnder_of_room (s := toHunting .placing s) hroom, hl]
    rfl
  have hkept := Kept.finish { placedState x l (toHunting .placing s) with passDue := true }
  have hraised : Alerted (placedState x l (toHunting .placing s)) (finish { placedState x l (toHunting .placing s) with passDue := true }) :=
    Alerted.trans (t := { placedState x l (toHunting .placing s) with passDue := true }) (.of_eq rfl rfl) (.finish _)
  obtain ⟨hset, htab, hsup, hport, hqueue, hexp⟩ := placedState_rest x l (toHunting .placing s)
  obtain ⟨hlate, hcold, hspill⟩ := entered_placedState x l (toHunting .placing s)
  obtain ⟨t, harr, hans, ht⟩ := arrive_served (p := .placing) rfl hr hp hserve (hkept.ports.trans hport)
  have hfeed := ht.feed.trans hkept.feed
  simp only [State.feed, Prod.mk.injEq] at hfeed
  obtain ⟨hq, he, -⟩ := hfeed
  have hheld : ∀ h, (t.sector h).held = (if h = g then ((s.sector g).joined l).dropped x else s.sector h).held := fun h => by
    rw [ht.sector, hkept.held]
    exact congrArg SectorState.held (sector_placedState x l (toHunting .placing s) h)
  have hent : ∀ {kind : AlertKind}, Entered kind (some g) (toHunting .placing s) (placedState x l (toHunting .placing s)) →
      Entered kind (some g) s t := fun h => (h.later hraised).congr rfl ht.alerts ht.alertFull
  have hg := hheld g
  rw [if_pos rfl] at hg
  simp only [SectorState.held, Prod.mk.injEq] at hg
  obtain ⟨htable, hlay, -, htick⟩ := hg
  refine ⟨t, congrArg Host.Outcome.next harr, hans, hlay, htick, he.trans hexp, hq.trans hqueue, fun h => hent (hlate h), fun h => hent (hcold h),
    fun h => hent (hspill h), htable, fun h hne => ?_, ht.settings.trans (hkept.settings.trans hset), ht.tables.trans (hkept.tables.trans htab),
    ht.supply.trans (hkept.supply.trans hsup)⟩
  rw [hheld, if_neg hne]

end Sys2Proof.Machine
end

