-- ==== Sys2Proof/Proofs/SensorTries.lean ====
section
/-! SUPPORT. Turns on the sensor line: how a try is taken, ends and is tried again (SensorTries). -/

namespace Sys2Proof.Machine

/-- A change of one sector's records that leaves them as they are leaves the state. -/
theorem modSector_of_fixed {s : State} {g : Sector} {f : SectorState → SectorState} (h : f (s.sector g) = s.sector g) :
    s.modSector g f = s := by
  have hset : s.sectors.set g.val (s.sector g) = s.sectors := Vector.set_getElem_self g.isLt
  rw [State.modSector, h, hset]

/-! ### Turns on the line -/

/-- s with the first of the tries w on the line, the others waiting. -/
def State.serving (s : State) (w : List Try) : State := { s with line := w.head?, waiting := w.tail }

/-- A free line takes the first waiting try (R43). -/
theorem serveLine_of_free {s : State} (h : s.line = none) : serveLine s = s.serving s.waiting := by
  cases hw : s.waiting with
  | nil =>
    have hs : s = { s with line := none, waiting := [] } := by rw [← h, ← hw]
    simp only [serveLine, h, hw]
    exact hs
  | cons t rest => simp only [serveLine, h, hw, State.serving, List.head?_cons, List.tail_cons]

theorem serveLine_of_busy {s : State} {t : Try} (h : s.line = some t) : serveLine s = s := by
  simp [serveLine, h]

/-- A live try ends: its event acts on the freed line, which then takes the next waiting try. -/
theorem tryEnds_of_live {t : Try} (h : t.live = true) (act : State → State) (s : State) :
    tryEnds t act s = serveLine (act { s with line := none }) := by
  simp only [tryEnds, h, if_true]

/-- A failed try before the third is requested again behind the waiting ones, and the line takes the first of them (R43). -/
theorem tryEnds_again {t : Try} (hl : t.live = true) (ha : t.attempt < 3) (s : State) :
    tryEnds t (tryFailed t) s = s.serving (s.waiting ++ [⟨t.kind, t.sector, t.attempt + 1, true⟩]) := by
  have hasked : tryFailed t { s with line := none } = s.serving (s.waiting ++ [⟨t.kind, t.sector, t.attempt + 1, true⟩]) := by
    rw [tryFailed, if_pos ha]
    exact serveLine_of_free rfl
  rw [tryEnds_of_live hl, hasked]
  exact serveLine_of_busy (List.head?_eq_some_head (by simp))

/-- The third failed try of a poll leaves a LIVE probe HELD (R44). -/
theorem tryEnds_pollFailed {t : Try} (hl : t.live = true) (ha : 3 ≤ t.attempt) (hk : t.kind = .probe) (s : State) :
    tryEnds t (tryFailed t) s = pollFailed t.sector (s.serving s.waiting) := by
  rw [tryEnds_of_live hl, tryFailed, if_neg (Nat.not_lt.2 ha), if_pos hk]
  exact serveLine_of_free rfl

/-- The third failed try of a drift check ends it with nothing kept (R143, R145). -/
theorem tryEnds_driftMissing {t : Try} (hl : t.live = true) (ha : 3 ≤ t.attempt) (hk : t.kind = .drift) (s : State) :
    tryEnds t (tryFailed t) s = s.serving s.waiting := by
  have hmissing : tryFailed t { s with line := none } = { s with line := none } := by
    rw [tryFailed, if_neg (Nat.not_lt.2 ha), if_neg (by rw [hk]; simp), readingEnds, hk]
  rw [tryEnds_of_live hl, hmissing]
  exact serveLine_of_free rfl

/-- What a good poll writes, PROBE_MARGINAL included (R44). -/
theorem pollGood_eq (g : Sector) (a : Nat) (z : Int) (s : State) :
    pollGood g a z s =
      (s.modProbe g fun p =>
        { p with state := .live, lastGood := some (max (-80) (min 160 z)), lastMinute := some s.minute, refMinute := s.minute }).modFlags g
          fun f => { f with probeMarginal := f.probeMarginal || decide (2 ≤ a) } := by
  unfold pollGood
  by_cases ha : 2 ≤ a
  · simp only [ha, if_true, decide_true, Bool.or_true]
    rfl
  · simp only [ha, if_false, decide_false, Bool.or_false]
    rw [modFlags_eq]
    exact (modSector_of_fixed (f := fun x => { x with table := { x.table with flags := x.table.flags } }) rfl).symm

/-- A good poll, and then the next turn on the line. -/
theorem tryEnds_pollGood {t : Try} (hl : t.live = true) (z : Int) (s : State) :
    tryEnds t (pollGood t.sector t.attempt z) s =
      pollGood t.sector t.attempt z (s.serving s.waiting) := by
  rw [tryEnds_of_live hl, pollGood_eq, pollGood_eq]
  exact serveLine_of_free rfl

/-! ### The three commands that end a try -/

theorem exec_probeAnswer {s : State} (h : Quiet s) {t : Try} (hl : s.line = some t) (hk : t.kind = .probe) (z : Int) (bad : Bool) :
    exec (.probeAnswer z bad) s =
      .next (finish (tryEnds t (if bad then tryFailed t else pollGood t.sector t.attempt z) s)) := by
  show Host.Outcome.next (finish (probeAnswered z bad (settleDue s))) = _
  rw [settleDue_of_due h.1, probeAnswered, hl]
  simp only [hk, if_true]

theorem exec_receiverAnswer_bad {s : State} (h : Quiet s) {t : Try} (hl : s.line = some t) (hk : t.kind ≠ .probe) (v : BitVec 16) :
    exec (.receiverAnswer v true) s = .next (finish (tryEnds t (tryFailed t) s)) := by
  show Host.Outcome.next (finish (receiverAnswered v.toNat true (settleDue s))) = _
  rw [settleDue_of_due h.1, receiverAnswered, hl]
  simp only [hk, if_true, if_false]

theorem exec_sensorTryTimeout {s : State} (h : Quiet s) {t : Try} (hl : s.line = some t) :
    exec .sensorTryTimeout s = .next (finish (tryEnds t (tryFailed t) s)) := by
  show Host.Outcome.next (finish (tryTimedOut (settleDue s))) = _
  rw [settleDue_of_due h.1, tryTimedOut, hl]

/-- Settles O49, by the three ends of a try: good, tried again, and failed for the third time. -/
theorem sensorTries : Obligations.SensorTries := by
  intro s g a k hq hl served more again
  have ends : ∀ {t : State}, t.passDue = s.passDue → (.next (finish t) : Result) = .next t := fun ht => by
    rw [finish_of_not_due (ht.trans hq.2)]
  have retried : a < 3 → (.next (finish (tryEnds ⟨k, g, a, true⟩ (tryFailed ⟨k, g, a, true⟩) s)) : Result) = .next again := fun ha => by
    rw [tryEnds_again rfl ha]
    exact ends rfl
  have held : k = .probe → 3 ≤ a → (.next (finish (tryEnds ⟨k, g, a, true⟩ (tryFailed ⟨k, g, a, true⟩) s)) : Result) =
      .next (served.modProbe g fun p => { p with state := if p.state = .live then .held else p.state }) := fun hk ha => by
    rw [tryEnds_pollFailed rfl ha hk]
    exact ends rfl
  refine ⟨fun z hk => ?_, fun z hk ha => ?_, fun z hk ha => ⟨?_, ?_⟩, fun v hk ha => ?_, fun ha => ?_, fun v hk ha => ?_⟩
  · rw [exec_probeAnswer hq hl hk, if_neg Bool.false_ne_true, tryEnds_pollGood rfl, pollGood_eq]
    exact ends rfl
  · rw [exec_probeAnswer hq hl hk]
    exact retried ha
  · rw [exec_probeAnswer hq hl hk]
    exact held hk ha
  · rw [exec_sensorTryTimeout hq hl]
    exact held hk ha
  · rw [exec_receiverAnswer_bad hq hl hk]
    exact retried ha
  · rw [exec_sensorTryTimeout hq hl]
    exact retried ha
  · rw [exec_receiverAnswer_bad hq hl (by rw [hk]; simp), tryEnds_driftMissing rfl ha hk]
    exact ends rfl

end Sys2Proof.Machine
end

