-- ==== Sys2Proof/Proofs/SecondEvent.lean ====
section
/-! SUPPORT. A second of the deck clock: the timers that expire before it, what it counts and makes due, the poll round (SecondEvent). -/

namespace Sys2Proof.Machine

/-! ### Sectors in ascending index -/

theorem forEach_append (gs hs : List Sector) (f : Sector → State → State) (s : State) :
    forEach (gs ++ hs) f s = forEach hs f (forEach gs f s) := List.foldl_append

theorem forEach_of_fixed {gs : List Sector} {f : Sector → State → State} {s : State} (h : ∀ g ∈ gs, f g s = s) : forEach gs f s = s := by
  induction gs with
  | nil => rfl
  | cons g gs ih =>
    rw [forEach_cons, h g List.mem_cons_self]
    exact ih fun k hk => h k (List.mem_cons_of_mem g hk)

/-- The sectors before g and those after it. -/
theorem allSectors_split (g : Sector) :
    ∃ before after, allSectors = before ++ g :: after ∧ (∀ h ∈ before, h < g) ∧ ∀ h ∈ after, g < h := by
  obtain ⟨before, after, he⟩ := List.append_of_mem (mem_allSectors g)
  have hsorted : allSectors.Pairwise (· < ·) := by decide
  rw [he, List.pairwise_append, List.pairwise_cons] at hsorted
  obtain ⟨-, ⟨hafter, -⟩, hbefore⟩ := hsorted
  exact ⟨before, after, he, fun h hh => hbefore h hh g List.mem_cons_self, hafter⟩

/-! ### Timers that have run out -/

/-- The group timer of g stands at 0 (R84). -/
def State.timedOut (s : State) (g : Sector) : Prop := ∃ k, (s.sector g).group.timer = some ⟨k, 0⟩

theorem timedOut_congr {s t : State} {g : Sector} (h : (t.sector g).group = (s.sector g).group) : t.timedOut g ↔ s.timedOut g := by
  rw [State.timedOut, State.timedOut, h]

/-- From s to t the DECK block is kept and, as long as a window lasts, no timer has come to stand at 0. -/
structure Wound (s t : State) : Prop where
  deck : t.deck = s.deck
  timer : 0 < s.deck.window → ∀ g, t.timedOut g → s.timedOut g

theorem Wound.of_same {s t : State} (h : Same s t) : Wound s t :=
  ⟨h.deck, fun _ g => (timedOut_congr (h.figures g).2.2.2.2.2.2).1⟩

theorem Wound.refl (s : State) : Wound s s := .of_same (.refl s)

theorem Wound.trans {s t u : State} (h : Wound s t) (k : Wound t u) : Wound s u :=
  ⟨k.deck.trans h.deck, fun hw g hu => h.timer hw g (k.timer (by rw [h.deck]; exact hw) g hu)⟩

/-- An order that starts a full window (R89, R98). -/
theorem Wound.modGroup (s : State) (g : Sector) (f : Group → Group) (hf : (f (s.sector g).group).timer = some ⟨.window, s.deck.window⟩) :
    Wound s (s.modGroup g f) := by
  refine ⟨rfl, fun hw h ht => ?_⟩
  by_cases e : h = g
  · subst e
    obtain ⟨k, hk⟩ := ht
    rw [modGroup_eq, sector_modSector_self] at hk
    have hzero : s.deck.window = 0 := congrArg Timer.left (Option.some.inj (hf.symm.trans hk))
    omega
  · exact (timedOut_congr (congrArg SectorState.group (sector_modSector_ne s _ e))).1 ht

theorem Wound.grant (g : Sector) (kind : StrokeKind) (s : State) : Wound s (grant g kind s) :=
  (Wound.modGroup s g _ rfl).trans (.of_same (.grant g kind s))

/-- A grant pass starts windows and no other timer (R110 to R115). -/
theorem Wound.finish (s : State) : Wound s (finish s) := by
  have same : ∀ {u v : State}, v.deck = u.deck → v.sectors = u.sectors → Wound u v := fun h1 h2 => .of_same (.of_eq h1 h2)
  refine finish_induct (R := Wound) .refl .trans (fun s => ?_) (fun s => same rfl rfl) s
  refine serveOne_induct (R := Wound) .refl .trans (fun s g _ => .modGroup s g _ rfl) (fun s g kind _ _ => .grant g kind s)
    (fun s g _ _ => ?_) (fun s g _ => ?_) (fun s a j l => same rfl rfl) s
  · exact Wound.trans (t := { s with surveyReq := none }) (same rfl rfl) (.grant g .survey _)
  · exact Wound.trans (t := { s with surveyReq := none }) (same rfl rfl) (.of_same (Aside.visitBlocked g _).same)

/-! ### Timer expiries (R92, R93, R95) -/

/-- From s to t the group of g has been given another timer or none, the other groups are kept, and nothing has become due. -/
structure Rewound (g : Sector) (s t : State) : Prop where
  due : t.due = s.due
  deck : t.deck = s.deck
  others : ∀ h, h ≠ g → (t.sector h).group = (s.sector h).group
  timer : ¬t.timedOut g

theorem Rewound.modGroup (s : State) (g : Sector) (f : Group → Group) (hf : ∀ k, (f (s.sector g).group).timer ≠ some ⟨k, 0⟩) :
    Rewound g s (s.modGroup g f) := by
  refine ⟨rfl, rfl, fun h e => congrArg SectorState.group (sector_modSector_ne s _ e), fun ⟨k, hk⟩ => ?_⟩
  rw [modGroup_eq, sector_modSector_self] at hk
  exact hf k hk

/-- What an expiry hands on leaves the groups and what is due. -/
theorem Rewound.then {g : Sector} {s t u : State} (h : Rewound g s t) (hg : ∀ h, (u.sector h).group = (t.sector h).group)
    (hu : u.due = t.due) (hd : u.deck = t.deck) : Rewound g s u :=
  ⟨hu.trans h.due, hd.trans h.deck, fun k e => (hg k).trans (h.others k e), fun hk => h.timer ((timedOut_congr (hg g)).1 hk)⟩

theorem Rewound.then_same {g : Sector} {s t u : State} (h : Rewound g s t) (k : Same t u) (hu : u.due = t.due) : Rewound g s u :=
  h.then (fun g => (k.figures g).2.2.2.2.2.2) hu k.deck

theorem Repaced.due {s t : State} (h : Repaced s t) : t.due = s.due := congrArg (fun x => x.2.2.2.2.2.2.2.2.2.2.2) h.unpaced

theorem makeResult_due (g : Sector) (kind : TrimKind) (s : State) : (makeResult g kind s).due = s.due := by
  have h : ∀ c n d, (closeTrim g kind c (writeResult g kind c n d s)).due = s.due := fun c n d =>
    ((Aside.writeResult g kind c n d s).trans (.closeTrim g kind c _)).due
  unfold makeResult; dsimp only; split
  · exact h _ _ _
  · exact (Repaced.rederive g _).due.trans (h _ _ _)

theorem endSettle_due (g : Sector) (s : State) : (endSettle g s).due = s.due := by
  unfold endSettle; dsimp only; split
  · exact makeResult_due g _ _
  · rfl

theorem handOnFault_due (g : Sector) (m v : Bool) (s : State) : (handOnFault g m v s).due = s.due := by
  have hmargin : ∀ u : State, (if m then enterAlert .suspectPosition (some g) u else u).due = u.due := by
    intro u; split
    · exact (Kept.enterAlert _ _ u).due
    · rfl
  have hhold : ∀ u : State, (if u.mode = .climb then enterHold u else u).due = u.due := by
    intro u; split
    · exact (Repaced.enterHold u).due
    · rfl
  have h := (((Aside.trimOnFault g _).due.trans (hhold _)).trans (Repaced.goalTest _).due).trans
    ((hmargin _).trans (Kept.enterAlert .groupFault (some g) s).due)
  unfold handOnFault; dsimp only; split <;> exact h

theorem enterFault_due (g : Sector) (kind : FaultKind) (m v : Bool) (s : State) : (enterFault g kind m v s).due = s.due := by
  unfold enterFault; dsimp only; split
  · exact handOnFault_due g m v _
  · rfl

theorem Rewound.enterFault (g : Sector) (kind : FaultKind) (m v : Bool) (s : State) : Rewound g s (enterFault g kind m v s) :=
  (Rewound.modGroup s g (fun r => r.faulted kind) fun _ => nofun).then_same (.enterFault g kind m v s) (enterFault_due g kind m v s)

/-- A running timer of at least a second. -/
theorem started_ne {kind : TimerKind} {n : Nat} (h : 0 < n) (k : TimerKind) : some (⟨kind, n⟩ : Timer) ≠ some ⟨k, 0⟩ :=
  fun he => absurd (congrArg Timer.left (Option.some.inj he)) h.ne'

theorem Rewound.windowExpiry {g : Sector} {s : State} (hs : s.groupState g = .pressurizing) (hw : 0 < s.deck.window)
    (hv : 0 < s.deck.vent) : Rewound g s (windowExpiry g s) := by
  unfold Machine.windowExpiry; rw [if_pos hs]; dsimp only; split
  · refine Rewound.then_same (t := s.modGroup g fun r => { r with windows := r.windows + 1, timer := some ⟨.window, s.deck.window⟩ })
      (.modGroup s g _ (started_ne hw)) ((Same.modFlags _ g _).trans (Aside.enterAlert _ _ _).same) ?_
    exact (Kept.enterAlert _ _ _).due
  · exact Rewound.then_same (t := s.modGroup g fun r => { r with failed := true, state := .venting, timer := some ⟨.vent, s.deck.vent⟩ })
      (.modGroup s g _ (started_ne hv)) (.of_eq rfl rfl) rfl

theorem Rewound.settleExpiry {g : Sector} {s : State} (hs : s.groupState g = .holding) (hv : 0 < s.deck.vent) :
    Rewound g s (settleExpiry g s) := by
  unfold Machine.settleExpiry; rw [if_pos hs]
  exact (Rewound.modGroup s g (fun r => { r with state := .venting, timer := some ⟨.vent, s.deck.vent⟩ }) (started_ne hv)).then
    (endSettle_group g _) (endSettle_due g _) (Steady.endSettle g _).deck

theorem Rewound.ventExpiry {g : Sector} {s : State} (hs : s.groupState g = .venting) : Rewound g s (ventExpiry g s) := by
  unfold Machine.ventExpiry; rw [if_pos hs]; split
  · have hf := Rewound.enterFault g .vent true true (closeIntoMargin g s)
    have hg : ∀ h, ((closeIntoMargin g s).sector h).group = (s.sector h).group := fun h => by
      rw [closeIntoMargin, modTable_eq, sector_modSector]; split
      · next e => subst e; rfl
      · rfl
    exact ⟨hf.due, hf.deck, fun h e => (hf.others h e).trans (hg h), hf.timer⟩
  · exact .enterFault g .vent false true s

/-- A timer that has run out does nothing in a state it does not belong to, and is replaced in the state it does. -/
theorem timerExpiry_rewound (g : Sector) {s : State} (hw : 0 < s.deck.window) (hv : 0 < s.deck.vent) :
    timerExpiry g s = s ∨ Rewound g s (timerExpiry g s) := by
  unfold timerExpiry; split
  · by_cases hs : s.groupState g = .pressurizing
    · exact .inr (.windowExpiry hs hw hv)
    · exact .inl (if_neg hs)
  · by_cases hs : s.groupState g = .holding
    · exact .inr (.settleExpiry hs hv)
    · exact .inl (if_neg hs)
  · by_cases hs : s.groupState g = .venting
    · exact .inr (.ventExpiry hs)
    · exact .inl (if_neg hs)
  · exact .inl rfl

theorem timerExpiry_of_running {g : Sector} {s : State} (h : ¬s.timedOut g) : timerExpiry g s = s := by
  unfold timerExpiry; split
  · next ht => exact absurd ⟨_, ht⟩ h
  · next ht => exact absurd ⟨_, ht⟩ h
  · next ht => exact absurd ⟨_, ht⟩ h
  · rfl

/-! ### The timers that expire before a second (log 15) -/

theorem finish_passDue (s : State) : (finish s).passDue = false := by
  unfold finish; split
  · rfl
  · next h => simpa using h

theorem finish_timerExpiry_of_running {g : Sector} {s : State} (hp : s.passDue = false) (h : ¬s.timedOut g) :
    finish (timerExpiry g s) = s := by rw [timerExpiry_of_running h, finish_of_not_due hp]

theorem expireTimers_of_running {s : State} (hp : s.passDue = false) (h : ∀ g, ¬s.timedOut g) : expireTimers s = s :=
  forEach_of_fixed fun g _ => finish_timerExpiry_of_running hp (h g)

/-- With no timer at 0 before g, the expiries begin at g. -/
theorem expireTimers_from {s : State} {g : Sector} {before after : List Sector} (hall : allSectors = before ++ g :: after)
    (hp : s.passDue = false) (h : ∀ k ∈ before, ¬s.timedOut k) :
    expireTimers s = forEach after (fun g s => finish (timerExpiry g s)) (finish (timerExpiry g s)) := by
  rw [expireTimers, hall, forEach_append, forEach_cons, forEach_of_fixed fun k hk => finish_timerExpiry_of_running hp (h k hk)]

/-- The expiry of the first sector whose timer stands at 0, its grant pass included, is what the clock event does first. -/
theorem expireTimers_first {s : State} {g : Sector} (hp : s.passDue = false) (hw : 0 < s.deck.window) (hv : 0 < s.deck.vent)
    (h : ∀ k, k < g → ¬s.timedOut k) : expireTimers s = expireTimers (finish (timerExpiry g s)) := by
  rcases timerExpiry_rewound g hw hv with hsame | hr
  · rw [hsame, finish_of_not_due hp]
  · obtain ⟨before, after, hall, hlt, -⟩ := allSectors_split g
    have hpass := (Wound.finish (timerExpiry g s)).timer (by rw [hr.deck]; exact hw)
    have hother : ∀ k ∈ before, ¬(finish (timerExpiry g s)).timedOut k := fun k hk ht =>
      h k (hlt k hk) ((timedOut_congr (hr.others k (ne_of_lt (hlt k hk)))).1 (hpass k ht))
    rw [expireTimers_from hall hp fun k hk => h k (hlt k hk), expireTimers_from hall (finish_passDue _) hother,
      finish_timerExpiry_of_running (finish_passDue _) fun ht => hr.timer (hpass g ht)]

/-- An expiry, its grant pass included, makes nothing due. -/
theorem due_of_expiry {s : State} {g : Sector} (hq : Quiet s) (hw : 0 < s.deck.window) (hv : 0 < s.deck.vent) :
    (finish (timerExpiry g s)).due = {} := by
  rw [(Kept.finish _).due]
  rcases timerExpiry_rewound g hw hv with h | h
  · rw [h]; exact hq.1
  · rw [h.due]; exact hq.1

/-! ### What a second counts (R70, R76, R84, R107) -/

/-- A group after a second: its timer has a second less (R84). -/
def Group.ticked (r : Group) : Group := { r with timer := r.timer.map fun x => { x with left := x.left - 1 } }

/-- The pacing counters of a group after a second (R70, R76). -/
def State.paceAfter (s : State) (g : Sector) : Pace :=
  { (s.sector g).pace with
    counter := if (s.sector g).pace.running = true then (s.sector g).pace.counter - 1 else (s.sector g).pace.counter
    dwell := if s.enabled g = true ∧ s.stack g ≠ [] ∧ s.mode ≠ .unset then min 65535 ((s.sector g).pace.dwell + 1)
      else (s.sector g).pace.dwell }

/-- The supply record after a second (R107). -/
def State.supplyAfter (s : State) : Supply :=
  { s.supply with lapse := if s.supply.lapseRunning = true then s.supply.lapse + 1 else s.supply.lapse }

/-- From s to t a second has been counted in the pacing counters and the supply record, and what they have reached is marked due. -/
structure Counted (s t : State) : Prop where
  pace : ∀ g, (t.sector g).pace = s.paceAfter g
  supply : t.supply = s.supplyAfter
  duePace : t.due.pace = true ↔ ∃ g, (t.sector g).pace.running = true ∧ (t.sector g).pace.counter = 0
  dueDwell : t.due.dwell = true ↔ ∃ g, s.enabled g = true ∧ s.stack g ≠ [] ∧ s.deck.dwell ≤ (t.sector g).pace.dwell ∧ s.demanded g = false
    ∧ (s.mode = .climb ∨ (s.mode = .hold ∧ g ∈ s.creepSet))
  dueLapse : t.due.lapse = true ↔ s.supply.lapseRunning = true ∧ s.supply.state ≠ .lapsed ∧ s.deck.lapse ≤ t.supply.lapse
  dueBond : ∀ g, g ∈ t.due.bond ↔ (s.sector g).pace.dwell < 2 * s.deck.dwell ∧ 2 * s.deck.dwell ≤ (t.sector g).pace.dwell

/-- The parts of what is due that a second can mark. -/
def Due.ofSecond (d : Due) := (d.pace, d.dwell, d.lapse, d.bond)

theorem Counted.then {s t u : State} (h : Counted s t) (hp : ∀ g, (u.sector g).pace = (t.sector g).pace) (hs : u.supply = t.supply)
    (hd : u.due.ofSecond = t.due.ofSecond) : Counted s u := by
  simp only [Due.ofSecond, Prod.mk.injEq] at hd
  obtain ⟨hpace, hdwell, hlapse, hbond⟩ := hd
  refine ⟨fun g => (hp g).trans (h.pace g), hs.trans h.supply, ?_, ?_, ?_, fun g => ?_⟩
  · simp only [hpace, hp]; exact h.duePace
  · simp only [hdwell, hp]; exact h.dueDwell
  · simp only [hlapse, hs]; exact h.dueLapse
  · simp only [hbond, hp]; exact h.dueBond g

theorem permitsDemand_iff {s : State} {g : Sector} :
    s.permitsDemand g = true ↔ s.mode = .climb ∨ (s.mode = .hold ∧ g ∈ s.creepSet) := by
  unfold State.permitsDemand
  cases hm : s.mode <;> simp

theorem wantsDemand_iff {s : State} {g : Sector} :
    s.wantsDemand g = true ↔ s.enabled g = true ∧ s.stack g ≠ [] ∧ s.deck.dwell ≤ (s.sector g).pace.dwell ∧ s.demanded g = false
      ∧ (s.mode = .climb ∨ (s.mode = .hold ∧ g ∈ s.creepSet)) := by
  simp [State.wantsDemand, permitsDemand_iff, and_assoc]

theorem sector_secondWork (s : State) (g : Sector) :
    (secondWork s).sector g = { s.sector g with group := (s.sector g).group.ticked, pace := s.paceAfter g } := by
  have hdwell : dwellTick s.mode (s.sector g) = (s.paceAfter g).dwell := by
    refine if_congr ?_ rfl rfl
    simp [State.enabled, State.stack, and_assoc]
  have htick : (secondWork s).sector g = secondTick s.mode (s.sector g) := sector_mapSectors s _ g
  rw [htick, secondTick, hdwell]
  rfl

theorem Counted.secondWork (s : State) : Counted s (secondWork s) := by
  have hsec := sector_secondWork s
  refine ⟨fun g => by rw [hsec], rfl, ?_, ?_, ?_, fun g => ?_⟩
  · show (allSectors.any fun g => ((Machine.secondWork s).sector g).pace.running && ((Machine.secondWork s).sector g).pace.counter == 0) = true ↔ _
    simp [mem_allSectors]
  · show (allSectors.any fun g => (Machine.secondWork s).wantsDemand g) = true ↔ _
    simp only [List.any_eq_true, mem_allSectors, true_and, wantsDemand_iff, State.enabled, State.stack, hsec]
    rfl
  · show (s.supply.lapseRunning && decide (s.supply.state ≠ .lapsed) && decide (s.deck.lapse ≤ s.supplyAfter.lapse)) = true ↔ _
    simp only [Bool.and_eq_true, decide_eq_true_eq, and_assoc]
    rfl
  · show (g ∈ allSectors.filter fun g => bondRises s (Machine.secondWork s) g) ↔ _
    simp only [List.mem_filter, mem_allSectors, true_and, bondRises, Bool.and_eq_true, decide_eq_true_eq]
    rfl

/-- The clock advances, and the second is counted. -/
theorem Counted.second (m : Bool) (s : State) : Counted s (Machine.secondWork (advanceClock m s)) := by
  have h := Counted.secondWork (advanceClock m s)
  cases m <;> exact ⟨h.pace, h.supply, h.duePace, h.dueDwell, h.dueLapse, h.dueBond⟩

theorem sector_second (m : Bool) (s : State) (g : Sector) :
    (secondWork (advanceClock m s)).sector g = { s.sector g with group := (s.sector g).group.ticked, pace := s.paceAfter g } := by
  cases m <;> exact sector_secondWork _ g

/-! ### Rounds of tries (R43, R44) -/

theorem tryUnderWay_requestTry_iff {k k' : TryKind} {g h : Sector} {a : Nat} {s : State} :
    (requestTry k' h a s).tryUnderWay k g = true ↔ s.tryUnderWay k g = true ∨ (k' = k ∧ h = g) := by
  refine ⟨fun hr => ?_, tryUnderWay_requestTry k k' g h a s⟩
  rw [tryUnderWay_iff] at *
  obtain ⟨t, ht, hk⟩ := hr
  rw [requestTry, mem_serveLine] at ht
  simp only [List.mem_append, List.mem_singleton] at ht
  rcases ht with ht | ht | rfl
  · exact .inl ⟨t, List.mem_append_left _ ht, hk⟩
  · exact .inl ⟨t, List.mem_append_right _ ht, hk⟩
  · exact .inr ⟨hk.1, hk.2.1⟩

/-- A round of tries, one for each sector of a list. -/
theorem tryUnderWay_round {k k' : TryKind} {g : Sector} {gs : List Sector} {s : State} :
    (forEach gs (fun h => requestTry k' h 1) s).tryUnderWay k g = true ↔ s.tryUnderWay k g = true ∨ (k' = k ∧ g ∈ gs) := by
  induction gs generalizing s with
  | nil => simp
  | cons h gs ih =>
    rw [forEach_cons, ih, tryUnderWay_requestTry_iff, List.mem_cons, eq_comm (a := h)]
    tauto

/-- A round of tries of one kind leaves those of the others. -/
theorem tryUnderWay_round_other {k k' : TryKind} (hk : k' ≠ k) (g : Sector) (gs : List Sector) (s : State) :
    (forEach gs (fun h => requestTry k' h 1) s).tryUnderWay k g = s.tryUnderWay k g := by
  rw [Bool.eq_iff_iff, tryUnderWay_round, or_iff_left]
  exact fun h => hk h.1

theorem round_frame (k : TryKind) (gs : List Sector) (s : State) :
    forEach gs (fun h => requestTry k h 1) s =
      { s with
        line := (forEach gs (fun h => requestTry k h 1) s).line
        waiting := (forEach gs (fun h => requestTry k h 1) s).waiting } := by
  induction gs generalizing s with
  | nil => rfl
  | cons h gs ih => rw [forEach_cons, ih, requestTry_frame]

theorem pollRound_frame (s : State) : pollRound s = { s with line := (pollRound s).line, waiting := (pollRound s).waiting } :=
  round_frame _ _ s

/-- After a poll round each enabled sector has a poll under way (R44). -/
theorem tryUnderWay_pollRound {s : State} {g : Sector} (h : s.enabled g = true) : (pollRound s).tryUnderWay .probe g = true := by
  refine tryUnderWay_round.2 ?_
  cases hp : s.tryUnderWay .probe g with
  | true => exact .inl rfl
  | false => exact .inr ⟨rfl, by simp [mem_allSectors, h, hp]⟩

/-! ### The second event -/

theorem finishDue_of_not_due {s : State} (h : s.passDue = false) : finishDue s = s := by
  unfold finishDue; split
  · exact finish_of_not_due h
  · rfl

theorem clockEvent_of_running {s : State} (hq : Quiet s) (h : ∀ g, ¬s.timedOut g) (b : Bool) :
    clockEvent b s =
      let toMinute := b || decide (59 ≤ s.second)
      let s1 := secondWork (advanceClock toMinute s)
      let s2 := if s1.second % 10 = 0 then pollRound s1 else s1
      finishDue (if toMinute then minuteWork s2 else s2) := by
  unfold clockEvent
  rw [settleDue_of_due hq.1, expireTimers_of_running hq.2 h]

/-- A second event that is no minute event (R41, R42, R44). -/
theorem clockEvent_second {s : State} (hq : Quiet s) (h : ∀ g, ¬s.timedOut g) (hs : s.second < 59) :
    clockEvent false s =
      if (s.second + 1) % 10 = 0 then pollRound (secondWork (advanceClock false s)) else secondWork (advanceClock false s) := by
  have hlate : (false || decide (59 ≤ s.second)) = false := decide_eq_false (by omega)
  have hpass : (secondWork (advanceClock false s)).passDue = false := hq.2
  rw [clockEvent_of_running hq h, hlate]
  refine finishDue_of_not_due ?_
  show State.passDue (if (s.second + 1) % 10 = 0 then _ else _) = false
  split
  · rw [pollRound_frame]; exact hpass
  · exact hpass

/-- A clock event, after the expiry of the first timer that stands at 0, goes on from what that expiry left. -/
theorem clockEvent_after_expiry {s : State} {g : Sector} (hq : Quiet s) (hw : 0 < s.deck.window) (hv : 0 < s.deck.vent)
    (h : ∀ k, k < g → ¬s.timedOut k) (b : Bool) : clockEvent b s = clockEvent b (finish (timerExpiry g s)) := by
  unfold clockEvent
  rw [settleDue_of_due hq.1, settleDue_of_due (due_of_expiry hq hw hv), expireTimers_first hq.2 hw hv h]

/-- The command of a timer that has run out. -/
def TimerKind.expiry (g : Sector) : TimerKind → Instr
  | .window => .pressurizeWindowExpiry g
  | .settle => .settleTimeExpiry g
  | .vent => .ventWindowExpiry g

theorem exec_expiry {s : State} {g : Sector} {k : TimerKind} (hq : Quiet s) (ht : (s.sector g).group.timer = some ⟨k, 0⟩) :
    exec (k.expiry g) s = .next (finish (timerExpiry g s)) := by
  have hrun : ∀ event, expireIf g k event (settleDue s) = event s := fun event => by
    rw [settleDue_of_due hq.1, expireIf, if_pos ht]
  rw [timerExpiry, ht]
  cases k <;> exact congrArg (fun t => Host.Outcome.next (finish t)) (hrun _)

/-- Settles O44: the second's counting and its poll round, and the timer that expires before it. -/
theorem secondEvent : Obligations.SecondEvent := by
  refine ⟨fun s hq hs ht => ?_, fun s c g k hq hr hwritten hc ht hfirst => ?_⟩
  · have hclock := clockEvent_second hq (fun g ⟨k, hk⟩ => ht g k hk) hs
    obtain ⟨l, w, hframe⟩ : ∃ l w, clockEvent false s = { secondWork (advanceClock false s) with line := l, waiting := w } := by
      rw [hclock]; split
      · exact ⟨_, _, pollRound_frame _⟩
      · exact ⟨_, _, rfl⟩
    have hcount : Counted s { secondWork (advanceClock false s) with line := l, waiting := w } :=
      (Counted.second false s).then (fun _ => rfl) rfl rfl
    obtain ⟨-, hsupply, hpace, hdwell, hlapse, hbond⟩ := hcount
    refine ⟨_, congrArg Host.Outcome.next hframe, rfl, rfl, sector_second false s, hsupply, hpace, hdwell, hlapse, hbond, fun hm => ?_,
      fun hm g hg => ?_, rfl, rfl, rfl, rfl, rfl, rfl, rfl, rfl, rfl⟩
    · rw [← hframe, hclock, if_neg hm]; exact ⟨rfl, rfl⟩
    · rw [← hframe, hclock, if_pos hm]
      refine tryUnderWay_pollRound ?_
      rw [State.enabled, sector_second]; exact hg
  · obtain ⟨-, -, -, -, -, -, -, htimes, -⟩ := hr
    obtain ⟨hw, -, -, hv, -⟩ := htimes hwritten
    have hclock := clockEvent_after_expiry (g := g) hq (by omega) (by omega) fun h hlt ⟨j, hj⟩ => hfirst h j hlt hj
    refine ⟨finish (timerExpiry g s), exec_expiry hq ht, ?_⟩
    rcases hc with rfl | rfl
    · exact congrArg Host.Outcome.next (hclock false)
    · exact congrArg Host.Outcome.next (hclock true)

end Sys2Proof.Machine
end

