-- ==== Sys2Proof/Proofs/MinuteWork.lean ====
section
/-! SUPPORT. The work of a minute event: the staleness test, the temperatures in use, integration and readiness, the drift check, and what it makes due in the feed scheduler. -/

namespace Sys2Proof.Machine

/-! ### The staleness test (R46) -/

theorem stales_iff {s : State} {g : Sector} : s.stales g = true ↔
    s.enabled g = true ∧ ((s.sector g).probe.state = .unknown ∨ (s.sector g).probe.state = .held)
      ∧ (s.sector g).probe.refMinute + 10 ≤ s.minute := by
  simp only [State.stales, Bool.and_eq_true, Bool.or_eq_true, beq_iff_eq, decide_eq_true_eq, and_assoc]
  refine and_congr_right fun _ => and_congr_right fun _ => ?_
  omega

/-- The probe record as the staleness test leaves it. -/
def State.testedProbe (s : State) (g : Sector) : Probe :=
  { (s.sector g).probe with state := if s.stales g = true then .stale else (s.sector g).probe.state }

theorem sector_makeStale (g h : Sector) (s : State) : (makeStale g s).sector h =
    if h = g then { s.sector g with probe := { (s.sector g).probe with state := .stale } } else s.sector h := by
  have hsec : (makeStale g s).sector h = (s.modProbe g fun p => { p with state := .stale }).sector h := by
    rw [makeStale, enterAlert_eq]; rfl
  rw [hsec, modProbe_eq, sector_modSector]

theorem sector_forEach_makeStale {gs : List Sector} (hn : gs.Nodup) (s : State) (h : Sector) : (forEach gs makeStale s).sector h =
    if h ∈ gs then { s.sector h with probe := { (s.sector h).probe with state := .stale } } else s.sector h := by
  induction gs generalizing s with
  | nil => simp
  | cons g gs ih =>
    obtain ⟨hg, hn⟩ := List.nodup_cons.1 hn
    rw [forEach_cons, ih hn, sector_makeStale]
    by_cases e : h = g
    · subst e; simp [hg]
    · simp [e]

theorem sector_stalenessTest (s : State) (g : Sector) : (stalenessTest s).sector g = { s.sector g with probe := s.testedProbe g } := by
  rw [stalenessTest, sector_forEach_makeStale (nodup_allSectors.filter _), State.testedProbe]
  cases hs : s.stales g <;> simp [hs, mem_allSectors]

theorem makeStale_frame (g : Sector) (s : State) : makeStale g s =
    { s with sectors := (makeStale g s).sectors, alerts := (makeStale g s).alerts, alertFull := (makeStale g s).alertFull } := by
  unfold makeStale; rw [enterAlert_eq]; rfl

theorem Alerted.makeStale (g : Sector) (s : State) : Alerted s (makeStale g s) :=
  Alerted.trans (t := s.modProbe g fun p => { p with state := .stale }) (.of_eq rfl rfl) (.enterAlert _ _ _)

theorem stalenessTest_frame (s : State) : stalenessTest s =
    { s with
      sectors := (stalenessTest s).sectors, alerts := (stalenessTest s).alerts, alertFull := (stalenessTest s).alertFull } := by
  refine forEach_keeps (P := fun t => t = { s with sectors := t.sectors, alerts := t.alerts, alertFull := t.alertFull }) _ _
    (fun g t ht => ?_) s rfl
  rw [makeStale_frame, ht]

/-- What every f g only adds to the alert list, forEach only adds to. -/
theorem Alerted.forEach {gs : List Sector} {f : Sector → State → State} (hf : ∀ g s, Alerted s (f g s)) (s : State) :
    Alerted s (forEach gs f s) :=
  forEach_keeps (P := Alerted s) gs f (fun g t h => h.trans (hf g t)) s (.refl s)

/-- Each sector that becomes STALE has PROBE_STALE entered (R46). -/
theorem entered_stalenessTest {s : State} {g : Sector} (h : s.stales g = true) : Entered .probeStale (some g) s (stalenessTest s) := by
  obtain ⟨before, after, hsplit⟩ := List.append_of_mem (List.mem_filter.2 ⟨mem_allSectors g, h⟩)
  rw [stalenessTest, hsplit, forEach_append, forEach_cons]
  have hbefore : Alerted s ((forEach before makeStale s).modProbe g fun p => { p with state := .stale }) :=
    (Alerted.forEach .makeStale s).trans (.of_eq rfl rfl)
  exact (entered_of_alerted hbefore .probeStale (some g)).later (.forEach .makeStale _)

/-! ### The temperatures in use (R48) -/

/-- A sector's own reading: it is LIVE or HELD. -/
def State.ownReading (s : State) (g : Sector) : Option Int :=
  if (s.sector g).probe.state = .live ∨ (s.sector g).probe.state = .held then (s.sector g).probe.lastGood else none

theorem trusted_iff {p : ProbeState} : p.trusted = true ↔ p = .live ∨ p = .held := by cases p <;> simp [ProbeState.trusted]

theorem lends_eq (s : State) (g : Sector) : s.lends g = if s.enabled g = true then s.ownReading g else none := by
  simp only [State.lends, State.ownReading, Bool.and_eq_true, trusted_iff]
  split_ifs <;> simp_all

/-- The better of a candidate and what sector h lends, for a substitute of g: the lower, on a tie the candidate. -/
def State.lower (s : State) (g : Sector) (best : Option (Int × Sector)) (h : Sector) : Option (Int × Sector) :=
  match s.lends h with
  | some t =>
    if h = g then best
    else
      match best with
      | some (b, _) => if t < b then some (t, h) else best
      | none => some (t, h)
  | none => best

theorem substitute_eq (s : State) (g : Sector) : s.substitute g = allSectors.foldl (s.lower g) none := rfl

theorem lower_of_idle {s : State} {g h : Sector} (hh : h ≠ g → s.lends h = none) (best : Option (Int × Sector)) :
    s.lower g best h = best := by
  unfold State.lower
  split
  · next t ht =>
    split
    · rfl
    · next hne => rw [hh hne] at ht; cases ht
  · rfl

/-- A candidate no higher than what h lends stays. -/
theorem lower_of_le {s : State} {g h k : Sector} {r : Int} (hh : ∀ q, h ≠ g → s.lends h = some q → r ≤ q) :
    s.lower g (some (r, k)) h = some (r, k) := by
  unfold State.lower
  split
  · next t ht =>
    split
    · rfl
    · next hne => exact if_neg (Int.not_lt.2 (hh t hne ht))
  · rfl

/-- A reading below the candidate takes its place. -/
theorem lower_of_lt {s : State} {g h : Sector} {r : Int} {best : Option (Int × Sector)} (hne : h ≠ g) (hl : s.lends h = some r)
    (hb : ∀ b k, best = some (b, k) → r < b) : s.lower g best h = some (r, h) := by
  simp only [State.lower, hl, if_neg hne]
  split
  · next b k => exact if_pos (hb b k rfl)
  · rfl

/-- A candidate is the one before, or one that h lends. -/
theorem lower_cases {s : State} {g h k : Sector} {b : Int} {best : Option (Int × Sector)} (hs : s.lower g best h = some (b, k)) :
    best = some (b, k) ∨ (h = k ∧ k ≠ g ∧ s.lends k = some b) := by
  unfold State.lower at hs
  split at hs
  · next t ht =>
    split at hs
    · exact .inl hs
    · next hne =>
      have hnew : some (t, h) = some (b, k) → h = k ∧ k ≠ g ∧ s.lends k = some b := by
        rintro ⟨⟩; exact ⟨rfl, hne, ht⟩
      split at hs
      · split at hs
        · exact .inr (hnew hs)
        · exact .inl hs
      · exact .inr (hnew hs)
  · exact .inl hs

theorem foldl_lower_of_fixed {s : State} {g : Sector} {hs : List Sector} {best : Option (Int × Sector)}
    (h : ∀ k ∈ hs, s.lower g best k = best) : hs.foldl (s.lower g) best = best := by
  induction hs with
  | nil => rfl
  | cons k hs ih =>
    rw [List.foldl_cons, h k List.mem_cons_self]
    exact ih fun j hj => h j (List.mem_cons_of_mem k hj)

theorem foldl_lower_cases {s : State} {g k : Sector} {b : Int} {hs : List Sector} {best : Option (Int × Sector)}
    (h : hs.foldl (s.lower g) best = some (b, k)) : best = some (b, k) ∨ (k ∈ hs ∧ k ≠ g ∧ s.lends k = some b) := by
  induction hs generalizing best with
  | nil => exact .inl h
  | cons j hs ih =>
    rcases ih h with hj | ⟨hmem, hk⟩
    · rcases lower_cases hj with hb | ⟨rfl, hk⟩
      · exact .inl hb
      · exact .inr ⟨List.mem_cons_self, hk⟩
    · exact .inr ⟨List.mem_cons_of_mem j hmem, hk⟩

/-- The substitute is the lowest reading lent, on a tie the one of the lowest index: those before it are higher, those after it no lower. -/
theorem substitute_of_lowest {s : State} {g h : Sector} {r : Int} (hne : h ≠ g) (hl : s.lends h = some r)
    (hbest : ∀ k q, k ≠ g → s.lends k = some q → r < q ∨ (r = q ∧ h ≤ k)) : s.substitute g = some (r, h) := by
  obtain ⟨before, after, hall, hlt, -⟩ := allSectors_split h
  rw [substitute_eq, hall, List.foldl_append, List.foldl_cons]
  have hbefore : ∀ b k, before.foldl (s.lower g) none = some (b, k) → r < b := fun b k hk => by
    rcases foldl_lower_cases hk with hnone | ⟨hmem, hkg, hkl⟩
    · cases hnone
    · rcases hbest k b hkg hkl with hlow | ⟨-, hle⟩
      · exact hlow
      · exact absurd (hlt k hmem) (not_lt.2 hle)
  rw [lower_of_lt hne hl hbefore]
  refine foldl_lower_of_fixed fun k _ => lower_of_le fun q hkg hkl => ?_
  rcases hbest k q hkg hkl with hlow | ⟨heq, -⟩
  · exact le_of_lt hlow
  · exact le_of_eq heq

theorem substitute_of_none {s : State} {g : Sector} (h : ∀ k, k ≠ g → s.lends k = none) : s.substitute g = none :=
  foldl_lower_of_fixed fun k _ => lower_of_idle (h k) none

theorem chain_of_own {s : State} {g : Sector} {r : Int} (h : s.ownReading g = some r) : s.chain g = (r, .own) := by
  simp only [State.ownReading, ← trusted_iff] at h
  rw [State.chain, h]

theorem chain_of_substitute {s : State} {g h : Sector} {r : Int} (hown : s.ownReading g = none) (hs : s.substitute g = some (r, h)) :
    s.chain g = (r, .substitute h) := by
  simp only [State.ownReading, ← trusted_iff] at hown
  rw [State.chain, hown, hs]

theorem chain_of_none {s : State} {g : Sector} (hown : s.ownReading g = none) (hs : s.substitute g = none) :
    s.chain g = (2 * s.deck.cold, .default) := by
  simp only [State.ownReading, ← trusted_iff] at hown
  rw [State.chain, hown, hs]

theorem sector_setTemps (s : State) (g : Sector) : (setTemps s).sector g =
    { s.sector g with probe := { (s.sector g).probe with temp := (s.chain g).1, source := (s.chain g).2 } } := by
  have hsec := sector_forEach_modSector nodup_allSectors
    (fun g x => { x with probe := { x.probe with temp := (s.chain g).1, source := (s.chain g).2 } }) s g
  rwa [if_pos (mem_allSectors g)] at hsec

theorem setTemps_frame (s : State) : setTemps s = { s with sectors := (setTemps s).sectors } :=
  forEach_modSector_eq allSectors (fun g x => { x with probe := { x.probe with temp := (s.chain g).1, source := (s.chain g).2 } }) s

/-! ### Integration and readiness (R51, R52) -/

/-- A layer after a minute: the maturity gained, READY from the threshold on, nothing else changed. -/
theorem matured_eq (mixes : Vector MixBlock 8) (n : Nat) (l : Layer) : matured mixes n l =
    { l with
      maturity := min 65535 (l.maturity + n)
      flags := { l.flags with ready := l.flags.ready || decide ((mixes.get l.mix).threshold ≤ min 65535 (l.maturity + n)) } } := by
  show (if l.flags.ready = true then cure n l else markReady mixes (cure n l)) = _
  by_cases hr : l.flags.ready = true
  · rw [if_pos hr, hr, Bool.true_or, ← hr]; rfl
  · rw [if_neg hr]
    by_cases ht : (mixes.get l.mix).threshold ≤ min 65535 (l.maturity + n)
    · rw [decide_eq_true ht, Bool.or_true]; exact if_pos ht
    · rw [decide_eq_false ht, Bool.or_false]; exact if_neg ht

theorem handOnReady_frame (b s : State) : handOnReady b s = { s with passDue := (handOnReady b s).passDue } := by
  unfold handOnReady; split <;> rfl

theorem integrate_frame (s : State) : integrate s = { s with sectors := (integrate s).sectors, passDue := (integrate s).passDue } := by
  rw [integrate_eq, handOnReady_frame]; rfl

theorem sector_integrate (s : State) (g : Sector) : (integrate s).sector g = (s.sector g).matured s.mixes := by
  rw [integrate_eq, handOnReady_frame]
  exact sector_mapSectors s _ g

end Sys2Proof.Machine
end

