-- ==== Sys2Proof/Proofs/MinuteEvent.lean ====
section
/-! SUPPORT. What the grant pass of a minute event leaves alone, and the minute event (MinuteEvent). -/

namespace Sys2Proof.Machine

/-! ### Tries under a grant pass -/

/-- From s to t the tries under way are kept, but for before-readings. -/
def SameTries (s t : State) : Prop := ∀ k g, k ≠ .before → t.tryUnderWay k g = s.tryUnderWay k g

theorem SameTries.of_eq {s t : State} (hl : t.line = s.line) (hw : t.waiting = s.waiting) : SameTries s t := fun k g _ => by
  rw [State.tryUnderWay, State.tryUnderWay, hl, hw]

theorem SameTries.refl (s : State) : SameTries s s := fun _ _ _ => rfl

theorem SameTries.trans {s t u : State} (h : SameTries s t) (k : SameTries t u) : SameTries s u := fun i g hi =>
  (k i g hi).trans (h i g hi)

theorem SameTries.requestBefore (g : Sector) (a : Nat) (s : State) : SameTries s (requestTry .before g a s) := fun k h hk => by
  rw [Bool.eq_iff_iff, tryUnderWay_requestTry_iff, or_iff_left]
  exact fun he => hk he.1.symm

/-- Abandoning before-readings leaves the other tries. -/
theorem SameTries.abandonTries {p : Try → Bool} (hp : ∀ t, p t = true → t.kind = .before) (s : State) :
    SameTries s (abandonTries p s) := fun k g hk => by
  have hother : ∀ t : Try, t.kind = k → p t = false := fun t ht => Bool.eq_false_iff.2 fun hpt => hk (ht.symm.trans (hp t hpt))
  have hkind : ∀ t : Try, (if p t then { t with live := false } else t : Try).kind = t.kind := fun t => by split <;> rfl
  have hkept : ∀ t : Try, t.kind = k → (if p t then { t with live := false } else t : Try) = t := fun t ht => by
    rw [hother t ht]; rfl
  rw [Bool.eq_iff_iff, tryUnderWay_iff, tryUnderWay_iff]
  simp only [Machine.abandonTries, List.mem_append, Option.mem_toList, Option.map_eq_some_iff, List.mem_filter,
    Bool.not_eq_true']
  constructor
  · rintro ⟨t, ⟨u, hu, rfl⟩ | ⟨ht, -⟩, hk, hrest⟩
    · rw [hkind] at hk
      rw [hkept u hk] at hrest
      exact ⟨u, .inl hu, hk, hrest⟩
    · exact ⟨t, .inr ht, hk, hrest⟩
  · rintro ⟨t, ht | ht, hk, hrest⟩
    · exact ⟨t, .inl ⟨t, ht, hkept t hk⟩, hk, hrest⟩
    · exact ⟨t, .inr ⟨ht, hother t hk⟩, hk, hrest⟩

theorem SameTries.enterAlert (k : AlertKind) (g : Option Sector) (s : State) : SameTries s (enterAlert k g s) := by
  rw [enterAlert_eq]; exact .of_eq rfl rfl

theorem SameTries.writeRejected (g : Sector) (k : TrimKind) (s : State) : SameTries s (writeRejected g k s) := by
  unfold Machine.writeRejected writeResult
  exact (SameTries.of_eq rfl rfl).trans (.enterAlert _ _ _)

theorem SameTries.abandonBefore (g : Sector) (s : State) : SameTries s (abandonBefore g s) :=
  (SameTries.abandonTries (fun t ht => by simp at ht; exact ht.1) s).trans (.of_eq rfl rfl)

theorem SameTries.startBefore (g : Sector) (s : State) : SameTries s (startBefore g s) :=
  SameTries.trans (t := s.modTrim g fun t => { t with before := [] }) (.of_eq rfl rfl) (.requestBefore g 1 _)

theorem SameTries.enterStandby (s : State) : SameTries s (enterStandby s) := by
  refine SameTries.trans (t := { s with mode := .standby, creepList := [], surveyReq := none, passDue := true }) (.of_eq rfl rfl) ?_
  exact (SameTries.abandonTries (fun t ht => by simp at ht; exact ht.1) _).trans (.of_eq rfl rfl)

theorem SameTries.beginVisits (gs : List Sector) (s : State) : SameTries s (beginVisits gs s) := by
  induction gs generalizing s with
  | nil =>
    exact SameTries.trans (t := { s with surveyState := .none, visit := none }) (.of_eq rfl rfl)
      ((SameTries.enterStandby _).trans (.enterAlert _ _ _))
  | cons g gs ih =>
    unfold Machine.beginVisits; split
    · split
      · exact SameTries.trans (t := setOutcome g .skipped s) (.of_eq rfl rfl) (ih _)
      · exact SameTries.trans (t := { s with visit := some (g, .reading) }) (.of_eq rfl rfl) (.startBefore g _)
    · exact ih s

theorem SameTries.visitBlocked (g : Sector) (s : State) : SameTries s (visitBlocked g s) := by
  refine SameTries.trans (t := { setOutcome g .blocked s with visit := none }) (.of_eq rfl rfl) ?_
  unfold Machine.visitBlocked visitEnded; dsimp only; split
  · exact .beginVisits _ _
  · exact SameTries.trans (t := { setOutcome g .blocked s with visit := none, surveyState := .none }) (.of_eq rfl rfl) (.enterStandby _)
  · exact .refl _

theorem SameTries.trimOnGrant (g : Sector) (kind : StrokeKind) (s : State) : SameTries s (trimOnGrant g kind s) := by
  have hasked : SameTries s (s.modTrim g fun t => { t with request := .none }) := .of_eq rfl rfl
  have hvisit : ∀ u : State, SameTries u (if kind = .survey then { u with visit := some (g, .stroke) } else u) := fun u => by
    split <;> exact .of_eq rfl rfl
  unfold Machine.trimOnGrant
  refine SameTries.trans ?_ (hvisit _)
  split
  · exact .refl s
  · exact .of_eq rfl rfl
  · exact hasked.trans (.writeRejected g _ _)
  · exact (hasked.trans (.abandonBefore g _)).trans (.writeRejected g _ _)

theorem SameTries.grant (g : Sector) (kind : StrokeKind) (s : State) : SameTries s (grant g kind s) :=
  SameTries.trans (t := { s.modGroup g (fun r => r.granted (s.len g) s.deck.window kind) with pressureOrder := s.pressureOrder ++ [g] })
    (.of_eq rfl rfl) (.trimOnGrant g kind _)

/-- A grant pass requests and abandons before-readings alone (R149, R152). -/
theorem SameTries.finish (s : State) : SameTries s (finish s) := by
  have unasked : ∀ u : State, SameTries u { u with surveyReq := none } := fun u => .of_eq rfl rfl
  refine finish_induct (R := SameTries) .refl .trans (fun s => ?_) (fun s => .of_eq rfl rfl) s
  exact serveOne_induct (R := SameTries) .refl .trans (fun s g _ => .of_eq rfl rfl) (fun s g kind _ _ => .grant g kind s)
    (fun s g _ _ => (unasked s).trans (.grant g .survey _)) (fun s g _ => (unasked s).trans (.visitBlocked g _))
    (fun s a j l => .of_eq rfl rfl) s

/-! ### Groups under a grant pass -/

/-- From s to t the group of g is kept, if it is neither IDLE nor STALLED. -/
def Unordered (g : Sector) (s t : State) : Prop :=
  s.groupState g ≠ .idle ∧ s.groupState g ≠ .stalled → (t.sector g).group = (s.sector g).group

theorem Unordered.trans {g : Sector} {s t u : State} (h : Unordered g s t) (k : Unordered g t u) : Unordered g s u := fun hs => by
  have ht := h hs
  refine (k ?_).trans ht
  rwa [State.groupState, ht]

theorem Unordered.grant {g h : Sector} (kind : StrokeKind) {s : State} (hg : s.grantable h = true) : Unordered g s (grant h kind s) := by
  intro hs
  have hidle : s.groupState h = .idle := (grantable_iff.1 hg).2.1
  have hne : g ≠ h := by rintro rfl; exact hs.1 hidle
  exact ((Aside.grant h kind s).group g).trans
    (congrArg SectorState.group (sector_modSector_ne s (fun x => { x with group := x.group.granted (s.len h) s.deck.window kind }) hne))

/-- A grant pass resumes STALLED groups and grants to IDLE ones (R89, R98). -/
theorem Unordered.finish (g : Sector) (s : State) : Unordered g s (finish s) := by
  refine finish_induct (R := Unordered g) (fun _ _ => rfl) .trans (fun s => ?_) (fun s _ => rfl) s
  refine serveOne_induct (R := Unordered g) (fun _ _ => rfl) .trans (fun s h hm hs => ?_) (fun s h kind _ hg => .grant kind hg)
    (fun s h _ hg => ?_) (fun s h _ _ => (Aside.visitBlocked h _).group g) (fun s a j l _ => rfl) s
  · have hne : g ≠ h := by rintro rfl; exact hs.2 (stalled_of_mem hm)
    exact congrArg SectorState.group (sector_modSector_ne s _ hne)
  · exact Unordered.grant (s := { s with surveyReq := none }) .survey hg

/-- From s to t the grant pass at the end of a clock event has run, if it was owed and nothing is due. -/
structure Passed (s t : State) : Prop extends Kept s t where
  alerted : Alerted s t
  tries : SameTries s t
  group : ∀ g, NoSupply s ∨ (s.groupState g ≠ .idle ∧ s.groupState g ≠ .stalled) → (t.sector g).group = (s.sector g).group

theorem Passed.finishDue (s : State) : Passed s (finishDue s) := by
  unfold Machine.finishDue; split
  · refine ⟨.finish s, .finish s, .finish s, fun g hg => ?_⟩
    rcases hg with hno | hs
    · rw [finish_of_noSupply hno]; rfl
    · exact Unordered.finish g s hs
  · exact ⟨.refl s, .refl s, .refl s, fun _ _ => rfl⟩

/-! ### The minute's work -/

/-- The probe record after a minute's work (R46, R48). -/
def State.minuteProbe (s : State) (g : Sector) : Probe :=
  { s.testedProbe g with temp := ((stalenessTest s).chain g).1, source := ((stalenessTest s).chain g).2 }

/-- The layers after a minute's work (R51, R52). -/
def State.minuteLayers (s : State) (g : Sector) : LayerTable :=
  { (s.sector g).layers with
    stack := if s.enabled g = false then s.stack g else (s.stack g).map (matured s.mixes (increment (s.minuteProbe g).temp)) }

/-- The work at the maturity integrator (R46, R48, R51, R52). -/
def cureWork (s : State) : State := integrate (setTemps (stalenessTest s))

theorem cureWork_frame (s : State) : ∃ x a f d, cureWork s = { s with sectors := x, alerts := a, alertFull := f, passDue := d } := by
  rw [cureWork, integrate_frame, setTemps_frame, stalenessTest_frame]
  exact ⟨_, _, _, _, rfl⟩

theorem alerted_cureWork (s : State) : Alerted (stalenessTest s) (cureWork s) := by
  rw [cureWork, integrate_frame, setTemps_frame]
  exact .of_eq rfl rfl

theorem sector_cureWork (s : State) (g : Sector) :
    (cureWork s).sector g = { s.sector g with probe := s.minuteProbe g, layers := s.minuteLayers g } := by
  have hmixes : (setTemps (stalenessTest s)).mixes = s.mixes := by rw [setTemps_frame, stalenessTest_frame]
  rw [cureWork, sector_integrate, sector_setTemps, sector_stalenessTest, hmixes, SectorState.matured]
  cases he : (s.sector g).table.enabled with
  | true => simp only [if_true, State.minuteLayers, State.enabled, he]; rfl
  | false => simp only [State.minuteLayers, State.enabled, he]; rfl

/-- What a minute makes due in the feed scheduler (R137, R138), with what the second made due. -/
theorem minuteWork_eq (s : State) : minuteWork s =
    { driftCheck (cureWork s) with due :=
      { (driftCheck (cureWork s)).due with
        aging := (driftCheck (cureWork s)).expired.any fun e => (driftCheck (cureWork s)).aged e
        expiry := allSectors.any fun g => (driftCheck (cureWork s)).ticketDue g } } := rfl

theorem driftCheck_frame (s : State) : driftCheck s = { s with line := (driftCheck s).line, waiting := (driftCheck s).waiting } :=
  round_frame _ _ s

/-- After a drift check each sector enabled, established and IDLE has one under way (R145). -/
theorem tryUnderWay_driftCheck (s : State) (g : Sector) : (driftCheck s).tryUnderWay .drift g =
    (s.tryUnderWay .drift g || decide (s.enabled g = true ∧ s.established g = true ∧ s.groupState g = .idle)) := by
  rw [Bool.eq_iff_iff, driftCheck, tryUnderWay_round]
  cases hd : s.tryUnderWay .drift g <;> simp [mem_allSectors, hd, and_assoc]

theorem ticketDue_iff {s : State} {g : Sector} : s.ticketDue g = true ↔ ∃ k, (s.sector g).ticket = some k ∧ k.deadline ≤ s.minute := by
  unfold State.ticketDue
  cases (s.sector g).ticket <;> simp

/-- From s to t the work of a minute has been done in the blocks (R46, R48, R51, R52, R137, R138, R145). -/
structure Minuted (s t : State) : Prop where
  settings : t.settings = s.settings
  tables : t.tables = s.tables
  feed : t.feed = s.feed
  ports : t.ports = s.ports
  supply : t.supply = s.supply
  sector : ∀ g, t.sector g = { s.sector g with probe := s.minuteProbe g, layers := s.minuteLayers g }
  stale : ∀ g, s.stales g = true → Entered .probeStale (some g) s t
  dueExpiry : t.due.expiry = true ↔ ∃ g k, (s.sector g).ticket = some k ∧ k.deadline ≤ s.minute
  dueAging : t.due.aging = true ↔ ∃ e ∈ s.expired, e.deadline + s.deck.feedTimeout ≤ s.minute
  dueSecond : t.due.ofSecond = s.due.ofSecond
  drift : ∀ g, t.tryUnderWay .drift g =
    (s.tryUnderWay .drift g || decide (s.enabled g = true ∧ s.established g = true ∧ s.groupState g = .idle))
  polls : ∀ g, t.tryUnderWay .probe g = s.tryUnderWay .probe g

theorem Minuted.minuteWork (s : State) : Minuted s (minuteWork s) := by
  have hsec := sector_cureWork s
  have hstale : ∀ g, s.stales g = true → Entered .probeStale (some g) s (cureWork s) := fun g hg =>
    (entered_stalenessTest hg).later (alerted_cureWork s)
  obtain ⟨x, a, f, d, hframe⟩ := cureWork_frame s
  have hdrift := tryUnderWay_driftCheck (cureWork s)
  have hpolls : ∀ g, (driftCheck (cureWork s)).tryUnderWay .probe g = (cureWork s).tryUnderWay .probe g := fun g =>
    tryUnderWay_round_other (by simp) g _ _
  obtain ⟨l, w, hline⟩ : ∃ l w, driftCheck (cureWork s) = { cureWork s with line := l, waiting := w } := ⟨_, _, driftCheck_frame _⟩
  rw [hline] at hdrift hpolls
  rw [minuteWork_eq, hline]
  generalize cureWork s = v at *
  have hticket : ∀ g, (v.sector g).ticket = (s.sector g).ticket := fun g => by rw [hsec]
  subst hframe
  refine ⟨rfl, rfl, rfl, rfl, rfl, hsec, fun g hg => (hstale g hg).congr rfl rfl rfl, ?_, ?_, rfl, fun g => ?_, hpolls⟩
  · show (allSectors.any fun g => State.ticketDue _ g) = true ↔ _
    simp only [List.any_eq_true, mem_allSectors, true_and, ticketDue_iff]
    exact exists_congr fun g => exists_congr fun k => and_congr_left' (Iff.of_eq (congrArg (· = some k) (hticket g)))
  · show (s.expired.any fun e => decide (e.deadline + s.deck.feedTimeout ≤ s.minute)) = true ↔ _
    simp only [List.any_eq_true, decide_eq_true_eq]
  · refine (hdrift g).trans ?_
    simp only [State.enabled, State.established, State.groupState, hsec]
    rfl

/-! ### The minute event -/

/-- From s to t the clock has come to the next minute, its second is counted and the polls are under way (R41, R42, R44). -/
structure Begun (s t : State) : Prop where
  settings : t.settings = State.settings { s with second := 0, minute := (s.minute + 1) % 4294967296 }
  tables : t.tables = s.tables
  feed : t.feed = s.feed
  ports : t.ports = s.ports
  alerts : t.alerts = s.alerts
  sector : ∀ g, t.sector g = { s.sector g with group := (s.sector g).group.ticked, pace := s.paceAfter g }
  counted : Counted s t
  drift : ∀ g, t.tryUnderWay .drift g = s.tryUnderWay .drift g
  polls : ∀ g, s.enabled g = true → t.tryUnderWay .probe g = true

/-- The second that a minute event counts, with its poll round. -/
def minuteSecond (s : State) : State := pollRound (secondWork (advanceClock true s))

theorem Begun.minuteSecond (s : State) : Begun s (minuteSecond s) := by
  have hdrift : ∀ g, (Machine.minuteSecond s).tryUnderWay .drift g = s.tryUnderWay .drift g := fun g =>
    tryUnderWay_round_other (by simp) g _ _
  have hpolls : ∀ g, s.enabled g = true → (Machine.minuteSecond s).tryUnderWay .probe g = true := fun g hg =>
    tryUnderWay_pollRound (by rw [State.enabled, sector_second]; exact hg)
  obtain ⟨l, w, hframe⟩ : ∃ l w, Machine.minuteSecond s = { secondWork (advanceClock true s) with line := l, waiting := w } :=
    ⟨_, _, pollRound_frame _⟩
  rw [hframe] at hdrift hpolls ⊢
  exact ⟨rfl, rfl, rfl, rfl, rfl, sector_second true s, (Counted.second true s).then (fun _ => rfl) rfl rfl, hdrift, hpolls⟩

theorem Begun.enabled {s t : State} (h : Begun s t) (g : Sector) : t.enabled g = s.enabled g := by rw [State.enabled, h.sector]; rfl
theorem Begun.probe {s t : State} (h : Begun s t) (g : Sector) : (t.sector g).probe = (s.sector g).probe := by rw [h.sector]
theorem Begun.minute {s t : State} (h : Begun s t) : t.minute = (s.minute + 1) % 4294967296 := congrArg (·.2.1) h.settings
theorem Begun.deck {s t : State} (h : Begun s t) : t.deck = s.deck := congrArg (·.2.2.1) h.settings
theorem Begun.mixes {s t : State} (h : Begun s t) : t.mixes = s.mixes := congrArg (·.2.2.2.2.1) h.settings
theorem Begun.expired {s t : State} (h : Begun s t) : t.expired = s.expired := congrArg (·.2.1) h.feed

theorem Begun.stales_iff {s t : State} (h : Begun s t) (g : Sector) : t.stales g = true ↔
    s.enabled g = true ∧ ((s.sector g).probe.state = .unknown ∨ (s.sector g).probe.state = .held)
      ∧ (s.sector g).probe.refMinute + 10 ≤ (s.minute + 1) % 4294967296 := by
  rw [Machine.stales_iff, h.enabled, h.probe, h.minute]

/-- The layers after the minute, in the records that it found. -/
theorem Begun.minuteLayers {s t : State} (h : Begun s t) (g : Sector) : t.minuteLayers g =
    { (s.sector g).layers with
      stack := if s.enabled g = false then s.stack g else (s.stack g).map (matured s.mixes (increment (t.minuteProbe g).temp)) } := by
  rw [State.minuteLayers, h.enabled, h.mixes, State.stack, h.sector]
  rfl

/-- A minute event on a state at rest with no timer at 0 (R41, log 4). -/
theorem clockEvent_minute {s : State} (hq : Quiet s) (h : ∀ g, ¬s.timedOut g) {b : Bool} (hb : (b || decide (59 ≤ s.second)) = true) :
    clockEvent b s = finishDue (minuteWork (minuteSecond s)) := by
  rw [clockEvent_of_running hq h, hb]
  rfl

/-- The chain of R48, of a temperature in use, its source, and the readings that sectors have and lend. -/
theorem chain_cases {s : State} {g : Sector} {own lent : Sector → Option Int} {temp : Int} {source : TempSource}
    (hown : ∀ h, own h = s.ownReading h) (hlent : ∀ h, lent h = s.lends h) (hchain : s.chain g = (temp, source)) :
    (∀ r, own g = some r → temp = r ∧ source = .own)
    ∧ (own g = none →
        (∀ h r, h ≠ g → lent h = some r → (∀ k q, k ≠ g → lent k = some q → r < q ∨ (r = q ∧ h ≤ k)) →
          temp = r ∧ source = .substitute h)
        ∧ ((∀ h, h ≠ g → lent h = none) → temp = 2 * s.deck.cold ∧ source = .default)) := by
  have pair : ∀ {r : Int} {x : TempSource}, s.chain g = (r, x) → temp = r ∧ source = x := fun h => Prod.mk.inj (hchain.symm.trans h)
  simp only [hown, hlent]
  exact ⟨fun r hr => pair (chain_of_own hr), fun hnone =>
    ⟨fun h r hne hl hbest => pair (chain_of_substitute hnone (substitute_of_lowest hne hl hbest)),
      fun hall => pair (chain_of_none hnone (substitute_of_none hall))⟩⟩

section
variable {s p w t : State} (hb : Begun s p) (hm : Minuted p w) (hpass : Passed w t)
include hb hm hpass

/-- What the sector's records hold after the minute; the grant pass leaves them. -/
theorem held_of_minute (g : Sector) : (t.sector g).table = (s.sector g).table ∧ (t.sector g).layers = p.minuteLayers g
    ∧ (t.sector g).probe = p.minuteProbe g ∧ (t.sector g).ticket = (s.sector g).ticket := by
  have h := hpass.held g
  rw [hm.sector, hb.sector] at h
  simpa only [SectorState.held, Prod.mk.injEq] using h

theorem settings_of_minute : t.settings = State.settings { s with second := 0, minute := (s.minute + 1) % 4294967296 } :=
  (hpass.settings.trans hm.settings).trans hb.settings

theorem counted_of_minute : Counted s t :=
  hb.counted.then (fun g => (hpass.pace g).trans (by rw [hm.sector])) (hpass.supply.trans hm.supply) (by rw [hpass.due, hm.dueSecond])

theorem group_of_minute {g : Sector} (hg : NoSupply s ∨ (s.groupState g ≠ .idle ∧ s.groupState g ≠ .stalled)) :
    (t.sector g).group = (s.sector g).group.ticked := by
  have hgroup : (w.sector g).group = (s.sector g).group.ticked := by rw [hm.sector, hb.sector]
  have hstate : w.groupState g = s.groupState g := by rw [State.groupState, hgroup]; rfl
  have hsupply : w.supply.state = s.supply.state := by rw [hm.supply, hb.counted.supply]; rfl
  exact (hpass.group g (by rwa [hstate, NoSupply, hsupply])).trans hgroup

theorem drift_of_minute (g : Sector) : t.tryUnderWay .drift g =
    (s.tryUnderWay .drift g || decide (s.enabled g = true ∧ s.established g = true ∧ s.groupState g = .idle)) := by
  rw [hpass.tries .drift g (by simp), hm.drift, hb.drift]
  simp only [State.enabled, State.established, State.groupState, hb.sector]
  rfl

theorem stale_of_minute {g : Sector} (h : p.stales g = true) : Entered .probeStale (some g) s t :=
  ((hm.stale g h).later hpass.alerted).congr hb.alerts.symm rfl rfl

end

/-- Settles O45: the second counted, the work of the minute, and what the grant pass after it leaves alone. -/
theorem minuteEvent : Obligations.MinuteEvent := by
  intro s c hq hc ht
  have hclock : exec c s = .next (finishDue (minuteWork (minuteSecond s))) := by
    have hrun : ∀ g, ¬s.timedOut g := fun g ⟨k, hk⟩ => ht g k hk
    rcases hc with rfl | ⟨rfl, hs⟩
    · exact congrArg Host.Outcome.next (clockEvent_minute (b := true) hq hrun rfl)
    · exact congrArg Host.Outcome.next (clockEvent_minute (b := false) hq hrun (by simp [hs]))
  have hb := Begun.minuteSecond s
  have hm := Minuted.minuteWork (minuteSecond s)
  have hpass := Passed.finishDue (minuteWork (minuteSecond s))
  refine ⟨_, hclock, ?_⟩
  generalize finishDue (minuteWork (minuteSecond s)) = t at hpass ⊢
  generalize minuteWork (minuteSecond s) = w at hm hpass
  generalize minuteSecond s = p at hb hm
  have hset := settings_of_minute hb hm hpass
  simp only [State.settings, Prod.mk.injEq] at hset
  obtain ⟨hsecond, hminute, hdeck, -, hmixes, -⟩ := hset
  have hheld := held_of_minute hb hm hpass
  have hprobe : ∀ g, (t.sector g).probe = p.minuteProbe g := fun g => (hheld g).2.2.1
  obtain ⟨hpace, hsupply, hduePace, hdueDwell, hdueLapse, hdueBond⟩ := counted_of_minute hb hm hpass
  refine ⟨hsecond, hminute, fun g => ?_, ?_, fun g => ?_, ?_, ?_, drift_of_minute hb hm hpass,
    fun g => ⟨group_of_minute hb hm hpass, hpace g⟩, hsupply, hduePace, hdueDwell, hdueLapse, hdueBond, fun g hg => ?_,
    fun g => ⟨(hheld g).1, (hheld g).2.2.2⟩, hdeck, hmixes, (hpass.feed.trans hm.feed).trans hb.feed,
    (hpass.tables.trans hm.tables).trans hb.tables, (hpass.ports.trans hm.ports).trans hb.ports⟩
  · have hstale := hb.stales_iff g
    rw [hminute, hprobe, State.minuteProbe, State.testedProbe, hb.probe]
    exact ⟨if_congr hstale rfl rfl, rfl, fun h => stale_of_minute hb hm hpass (hstale.2 h)⟩
  · intro own lent g
    have hown : ∀ h, own h = (stalenessTest p).ownReading h := fun h => by
      simp only [own, State.ownReading, hprobe, sector_stalenessTest]; rfl
    have hlent : ∀ h, lent h = (stalenessTest p).lends h := fun h => by
      have henabled : (stalenessTest p).enabled h = s.enabled h := by
        rw [State.enabled, sector_stalenessTest]; exact hb.enabled h
      rw [lends_eq, henabled, ← hown]
    have hcold : (stalenessTest p).deck = s.deck := by rw [stalenessTest_frame]; exact hb.deck
    rw [← hcold]
    exact chain_cases hown hlent (by rw [hprobe]; rfl)
  · rw [(hheld g).2.1, hb.minuteLayers, hprobe, funext (matured_eq s.mixes (increment (p.minuteProbe g).temp))]
    rfl
  · rw [hpass.due, hm.dueExpiry, hminute, ← hb.minute]
    simp only [hb.sector]
  · rw [hpass.due, hm.dueAging, hminute, ← hb.minute, hb.deck, hb.expired]
  · rw [hpass.tries .probe g (by simp), hm.polls]
    exact hb.polls g hg

end Sys2Proof.Machine
end

