-- ==== Sys2Proof/Proofs/Demands.lean ====
section
/-! SUPPORT. Creep demands: those that come to hold join the creep list in the order of R77, and a grant pass outside SURVEY leaves list and mode alone; SET CREEP SET (SetCreepSet). -/

namespace Sys2Proof.Machine

/-! ### The order in which demands join (R77) -/

/-- a stands before b in the order of R77: the higher dwell counter first, equal counters in ascending index. -/
def State.dwellBefore (s : State) (a b : Sector) : Prop :=
  (s.sector b).pace.dwell < (s.sector a).pace.dwell ∨ ((s.sector b).pace.dwell = (s.sector a).pace.dwell ∧ a < b)

theorem pairwise_insertByDwell {s : State} {g : Sector} {gs : List Sector} (hg : ∀ h ∈ gs, g < h) (hs : gs.Pairwise s.dwellBefore) :
    (insertByDwell s g gs).Pairwise s.dwellBefore := by
  induction gs with
  | nil => exact List.pairwise_singleton _ _
  | cons h gs ih =>
    obtain ⟨hh, hs'⟩ := List.pairwise_cons.1 hs
    obtain ⟨hlt, hg'⟩ := List.forall_mem_cons.1 hg
    unfold insertByDwell; split
    · next hd =>
      refine List.pairwise_cons.2 ⟨fun k hk => ?_, ih hg' hs'⟩
      rcases mem_insertByDwell.1 hk with rfl | hk
      · exact .inl hd
      · exact hh k hk
    · next hd =>
      refine List.pairwise_cons.2 ⟨fun k hk => ?_, hs⟩
      have hle : (s.sector k).pace.dwell ≤ (s.sector h).pace.dwell := by
        rcases List.mem_cons.1 hk with rfl | hk
        · exact Nat.le_refl _
        · exact (hh k hk).elim Nat.le_of_lt fun e => e.1.le
      rcases (hle.trans (Nat.le_of_not_lt hd)).lt_or_eq with hkg | hkg
      · exact .inl hkg
      · exact .inr ⟨hkg, hg k hk⟩

theorem pairwise_sortByDwell {s : State} {gs : List Sector} (h : gs.Pairwise (· < ·)) : (sortByDwell s gs).Pairwise s.dwellBefore := by
  induction gs with
  | nil => exact .nil
  | cons g gs ih =>
    obtain ⟨hg, hgs⟩ := List.pairwise_cons.1 h
    exact pairwise_insertByDwell (fun k hk => hg k (mem_sortByDwell.1 hk)) (ih hgs)

/-- The sectors whose demands come to hold, in the order in which they join. -/
def State.joining (s : State) : List Sector := sortByDwell s (allSectors.filter fun g => s.wantsDemand g)

theorem mem_joining {s : State} {g : Sector} : g ∈ s.joining ↔ s.wantsDemand g = true := by
  rw [State.joining, mem_sortByDwell, List.mem_filter, and_iff_right (mem_allSectors g)]

theorem pairwise_joining (s : State) : s.joining.Pairwise s.dwellBefore := by
  have hsorted : allSectors.Pairwise (· < ·) := by decide
  exact pairwise_sortByDwell (hsorted.filter _)

/-- Everything raiseDemands can do: demands join, and with one of them the event owes a pass. -/
theorem raiseDemands_eq (s : State) : raiseDemands s =
    { s with creepList := s.creepList ++ s.joining.map fun g => ⟨g, s.minute⟩, passDue := s.passDue || !s.joining.isEmpty } := by
  unfold raiseDemands
  rw [← State.joining]
  cases s.joining with
  | nil => simp
  | cons g gs => simp

theorem demanded_eq_false_iff {s : State} {g : Sector} : s.demanded g = false ↔ ∀ e ∈ s.creepList, e.sector ≠ g := by
  simp [State.demanded]

/-- The demands that raiseDemands raises are those of R77, in its order. -/
theorem demandsJoin_raiseDemands (s : State) :
    DemandsJoin s.creepList (fun g => s.mode = .climb ∨ (s.mode = .hold ∧ g ∈ s.creepSet)) s (raiseDemands s) := by
  rw [raiseDemands_eq]
  refine ⟨_, rfl, fun g => ?_, fun e he => ?_, List.pairwise_map.2 (pairwise_joining s)⟩
  · rw [← demanded_eq_false_iff, ← wantsDemand_iff, ← mem_joining]
    simp
  · obtain ⟨g, -, rfl⟩ := List.mem_map.1 he
    rfl

/-- t has what the conditions of R77 read but the mode, the creep set and the creep list. -/
structure Dwells (s t : State) : Prop where
  minute : t.minute = s.minute
  deck : t.deck = s.deck
  enabled : ∀ g, t.enabled g = s.enabled g
  stack : ∀ g, t.stack g = s.stack g
  dwell : ∀ g, (t.sector g).pace.dwell = (s.sector g).pace.dwell

/-- What demands join depends on those records alone. -/
theorem DemandsJoin.congr {old : List CreepEntry} {p q : Sector → Prop} {s s' t t' : State} (h : DemandsJoin old p s' t') (hs : Dwells s s')
    (hp : ∀ g, p g ↔ q g) (ht : t.creepList = t'.creepList) : DemandsJoin old q s t := by
  obtain ⟨minute, deck, enabled, stack, dwell⟩ := hs
  simpa only [DemandsJoin, minute, deck, enabled, stack, dwell, hp, ← ht] using h

/-! ### A grant pass outside SURVEY leaves the demands alone -/

/-- The mode and the creep list. -/
def State.demands (s : State) : DeckMode × List CreepEntry := (s.mode, s.creepList)

theorem demands_enterAlert (k : AlertKind) (g : Option Sector) (s : State) : (enterAlert k g s).demands = s.demands := by
  rw [enterAlert_eq]; rfl

theorem demands_modTrim (s : State) (g : Sector) (f : Trim → Trim) : (s.modTrim g f).demands = s.demands := rfl

theorem demands_abandonBefore (g : Sector) (s : State) : (abandonBefore g s).demands = s.demands := rfl

theorem demands_writeRejected (g : Sector) (kind : TrimKind) (s : State) : (writeRejected g kind s).demands = s.demands := by
  rw [writeRejected_eq]
  exact (demands_enterAlert _ _ _).trans (demands_modTrim s g _)

theorem demands_trimOnGrant (g : Sector) (kind : StrokeKind) (s : State) : (trimOnGrant g kind s).demands = s.demands := by
  have visit : ∀ (u : State) v, State.demands { u with visit := v } = u.demands := fun _ _ => rfl
  unfold trimOnGrant; dsimp only; split
  on_goal 1 => rw [visit]
  all_goals
    split
    · rfl
    · rw [demands_modTrim]
    · rw [demands_writeRejected, demands_modTrim]
    · rw [demands_writeRejected, demands_abandonBefore, demands_modTrim]

theorem demands_grant (g : Sector) (kind : StrokeKind) (s : State) : (grant g kind s).demands = s.demands :=
  (demands_trimOnGrant g kind _).trans rfl

theorem demands_passBoundary (s : State) : (passBoundary s).demands = s.demands := by unfold passBoundary; split <;> rfl

theorem demands_pacedScan (n j : Nat) (s : State) : (pacedScan n j s).1.demands = s.demands := by
  induction n generalizing j s with
  | zero => rfl
  | succ n ih =>
    unfold pacedScan; split
    · next g _ =>
      dsimp only; split
      · exact (demands_passBoundary _).trans (demands_grant g .paced s)
      · exact demands_grant g .paced s
    · split
      · rfl
      · split
        · exact (ih _ _).trans (demands_passBoundary s)
        · exact ih _ _

theorem demands_serveOne {s : State} (h : s.mode ≠ .survey) : (serveOne s).1.demands = s.demands := by
  unfold serveOne; split
  · rfl
  · simp only [if_neg h]; split
    · exact demands_grant _ _ s
    · split
      · exact demands_pacedScan _ _ s
      · rfl

/-- Only in SURVEY can a pass change the mode or the creep list, by a visit BLOCKED (R111, R113). -/
theorem demands_finish {s : State} (h : s.mode ≠ .survey) : (finish s).demands = s.demands := by
  unfold finish; split
  · refine grantPass_keeps (P := fun t => t.demands = s.demands) (fun t ht _ => ?_) passFuel s rfl
    have hm : t.mode = s.mode := congrArg Prod.fst ht
    exact (demands_serveOne (by rw [hm]; exact h)).trans ht
  · rfl

/-! ### Demands raised, and the pass after it -/

/-- t has the mode and the creep list that raising demands leaves of s; of the rest a grant pass may have run. -/
structure Demanding (s t : State) : Prop extends Kept s t where
  demands : t.demands = (raiseDemands s).demands

theorem Demanding.mode {s t : State} (h : Demanding s t) : t.mode = s.mode :=
  (congrArg Prod.fst h.demands).trans (by rw [raiseDemands_eq]; rfl)

theorem Demanding.raiseDemands (s : State) : Demanding s (raiseDemands s) := by
  refine ⟨?_, rfl⟩
  rw [raiseDemands_eq]
  exact ⟨rfl, rfl, rfl, rfl, rfl, rfl, rfl, rfl, rfl, fun _ => rfl, fun _ => rfl⟩

theorem Demanding.passSet {s t : State} (h : Demanding s t) (d : Bool) : Demanding s { t with passDue := d } :=
  ⟨h.toKept.trans (Closes.passSet t d).toKept, h.demands⟩

theorem Demanding.finish {s t : State} (h : Demanding s t) (hs : s.mode ≠ .survey) : Demanding s (finish t) :=
  ⟨h.toKept.trans (.finish t), (demands_finish (by rw [h.mode]; exact hs)).trans h.demands⟩

/-- In HOLD the demands of the creep set are those that join (R77). -/
theorem Demanding.demandsJoin {gs : List Sector} {s v t : State} (h : Demanding v t) (hd : Dwells s v) (hm : v.mode = .hold)
    (hset : ∀ g, g ∈ v.creepSet ↔ g ∈ gs) : DemandsJoin v.creepList (· ∈ gs) s t :=
  (demandsJoin_raiseDemands v).congr hd (fun g => by simp [hm, hset]) (congrArg Prod.snd h.demands)

theorem DemandsJoin.setPort {old : List CreepEntry} {p : Sector → Prop} {s t : State} (h : DemandsJoin old p s t) (q : PortId) (x : Port) :
    DemandsJoin old p s (t.setPort q x) := by
  cases q <;> exact h

/-! ### A request served, its answer sent -/

/-- A request served at rest by a block that leaves the ports alone: the block's state, but for the port that sends the answer. -/
theorem arrive_setPort {p : PortId} {k : ReqKind} {d : List Byte} {r : Request} {s u : State} {rep : Reply} (hk : roleOf k = p) (h : Rest p s)
    (hp : parsePayload k d = some r) (hs : serveRequest r (toHunting p s) = (u, rep)) (hu : u.ports = (toHunting p s).ports) :
    ∃ x, arrive p k d s = u.setPort p x ∧ Answers p k rep s (u.setPort p x) := by
  subst hk
  obtain ⟨ht, ha⟩ := arrive_answers h hp (by rw [hs]; exact hu)
  rw [hs] at ht ha
  exact ⟨_, ht, ht ▸ ha⟩

/-! ### SET CREEP SET -/

theorem listB_sectorB (gs : List Sector) : listB (gs.map sectorB) = byteOf gs.length :: gs.map fun g => byteOf g.val := by
  rw [listB, List.length_map, ← List.flatMap_def]
  exact congrArg _ (List.map_eq_flatMap).symm

/-- A creep set spelled in bytes (R184). -/
theorem parse_setCreepSet {gs : List Sector} (h : gs.length ≤ 24) :
    parsePayload .setCreepSet (listB (gs.map sectorB)) = some (.setCreepSet (gs.map fun g => (byteOf g.val).toNat)) := by
  have hlen : (gs.map fun g => byteOf g.val).length = (byteOf gs.length).toNat := by simp; omega
  simp only [listB_sectorB, parsePayload, if_pos hlen, byteNats, List.map_map]
  rfl

theorem sectorSet_eq (gs : List Sector) : sectorSet gs = allSectors.filter (· ∈ gs) := by
  simp [sectorSet]

theorem mem_sectorSet {gs : List Sector} {g : Sector} : g ∈ sectorSet gs ↔ g ∈ gs := by simp [sectorSet_eq, mem_allSectors]

/-- The sectors of a request replace the set; in HOLD the demands follow (R77, R78, R167). -/
theorem serveSetCreepSet_eq {gs : List Sector} (h : gs.length ≤ 24) (s : State) :
    serveSetCreepSet (gs.map fun g => (byteOf g.val).toNat) s =
      (finish (if s.mode = .hold then
          raiseDemands { s with creepSet := sectorSet gs, creepList := s.creepList.filter fun e => decide (e.sector ∈ gs) }
        else { s with creepSet := sectorSet gs }), ⟨.ok, listB ((sectorSet gs).map sectorB)⟩) := by
  have hlen : ¬24 < (gs.map fun g => (byteOf g.val).toNat).length := by simpa using h
  have hin : (fun e : CreepEntry => (sectorSet gs).contains e.sector) = fun e => decide (e.sector ∈ gs) := by
    funext e; simp [mem_sectorSet]
  simp only [serveSetCreepSet, toSectors_bytes, if_neg hlen, hin]

/-- Settles O13: outside HOLD the set alone changes; in HOLD the demands of R77 join behind those that the set keeps, and the grant pass leaves them. -/
theorem setCreepSet : Obligations.SetCreepSet := by
  intro s gs hr hlen set
  have hset : set = sectorSet gs := (sectorSet_eq gs).symm
  rw [hset]
  have hp := parse_setCreepSet hlen
  have hserve := serveSetCreepSet_eq hlen (toHunting .console s)
  refine ⟨fun hm => ?_, fun hm => ?_⟩
  · rw [if_neg (show ¬(toHunting .console s).mode = .hold from hm),
      finish_of_not_due (s := { toHunting .console s with creepSet := sectorSet gs }) hr.1.2] at hserve
    exact congrArg Host.Outcome.next (arrive_serves (k := .setCreepSet) (t := { s with creepSet := sectorSet gs }) hr hp rfl hserve)
  · rw [if_pos (show (toHunting .console s).mode = .hold from hm)] at hserve
    obtain ⟨v, hv⟩ : ∃ v : State, v = { toHunting .console s with
      creepSet := sectorSet gs, creepList := (toHunting .console s).creepList.filter fun e => decide (e.sector ∈ gs) } := ⟨_, rfl⟩
    have hvmode : v.mode = .hold := by rw [hv]; exact hm
    have hdwells : Dwells s v := hv ▸ ⟨rfl, rfl, fun _ => rfl, fun _ => rfl, fun _ => rfl⟩
    have hw : Demanding v (finish (raiseDemands v)) := (Demanding.raiseDemands v).finish (by rw [hvmode]; decide)
    rw [← hv] at hserve
    generalize finish (raiseDemands v) = w at *
    have hjoin := hw.demandsJoin (gs := gs) hdwells hvmode (by simp [hv, mem_sectorSet])
    have hmode : w.mode = .hold := hw.mode.trans hvmode
    have hkept := hw.toKept
    subst hv
    obtain ⟨x, harr, hans⟩ := arrive_setPort (p := .console) (k := .setCreepSet) rfl hr hp hserve hkept.ports
    exact ⟨_, congrArg Host.Outcome.next harr, hans, hkept.creepSet, hmode, hjoin.setPort _ _, fun g => ⟨hkept.held g, hkept.pace g⟩,
      hkept.settings, hkept.feed, hkept.tables, hkept.supply⟩

end Sys2Proof.Machine
end

