-- ==== Sys2Proof/Proofs/HoldPark.lean ====
section
/-! SUPPORT. The entry to HOLD and the entry to STANDBY, said once each; HOLD and PARK (HoldAndPark). -/

namespace Sys2Proof.Machine

/-! ### The entry to HOLD (R161) -/

/-- The deck in HOLD, its counters stopped and its counts cleared (R69, R71). -/
def State.stilled (s : State) : State := clearCounts (stopCounters { s with mode := .hold })

/-- What that leaves alone. -/
def State.unstilled (s : State) := (s.beforeHalt, s.creepSet, s.creepList, s.settings, s.feed, s.tables, s.supply)

theorem stilled_frame (s : State) : s.stilled.mode = .hold ∧ s.stilled.unstilled = s.unstilled := by
  unfold State.stilled clearCounts; dsimp only; split
  · exact ⟨rfl, rfl⟩
  · unfold checkLoad; split <;> exact ⟨rfl, rfl⟩

theorem sectors_checkLoad (s : State) : (checkLoad s).sectors = s.sectors := by unfold checkLoad; split <;> rfl

theorem sector_clearCounts (s : State) (g : Sector) :
    (clearCounts s).sector g = { s.sector g with pace := { (s.sector g).pace with count := 0 } } := by
  unfold clearCounts; dsimp only; split
  · exact sector_mapSectors s _ g
  · rw [State.sector, sectors_checkLoad]; exact sector_mapSectors s _ g

theorem sector_stilled (s : State) (g : Sector) :
    s.stilled.sector g = { s.sector g with pace := { (s.sector g).pace with running := false, counter := 0, count := 0 } } := by
  rw [State.stilled, sector_clearCounts, stopCounters, sector_mapSectors]; rfl

/-- The entry to HOLD keeps the demands of the creep set and no others, and raises those of R77. -/
theorem enterHold_eq (s : State) : enterHold s =
    { raiseDemands { s.stilled with creepList := s.stilled.creepList.filter fun e => s.stilled.creepSet.contains e.sector } with
      passDue := true } := rfl

/-- What the entry to HOLD and the pass after it leave: the mode, the pacing unit still, the demands of the creep set (R161). -/
structure HoldEntered (s t : State) : Prop where
  mode : t.mode = .hold
  beforeHalt : t.beforeHalt = s.beforeHalt
  creepSet : t.creepSet = s.creepSet
  pace : ∀ g, (t.sector g).pace = { (s.sector g).pace with running := false, counter := 0, count := 0 }
  held : ∀ g, (t.sector g).held = (s.sector g).held
  demands : DemandsJoin (s.creepList.filter fun e => decide (e.sector ∈ s.creepSet)) (· ∈ s.creepSet) s t
  settings : t.settings = s.settings
  feed : t.feed = s.feed
  tables : t.tables = s.tables
  supply : t.supply = s.supply

/-- It is all the same which bytes the ports of s and t hold. -/
theorem HoldEntered.setPorts {s t : State} {p q : PortId} {x y : Port} (h : HoldEntered (s.setPort p x) t) : HoldEntered s (t.setPort q y) := by
  obtain ⟨h1, h2, h3, h4, h5, h6, h7, h8, h9, h10⟩ := h
  cases p <;> cases q <;> exact ⟨h1, h2, h3, h4, h5, h6, h7, h8, h9, h10⟩

theorem HoldEntered.finish_enterHold (s : State) : HoldEntered s (finish (enterHold s)) := by
  obtain ⟨hmode, hframe⟩ := stilled_frame s
  simp only [State.unstilled, Prod.mk.injEq] at hframe
  obtain ⟨hbefore, hset, hlist, hsettings, hfeed, htables, hsupply⟩ := hframe
  have hsec := sector_stilled s
  rw [enterHold_eq]
  generalize s.stilled = u at *
  obtain ⟨v, hv⟩ : ∃ v : State, v = { u with creepList := u.creepList.filter fun e => u.creepSet.contains e.sector } := ⟨_, rfl⟩
  have huv : Kept u v := by rw [hv]; exact ⟨rfl, rfl, rfl, rfl, rfl, rfl, rfl, rfl, rfl, fun _ => rfl, fun _ => rfl⟩
  have hvmode : v.mode = .hold := by rw [hv]; exact hmode
  have hvlist : v.creepList = s.creepList.filter fun e => decide (e.sector ∈ s.creepSet) := by
    rw [hv, ← hlist, ← hset]; simp only [List.contains_eq_mem]
  have hdwells : Dwells s v := by
    rw [hv]
    exact ⟨congrArg (·.2.1) hsettings, congrArg (·.2.2.1) hsettings, fun g => congrArg (·.table.enabled) (hsec g),
      fun g => congrArg (·.layers.stack) (hsec g), fun g => congrArg (·.pace.dwell) (hsec g)⟩
  rw [← hv]
  have hw := ((Demanding.raiseDemands v).passSet true).finish (by rw [hvmode]; decide)
  generalize finish { raiseDemands v with passDue := true } = w at *
  have hkept := huv.trans hw.toKept
  refine ⟨hw.mode.trans hvmode, hkept.beforeHalt.trans hbefore, hkept.creepSet.trans hset, fun g => by rw [hkept.pace, hsec],
    fun g => by rw [hkept.held, hsec]; rfl, ?_, hkept.settings.trans hsettings, hkept.feed.trans hfeed, hkept.tables.trans htables,
    hkept.supply.trans hsupply⟩
  rw [← hvlist]
  exact hw.demandsJoin hdwells hvmode fun g => by rw [huv.creepSet, hset]

/-! ### The entry to STANDBY (R159) -/

/-- Every trim request is NONE in STANDBY (R149, R159). -/
theorem request_enterStandby (s : State) (g : Sector) : ((enterStandby s).sector g).trim.request = .none := by
  rw [enterStandby, dropTrimRequests, sector_mapSectors]

/-- With no group in flight the pass after the entry to STANDBY finds nothing to serve. -/
theorem finish_enterStandby {s : State} (h : s.anyInFlight = false) : finish (enterStandby s) = { enterStandby s with passDue := false } := by
  have hflight : (enterStandby s).anyInFlight = s.anyInFlight := by
    simp only [State.anyInFlight, State.groupState, (Aside.enterStandby s).group]
  exact finish_idle (.inr rfl) (hflight.trans h)

/-- What the entry to STANDBY with no group in flight leaves: the creep list empty, no trim requested, no survey stroke asked for (R113, R149, R159). -/
structure Parked (s t : State) : Prop where
  mode : t.mode = .standby
  beforeHalt : t.beforeHalt = s.beforeHalt
  creepList : t.creepList = []
  surveyReq : t.surveyReq = none
  sector : ∀ g, (t.sector g).trim.request = .none ∧ (t.sector g).held = (s.sector g).held ∧ (t.sector g).group = (s.sector g).group
    ∧ (t.sector g).pace = (s.sector g).pace
  settings : t.settings = s.settings
  feed : t.feed = s.feed
  tables : t.tables = s.tables
  supply : t.supply = s.supply

/-- It is all the same which bytes the ports of s and t hold. -/
theorem Parked.setPorts {s t : State} {p q : PortId} {x y : Port} (h : Parked (s.setPort p x) t) : Parked s (t.setPort q y) := by
  obtain ⟨h1, h2, h3, h4, h5, h6, h7, h8, h9⟩ := h
  cases p <;> cases q <;> exact ⟨h1, h2, h3, h4, h5, h6, h7, h8, h9⟩

theorem Parked.finish_enterStandby {s : State} (h : s.anyInFlight = false) : Parked s (finish (enterStandby s)) := by
  have ha := Aside.enterStandby s
  rw [Machine.finish_enterStandby h]
  exact ⟨rfl, ha.beforeHalt, rfl, rfl, fun g => ⟨request_enterStandby s g, ha.held g, ha.group g, ha.pace g⟩, ha.settings, ha.feed,
    ha.tables, ha.supply⟩

/-! ### HOLD and PARK -/

/-- A mode command that changes nothing: its answer is sent (R157). -/
theorem arrive_modeReply {k : ReqKind} {r : Request} {s : State} {st : Status} {m : DeckMode} (hm : s.mode = m) (h : Rest (roleOf k) s)
    (hp : parsePayload k [] = some r) (hs : serveRequest r (toHunting (roleOf k) s) = modeReply st (toHunting (roleOf k) s)) :
    arrive (roleOf k) k [] s = answer (roleOf k) k ⟨st, [m.code] ++ beforeHaltB s⟩ s := by
  subst hm
  refine arrive_serves h hp rfl (hs.trans ?_)
  rw [modeReply, beforeHaltB, toHunting, setPort_mode, setPort_beforeHalt]
  rfl

/-- Settles O19: HOLD is the entry to HOLD, PARK with no group in flight the entry to STANDBY; the other rows are answers alone. -/
theorem holdAndPark : Obligations.HoldAndPark := by
  intro s hr
  obtain ⟨u, hu⟩ : ∃ u, u = toHunting .console s := ⟨_, rfl⟩
  have hmode : u.mode = s.mode := by rw [hu]; rfl
  have hflight : u.anyInFlight = s.anyInFlight := by rw [hu]; rfl
  have hhold : serveRequest .hold u = serveHold u := rfl
  have hpark : serveRequest .park u = servePark u := rfl
  refine ⟨fun hm => ?_, fun hm => ?_, fun hm hf => ?_, fun hm hf => ?_, fun hm => ?_⟩
  · have hh := HoldEntered.finish_enterHold u
    have hports : (finish (enterHold u)).ports = u.ports := (Kept.finish _).ports.trans (Repaced.enterHold u).ports
    rw [serveHold, hmode, hm, modeReply, beforeHaltB, hh.mode, hh.beforeHalt] at hhold
    generalize finish (enterHold u) = w at *
    subst hu
    obtain ⟨x, harr, hans⟩ := arrive_setPort (p := .console) (k := .hold) (d := []) rfl hr rfl hhold hports
    have ht := hh.setPorts (q := .console) (y := x)
    exact ⟨_, congrArg Host.Outcome.next harr, hans, ht.mode, ht.beforeHalt, ht.creepSet, fun g => ⟨ht.pace g, ht.held g⟩, ht.demands,
      ht.settings, ht.feed, ht.tables, ht.supply⟩
  · rw [serveHold, hmode, hm, hu] at hhold
    exact congrArg Host.Outcome.next (arrive_modeReply (k := .hold) hm hr rfl hhold)
  · rw [hf] at hflight
    have hh := Parked.finish_enterStandby hflight
    have hports : (finish (enterStandby u)).ports = u.ports := (Kept.finish _).ports.trans (Aside.enterStandby u).ports
    rw [servePark, hmode, hm] at hpark
    simp only [hflight, modeReply, beforeHaltB, hh.mode, hh.beforeHalt, Bool.false_eq_true, if_false] at hpark
    generalize finish (enterStandby u) = w at *
    subst hu
    obtain ⟨x, harr, hans⟩ := arrive_setPort (p := .console) (k := .park) (d := []) rfl hr rfl hpark hports
    have ht := hh.setPorts (q := .console) (y := x)
    exact ⟨_, congrArg Host.Outcome.next harr, hans, ht.mode, ht.beforeHalt, ht.creepList, ht.surveyReq, ht.sector, ht.settings, ht.feed,
      ht.tables, ht.supply⟩
  · rw [servePark, hmode, hm] at hpark
    simp only [hflight.trans hf, if_true] at hpark
    rw [hu] at hpark
    exact congrArg Host.Outcome.next (arrive_modeReply (k := .park) hm hr rfl hpark)
  · rw [servePark, hmode, hm, hu] at hpark
    exact congrArg Host.Outcome.next (arrive_modeReply (k := .park) hm hr rfl hpark)

end Sys2Proof.Machine
end

