-- ==== Sys2Proof/Proofs/SetRate.lean ====
section
/-! SUPPORT. What a change at each sector in turn leaves in every sector; SET RATE (SetRate). -/

namespace Sys2Proof.Machine

/-! ### Each sector's own change -/

/-- A sector's records after each sector of a list has had a change that reads its own records and the settings alone. -/
theorem sector_forEach_own {gs : List Sector} (hn : gs.Nodup) {f : Sector → State → State} {own : Sector → SectorState} {s : State}
    (settings : ∀ g t, (f g t).settings = t.settings) (others : ∀ g h t, h ≠ g → (f g t).sector h = t.sector h)
    (self : ∀ g ∈ gs, ∀ t, t.settings = s.settings → t.sector g = s.sector g → (f g t).sector g = own g) (h : Sector) :
    (forEach gs f s).sector h = if h ∈ gs then own h else s.sector h := by
  induction gs generalizing s with
  | nil => simp
  | cons g gs ih =>
    obtain ⟨hg, hn⟩ := List.nodup_cons.1 hn
    have hrest : ∀ k ∈ gs, ∀ t, t.settings = (f g s).settings → t.sector k = (f g s).sector k → (f k t).sector k = own k := by
      intro k hk t ht hs
      have hne : k ≠ g := fun e => hg (e ▸ hk)
      exact self k (List.mem_cons_of_mem g hk) t (ht.trans (settings g s)) (hs.trans (others g k s hne))
    rw [forEach_cons, ih hn hrest]
    by_cases hh : h ∈ gs
    · simp [hh]
    · by_cases e : h = g
      · subst e
        simp [hh, self h List.mem_cons_self s rfl rfl]
      · simp [hh, e, others g h s e]

/-- The interval is a figure of the settings and of the group's own records (R67, R68). -/
theorem interval_congr {s t : State} {g : Sector} (hs : t.settings = s.settings) (hg : t.sector g = s.sector g) :
    t.interval g = s.interval g := by
  simp only [State.settings, Prod.mk.injEq] at hs
  obtain ⟨-, -, hdeck, -, -, -, hrate, -⟩ := hs
  unfold State.interval State.inBand State.established State.elev State.len
  rw [hdeck, hrate, hg]

/-! ### SET RATE (R72, R178) -/

/-- A group whose running counter is cut to an interval (R72). -/
def SectorState.cut (n : Nat) (x : SectorState) : SectorState :=
  { x with pace := { x.pace with counter := if x.pace.running = true ∧ n < x.pace.counter then n else x.pace.counter } }

theorem cutCounter_eq (g : Sector) (s : State) : cutCounter g s = s.modSector g (.cut (s.interval g)) := by
  unfold cutCounter
  rw [modPace_eq]
  refine congrArg (s.modSector g) (funext fun x => ?_)
  unfold SectorState.cut
  split <;> rfl

/-- A new rate, every running counter cut to its group's new interval. -/
theorem sector_cutCounters (s : State) (g : Sector) : (forEach allSectors cutCounter s).sector g = (s.sector g).cut (s.interval g) := by
  rw [sector_forEach_own nodup_allSectors (own := fun g => (s.sector g).cut (s.interval g)), if_pos (mem_allSectors g)]
  · intro g t; rw [cutCounter_eq]; rfl
  · intro g h t hne; rw [cutCounter_eq, sector_modSector_ne _ _ hne]
  · intro g _ t ht hs; rw [cutCounter_eq, sector_modSector_self, interval_congr ht hs, hs]

theorem cutCounters_eq (gs : List Sector) (s : State) : forEach gs cutCounter s = { s with sectors := (forEach gs cutCounter s).sectors } :=
  forEach_keeps (P := fun t => t = { s with sectors := t.sectors }) gs cutCounter
    (fun g t ht => by rw [cutCounter_eq, ht]; rfl) s rfl

/-- Everything a rate taken can do. -/
theorem takeRate_eq (asked r : Nat) (s : State) : takeRate asked r s = { s with rate := r, sectors := (takeRate asked r s).sectors } := by
  unfold takeRate; split
  · next h => rw [h.2]
  · exact cutCounters_eq allSectors { s with rate := r }

/-- A rate in force that is repeated cuts nothing (log 26). -/
theorem sector_takeRate (asked r : Nat) (s : State) (g : Sector) : (takeRate asked r s).sector g =
    if asked = r ∧ r = s.rate then s.sector g else (s.sector g).cut (State.interval { s with rate := r } g) := by
  unfold takeRate; split
  · rfl
  · exact sector_cutCounters { s with rate := r } g

theorem SectorState.cut_of_stopped {x : SectorState} (h : x.pace.running = false) (n : Nat) : x.cut n = x := by
  rw [SectorState.cut, if_neg (by simp [h])]

/-- What an alert entered writes depends on the alert list and the minute alone. -/
theorem enterAlert_congr (k : AlertKind) (g : Option Sector) {s t : State} (ha : t.alerts = s.alerts) (hf : t.alertFull = s.alertFull)
    (hm : t.minute = s.minute) :
    enterAlert k g t = { t with alerts := (enterAlert k g s).alerts, alertFull := (enterAlert k g s).alertFull } := by
  unfold enterAlert
  rw [ha, hm]
  split
  · simp [hf]
  · split
    · simp [hf]
    · simp

/-- s at a rate and with the sectors it leaves, CLAMPED_SETTING entered where the request was limited (R178). -/
def State.atRate (s : State) (limited : Bool) (r : Nat) (x : Vector SectorState 24) : State :=
  { (if limited then enterAlert .clampedSetting none s else s) with rate := r, sectors := x }

theorem atRate_ports (s : State) (c : Bool) (r : Nat) (x : Vector SectorState 24) : (s.atRate c r x).ports = s.ports := by
  cases c with
  | false => rfl
  | true => exact (Kept.enterAlert .clampedSetting none s).ports

theorem noteClamped_takeRate (c : Bool) (asked r : Nat) (p : PortId) (s : State) :
    noteClamped c none (takeRate asked r (toHunting p s)) = toHunting p (s.atRate c r (takeRate asked r (toHunting p s)).sectors) := by
  have ht := takeRate_eq asked r (toHunting p s)
  generalize takeRate asked r (toHunting p s) = u at ht ⊢
  cases c with
  | false => rw [noteClamped, if_neg Bool.false_ne_true, ht]; cases p <;> rfl
  | true =>
    rw [noteClamped, State.atRate, if_pos rfl, if_pos rfl, enterAlert_eq .clampedSetting none s, ht]
    cases p <;> exact enterAlert_congr _ _ rfl rfl rfl

theorem interval_eq {s : State} {g : Sector} {l : Nat} (h : (s.sector g).table.len = some l) : s.interval g =
    max 5 (min 65535 (if s.established g = true ∧ s.deck.band ≠ 1023 ∧ (s.deck.band : Int) * 10000 ≤ s.elev g
      then 2 * ((720 * l + s.rate) / (2 * s.rate)) else (720 * l + s.rate) / (2 * s.rate))) := by
  have hlen : s.len g = l := by rw [State.len, h]; rfl
  have hband : s.inBand g = true ↔ s.established g = true ∧ s.deck.band ≠ 1023 ∧ (s.deck.band : Int) * 10000 ≤ s.elev g := by
    simp [State.inBand, and_assoc]
  simp only [State.interval, hlen, clampNat, hband]

/-- Settles O11: the rate taken cuts each group's own counter; an alert apart that is all. -/
theorem setRate : Obligations.SetRate := by
  intro s v hr hv rate limited repeats
  have hp : parsePayload .setRate (be16 v) = some (.setRate v) := congrArg (fun n => some (Request.setRate n)) (u16_be16 hv)
  have hecho : figB rate = be16 rate := by rw [figB, Nat.min_eq_left (by omega)]
  have hserve : serveRequest (.setRate v) (toHunting .console s) =
      (noteClamped limited none (takeRate v rate (toHunting .console s)), ⟨okOr limited, figB rate⟩) := rfl
  have hsec := sector_takeRate v rate (toHunting .console s)
  have hsec : ∀ g, (takeRate v rate (toHunting .console s)).sector g = if v = rate ∧ rate = s.rate then s.sector g
      else (s.sector g).cut (State.interval { s with rate := rate } g) := sector_takeRate v rate (toHunting .console s)
  have hkeep : v = rate ∧ rate = s.rate → (takeRate v rate (toHunting .console s)).sectors = s.sectors := fun h => by
    rw [takeRate, if_pos (show v = rate ∧ rate = (toHunting .console s).rate from h)]; rfl
  rw [noteClamped_takeRate, hecho] at hserve
  generalize takeRate v rate (toHunting .console s) = u at *
  have harr := arrive_serves (k := .setRate) hr hp (atRate_ports s limited rate u.sectors) hserve
  have hrep : repeats ↔ v = rate ∧ rate = s.rate := by simp only [repeats]; omega
  refine ⟨_, congrArg Host.Outcome.next harr, rfl, fun h => hkeep (hrep.1 h), fun g l hl => ?_, fun g hg => ?_⟩
  · refine (hsec g).trans ?_
    rw [interval_eq (s := { s with rate := rate }) hl]
    by_cases h : v = rate ∧ rate = s.rate
    · rw [if_pos h, if_neg fun k => k.1 (hrep.2 h)]
    · rw [if_neg h]
      simp only [hrep, h, not_false_eq_true, true_and]
      rfl
  · refine (hsec g).trans ?_
    rw [SectorState.cut_of_stopped hg, ite_self]

end Sys2Proof.Machine
end

