-- ==== Sys2Proof/Proofs/PaceExpiry.lean ====
section
/-! SUPPORT. The pace counters that have reached 0, each group's own (PaceExpiry). -/

namespace Sys2Proof.Machine

/-! ### One pace counter (R70) -/

/-- A sector after its pace counter has been looked at, n being its group's interval (R70). -/
def SectorState.paceTaken (n : Nat) (x : SectorState) : SectorState :=
  if x.pace.running = true ∧ x.pace.counter = 0 then
    if x.pace.count < 2 then { x with pace := { x.pace with counter := n, count := x.pace.count + 1 } }
    else { x with pace := { x.pace with counter := n }, table := { x.table with flags := { x.table.flags with paceSlip := true } } }
  else x

/-- s owing a grant pass (log 7). -/
def State.owing (s : State) : State := { s with passDue := true }

theorem sector_startCounter (g h : Sector) (s : State) : (startCounter g s).sector h =
    if h = g then { s.sector g with pace := { (s.sector g).pace with running := true, counter := s.interval g } } else s.sector h := by
  rw [startCounter, modPace_eq, sector_modSector]

theorem pace_paceTaken (n : Nat) (x : SectorState) : (x.paceTaken n).pace =
    if x.pace.running = true ∧ x.pace.counter = 0 then
      { x.pace with counter := n, count := if x.pace.count < 2 then x.pace.count + 1 else x.pace.count }
    else x.pace := by
  unfold SectorState.paceTaken; split
  · split <;> rfl
  · rfl

theorem table_paceTaken (n : Nat) (x : SectorState) : (x.paceTaken n).table =
    if (x.pace.running = true ∧ x.pace.counter = 0) ∧ 2 ≤ x.pace.count then { x.table with flags := { x.table.flags with paceSlip := true } }
    else x.table := by
  unfold SectorState.paceTaken; split
  · next hx =>
    split
    · next hc => rw [if_neg fun k => Nat.not_le.2 hc k.2]
    · next hc => rw [if_pos ⟨hx, Nat.not_lt.1 hc⟩]
  · next hx => rw [if_neg fun k => hx k.1]

theorem paceTaken_frame (n : Nat) (x : SectorState) :
    (x.paceTaken n).layers = x.layers ∧ (x.paceTaken n).probe = x.probe ∧ (x.paceTaken n).ticket = x.ticket := by
  unfold SectorState.paceTaken; split
  · split <;> exact ⟨rfl, rfl, rfl⟩
  · exact ⟨rfl, rfl, rfl⟩

theorem paceExpiry_of_waiting {g : Sector} {s : State} (h : ¬((s.sector g).pace.running = true ∧ (s.sector g).pace.counter = 0)) :
    paceExpiry g s = s := by
  simp only [paceExpiry, Bool.and_eq_true, beq_iff_eq, if_neg h]

theorem paceExpiry_of_counted {g : Sector} {s : State} (h : (s.sector g).pace.running = true ∧ (s.sector g).pace.counter = 0)
    (hc : (s.sector g).pace.count < 2) :
    paceExpiry g s = ((startCounter g s).modPace g fun q => { q with count := q.count + 1 }).owing := by
  simp only [paceExpiry, Bool.and_eq_true, beq_iff_eq, if_pos h, if_pos hc, State.owing]

theorem paceExpiry_of_slip {g : Sector} {s : State} (h : (s.sector g).pace.running = true ∧ (s.sector g).pace.counter = 0)
    (hc : ¬(s.sector g).pace.count < 2) :
    paceExpiry g s = enterAlert .paceSlip (some g) ((startCounter g s).modFlags g fun f => { f with paceSlip := true }) := by
  simp only [paceExpiry, Bool.and_eq_true, beq_iff_eq, if_pos h, if_neg hc]

/-- The counter of g is taken by its own records and interval, and no other sector's records change. -/
theorem sector_paceExpiry (g h : Sector) (s : State) :
    (paceExpiry g s).sector h = if h = g then (s.sector g).paceTaken (s.interval g) else s.sector h := by
  unfold SectorState.paceTaken
  by_cases hx : (s.sector g).pace.running = true ∧ (s.sector g).pace.counter = 0
  · rw [if_pos hx]
    by_cases hc : (s.sector g).pace.count < 2
    · have howing : ∀ u : State, u.owing.sector h = u.sector h := fun _ => rfl
      rw [paceExpiry_of_counted hx hc, if_pos hc, howing, modPace_eq, sector_modSector, sector_startCounter, sector_startCounter,
        if_pos rfl, ← hx.1]
      split <;> rfl
    · rw [paceExpiry_of_slip hx hc, if_neg hc, sector_enterAlert, modFlags_eq, sector_modSector, sector_startCounter, sector_startCounter,
        if_pos rfl, ← hx.1]
      split <;> rfl
  · rw [paceExpiry_of_waiting hx, if_neg hx]
    split
    · next e => rw [e]
    · rfl

theorem paceExpiry_frame (g : Sector) (s : State) : (paceExpiry g s).unpaced = s.unpaced := by
  by_cases hx : (s.sector g).pace.running = true ∧ (s.sector g).pace.counter = 0
  · by_cases hc : (s.sector g).pace.count < 2
    · rw [paceExpiry_of_counted hx hc]; rfl
    · rw [paceExpiry_of_slip hx hc, enterAlert_eq]; rfl
  · rw [paceExpiry_of_waiting hx]

theorem Alerted.paceExpiry (g : Sector) (s : State) : Alerted s (paceExpiry g s) := by
  by_cases hx : (s.sector g).pace.running = true ∧ (s.sector g).pace.counter = 0
  · by_cases hc : (s.sector g).pace.count < 2
    · rw [paceExpiry_of_counted hx hc]; exact .of_eq rfl rfl
    · rw [paceExpiry_of_slip hx hc]
      exact Alerted.trans (t := (startCounter g s).modFlags g fun f => { f with paceSlip := true }) (.of_eq rfl rfl) (.enterAlert _ _ _)
  · rw [paceExpiry_of_waiting hx]; exact .refl s

/-! ### Every pace counter -/

theorem sector_paceExpiries {gs : List Sector} (hn : gs.Nodup) (s : State) (h : Sector) : (forEach gs paceExpiry s).sector h =
    if h ∈ gs then (s.sector h).paceTaken (s.interval h) else s.sector h := by
  refine sector_forEach_own hn (own := fun g => (s.sector g).paceTaken (s.interval g)) (fun g t => ?_) (fun g h t hne => ?_)
    (fun g _ t ht hs => ?_) h
  · exact congrArg (·.1) (paceExpiry_frame g t)
  · rw [sector_paceExpiry, if_neg hne]
  · rw [sector_paceExpiry, if_pos rfl, interval_congr ht hs, hs]

/-- The pace counters that have reached 0 are taken, and nothing is due any more (R70). -/
def State.pacesTaken (s : State) : State := forEach allSectors paceExpiry { s with due := {} }

theorem sector_pacesTaken (s : State) (g : Sector) : s.pacesTaken.sector g = (s.sector g).paceTaken (s.interval g) := by
  rw [State.pacesTaken, sector_paceExpiries nodup_allSectors, if_pos (mem_allSectors g)]
  rfl

theorem pacesTaken_frame (s : State) : s.pacesTaken.settings = s.settings ∧ s.pacesTaken.tables = s.tables ∧ s.pacesTaken.feed = s.feed
    ∧ s.pacesTaken.ports = s.ports ∧ s.pacesTaken.supply = s.supply ∧ s.pacesTaken.due = {} := by
  have h : s.pacesTaken.unpaced = State.unpaced { s with due := {} } := forEach_frame State.unpaced allSectors paceExpiry paceExpiry_frame _
  simp only [State.unpaced, Prod.mk.injEq] at h
  obtain ⟨hsettings, htables, hfeed, hports, hsupply, -, -, -, -, -, -, hdue⟩ := h
  exact ⟨hsettings, htables, hfeed, hports, hsupply, hdue⟩

/-- Each counter that reaches 0 with two requests standing has PACE_SLIP entered (R70). -/
theorem entered_pacesTaken {s : State} {g : Sector} (h : (s.sector g).pace.running = true ∧ (s.sector g).pace.counter = 0)
    (hc : 2 ≤ (s.sector g).pace.count) : Entered .paceSlip (some g) s s.pacesTaken := by
  obtain ⟨before, after, hsplit⟩ := List.append_of_mem (mem_allSectors g)
  have hn := nodup_allSectors
  rw [hsplit] at hn
  obtain ⟨hn, -, hdisjoint⟩ := List.nodup_append.1 hn
  have hg : g ∉ before := fun hb => hdisjoint g hb g List.mem_cons_self rfl
  rw [State.pacesTaken, hsplit, forEach_append, forEach_cons]
  obtain ⟨u, hu⟩ : ∃ u, u = forEach before paceExpiry { s with due := {} } := ⟨_, rfl⟩
  have hsec : u.sector g = s.sector g := by rw [hu, sector_paceExpiries hn, if_neg hg]; rfl
  have hbefore : Alerted s u := hu ▸ Alerted.trans (t := { s with due := {} }) (.of_eq rfl rfl) (.forEach .paceExpiry { s with due := {} })
  have hslip : Alerted s ((startCounter g u).modFlags g fun f => { f with paceSlip := true }) := hbefore.trans (.of_eq rfl rfl)
  rw [← hsec] at h hc
  rw [← hu, paceExpiry_of_slip h (Nat.not_lt.2 hc)]
  exact (entered_of_alerted hslip _ _).later (.forEach .paceExpiry _)

theorem exec_paceCounterExpiry {s : State} (h : s.due = { pace := true }) : exec .paceCounterExpiry s = .next (finish s.pacesTaken) := by
  have htake : takePace s = s.pacesTaken := by rw [takePace, h, State.pacesTaken]; rfl
  obtain ⟨-, -, -, -, -, hdue⟩ := pacesTaken_frame s
  exact congrArg Host.Outcome.next (by rw [htake, finishDue_of_due hdue])

end Sys2Proof.Machine

namespace Sys2Proof
open Machine

/-- Settles O46: each group's own counter is taken, and the grant pass after it leaves pace, flags and layers alone. -/
theorem paceExpiry : Obligations.PaceExpiry := by
  intro s hdue _
  obtain ⟨hsettings, htables, hfeed, hports, hsupply, hnone⟩ := pacesTaken_frame s
  have hkept := Kept.finish s.pacesTaken
  refine ⟨_, exec_paceCounterExpiry hdue, hkept.due.trans hnone, fun g => ?_, hkept.settings.trans hsettings, hkept.feed.trans hfeed,
    hkept.tables.trans htables, hkept.supply.trans hsupply, hkept.ports.trans hports⟩
  have hheld := hkept.held g
  simp only [SectorState.held, Prod.mk.injEq] at hheld
  obtain ⟨htable, hlayers, hprobe, hticket⟩ := hheld
  rw [hkept.pace, htable, hlayers, hprobe, hticket, sector_pacesTaken]
  exact ⟨pace_paceTaken _ _, table_paceTaken _ _, fun hx hc => (entered_pacesTaken hx hc).later (.finish _), paceTaken_frame _ _⟩

end Sys2Proof
end

