-- ==== Sys2Proof/Proofs/Thresholds.lean ====
section
/-! SUPPORT. The dwell limit, twice the dwell limit and the supply lapse time are reached (ThresholdsReached). -/

namespace Sys2Proof.Machine

/-! ### DWELL_LIMIT_REACHED (R77) -/

/-- In no mode does the pass after demands change them: in SURVEY none are raised, and no pass is owed. -/
theorem Demanding.finish_raiseDemands {s : State} (h : s.passDue = false) : Demanding s (Machine.finish (Machine.raiseDemands s)) := by
  by_cases hm : s.mode = .survey
  · have hnone : s.joining = [] := List.eq_nil_iff_forall_not_mem.2 fun g hg => by
      obtain ⟨-, -, -, -, hmode⟩ := wantsDemand_iff.1 (mem_joining.1 hg)
      simp [hm] at hmode
    have hpass : (Machine.raiseDemands s).passDue = false := by rw [raiseDemands_eq, hnone, h]; rfl
    rw [finish_of_not_due hpass]
    exact .raiseDemands s
  · exact (Demanding.raiseDemands s).finish hm

theorem exec_dwellLimitReached {s : State} (h : s.due = { dwell := true }) :
    exec .dwellLimitReached s = .next (finish (raiseDemands { s with due := {} })) := by
  have htake : takeDwell s = raiseDemands { s with due := {} } := by rw [takeDwell, h]; rfl
  have hdue : (raiseDemands { s with due := {} }).due = {} := by rw [raiseDemands_eq]
  exact congrArg Host.Outcome.next (by rw [htake, finishDue_of_due hdue])

/-! ### BOND_RISK (R79) -/

/-- A sector with BOND_RISK set, or as it was (R14, R79). -/
def SectorState.bonded (b : Bool) (x : SectorState) : SectorState :=
  { x with table := { x.table with flags := { x.table.flags with bondRisk := b || x.table.flags.bondRisk } } }

theorem raiseBond_eq (g : Sector) (s : State) : raiseBond g s = enterAlert .bondRisk (some g) (s.modSector g (.bonded true)) := rfl

theorem sector_raiseBonds (gs : List Sector) (s : State) (h : Sector) :
    (forEach gs raiseBond s).sector h = (s.sector h).bonded (gs.contains h) := by
  induction gs generalizing s with
  | nil => simp [SectorState.bonded]
  | cons g gs ih =>
    rw [forEach_cons, ih, raiseBond_eq, sector_enterAlert, sector_modSector, List.contains_cons]
    by_cases e : h = g
    · subst e; simp [SectorState.bonded]
    · rw [if_neg e, beq_false_of_ne e, Bool.false_or]

theorem raiseBonds_eq (gs : List Sector) (s : State) : forEach gs raiseBond s =
    { s with
      sectors := (forEach gs raiseBond s).sectors, alerts := (forEach gs raiseBond s).alerts
      alertFull := (forEach gs raiseBond s).alertFull } :=
  forEach_keeps (P := fun t => t = { s with sectors := t.sectors, alerts := t.alerts, alertFull := t.alertFull }) gs raiseBond
    (fun g t ht => by rw [raiseBond_eq, enterAlert_eq, ht]; rfl) s rfl

theorem Alerted.raiseBond (g : Sector) (s : State) : Alerted s (raiseBond g s) := by
  rw [raiseBond_eq]
  exact Alerted.trans (t := s.modSector g (.bonded true)) (.of_eq rfl rfl) (.enterAlert _ _ _)

theorem entered_raiseBonds {gs : List Sector} {g : Sector} (h : g ∈ gs) (s : State) :
    Entered .bondRisk (some g) s (forEach gs raiseBond s) := by
  obtain ⟨before, after, rfl⟩ := List.append_of_mem h
  rw [forEach_append, forEach_cons, raiseBond_eq]
  have hbefore : Alerted s ((forEach before raiseBond s).modSector g (.bonded true)) :=
    (Alerted.forEach .raiseBond s).trans (.of_eq rfl rfl)
  exact (entered_of_alerted hbefore _ _).later (.forEach .raiseBond _)

theorem exec_bondRisk {s : State} {gs : List Sector} (h : s.due = { bond := gs }) (hp : s.passDue = false) :
    exec .bondRisk s = .next (forEach gs raiseBond { s with due := {} }) := by
  have htake : takeBond s = forEach gs raiseBond { s with due := {} } := by rw [takeBond, h]
  have hpass : (forEach gs raiseBond { s with due := {} }).passDue = false := by rw [raiseBonds_eq]; exact hp
  exact congrArg Host.Outcome.next (by rw [htake, finishDue_of_not_due hpass])

/-! ### SUPPLY_LAPSE (R107, R108) -/

/-- A sector whose group is STALLED if it was PRESSURIZING (R97). -/
def SectorState.stalled (x : SectorState) : SectorState :=
  { x with group := if x.group.state = .pressurizing then { x.group with state := .stalled, timer := none } else x.group }

theorem SectorState.stalled_of_other {x : SectorState} (h : x.group.state ≠ .pressurizing) : x.stalled = x := by
  rw [SectorState.stalled, if_neg h]

theorem sector_stallGroup (g h : Sector) (s : State) :
    (stallGroup g s).sector h = if h = g then (s.sector g).stalled else s.sector h := by
  unfold stallGroup; split
  · next hg =>
    have hg : (s.sector g).group.state = .pressurizing := hg
    rw [modGroup_eq, sector_modSector, SectorState.stalled, if_pos hg]
  · next hg =>
    rw [SectorState.stalled_of_other hg]; split
    · next e => rw [e]
    · rfl

theorem stallGroup_frame (g : Sector) (s : State) : stallGroup g s = { s with sectors := (stallGroup g s).sectors } := by
  unfold stallGroup; split <;> rfl

theorem stallTo_frame (k : Nat) (s : State) : stallTo k s = { s with sectors := (stallTo k s).sectors } :=
  forEach_keeps (P := fun t => t = { s with sectors := t.sectors }) _ stallGroup (fun g t ht => by rw [stallGroup_frame, ht]) s rfl

/-- With every PRESSURIZING group in the pressure order, capacity 0 takes them all (R108, R109). -/
theorem mem_toStall_zero {s : State} (hn : s.pressureOrder.Nodup) (hmem : ∀ g, s.groupState g = .pressurizing → g ∈ s.pressureOrder)
    (g : Sector) : g ∈ s.toStall 0 ↔ s.groupState g = .pressurizing := by
  have hperm : (s.pressureOrder.filter fun g => s.groupState g == .pressurizing).Perm
      (allSectors.filter fun g => s.groupState g == .pressurizing) := by
    refine (List.perm_ext_iff_of_nodup (hn.filter _) (nodup_allSectors.filter _)).2 fun k => ?_
    simp only [List.mem_filter, beq_iff_eq, mem_allSectors, true_and, and_iff_right_iff_imp]
    exact hmem k
  rw [State.toStall, State.numPressurizing, Nat.sub_zero, ← hperm.length_eq, ← List.length_reverse, List.take_length, List.mem_reverse,
    hperm.mem_iff, List.mem_filter, and_iff_right (mem_allSectors g), beq_iff_eq]

/-- Capacity 0 stalls every PRESSURIZING group (R108). -/
theorem sector_stallTo_zero {s : State} (hn : s.pressureOrder.Nodup) (hmem : ∀ g, s.groupState g = .pressurizing → g ∈ s.pressureOrder)
    (g : Sector) : (stallTo 0 s).sector g = (s.sector g).stalled := by
  have hnodup : (s.toStall 0).Nodup := (List.nodup_reverse.2 (hn.filter _)).sublist (List.take_sublist _ _)
  rw [stallTo, sector_forEach_own hnodup (own := fun g => (s.sector g).stalled)]
  · split
    · rfl
    · next hg => exact (SectorState.stalled_of_other fun k => hg ((mem_toStall_zero hn hmem g).2 k)).symm
  · intro g t; rw [stallGroup_frame]; rfl
  · intro g h t hne; rw [sector_stallGroup, if_neg hne]
  · intro g _ t _ hs; rw [sector_stallGroup, if_pos rfl, hs]

/-- The supply LAPSED, its counter stopped at its value (R107). -/
def State.lapsed (s : State) : State := { s with due := {}, supply := { s.supply with state := .lapsed, lapseRunning := false } }

theorem exec_supplyLapse {s : State} (h : s.due = { lapse := true }) (hp : s.passDue = false) :
    exec .supplyLapse s = .next (enterAlert .supplyLapse none (stallTo 0 s.lapsed)) := by
  have htake : takeLapse s = enterAlert .supplyLapse none (stallTo 0 s.lapsed) := by rw [takeLapse, h]; rfl
  have hpass : (enterAlert .supplyLapse none (stallTo 0 s.lapsed)).passDue = false := by rw [enterAlert_eq, stallTo_frame]; exact hp
  exact congrArg Host.Outcome.next (by rw [htake, finishDue_of_not_due hpass])

theorem numPressurizing_eq_zero {s : State} (h : ∀ g, s.groupState g ≠ .pressurizing) : s.numPressurizing = 0 := by
  rw [State.numPressurizing, List.length_eq_zero_iff, List.filter_eq_nil_iff]
  exact fun g _ => by simpa using h g

theorem SectorState.stalled_state (x : SectorState) : x.stalled.group.state ≠ .pressurizing := by
  by_cases h : x.group.state = .pressurizing
  · rw [SectorState.stalled, if_pos h]; exact nofun
  · rwa [SectorState.stalled_of_other h]

/-- Settles O47: demands raised and kept by the pass, BOND_RISK on each sector marked due, and every PRESSURIZING group stalled. -/
theorem thresholdsReached : Obligations.ThresholdsReached := by
  refine ⟨fun s hdue hpass => ?_, fun s gs _ hdue hpass => ?_, fun s hdue hpass hlaw => ?_⟩
  · have hw := Demanding.finish_raiseDemands (s := { s with due := {} }) hpass
    obtain ⟨new, hlist, hmem, hminute, horder⟩ := demandsJoin_raiseDemands { s with due := {} }
    refine ⟨_, new, exec_dwellLimitReached hdue, hw.due, (congrArg Prod.snd hw.demands).trans hlist, fun g => ?_, hminute, horder,
      fun g => ⟨hw.held g, hw.pace g⟩, hw.mode, hw.settings, hw.feed, hw.tables, hw.supply⟩
    rw [demanded_eq_false_iff]
    exact hmem g
  · refine ⟨_, exec_bondRisk hdue hpass, fun g => ?_, fun g hg => (entered_raiseBonds hg { s with due := {} }).congr rfl rfl rfl, raiseBonds_eq gs _⟩
    rw [sector_raiseBonds, SectorState.bonded, Bool.or_comm]
    rfl
  · obtain ⟨hn, horder, -⟩ := hlaw
    have hsec : ∀ g, (stallTo 0 s.lapsed).sector g = (s.sector g).stalled :=
      sector_stallTo_zero (s := s.lapsed) hn fun g hg => (horder g).2 (.inl hg)
    have hframe := stallTo_frame 0 s.lapsed
    refine ⟨_, exec_supplyLapse hdue hpass, ?_⟩
    generalize (stallTo 0 s.lapsed).sectors = x at hframe
    rw [hframe] at hsec ⊢
    have hent := entered_of_alerted (s := s) (t := { s.lapsed with sectors := x }) (.of_eq rfl rfl) .supplyLapse none
    have hnone := numPressurizing_eq_zero (s := { s.lapsed with sectors := x }) fun g => by
      rw [State.groupState, hsec]; exact (s.sector g).stalled_state
    rw [enterAlert_eq] at hent ⊢
    exact ⟨rfl, rfl, rfl, hnone, hent, hsec, rfl, rfl, rfl, rfl, rfl, rfl, rfl⟩

end Sys2Proof.Machine
end

