-- ==== Sys2Proof/Proofs/Services.lean ====
section
/-! SUPPORT. The valves (ValvesFollowState). What one service of a grant pass can be, said once, and what a whole pass does: the fields a grant writes, the groups it leaves alone, a pass that can only resume. -/

namespace Sys2Proof.Machine

/-- Settles O36, by the six group states. -/
theorem valvesFollowState : Obligations.ValvesFollowState := by
  intro st
  cases st <;> simp [GroupState.extendValve, GroupState.returnValve]

/-! ### One service (R111 to R115) -/

/-- s with the active table, the scan pointer and the pending load set. -/
def State.tabled (s : State) (a : Vector (Option Sector) 32) (j : Nat) (l : Bool) : State :=
  { s with active := a, scanPtr := j, loadPending := l }

/-- What one service can make of s (R111): nothing but a table load in the scan, a resume, or a grant of one of the three kinds, or the survey request withdrawn. -/
inductive Serves (s : State) : State → Prop
  | none (a : Vector (Option Sector) 32) (j : Nat) (l : Bool) (h : s.mode = .climb) : Serves s (s.tabled a j l)
  | idle : Serves s s
  | resume (g : Sector) (h : g ∈ s.stalledList) : Serves s (resumeGroup g s)
  | survey (g : Sector) (hm : s.mode = .survey) (hq : s.surveyReq = some g) (he : s.surveyEligible g = true) :
      Serves s (grant g .survey { s with surveyReq := .none })
  | blocked (g : Sector) (hm : s.mode = .survey) (hq : s.surveyReq = some g) : Serves s (visitBlocked g { s with surveyReq := .none })
  | creep (g : Sector) (hm : s.mode = .climb ∨ s.mode = .hold) (he : s.creepEligible g = true) : Serves s (grant g .creep s)
  | paced (g : Sector) (a a' : Vector (Option Sector) 32) (j j' : Nat) (l l' : Bool) (hm : s.mode = .climb)
      (he : s.pacedEligible g = true) : Serves s ((grant g .paced (s.tabled a j l)).tabled a' j' l')

theorem passBoundary_eq (s : State) : ∃ a j l, passBoundary s = s.tabled a j l := by
  unfold passBoundary; split
  · exact ⟨_, _, _, rfl⟩
  · exact ⟨s.active, s.scanPtr, s.loadPending, rfl⟩

/-- The scan from a state whose tables are s's or loaded. -/
theorem service_pacedScan {s : State} (hm : s.mode = .climb) (n i : Nat) (a : Vector (Option Sector) 32) (j : Nat) (l : Bool) :
    Serves s (pacedScan n i (s.tabled a j l)).1 := by
  induction n generalizing i a j l with
  | zero => exact .none a j l hm
  | succ n ih =>
    unfold pacedScan; split
    · next g hg =>
      have he : s.pacedEligible g = true := (Option.filter_eq_some_iff.1 hg).2
      dsimp only; split
      · obtain ⟨a', j', l', hb⟩ := passBoundary_eq { grant g .paced (s.tabled a j l) with scanPtr := (i + 1) % 32 }
        rw [hb]
        exact .paced g a a' j j' l l' hm he
      · exact .paced g a _ j _ l _ hm he
    · split
      · exact .none a j l hm
      · split
        · obtain ⟨a', j', l', hb⟩ := passBoundary_eq (s.tabled a j l)
          rw [hb]
          exact ih 0 a' j' l'
        · exact ih _ a j l

/-- Every service is one of these. -/
theorem service_serveOne (s : State) : Serves s (serveOne s).1 := by
  unfold serveOne; split
  · next g hg =>
    split at hg
    · exact .resume g (List.mem_of_mem_head? hg)
    · cases hg
  · split
    · next g hg =>
      split at hg
      · next hm =>
        dsimp only [serveSurvey]; split
        · next he => exact .survey g hm hg he
        · exact .blocked g hm hg
      · cases hg
    · split
      · next g hg =>
        split at hg
        · next hc =>
          refine .creep g ?_ (List.find?_some hg)
          cases hm : s.mode <;> simp [hm, DeckMode.permitsCreep] at hc ⊢
        · cases hg
      · split
        · next hm => exact service_pacedScan hm 32 s.scanPtr s.active s.scanPtr s.loadPending
        · exact .idle

/-- What every service keeps while capacity is free, the end of an event keeps, but for the mark that a pass is owed (R110, R111). -/
theorem finish_keeps {P : State → Prop} (service : ∀ {s t}, P s → s.canServe = true → Serves s t → P t)
    (pass : ∀ s, P s → P { s with passDue := false }) {s : State} (h : P s) : P (finish s) := by
  unfold finish; split
  · exact pass _ (grantPass_keeps (fun t ht hc => service ht hc (service_serveOne t)) passFuel s h)
  · exact h

/-! ### What a grant writes (R89, R109) -/

/-- The arbiter's lists and requests and the mode, which what a grant does to a trim leaves alone. -/
def State.arbiter (s : State) := (s.mode, s.creepList, s.pressureOrder, s.surveyReq, s.surveyState)

theorem arbiter_enterAlert (k : AlertKind) (g : Option Sector) (s : State) : (enterAlert k g s).arbiter = s.arbiter := by
  rw [enterAlert_eq]; rfl

theorem arbiter_writeRejected (g : Sector) (kind : TrimKind) (s : State) : (writeRejected g kind s).arbiter = s.arbiter := by
  rw [writeRejected_eq, arbiter_enterAlert]; rfl

theorem arbiter_trimOnGrant (g : Sector) (kind : StrokeKind) (s : State) : (trimOnGrant g kind s).arbiter = s.arbiter := by
  have visit : ∀ u : State, State.arbiter (if kind = .survey then { u with visit := some (g, .stroke) } else u) = u.arbiter := by
    intro u; split <;> rfl
  unfold trimOnGrant
  rw [visit]
  split
  · rfl
  · rfl
  · exact arbiter_writeRejected _ _ _
  · exact arbiter_writeRejected _ _ _

/-- From s to t the group of g has been granted a stroke: it has joined the pressure order, the other groups are kept, and the rest is as the trim unit leaves it. -/
structure Grants (g : Sector) (kind : StrokeKind) (s t : State) : Prop extends Kept s t where
  group : (t.sector g).group = (s.sector g).group.granted (s.len g) s.deck.window kind
  others : ∀ h, h ≠ g → t.sector h = s.sector h
  arbiter : t.arbiter = (s.mode, s.creepList, s.pressureOrder ++ [g], s.surveyReq, s.surveyState)

theorem sector_trimOnGrant_ne {g h : Sector} (e : h ≠ g) (kind : StrokeKind) (s : State) :
    (trimOnGrant g kind s).sector h = s.sector h := by
  have trim : ∀ (u : State) f, (u.modTrim g f).sector h = u.sector h := fun u f => sector_modSector_ne u _ e
  have tries : ∀ (u : State) p, (abandonTries p u).sector h = u.sector h := fun _ _ => rfl
  have rejected : ∀ u : State, (writeRejected g .short u).sector h = u.sector h := fun u => by
    rw [writeRejected_eq, sector_enterAlert, trim]
  have visit : ∀ u : State, State.sector (if kind = .survey then { u with visit := some (g, .stroke) } else u) h = u.sector h := by
    intro u; split <;> rfl
  unfold trimOnGrant
  rw [visit]
  split
  · rfl
  · exact trim _ _
  · exact (rejected _).trans (trim _ _)
  · exact (rejected _).trans ((trim (abandonTries _ _) _).trans ((tries _ _).trans (trim s _)))

theorem Grants.grant (g : Sector) (kind : StrokeKind) (s : State) : Grants g kind s (grant g kind s) := by
  refine ⟨.grant g kind s, ?_, fun h e => ?_, arbiter_trimOnGrant g kind _⟩
  · rw [(Aside.grant g kind s).group g]
    exact congrArg SectorState.group (sector_modSector_self s g fun x => { x with group := x.group.granted (s.len g) s.deck.window kind })
  · exact (sector_trimOnGrant_ne e kind _).trans
      (sector_modSector_ne s (fun x => { x with group := x.group.granted (s.len g) s.deck.window kind }) e)

/-! ### What a pass makes of a group -/

/-- What a pass can make of an IDLE group: nothing, or a grant (R89). -/
def Group.Granted (r : Group) (len window : Nat) (r' : Group) : Prop := r' = r ∨ ∃ kind, r' = r.granted len window kind

theorem Serves.group {s t : State} (h : Serves s t) (g : Sector) :
    (t.sector g).group = (s.sector g).group
      ∨ (s.groupState g = .stalled ∧ t = resumeGroup g s)
      ∨ (s.grantable g = true ∧ ∃ kind, (t.sector g).group = (s.sector g).group.granted (s.len g) s.deck.window kind) := by
  have granted : ∀ {u v w : State} {h : Sector} {kind : StrokeKind}, Grants h kind u v → w.sectors = v.sectors → u.sectors = s.sectors →
      u.deck = s.deck → s.grantable h = true → (w.sector g).group = (s.sector g).group ∨ (s.groupState g = .stalled ∧ w = resumeGroup g s)
        ∨ (s.grantable g = true ∧ ∃ kind, (w.sector g).group = (s.sector g).group.granted (s.len g) s.deck.window kind) := by
    intro u v w h kind hv hw hs hd hg
    have hw : w.sector g = v.sector g := by rw [State.sector, hw]; rfl
    have hu : u.sector g = s.sector g := by rw [State.sector, hs]; rfl
    by_cases e : g = h
    · subst e
      refine .inr (.inr ⟨hg, kind, ?_⟩)
      rw [hw, hv.group, State.len, hu, hd]; rfl
    · refine .inl ?_
      rw [hw, hv.others g e, hu]
  cases h with
  | none | idle => exact .inl rfl
  | resume h hm =>
    by_cases e : g = h
    · subst e; exact .inr (.inl ⟨stalled_of_mem hm, rfl⟩)
    · exact .inl (congrArg SectorState.group (sector_modSector_ne s _ e))
  | survey h _ _ he => exact granted (.grant h .survey _) rfl rfl rfl (grantable_of_survey he)
  | blocked h => exact .inl ((Aside.visitBlocked h _).group g)
  | creep h _ he => exact granted (.grant h .creep s) rfl rfl rfl (grantable_of_creep he)
  | paced h a a' j j' l l' _ he => exact granted (.grant h .paced (s.tabled a j l)) rfl rfl rfl (grantable_of_paced he)

theorem len_of_kept {s t : State} (h : Kept s t) (g : Sector) : t.len g = s.len g := by
  rw [State.len, State.len, (h.tables_eq g).1]

theorem kept_service {s t : State} (h : Serves s t) : Kept s t := by
  have same : ∀ {u : State}, Kept s u → ∀ a j l, Kept s (u.tabled a j l) := fun hu a j l =>
    hu.trans ⟨rfl, rfl, rfl, rfl, rfl, rfl, rfl, rfl, rfl, fun _ => rfl, fun _ => rfl⟩
  have unasked : Kept s { s with surveyReq := none } := ⟨rfl, rfl, rfl, rfl, rfl, rfl, rfl, rfl, rfl, fun _ => rfl, fun _ => rfl⟩
  cases h with
  | none a j l => exact same (.refl s) a j l
  | idle => exact .refl s
  | resume g => exact Kept.modGroup s g _
  | survey g => exact unasked.trans (.grant g .survey _)
  | blocked g => exact unasked.trans (Aside.visitBlocked g _).toKept
  | creep g => exact .grant g .creep s
  | paced g a a' j j' l l' => exact same ((same (.refl s) a j l).trans (.grant g .paced _)) a' j' l'

/-- An IDLE group is granted a stroke by a pass, or left alone. -/
theorem finish_of_idle {s : State} {g : Sector} (h : s.groupState g = .idle) :
    (s.sector g).group.Granted (s.len g) s.deck.window ((finish s).sector g).group := by
  refine (finish_keeps (P := fun t => Kept s t ∧ (s.sector g).group.Granted (s.len g) s.deck.window (t.sector g).group)
    (fun {t u} ht _ hu => ⟨ht.1.trans (kept_service hu), ?_⟩)
    (fun t ht => ⟨ht.1.trans (Closes.passSet t false).toKept, ht.2⟩) ⟨.refl s, .inl rfl⟩).2
  obtain ⟨hk, hg⟩ := ht
  have h : (s.sector g).group.state = .idle := h
  have hstate : t.groupState g = .idle ∨ t.groupState g = .pressurizing := by
    rcases hg with hg | ⟨kind, hg⟩ <;> rw [State.groupState, hg]
    · exact .inl h
    · exact .inr rfl
  rcases hu.group g with hu | ⟨hu, -⟩ | ⟨hu, kind, hw⟩
  · rwa [hu]
  · rw [hu] at hstate; exact absurd hstate (by simp)
  · rcases hg with hg | ⟨k, hg⟩
    · rw [hg, len_of_kept hk, hk.deck] at hw
      exact .inr ⟨kind, hw⟩
    · have := (grantable_iff.1 hu).2.1
      rw [State.groupState, hg] at this; cases this

/-- What a pass makes of an IDLE group keeps its fault and its stroke counter. -/
theorem Group.Granted.kept {r r' : Group} {len window : Nat} (h : r.Granted len window r') (hs : r.state = .idle) :
    (r'.state = .idle ∨ r'.state = .pressurizing) ∧ r'.fault = r.fault ∧ r'.strokes = r.strokes := by
  rcases h with rfl | ⟨kind, rfl⟩
  · exact ⟨.inl hs, rfl, rfl⟩
  · exact ⟨.inr rfl, rfl, rfl⟩

/-- Outside SURVEY a pass leaves every record of a sector whose group is neither IDLE nor STALLED (R111). -/
theorem sector_finish {s : State} (hm : s.mode ≠ .survey) {g : Sector} (hi : s.groupState g ≠ .idle) (hs : s.groupState g ≠ .stalled) :
    (finish s).sector g = s.sector g := by
  have step : ∀ {t u : State}, t.mode = s.mode ∧ t.sector g = s.sector g → Serves t u → u.mode = s.mode ∧ u.sector g = s.sector g := by
    rintro t u ⟨hmode, ht⟩ hu
    have hidle : t.groupState g ≠ .idle := by rw [State.groupState, ht]; exact hi
    have hstalled : t.groupState g ≠ .stalled := by rw [State.groupState, ht]; exact hs
    have other : ∀ {h : Sector}, t.grantable h = true → g ≠ h := by rintro h hg rfl; exact hidle (grantable_iff.1 hg).2.1
    cases hu with
    | none | idle => exact ⟨hmode, ht⟩
    | resume h hh =>
      have e : g ≠ h := by rintro rfl; exact hstalled (stalled_of_mem hh)
      exact ⟨hmode, (sector_modSector_ne t _ e).trans ht⟩
    | survey h hm' => exact absurd (hmode.symm.trans hm') hm
    | blocked h hm' => exact absurd (hmode.symm.trans hm') hm
    | creep h _ he =>
      have hg := Grants.grant h .creep t
      exact ⟨(congrArg Prod.fst hg.arbiter).trans hmode, (hg.others g (other (grantable_of_creep he))).trans ht⟩
    | paced h a a' j j' l l' _ he =>
      have hg := Grants.grant h .paced (t.tabled a j l)
      exact ⟨(congrArg Prod.fst hg.arbiter).trans hmode, (hg.others g (other (grantable_of_paced he))).trans ht⟩
  exact (finish_keeps (P := fun t => t.mode = s.mode ∧ t.sector g = s.sector g) (fun ht _ hu => step ht hu) (fun _ ht => ht) ⟨rfl, rfl⟩).2

/-! ### A pass that can only resume -/

/-- No mode and no request lets a pass grant (R111, R113). -/
def State.Unasked (s : State) : Prop := s.mode ≠ .climb ∧ s.mode ≠ .hold ∧ (s.mode = .survey → s.surveyReq = none)

/-- From s to t STALLED groups have been resumed, and nothing else has changed but the mark that a pass is owed. -/
structure Resumed (s t : State) : Prop where
  frame : ∃ x d, t = { s with sectors := x, passDue := d }
  sector : ∀ g, t.sector g = { s.sector g with group := (t.sector g).group }
  group : ∀ g, s.groupState g ≠ .stalled → (t.sector g).group = (s.sector g).group

theorem Resumed.resumeGroup {s t : State} (h : Resumed s t) {g : Sector} (hg : t.groupState g = .stalled) : Resumed s (resumeGroup g t) := by
  obtain ⟨⟨x, d, hf⟩, hsec, hgrp⟩ := h
  refine ⟨?_, fun k => ?_, fun k hk => ?_⟩
  · subst hf; exact ⟨_, d, rfl⟩
  · rw [Machine.resumeGroup, modGroup_eq, sector_modSector]; split
    · next e => subst e; rw [hsec]
    · exact hsec k
  · have hne : k ≠ g := by
      rintro rfl
      rw [State.groupState, hgrp k hk] at hg
      exact hk hg
    exact (congrArg SectorState.group (sector_modSector_ne t _ hne)).trans (hgrp k hk)

/-- A pass that nothing asks to grant only resumes (R111). -/
theorem Resumed.finish {s : State} (h : s.Unasked) : Resumed s (finish s) := by
  obtain ⟨hc, hh, hq⟩ := h
  refine finish_keeps (P := Resumed s) (fun {t u} ht _ hu => ?_) (fun t ht => ?_) ⟨⟨_, _, rfl⟩, fun _ => rfl, fun _ _ => rfl⟩
  · obtain ⟨x, d, hf⟩ := ht.frame
    have hmode : t.mode = s.mode := by rw [hf]
    have hreq : t.surveyReq = s.surveyReq := by rw [hf]
    cases hu with
    | none a j l hm => exact absurd (hmode.symm.trans hm) hc
    | idle => exact ht
    | resume g hg => exact ht.resumeGroup (stalled_of_mem hg)
    | survey g hm hq' | blocked g hm hq' => rw [hreq, hq (hmode.symm.trans hm)] at hq'; cases hq'
    | creep g hm => exact absurd (hmode ▸ hm) (by simp [hc, hh])
    | paced g a a' j j' l l' hm => exact absurd (hmode.symm.trans hm) hc
  · obtain ⟨⟨x, d, hf⟩, hsec, hgrp⟩ := ht
    exact ⟨⟨x, false, by rw [hf]⟩, hsec, hgrp⟩

end Sys2Proof.Machine
end

