-- ==== Sys2Proof/Proofs/Visits.lean ====
section
/-! SUPPORT. How a visit of the survey ends (R152, R153): the sectors passed over, the next visit or the end of the survey, and the grant pass after it. -/

namespace Sys2Proof.Machine

/-! ### The next visit -/

/-- A sector to be passed over: its group is in FAULT or it is SUSPECT (R152). -/
abbrev State.passes (s : State) (g : Sector) : Prop := s.groupState g = .fault ∨ s.suspect g = true

/-- The visit of a sector is still to come. -/
abbrev State.pends (s : State) (g : Sector) : Prop := (s.sector g).trim.outcome = some .pending

/-- The PENDING sectors of a list SKIPPED. -/
def skipAll (gs : List Sector) (s : State) : State :=
  forEach (gs.filter fun g => (s.sector g).trim.outcome = some .pending) (setOutcome · .skipped) s

/-- A trim with another visit outcome. -/
def SectorState.ended (o : VisitOutcome) (x : SectorState) : SectorState := { x with trim := { x.trim with outcome := some o } }

theorem sector_setOutcome (g : Sector) (o : VisitOutcome) (s : State) (h : Sector) :
    (setOutcome g o s).sector h = if h = g then (s.sector g).ended o else s.sector h := sector_modSector s g h (.ended o)

theorem sector_skipAll {gs : List Sector} (hn : gs.Nodup) (s : State) (h : Sector) :
    (skipAll gs s).sector h = if h ∈ gs ∧ s.pends h then (s.sector h).ended .skipped else s.sector h := by
  refine (sector_forEach_modSector (hn.filter _) (fun _ => SectorState.ended .skipped) s h).trans (if_congr ?_ rfl rfl)
  simp [State.pends]

theorem skipAll_eq (gs : List Sector) (s : State) : skipAll gs s = { s with sectors := (skipAll gs s).sectors } :=
  forEach_modSector_eq _ (fun _ => SectorState.ended .skipped) s

/-- A sector that does not wait for its visit changes nothing in a run of skips. -/
theorem skipAll_cons {g : Sector} {gs : List Sector} (hg : g ∉ gs) (s : State) :
    skipAll (g :: gs) s = skipAll gs (if (s.sector g).trim.outcome = some .pending then setOutcome g .skipped s else s) := by
  have hfilter : ∀ u : State, (∀ h ∈ gs, u.sector h = s.sector h) →
      (gs.filter fun h => (u.sector h).trim.outcome = some .pending) = gs.filter fun h => (s.sector h).trim.outcome = some .pending :=
    fun u hu => List.filter_congr fun h hh => by rw [hu h hh]
  have hne : ∀ h ∈ gs, (setOutcome g .skipped s).sector h = s.sector h := fun h hh => by
    rw [sector_setOutcome, if_neg]
    rintro rfl; exact hg hh
  by_cases hp : (s.sector g).trim.outcome = some .pending
  · simp only [skipAll, List.filter_cons, hp, decide_true, if_true, forEach_cons, hfilter _ hne]
  · simp only [skipAll, List.filter_cons, hp, decide_false, if_false, Bool.false_eq_true]

/-- With no sector left to visit the survey is over (R153). -/
theorem beginVisits_none {gs : List Sector} (hn : gs.Nodup) {s : State} (h : ∀ g ∈ gs, s.pends g → s.passes g) :
    beginVisits gs s = surveyDone (skipAll gs s) := by
  induction gs generalizing s with
  | nil => rfl
  | cons g gs ih =>
    obtain ⟨hg, hn⟩ := List.nodup_cons.1 hn
    rw [skipAll_cons hg, beginVisits]
    have hgs : ∀ k ∈ gs, s.pends k → s.passes k := fun k hk => h k (List.mem_cons_of_mem _ hk)
    split
    · next hp =>
      rw [if_pos (h g List.mem_cons_self hp)]
      refine ih hn fun k hk => ?_
      have hne : k ≠ g := by rintro rfl; exact hg hk
      simp only [State.pends, State.passes, State.groupState, State.suspect, sector_setOutcome, if_neg hne]
      exact hgs k hk
    · exact ih hn hgs

/-- The visit of the first sector that is not passed over begins (R152). -/
theorem beginVisits_first {before after : List Sector} {g : Sector} (hn : (before ++ g :: after).Nodup) {s : State}
    (h : ∀ k ∈ before, s.pends k → s.passes k) (hg : s.pends g) (hp : ¬s.passes g) :
    beginVisits (before ++ g :: after) s = startBefore g { skipAll before s with visit := some (g, .reading) } := by
  induction before generalizing s with
  | nil =>
    rw [List.nil_append, beginVisits, if_pos hg, if_neg hp]; rfl
  | cons k before ih =>
    rw [List.cons_append, List.nodup_cons] at hn
    obtain ⟨hk, hn⟩ := hn
    rw [skipAll_cons (fun hin => hk (List.mem_append_left _ hin)), List.cons_append, beginVisits]
    have hks : ∀ i ∈ before, s.pends i → s.passes i := fun i hi => h i (List.mem_cons_of_mem _ hi)
    split
    · next hpend =>
      rw [if_pos (h k List.mem_cons_self hpend)]
      have hne : ∀ i, i ∈ before ++ g :: after → i ≠ k := by rintro i hi rfl; exact hk hi
      have hgk : g ≠ k := hne g (by simp)
      refine ih hn (fun i hi => ?_) ?_ ?_
      · simp only [State.pends, State.passes, State.groupState, State.suspect, sector_setOutcome, if_neg (hne i (by simp [hi]))]
        exact hks i hi
      · rw [State.pends, sector_setOutcome, if_neg hgk]; exact hg
      · simp only [State.passes, State.groupState, State.suspect, sector_setOutcome, if_neg hgk]; exact hp
    · exact ih hn hks hg hp

/-! ### The end of a survey -/

theorem outcome_enterStandby (s : State) (g : Sector) : ((enterStandby s).sector g).trim.outcome = (s.sector g).trim.outcome := by
  rw [enterStandby, dropTrimRequests, sector_mapSectors]; rfl

theorem holdsAlert_enterAlert_ne {k k' : AlertKind} {g g' : Option Sector} (h : k' ≠ k) (s : State) :
    holdsAlert k g (enterAlert k' g' s).alerts = holdsAlert k g s.alerts := by
  unfold enterAlert; split
  · simp only [holdsAlert, mergeAlert, List.any_map]
    congr 1; funext a
    simp only [Function.comp]
    split <;> rfl
  · split
    · simp [holdsAlert, h]
    · rfl

/-- From s to v nothing has changed of the survey but the visit of g: the other sectors' outcomes, faults and margins are kept, the mode and the survey's state, and the mark that it is over. -/
structure Elsewhere (g : Sector) (s v : State) : Prop where
  others : ∀ h, h ≠ g → (v.sector h).trim.outcome = (s.sector h).trim.outcome ∧ v.groupState h = s.groupState h
    ∧ v.suspect h = s.suspect h
  mode : v.mode = s.mode
  surveyState : v.surveyState = s.surveyState
  alerted : Alerted s v
  done : holdsAlert .surveyDone none v.alerts = holdsAlert .surveyDone none s.alerts

theorem Elsewhere.refl (g : Sector) (s : State) : Elsewhere g s s := ⟨fun _ _ => ⟨rfl, rfl, rfl⟩, rfl, rfl, .refl s, rfl⟩

theorem Elsewhere.trans {g : Sector} {s t u : State} (h : Elsewhere g s t) (k : Elsewhere g t u) : Elsewhere g s u := by
  refine ⟨fun i hi => ?_, k.mode.trans h.mode, k.surveyState.trans h.surveyState, h.alerted.trans k.alerted, k.done.trans h.done⟩
  obtain ⟨h1, h2, h3⟩ := h.others i hi
  obtain ⟨k1, k2, k3⟩ := k.others i hi
  exact ⟨k1.trans h1, k2.trans h2, k3.trans h3⟩

theorem Elsewhere.modSector (g : Sector) (s : State) (f : SectorState → SectorState) : Elsewhere g s (s.modSector g f) := by
  refine ⟨fun h e => ?_, rfl, rfl, .of_eq rfl rfl, rfl⟩
  simp only [State.groupState, State.suspect, sector_modSector_ne s f e, and_self]

theorem Elsewhere.enterAlert (g : Sector) {k : AlertKind} (hk : k ≠ .surveyDone) (i : Option Sector) (s : State) :
    Elsewhere g s (enterAlert k i s) := by
  have hd := holdsAlert_enterAlert_ne hk s (g' := i) (g := none)
  have ha := Alerted.enterAlert k i s
  rw [enterAlert_eq] at hd ha ⊢
  exact ⟨fun _ _ => ⟨rfl, rfl, rfl⟩, rfl, rfl, ha, hd⟩

/-- The visit, the survey request, the sensor line, the pressure order and the mark that a pass is owed are not looked at. -/
theorem Elsewhere.update (g : Sector) (s : State) (v : Option (Sector × VisitPhase)) (q : Option Sector) (l : Option Try) (w : List Try)
    (o : List Sector) (d : Bool) :
    Elsewhere g s { s with visit := v, surveyReq := q, line := l, waiting := w, pressureOrder := o, passDue := d } :=
  ⟨fun _ _ => ⟨rfl, rfl, rfl⟩, rfl, rfl, .of_eq rfl rfl, rfl⟩

theorem Elsewhere.abandonTries (g : Sector) (p : Try → Bool) (s : State) : Elsewhere g s (abandonTries p s) := .update g s _ _ _ _ _ _

theorem Elsewhere.requestTry (g h : Sector) (k : TryKind) (a : Nat) (s : State) : Elsewhere g s (requestTry k h a s) := by
  rw [requestTry_frame]; exact .update g s _ _ _ _ _ _

theorem Elsewhere.abandonBefore (g : Sector) (s : State) : Elsewhere g s (abandonBefore g s) :=
  (Elsewhere.abandonTries g _ s).trans (.modSector g _ fun x => { x with trim := { x.trim with before := [] } })

theorem Elsewhere.rejectTrim (g : Sector) (kind : TrimKind) (s : State) : Elsewhere g s (rejectTrim g kind s) := by
  have h : Elsewhere g s (writeRejected g kind s) := by
    rw [writeRejected_eq]; exact (Elsewhere.modSector g s _).trans (.enterAlert g (by decide) _ _)
  refine h.trans ?_
  cases kind with
  | short => exact .modSector g _ fun x => { x with trim := { x.trim with underWay := false, before := [], after := [] } }
  | survey =>
    have h1 : ∀ u : State, Elsewhere g u (u.modTrim g fun t => { t with before := [], after := [] }) := fun u => .modSector g u _
    exact ((h1 _).trans (.update g _ (some (g, .resultMade)) _ _ _ _ _)).trans (.modSector g _ fun x => x.ended .rejected)

/-- What the end of the visit of g finds: its outcome, and no survey request. -/
structure Ending (g : Sector) (o : VisitOutcome) (s v : State) : Prop extends Elsewhere g s v where
  outcome : (v.sector g).trim.outcome = some o
  surveyReq : v.surveyReq = none

theorem Ending.after {g : Sector} {o : VisitOutcome} {s t v : State} (h : Elsewhere g s t) (k : Ending g o t v) : Ending g o s v :=
  ⟨h.trans k.toElsewhere, k.outcome, k.surveyReq⟩

theorem surveyDone_frame (s : State) : (surveyDone s).mode = .standby ∧ (surveyDone s).surveyState = .none ∧ (surveyDone s).visit = none
    ∧ (surveyDone s).surveyReq = none := by
  rw [surveyDone, enterAlert_eq]
  exact ⟨rfl, rfl, rfl, rfl⟩

theorem outcome_surveyDone (s : State) (g : Sector) : ((surveyDone s).sector g).trim.outcome = (s.sector g).trim.outcome := by
  rw [surveyDone, sector_enterAlert, outcome_enterStandby]; rfl

theorem startBefore_frame (g : Sector) (s : State) :
    (startBefore g s).mode = s.mode ∧ (startBefore g s).surveyState = s.surveyState ∧ (startBefore g s).visit = s.visit
      ∧ (startBefore g s).surveyReq = s.surveyReq ∧ ∀ h, ((startBefore g s).sector h).trim.outcome = (s.sector h).trim.outcome := by
  rw [startBefore, requestTry_frame]
  refine ⟨rfl, rfl, rfl, rfl, fun h => ?_⟩
  show ((s.modTrim g fun t => { t with before := [] }).sector h).trim.outcome = _
  rw [modTrim_eq, sector_modSector]; split
  · next e => subst e; rfl
  · rfl

/-- The visit under way is over. -/
def State.left (s : State) : State := { s with visit := none }

theorem visitEnded_of_running {s : State} (h : s.surveyState = .running) : visitEnded s = beginVisits allSectors s.left := by
  simp only [visitEnded, h, State.left]

theorem visitEnded_of_ending {s : State} (h : s.surveyState = .ending) : visitEnded s = enterStandby { s.left with surveyState := .none } := by
  simp only [visitEnded, h, State.left]

theorem visitEnded_of_none {s : State} (h : s.surveyState = .none) : visitEnded s = s.left := by
  simp only [visitEnded, h, State.left]

theorem Ending.pends_left {g : Sector} {o : VisitOutcome} {s v : State} (h : Ending g o s v) (ho : o ≠ .pending) (k : Sector) :
    v.left.pends k ↔ k ≠ g ∧ (s.sector k).trim.outcome = some .pending := by
  show (v.sector k).trim.outcome = _ ↔ _
  by_cases e : k = g
  · subst e; simp [h.outcome, ho]
  · rw [(h.others k e).1]; simp [e]

theorem Ending.passes_left {g : Sector} {o : VisitOutcome} {s v : State} (h : Ending g o s v) {k : Sector} (e : k ≠ g) :
    v.left.passes k ↔ s.groupState k = .fault ∨ s.suspect k = true := by
  show v.groupState k = _ ∨ v.suspect k = true ↔ _
  rw [(h.others k e).2.1, (h.others k e).2.2]

/-- The outcomes after a run of skips: of the sector whose visit has ended its own, of the others what they were, but SKIPPED where passed over. -/
theorem Ending.outcome_skipAll {g : Sector} {o : VisitOutcome} {s v : State} (h : Ending g o s v) (ho : o ≠ .pending) {gs : List Sector}
    (hn : gs.Nodup) : ((skipAll gs v.left).sector g).trim.outcome = some o
      ∧ ∀ k, k ≠ g → ((skipAll gs v.left).sector k).trim.outcome =
        if (k ≠ g ∧ (s.sector k).trim.outcome = some .pending) ∧ k ∈ gs then some .skipped else (s.sector k).trim.outcome := by
  have hskip : ∀ k, ((skipAll gs v.left).sector k).trim.outcome =
      if (k ≠ g ∧ (s.sector k).trim.outcome = some .pending) ∧ k ∈ gs then some .skipped else (v.sector k).trim.outcome := fun k => by
    rw [sector_skipAll hn, apply_ite (fun x : SectorState => x.trim.outcome)]
    exact if_congr ((and_congr_right' (h.pends_left ho k)).trans and_comm) rfl rfl
  refine ⟨?_, fun k e => ?_⟩
  · rw [hskip, if_neg (by simp), h.outcome]
  · rw [hskip, (h.others k e).1]

/-- With no sector left to visit the survey is over (R153). -/
theorem Ending.survey_over {g : Sector} {o : VisitOutcome} {s v : State} (h : Ending g o s v) (ho : o ≠ .pending)
    (hrun : s.surveyState = .running) (hall : ∀ k, v.left.pends k → v.left.passes k) : VisitEnds g o s (visitEnded v) := by
  rw [visitEnded_of_running (h.surveyState.trans hrun), beginVisits_none nodup_allSectors fun k _ => hall k]
  obtain ⟨houtcome, hothers⟩ := h.outcome_skipAll ho nodup_allSectors
  have hv : Alerted v (skipAll allSectors v.left) := by rw [skipAll_eq]; exact .of_eq rfl rfl
  obtain ⟨f1, f2, f3, f4⟩ := surveyDone_frame (skipAll allSectors v.left)
  refine ⟨(outcome_surveyDone _ g).trans houtcome, f4, fun _ => ⟨fun k hk hnp _ => ?_, fun _ => ?_⟩, fun he => ?_⟩
  · exact absurd ((h.passes_left hk.1).1 (hall k ((h.pends_left ho k).2 hk))) hnp
  · refine ⟨⟨f1, f2, f3⟩, ?_, fun k hk => ?_⟩
    · exact entered_of_alerted ((h.alerted.trans hv).trans ((Aside.update _ _ _ _ _ _ _ _ _).trans (.enterStandby _)).alerted) _ _
    · rw [outcome_surveyDone, hothers k hk]
      simp only [mem_allSectors, and_true]
  · rw [hrun] at he; cases he

/-- The next visit is that of the first sector still PENDING that is not passed over (R152). -/
theorem Ending.next_visit {g k : Sector} {o : VisitOutcome} {s v : State} (h : Ending g o s v) (ho : o ≠ .pending)
    (hrun : s.surveyState = .running) (hk : v.left.pends k) (hnp : ¬v.left.passes k)
    (hbefore : ∀ i, i < k → v.left.pends i → v.left.passes i) : VisitEnds g o s (visitEnded v) := by
  obtain ⟨before, after, he, hlt, hgt⟩ := allSectors_split k
  have hn : (before ++ k :: after).Nodup := he ▸ nodup_allSectors
  have hmem : ∀ i, i ∈ before ↔ i < k := fun i => by
    refine ⟨hlt i, fun hi => ?_⟩
    rcases List.mem_append.1 (he ▸ mem_allSectors i) with hin | hin
    · exact hin
    · rcases List.mem_cons.1 hin with rfl | hin
      · exact absurd hi (lt_irrefl _)
      · exact absurd (hgt i hin) (not_lt_of_gt hi)
  obtain ⟨hkg, hks⟩ := (h.pends_left ho k).1 hk
  obtain ⟨houtcome, hothers⟩ := h.outcome_skipAll ho (List.nodup_append.1 hn).1
  rw [visitEnded_of_running (h.surveyState.trans hrun), he, beginVisits_first hn (fun i hi => hbefore i ((hmem i).1 hi)) hk hnp]
  have hframe := skipAll_eq before v.left
  generalize skipAll before v.left = w at *
  obtain ⟨f1, f2, f3, f4, f5⟩ := startBefore_frame k { w with visit := some (k, .reading) }
  have hmode : w.mode = s.mode := (congrArg State.mode hframe).trans h.mode
  have hstate : w.surveyState = s.surveyState := (congrArg State.surveyState hframe).trans h.surveyState
  have hreq : w.surveyReq = none := (congrArg State.surveyReq hframe).trans h.surveyReq
  refine ⟨(f5 g).trans houtcome, f4.trans hreq, fun _ => ⟨fun i hi hni hmin => ?_, fun hp => ?_⟩, fun hend => ?_⟩
  · have hik : i = k := by
      rcases lt_trichotomy i k with hlt | rfl | hgt
      · exact absurd ((h.passes_left hi.1).1 (hbefore i hlt ((h.pends_left ho i).2 hi))) hni
      · rfl
      · exact absurd ((h.passes_left hkg).2 (hmin k hgt ⟨hkg, hks⟩)) hnp
    subst hik
    refine ⟨f1.trans hmode, f2.trans (hstate.trans hrun), f3, ?_, fun j hj => ?_⟩
    · exact tryUnderWay_requestTry _ _ _ _ _ _ (.inr ⟨rfl, rfl⟩)
    · refine ((f5 j).trans (hothers j hj)).trans (if_congr ?_ rfl rfl)
      rw [hmem]
  · exact absurd ((h.passes_left hkg).2 (hp k ⟨hkg, hks⟩)) hnp
  · rw [hrun] at hend; cases hend

/-- The visit of g ended with an outcome other than PENDING (R152, R153). -/
theorem Ending.visitEnds {g : Sector} {o : VisitOutcome} {s v : State} (h : Ending g o s v) (ho : o ≠ .pending) :
    VisitEnds g o s (visitEnded v) := by
  cases hstate : s.surveyState with
  | running =>
    by_cases hall : ∀ k, v.left.pends k → v.left.passes k
    · exact h.survey_over ho hstate hall
    · obtain ⟨k, ⟨hk, hnp⟩, hmin⟩ := WellFounded.has_min (wellFounded_lt (α := Sector)) {k | v.left.pends k ∧ ¬v.left.passes k} (by
        simpa [Set.Nonempty, not_forall] using hall)
      exact h.next_visit ho hstate hk hnp fun i hi hp => by by_contra hn; exact hmin i ⟨hp, hn⟩ hi
  | ending =>
    rw [visitEnded_of_ending (h.surveyState.trans hstate)]
    refine ⟨(outcome_enterStandby _ g).trans h.outcome, rfl, fun hr => ?_, fun _ =>
      ⟨⟨rfl, rfl, rfl⟩, h.done, fun k hk => (outcome_enterStandby _ k).trans (h.others k hk).1⟩⟩
    rw [hstate] at hr; cases hr
  | none =>
    rw [visitEnded_of_none (h.surveyState.trans hstate)]
    refine ⟨h.outcome, h.surveyReq, fun hr => ?_, fun he => ?_⟩
    · rw [hstate] at hr; cases hr
    · rw [hstate] at he; cases he

/-! ### The grant pass after it -/

/-- The end of a visit leaves the mode, or STANDBY; no survey request comes to be pending. -/
theorem visitEnded_mode (s : State) :
    ((visitEnded s).mode = s.mode ∨ (visitEnded s).mode = .standby) ∧ (s.surveyReq = none → (visitEnded s).surveyReq = none) := by
  have begins : ∀ (gs : List Sector) (u : State),
      ((beginVisits gs u).mode = u.mode ∨ (beginVisits gs u).mode = .standby) ∧ (u.surveyReq = none → (beginVisits gs u).surveyReq = none) := by
    intro gs
    induction gs with
    | nil =>
      intro u
      obtain ⟨f1, -, -, f4⟩ := surveyDone_frame u
      exact ⟨.inr f1, fun _ => f4⟩
    | cons g gs ih =>
      intro u
      unfold beginVisits; split
      · split
        · exact ih (setOutcome g .skipped u)
        · obtain ⟨f1, -, -, f4, -⟩ := startBefore_frame g { u with visit := some (g, .reading) }
          exact ⟨.inl f1, fun hu => f4.trans hu⟩
      · exact ih u
  unfold visitEnded; dsimp only; split
  · exact begins allSectors { s with visit := none }
  · exact ⟨.inr rfl, fun _ => rfl⟩
  · exact ⟨.inl rfl, fun hs => hs⟩

/-- A pass that only resumes leaves what the end of a visit is said of. -/
theorem VisitEnds.resumed {g : Sector} {o : VisitOutcome} {s v t : State} (h : VisitEnds g o s v) (hr : Resumed v t) : VisitEnds g o s t := by
  obtain ⟨x, d, hf⟩ := hr.frame
  have hout : ∀ k, (t.sector k).trim.outcome = (v.sector k).trim.outcome := fun k => by rw [hr.sector k]
  have hdeck : t.mode = v.mode ∧ t.surveyState = v.surveyState ∧ t.visit = v.visit ∧ t.surveyReq = v.surveyReq ∧ t.alerts = v.alerts
      ∧ t.alertFull = v.alertFull ∧ ∀ h, t.tryUnderWay .before h = v.tryUnderWay .before h := by
    rw [hf]; exact ⟨rfl, rfl, rfl, rfl, rfl, rfl, fun _ => rfl⟩
  obtain ⟨h1, h2, h3, h4, h5, h6, h7⟩ := hdeck
  unfold VisitEnds Entered at *
  simpa only [hout, h1, h2, h3, h4, h5, h6, h7] using h

/-- In SURVEY, the request of the visit's stroke gone, the pass after the end of a visit finds nothing to grant. -/
theorem unasked_visitEnded {s : State} (hm : s.mode = .survey) (hq : s.surveyReq = none) : (visitEnded s).Unasked := by
  obtain ⟨hmode, hreq⟩ := visitEnded_mode s
  rw [hm] at hmode
  refine ⟨?_, ?_, fun _ => hreq hq⟩ <;> rcases hmode with h | h <;> rw [h] <;> decide

theorem State.Unasked.passSet {s : State} (h : s.Unasked) (d : Bool) : ({ s with passDue := d } : State).Unasked := h

theorem Resumed.passSet {s t : State} {d : Bool} (h : Resumed { s with passDue := d } t) : Resumed s t := by
  obtain ⟨⟨x, d', hf⟩, h2, h3⟩ := h
  exact ⟨⟨x, d', by rw [hf]⟩, h2, h3⟩

/-! ### Before-readings that are no longer under way -/

theorem tryUnderWay_of_abandonTries {p : Try → Bool} {k : TryKind} {g : Sector} {s : State}
    (h : (abandonTries p s).tryUnderWay k g = true) : s.tryUnderWay k g = true := by
  rw [tryUnderWay_iff] at *
  obtain ⟨t, ht, hk, hg, hl⟩ := h
  rcases List.mem_append.1 ht with ht | ht
  · simp only [abandonTries, Option.mem_toList, Option.map_eq_some_iff] at ht
    obtain ⟨u, hu, rfl⟩ := ht
    refine ⟨u, List.mem_append_left _ (by simp [hu]), ?_⟩
    split at hl
    · cases hl
    · next hp => simp only [hp] at hk hg; exact ⟨hk, hg, hl⟩
  · exact ⟨t, List.mem_append_right _ (List.mem_filter.1 ht).1, hk, hg, hl⟩

/-- The tries of a kind for a sector, once abandoned, are under way no more. -/
theorem tryUnderWay_abandonTries (k : TryKind) (g : Sector) (s : State) :
    (abandonTries (fun t => t.kind == k && t.sector == g) s).tryUnderWay k g = false := by
  refine Bool.eq_false_iff.2 fun h => ?_
  rw [tryUnderWay_iff] at h
  obtain ⟨t, ht, hk, hg, hl⟩ := h
  rcases List.mem_append.1 ht with ht | ht
  · simp only [abandonTries, Option.mem_toList, Option.map_eq_some_iff] at ht
    obtain ⟨u, -, rfl⟩ := ht
    split at hl
    · cases hl
    · next hp => simp only [hp, if_false, Bool.false_eq_true] at hk hg; simp [hk, hg] at hp
  · simpa [hk, hg] using (List.mem_filter.1 ht).2

/-- The end of a visit starts no before-reading of the sector whose visit it is. -/
theorem tryUnderWay_visitEnded {g : Sector} {s : State} (ht : s.tryUnderWay .before g = false) (hg : (s.sector g).trim.outcome ≠ some .pending) :
    (visitEnded s).tryUnderWay .before g = false := by
  have standby : ∀ u : State, u.tryUnderWay .before g = false → (enterStandby u).tryUnderWay .before g = false := fun u hu => by
    refine Bool.eq_false_iff.2 fun h => ?_
    have := tryUnderWay_of_abandonTries (s := { u with mode := .standby, creepList := [], surveyReq := none, passDue := true }) h
    exact absurd (hu.symm.trans this) (by simp)
  have begins : ∀ (gs : List Sector) (u : State), u.tryUnderWay .before g = false → (u.sector g).trim.outcome ≠ some .pending →
      (beginVisits gs u).tryUnderWay .before g = false := by
    intro gs
    induction gs with
    | nil =>
      intro u hu _
      have := standby { u with surveyState := .none, visit := none } hu
      rw [beginVisits, surveyDone, enterAlert_eq]; exact this
    | cons h gs ih =>
      intro u hu hp
      unfold beginVisits; split
      · next hh =>
        have hne : h ≠ g := by rintro rfl; exact hp hh
        split
        · refine ih _ hu ?_
          rw [sector_setOutcome, if_neg hne.symm]; exact hp
        · refine Bool.eq_false_iff.2 fun hr => ?_
          rcases tryUnderWay_requestTry_iff.1 hr with hr | ⟨-, hr⟩
          · exact absurd (hu.symm.trans hr) (by simp)
          · exact hne hr
      · exact ih u hu hp
  unfold visitEnded; dsimp only; split
  · exact begins allSectors { s with visit := none } ht hg
  · exact standby { s with visit := none, surveyState := .none } ht
  · exact ht

/-! ### The whole end of a visit -/

/-- In SURVEY the visit of g has ended, and the grant pass after it has run: the group, the trim's result and the readings are as the visit's end left them. -/
structure VisitPassed (g : Sector) (o : VisitOutcome) (s v t : State) : Prop where
  ends : VisitEnds g o s t
  result : (t.sector g).trim.result = (v.sector g).trim.result
  tries : v.tryUnderWay .before g = false → o ≠ .pending → t.tryUnderWay .before g = false
  alerted : Alerted v t

theorem Ending.passed {g : Sector} {o : VisitOutcome} {s v : State} (h : Ending g o s v) (ho : o ≠ .pending) (hm : s.mode = .survey) (d : Bool) :
    VisitPassed g o s v (finish { visitEnded v with passDue := d }) := by
  have hun : (visitEnded v).Unasked := unasked_visitEnded (h.mode.trans hm) h.surveyReq
  have hr : Resumed (visitEnded v) (finish { visitEnded v with passDue := d }) := (Resumed.finish (hun.passSet d)).passSet
  have hsp := Spared.visitEnded g v
  refine ⟨(h.visitEnds ho).resumed hr, ?_, fun ht hne => ?_, ?_⟩
  · rw [hr.sector g]; exact hsp.result
  · obtain ⟨x, d', hf⟩ := hr.frame
    rw [hf]
    exact tryUnderWay_visitEnded ht (by rw [h.outcome]; simpa using hne)
  · obtain ⟨x, d', hf⟩ := hr.frame
    rw [hf]
    exact hsp.alerted.trans (.of_eq rfl rfl)

end Sys2Proof.Machine
end

