-- ==== Sys2Proof/Proofs/Faults.lean ====
section
/-! SUPPORT. The entry to FAULT of a group of an enabled sector (R99): its alerts, HOLD, what it does to the trim of the group and to its visit, and the grant pass after it. -/

namespace Sys2Proof.Machine

/-! ### What a command at a group leaves alone -/

/-- From s to t the clock and the profile, the feed, the tables, the supply and the ports are kept, and every sector's held records. -/
structure Framed (s t : State) : Prop where
  settings : t.settings = s.settings
  feed : t.feed = s.feed
  tables : t.tables = s.tables
  supply : t.supply = s.supply
  ports : t.ports = s.ports
  held : ∀ h, (t.sector h).held = (s.sector h).held

theorem Framed.refl (s : State) : Framed s s := ⟨rfl, rfl, rfl, rfl, rfl, fun _ => rfl⟩

theorem Framed.trans {s t u : State} (h : Framed s t) (k : Framed t u) : Framed s u :=
  ⟨k.settings.trans h.settings, k.feed.trans h.feed, k.tables.trans h.tables, k.supply.trans h.supply, k.ports.trans h.ports,
    fun i => (k.held i).trans (h.held i)⟩

theorem Kept.framed {s t : State} (h : Kept s t) : Framed s t := ⟨h.settings, h.feed, h.tables, h.supply, h.ports, h.held⟩

theorem Repaced.framed {s t : State} (h : Repaced s t) : Framed s t :=
  ⟨h.settings, h.feed, h.tables, h.supply, h.ports, fun g => by rw [h.sector g]; rfl⟩

theorem Framed.table {s t : State} (h : Framed s t) (g : Sector) : (t.sector g).table = (s.sector g).table := congrArg (·.1) (h.held g)

theorem Framed.layers {s t : State} (h : Framed s t) (g : Sector) : (t.sector g).layers = (s.sector g).layers := congrArg (·.2.1) (h.held g)

/-! ### The alerts, and HOLD -/

/-- The alerts of the entry to FAULT (R99). -/
def faultAlerts (g : Sector) (m : Bool) (s : State) : State :=
  if m then enterAlert .suspectPosition (some g) (enterAlert .groupFault (some g) s) else enterAlert .groupFault (some g) s

/-- Its alerts, the goal test, and HOLD from CLIMB (R99, R161). -/
def faultTold (g : Sector) (m : Bool) (s : State) : State :=
  let s3 := goalTest (faultAlerts g m s)
  if s3.mode = .climb then enterHold s3 else s3

theorem handOnFault_eq (g : Sector) (m v : Bool) (s : State) :
    ∃ d, handOnFault g m v s = { trimOnFault g (faultTold g m s) with passDue := d }
      ∧ (v = false → d = (trimOnFault g (faultTold g m s)).passDue) := by
  cases v
  · have h : handOnFault g m false s = trimOnFault g (faultTold g m s) := rfl
    rw [h]
    generalize trimOnFault g (faultTold g m s) = u
    exact ⟨u.passDue, rfl, fun _ => rfl⟩
  · exact ⟨true, rfl, nofun⟩

theorem enterFault_enabled {g : Sector} {s : State} (h : s.enabled g = true) (kind : FaultKind) (m v : Bool) :
    enterFault g kind m v s = handOnFault g m v (s.modGroup g fun r => r.faulted kind) := by
  rw [enterFault, if_pos h]; rfl

theorem enterFault_disabled {g : Sector} {s : State} (h : s.enabled g = false) (kind : FaultKind) (m v : Bool) :
    enterFault g kind m v s = s.modGroup g fun r => r.faulted kind := by
  rw [enterFault, if_neg (by simp [h])]; rfl

theorem faultAlerts_eq (g : Sector) (m : Bool) (s : State) :
    faultAlerts g m s = { s with alerts := (faultAlerts g m s).alerts, alertFull := (faultAlerts g m s).alertFull } := by
  unfold faultAlerts; split
  · rw [enterAlert_eq .suspectPosition, enterAlert_eq .groupFault]
  · exact enterAlert_eq _ _ s

theorem entered_faultAlerts {g : Sector} {m : Bool} {r s : State} (h : Alerted r s) :
    Entered .groupFault (some g) r (faultAlerts g m s) ∧ (m = true → Entered .suspectPosition (some g) r (faultAlerts g m s)) := by
  have hg := entered_of_alerted h .groupFault (some g)
  unfold faultAlerts; split
  · exact ⟨hg.later (.enterAlert _ _ _), fun _ => entered_of_alerted (h.trans (.enterAlert _ _ _)) _ _⟩
  · next hm => exact ⟨hg, fun h => absurd h hm⟩

theorem Repaced.faultAlerts (g : Sector) (m : Bool) (s : State) : Repaced s (faultAlerts g m s) := by
  unfold Machine.faultAlerts; split
  · exact (Repaced.enterAlert _ _ s).trans (.enterAlert _ _ _)
  · exact .enterAlert _ _ s

theorem Elsewhere.faultAlerts (g : Sector) (m : Bool) (s : State) : Elsewhere g s (faultAlerts g m s) := by
  unfold Machine.faultAlerts; split
  · exact (Elsewhere.enterAlert g (by decide) _ s).trans (.enterAlert g (by decide) _ _)
  · exact .enterAlert g (by decide) _ s

theorem mode_faultAlerts (g : Sector) (m : Bool) (s : State) : (faultAlerts g m s).mode = s.mode := by rw [faultAlerts_eq]

theorem goalTest_of_not_climb {s : State} (h : s.mode ≠ .climb) : goalTest s = s := by simp [goalTest, h]

theorem mode_enterHold (s : State) : (enterHold s).mode = .hold := by
  rw [enterHold_eq, raiseDemands_eq]; exact (stilled_frame s).1

/-- From the alerts on, the pacing unit and the mode alone can move. -/
theorem Repaced.faultHold (g : Sector) (m : Bool) (s : State) : Repaced (Machine.faultAlerts g m s) (faultTold g m s) := by
  unfold faultTold; dsimp only; split
  · exact (Repaced.goalTest _).trans (.enterHold _)
  · exact .goalTest _

theorem Repaced.faultTold (g : Sector) (m : Bool) (s : State) : Repaced s (faultTold g m s) :=
  (Repaced.faultAlerts g m s).trans (.faultHold g m s)

/-- A deck that is not in CLIMB keeps its mode, and only the alerts are entered. -/
theorem faultTold_of_not_climb {g : Sector} {s : State} (h : s.mode ≠ .climb) (m : Bool) : faultTold g m s = faultAlerts g m s := by
  have hm : (faultAlerts g m s).mode ≠ .climb := by rwa [mode_faultAlerts]
  rw [faultTold, goalTest_of_not_climb hm]; exact if_neg hm

/-- A deck in CLIMB is in HOLD (R99). -/
theorem mode_faultTold {g : Sector} {s : State} (h : s.mode = .climb) (m : Bool) : (faultTold g m s).mode = .hold := by
  unfold faultTold; dsimp only; split
  · exact mode_enterHold _
  · next hn =>
    unfold goalTest at hn ⊢
    split
    · exact mode_enterHold _
    · next hg => exact absurd ((mode_faultAlerts g m s).trans h) (by rwa [if_neg hg] at hn)

/-! ### The trim request and the short trim of the group -/

/-- A trim request that is READING becomes WAITING (R149). -/
def trimWaits (g : Sector) (s : State) : State :=
  if (s.sector g).trim.request = .reading then (abandonBefore g s).modTrim g fun t => { t with request := .waiting } else s

/-- What the entry to FAULT does to the trim of the group, its visit apart (R149, R150). -/
def faultTrim (g : Sector) (s : State) : State :=
  if (trimWaits g s).awaiting g = some .short then rejectAwaiting g (trimWaits g s) else trimWaits g s

theorem trimOnFault_eq (g : Sector) (s : State) : trimOnFault g s = visitOnFault g (faultTrim g s) := rfl

theorem trimWaits_frame (g : Sector) (s : State) :
    (trimWaits g s).visit = s.visit ∧ (trimWaits g s).surveyReq = s.surveyReq ∧ (trimWaits g s).passDue = s.passDue
      ∧ (trimWaits g s).minute = s.minute := by
  unfold trimWaits; split <;> exact ⟨rfl, rfl, rfl, rfl⟩

theorem trim_trimWaits (g : Sector) (s : State) :
    ((trimWaits g s).sector g).trim.request = (if (s.sector g).trim.request = .reading then .waiting else (s.sector g).trim.request) := by
  unfold trimWaits; split
  · rw [modTrim_eq, sector_modSector_self]
  · rfl

theorem Spared.trimWaits (g : Sector) (s : State) : Spared g s (trimWaits g s) := by
  unfold Machine.trimWaits; split
  · exact (Spared.abandonBefore g g s).trans (.modTrim g g _ _ (by intro; rfl))
  · exact .refl g s

theorem Elsewhere.trimWaits (g : Sector) (s : State) : Elsewhere g s (trimWaits g s) := by
  unfold Machine.trimWaits; split
  · exact (Elsewhere.abandonBefore g s).trans (.modSector g _ fun x => { x with trim := { x.trim with request := .waiting } })
  · exact .refl g s

theorem awaiting_trimWaits (g : Sector) (s : State) : (trimWaits g s).awaiting g = s.awaiting g :=
  awaiting_congr (trimWaits_frame g s).1 (Spared.trimWaits g s).underWay

/-- With no short trim under way only the request can change. -/
theorem faultTrim_of_not_short {g : Sector} {s : State} (h : s.awaiting g ≠ some .short) : faultTrim g s = trimWaits g s :=
  if_neg (by rwa [awaiting_trimWaits])

theorem faultTrim_of_short {g : Sector} {s : State} (h : s.awaiting g = some .short) : faultTrim g s = rejectTrim g .short (trimWaits g s) := by
  have hw : (trimWaits g s).awaiting g = some .short := (awaiting_trimWaits g s).trans h
  rw [faultTrim, if_pos hw, rejectAwaiting, hw]; rfl

/-- A short trim REJECTED leaves the visit, the request and the mark that a pass is owed. -/
theorem rejectShort_frame (g : Sector) (s : State) :
    (rejectTrim g .short s).visit = s.visit ∧ (rejectTrim g .short s).surveyReq = s.surveyReq ∧ (rejectTrim g .short s).passDue = s.passDue
      ∧ ((rejectTrim g .short s).sector g).trim.request = (s.sector g).trim.request := by
  have hself : ∀ u : State, ((closeTrim g .short .rejected u).sector g).trim.request = (u.sector g).trim.request := fun u => by
    rw [closeTrim, modTrim_eq, sector_modSector_self]
  rw [rejectTrim, hself, writeRejected_eq, sector_enterAlert, modTrim_eq, sector_modSector_self, enterAlert_eq]
  exact ⟨rfl, rfl, rfl, rfl⟩

theorem faultTrim_frame (g : Sector) (s : State) :
    (faultTrim g s).visit = s.visit ∧ (faultTrim g s).surveyReq = s.surveyReq ∧ (faultTrim g s).passDue = s.passDue
      ∧ ((faultTrim g s).sector g).trim.request =
        (if (s.sector g).trim.request = .reading then .waiting else (s.sector g).trim.request) := by
  obtain ⟨h1, h2, h3, -⟩ := trimWaits_frame g s
  by_cases h : s.awaiting g = some .short
  · obtain ⟨k1, k2, k3, k4⟩ := rejectShort_frame g (trimWaits g s)
    rw [faultTrim_of_short h]
    exact ⟨k1.trans h1, k2.trans h2, k3.trans h3, k4.trans (trim_trimWaits g s)⟩
  · rw [faultTrim_of_not_short h]
    exact ⟨h1, h2, h3, trim_trimWaits g s⟩

theorem Elsewhere.faultTrim (g : Sector) (s : State) : Elsewhere g s (faultTrim g s) := by
  by_cases h : s.awaiting g = some .short
  · rw [faultTrim_of_short h]; exact (Elsewhere.trimWaits g s).trans (.rejectTrim g _ _)
  · rw [faultTrim_of_not_short h]; exact .trimWaits g s

/-- With no short trim under way the result stands. -/
theorem result_faultTrim {g : Sector} {s : State} (h : (s.sector g).trim.underWay = false) :
    ((faultTrim g s).sector g).trim.result = (s.sector g).trim.result := by
  have hs : s.awaiting g ≠ some .short := by
    unfold State.awaiting; split
    · simp
    · simp [h]
  rw [faultTrim_of_not_short hs]; exact (Spared.trimWaits g s).result

/-! ### The visit of the group -/

theorem outcome_setOutcome (g : Sector) (o : VisitOutcome) (s : State) : ((setOutcome g o s).sector g).trim.outcome = some o := by
  rw [sector_setOutcome, if_pos rfl]; rfl

theorem Elsewhere.setOutcome (g : Sector) (o : VisitOutcome) (s : State) : Elsewhere g s (setOutcome g o s) :=
  .modSector g s fun x => x.ended o

theorem trimOnFault_none {g : Sector} {s : State} (h : s.visit = none) : trimOnFault g s = faultTrim g s := by
  rw [trimOnFault_eq, visitOnFault, (faultTrim_frame g s).1, h]

/-- The group's visit without its stroke, ended with FAULT: the readings abandoned (R152). -/
def unstroked (g : Sector) (s : State) : State := abandonBefore g (setOutcome g .fault s)

theorem visitOnFault_reading {g : Sector} {s : State} (h : s.visit = some (g, .reading)) : visitOnFault g s = visitEnded (unstroked g s) := by
  simp only [visitOnFault, h, if_true]; rfl

theorem visitOnFault_requested {g : Sector} {s : State} (h : s.visit = some (g, .requested)) :
    visitOnFault g s = visitEnded { unstroked g s with surveyReq := none } := by simp only [visitOnFault, h, if_true]; rfl

theorem visitOnFault_stroke {g : Sector} {s : State} (h : s.visit = some (g, .stroke)) :
    visitOnFault g s = visitEnded (setOutcome g .fault (rejectAwaiting g s)) := by simp only [visitOnFault, h, if_true]

theorem visitOnFault_resultMade {g : Sector} {s : State} (h : s.visit = some (g, .resultMade)) :
    visitOnFault g s = visitEnded (setOutcome g .fault s) := by simp only [visitOnFault, h, if_true]

theorem outcome_unstroked (g : Sector) (s : State) : ((unstroked g s).sector g).trim.outcome = some .fault := by
  rw [unstroked, abandonBefore, modTrim_eq, sector_modSector_self]
  exact outcome_setOutcome g .fault s

theorem Elsewhere.unstroked (g : Sector) (s : State) : Elsewhere g s (unstroked g s) :=
  (Elsewhere.setOutcome g .fault s).trans (.abandonBefore g _)

theorem Spared.unstroked (g : Sector) (s : State) : Spared g s (unstroked g s) := (Spared.setOutcome g g .fault s).trans (.abandonBefore g g _)

theorem tryUnderWay_unstroked (g : Sector) (s : State) : (unstroked g s).tryUnderWay .before g = false :=
  tryUnderWay_abandonTries .before g (setOutcome g .fault s)

/-- A visit without a stroke ends with FAULT: its readings are abandoned, its survey request is withdrawn, no result is written (R152). -/
theorem trimOnFault_unstroked {g : Sector} {s : State}
    (h : (s.visit = some (g, .reading) ∧ s.surveyReq = none) ∨ s.visit = some (g, .requested)) :
    ∃ v, trimOnFault g s = visitEnded v ∧ Ending g .fault s v ∧ v.tryUnderWay .before g = false
      ∧ ((s.sector g).trim.underWay = false → (v.sector g).trim.result = (s.sector g).trim.result) := by
  obtain ⟨hv, hq, -, -⟩ := faultTrim_frame g s
  have helse := (Elsewhere.faultTrim g s).trans (.unstroked g _)
  have hout := outcome_unstroked g (faultTrim g s)
  have htries := tryUnderWay_unstroked g (faultTrim g s)
  have hres : (s.sector g).trim.underWay = false → ((unstroked g (faultTrim g s)).sector g).trim.result = (s.sector g).trim.result :=
    fun hu => (Spared.unstroked g (faultTrim g s)).result.trans (result_faultTrim hu)
  have hreq : ∀ u, (unstroked g u).surveyReq = u.surveyReq := fun _ => rfl
  have hreq := (hreq _).trans hq
  rw [trimOnFault_eq]
  rcases h with ⟨h, hn⟩ | h
  · rw [visitOnFault_reading (hv.trans h)]
    exact ⟨_, rfl, ⟨helse, hout, hreq.trans hn⟩, htries, hres⟩
  · rw [visitOnFault_requested (hv.trans h)]
    generalize unstroked g (faultTrim g s) = v at *
    exact ⟨_, rfl, ⟨helse.trans (.update g _ _ none _ _ _ _), hout, rfl⟩, htries, hres⟩

/-- A visit whose stroke made no result ends with FAULT and the result REJECTED (R152). -/
theorem trimOnFault_stroke {g : Sector} {s : State} (h : s.visit = some (g, .stroke)) (hq : s.surveyReq = none) :
    ∃ v, trimOnFault g s = visitEnded v ∧ Ending g .fault s v ∧ (v.sector g).trim.result = some (s.rejected g .survey)
      ∧ ∀ r, Alerted r s → Entered .trimRejected (some g) r v := by
  have haw : s.awaiting g = some .survey := by rw [State.awaiting, if_pos h]
  have hw : (trimWaits g s).awaiting g = some .survey := (awaiting_trimWaits g s).trans haw
  obtain ⟨hv, hq', -, hmin⟩ := trimWaits_frame g s
  have hlen : (trimWaits g s).len g = s.len g := by
    have hk : (trimWaits g s).sector g = { s.sector g with trim := ((trimWaits g s).sector g).trim } := by
      unfold trimWaits; split
      · rw [modTrim_eq, sector_modSector_self, abandonBefore, modTrim_eq, sector_modSector_self]; rfl
      · rfl
    rw [State.len, hk]; rfl
  have hrej := (Rejects.rejectTrim g .survey (trimWaits g s)).from (Spared.trimWaits g s).alerted hlen hmin hq'
  have hsp := Spared.setOutcome g g .fault (rejectTrim g .survey (trimWaits g s))
  refine ⟨setOutcome g .fault (rejectTrim g .survey (trimWaits g s)), ?_, ⟨?_, outcome_setOutcome _ _ _, ?_⟩, hsp.result.trans hrej.result,
    fun r hr => (hrej.entered r hr).later hsp.alerted⟩
  · rw [trimOnFault_eq, faultTrim_of_not_short (by rw [haw]; simp), visitOnFault_stroke (hv.trans h), rejectAwaiting, hw]; rfl
  · exact ((Elsewhere.trimWaits g s).trans (.rejectTrim g _ _)).trans (.setOutcome g _ _)
  · exact hrej.surveyReq.trans hq

/-- A visit whose result is made ends with FAULT, and its result stands (R152). -/
theorem trimOnFault_resultMade {g : Sector} {s : State} (h : s.visit = some (g, .resultMade)) (hq : s.surveyReq = none) :
    ∃ v, trimOnFault g s = visitEnded v ∧ Ending g .fault s v
      ∧ ((s.sector g).trim.underWay = false → (v.sector g).trim.result = (s.sector g).trim.result) := by
  obtain ⟨hv, hq', -, -⟩ := faultTrim_frame g s
  refine ⟨setOutcome g .fault (faultTrim g s), ?_, ⟨(Elsewhere.faultTrim g s).trans (.setOutcome g _ _), outcome_setOutcome _ _ _, hq'.trans hq⟩,
    fun hu => (Spared.setOutcome g g .fault (faultTrim g s)).result.trans (result_faultTrim hu)⟩
  rw [trimOnFault_eq, visitOnFault_resultMade (hv.trans h)]

/-- While no survey runs, what a fault does to trim and visit leaves the mode. -/
theorem mode_trimOnFault {g : Sector} {s : State} (h : s.surveyState = .none) : (trimOnFault g s).mode = s.mode := by
  have hf := Elsewhere.faultTrim g s
  have ended : ∀ {v : State}, Elsewhere g (faultTrim g s) v → (visitEnded v).mode = s.mode := fun {v} hv => by
    rw [visitEnded_of_none (hv.surveyState.trans (hf.surveyState.trans h))]
    exact hv.mode.trans hf.mode
  have hrej : Elsewhere g (faultTrim g s) (rejectAwaiting g (faultTrim g s)) := by
    unfold rejectAwaiting; split
    · exact .rejectTrim g _ _
    · exact .refl g _
  have habandon := Elsewhere.unstroked g (faultTrim g s)
  rw [trimOnFault_eq]
  unfold visitOnFault; split
  · split
    · split
      · exact ended habandon
      · exact ended (habandon.trans (.update g _ _ none _ _ _ _))
      · exact ended (hrej.trans (.setOutcome g _ _))
      · exact ended (.setOutcome g _ _)
    · exact hf.mode
  · exact hf.mode

/-! ### The entry to FAULT and the grant pass after it -/

/-- What the entry to FAULT of an enabled sector's group and the grant pass after it leave (R99). -/
structure FaultEntered (g : Sector) (kind : FaultKind) (m : Bool) (s t : State) : Prop where
  framed : Framed s t
  group : (t.sector g).group = (s.sector g).group.faulted kind
  alerted : Alerted s t
  groupFault : ∀ r, Alerted r s → Entered .groupFault (some g) r t
  suspect : m = true → ∀ r, Alerted r s → Entered .suspectPosition (some g) r t
  mode : s.mode = .climb → s.surveyState = .none → t.mode = .hold

theorem FaultEntered.finish {g : Sector} {s : State} (h : s.enabled g = true) (kind : FaultKind) (m v : Bool) :
    FaultEntered g kind m s (finish (enterFault g kind m v s)) := by
  have hgroup : ((enterFault g kind m v s).sector g).group = (s.sector g).group.faulted kind := by
    rw [((Same.enterFault g kind m v s).figures g).2.2.2.2.2.2, modGroup_eq, sector_modSector_self]
  have hfault : (enterFault g kind m v s).groupState g = .fault := by rw [State.groupState, hgroup]; rfl
  have hkeep := Unordered.finish g (enterFault g kind m v s) (by rw [hfault]; decide)
  obtain ⟨d, hd, -⟩ := handOnFault_eq g m v (s.modGroup g fun r => r.faulted kind)
  have hgroup := hkeep.trans hgroup
  rw [enterFault_enabled h, hd] at hgroup ⊢
  have h0 : Alerted s (s.modGroup g fun r => r.faulted kind) := .of_eq rfl rfl
  have htold := Repaced.faultTold g m (s.modGroup g fun r => r.faulted kind)
  have hhold := Repaced.faultHold g m (s.modGroup g fun r => r.faulted kind)
  have halerts : ∀ r, Alerted r s → _ := fun r hr => entered_faultAlerts (g := g) (m := m) (hr.trans h0)
  have hmode : s.mode = .climb → (faultTold g m (s.modGroup g fun r => r.faulted kind)).mode = .hold := fun hc =>
    mode_faultTold (s := s.modGroup g fun r => r.faulted kind) hc m
  have hsurvey : (faultTold g m (s.modGroup g fun r => r.faulted kind)).surveyState = s.surveyState :=
    congrArg (fun x => x.2.2.2.2.2.2.2.1) htold.unpaced
  generalize faultTold g m (s.modGroup g fun r => r.faulted kind) = u at *
  have ha := Aside.trimOnFault g u
  have hal := Alerted.finish { trimOnFault g u with passDue := d }
  have hal2 : Alerted u { trimOnFault g u with passDue := d } := ha.alerted.trans (.of_eq rfl rfl)
  have hlast := hhold.alerted.trans (hal2.trans hal)
  refine ⟨?_, hgroup, (h0.trans htold.alerted).trans (hal2.trans hal), fun r hr => (halerts r hr).1.later hlast,
    fun hm r hr => ((halerts r hr).2 hm).later hlast, fun hc hn => ?_⟩
  · exact (((Kept.modGroup s g _).framed.trans htold.framed).trans ha.toKept.framed).trans
      ((Closes.passSet _ d).toKept.framed.trans (Kept.finish _).framed)
  · have hu : (trimOnFault g u).mode = .hold := (mode_trimOnFault (hsurvey.trans hn)).trans (hmode hc)
    have hdem := demands_finish (s := { trimOnFault g u with passDue := d }) (by rw [show State.mode _ = _ from hu]; decide)
    exact (congrArg Prod.fst hdem).trans hu

/-- In SURVEY what an entry to FAULT tells the trim unit, the alerts entered before. -/
theorem enterFault_survey {g : Sector} {s : State} (h : s.enabled g = true) (hm : s.mode = .survey) (kind : FaultKind) (m v : Bool) :
    ∃ u d, enterFault g kind m v s = { trimOnFault g u with passDue := d } ∧ Elsewhere g s u ∧ u.visit = s.visit ∧ u.surveyReq = s.surveyReq
      ∧ (u.sector g).trim = (s.sector g).trim ∧ u.rejected g .survey = s.rejected g .survey := by
  have hc : (s.modGroup g fun r => r.faulted kind).mode ≠ .climb := by
    show s.mode ≠ _
    rw [hm]; decide
  have htrim : ((faultAlerts g m (s.modGroup g fun r => r.faulted kind)).sector g) =
      { s.sector g with group := (s.sector g).group.faulted kind } := by
    rw [faultAlerts_eq]; exact sector_modSector_self s g fun x => { x with group := x.group.faulted kind }
  have helse : Elsewhere g s (faultAlerts g m (s.modGroup g fun r => r.faulted kind)) :=
    (Elsewhere.modSector g s fun x => { x with group := x.group.faulted kind }).trans (.faultAlerts g m _)
  have hdeck : (faultAlerts g m (s.modGroup g fun r => r.faulted kind)).visit = s.visit
      ∧ (faultAlerts g m (s.modGroup g fun r => r.faulted kind)).surveyReq = s.surveyReq
      ∧ (faultAlerts g m (s.modGroup g fun r => r.faulted kind)).minute = s.minute := by rw [faultAlerts_eq]; exact ⟨rfl, rfl, rfl⟩
  obtain ⟨h1, h2, h3⟩ := hdeck
  obtain ⟨d, hd, -⟩ := handOnFault_eq g m v (s.modGroup g fun r => r.faulted kind)
  rw [enterFault_enabled h, hd, faultTold_of_not_climb hc]
  generalize faultAlerts g m (s.modGroup g fun r => r.faulted kind) = u at *
  refine ⟨u, d, rfl, helse, h1, h2, ?_, ?_⟩
  · rw [htrim]
  · rw [State.rejected, State.rejected, State.len, State.len, htrim, h3]

end Sys2Proof.Machine
end

