-- ==== Sys2Proof/Proofs/ClearFault.lean ====
section
/-! SUPPORT. CLEAR FAULT (ClearFault). -/

namespace Sys2Proof.Machine

/-- A group cleared of its fault (R100). -/
def Group.cleared (r : Group) : Group := { r with state := .idle, fault := none }

theorem framed_clearFault (g : Sector) (s : State) : Framed s (clearFault g s) :=
  (((Kept.modGroup s g Group.cleared).framed.trans (Repaced.goalTest _).framed).trans (Aside.trimOnIdle g _).toKept.framed).trans
    (Closes.passSet _ true).toKept.framed

theorem group_clearFault (g : Sector) (s : State) : ((clearFault g s).sector g).group = (s.sector g).group.cleared := by
  have hgoal := ((Repaced.goalTest (s.modGroup g Group.cleared)).same.figures g).2.2.2.2.2.2
  rw [modGroup_eq, sector_modSector_self] at hgoal
  exact ((Aside.trimOnIdle g _).group g).trans hgoal

/-- A group in FAULT, seen at home, is IDLE, and a pass may grant it (R100). -/
theorem finish_clearFault (g : Sector) (s : State) :
    Framed s (finish (clearFault g s))
      ∧ (NoSupply s → (finish (clearFault g s)).groupState g = .idle)
      ∧ ((finish (clearFault g s)).groupState g = .idle ∨ (finish (clearFault g s)).groupState g = .pressurizing)
      ∧ ((finish (clearFault g s)).sector g).group.fault = none
      ∧ ((finish (clearFault g s)).sector g).group.strokes = (s.sector g).group.strokes := by
  have hf := framed_clearFault g s
  have hg := group_clearFault g s
  generalize clearFault g s = u at *
  have hidle : u.groupState g = .idle := by rw [State.groupState, hg]; rfl
  obtain ⟨h1, h2, h3⟩ := (finish_of_idle hidle).kept hidle
  refine ⟨hf.trans (Kept.finish u).framed, fun hn => ?_, h1, ?_, ?_⟩
  · have hn : NoSupply u := by rw [NoSupply, hf.supply]; exact hn
    rw [finish_of_noSupply hn]; exact hidle
  · rw [h2, hg]; rfl
  · rw [h3, hg]; rfl

theorem notHome_iff {s : State} {g : Sector} : s.notHome g = true ↔ s.groupState g = .fault
    ∧ ¬((s.sector g).group.retSw.state = some true ∧ (s.sector g).group.endSw.state = some false) := by
  simp [State.notHome, State.groupState, imp_iff_not_or]

theorem parse_clearFault (g : Sector) : parsePayload .clearFault [byteOf g.val] = some (.clearFault g.val) := by
  have hg : (byteOf g.val).toNat = g.val := by rw [byteOf_toNat]; omega
  show some (Request.clearFault (byteOf g.val).toNat) = _
  rw [hg]

theorem exec_clearFault (g : Sector) (s : State) :
    exec (.clearFault .console [byteOf g.val]) s = .next (arrive .console .clearFault [byteOf g.val] s) := rfl

/-- The request outside UNSET (R100). -/
theorem serveClearFault_eq {g : Sector} {s : State} (h : s.mode ≠ .unset) :
    serveClearFault g.val s = if s.notHome g then refuse s .notRetracted
      else if s.groupState g = .fault then (finish (clearFault g s), ⟨.ok, [((finish (clearFault g s)).groupState g).code]⟩)
      else (s, ⟨.ok, [(s.groupState g).code]⟩) := by
  simp only [serveClearFault, toSector_val, if_neg h]
  split
  · rfl
  · split <;> rfl

/-- Settles O17: the three rows of CLEAR FAULT, a group cleared left to the grant pass. -/
theorem clearFaultRows : Obligations.ClearFault := by
  intro s g hr hmode
  have hp := parse_clearFault g
  have hsec : ∀ h, (toHunting .console s).sector h = s.sector h := fun h => by rw [toHunting, sector_setPort]
  have hstate : (toHunting .console s).groupState g = s.groupState g := by rw [State.groupState, hsec]; rfl
  have hserve : serveRequest (.clearFault g.val) (toHunting .console s) = _ := serveClearFault_eq (s := toHunting .console s) hmode
  have hhome : (toHunting .console s).notHome g = true ↔ _ := notHome_iff
  rw [hstate, hsec] at hhome
  rw [hstate] at hserve
  rw [exec_clearFault]
  refine ⟨fun hf h1 h2 => ?_, fun hf => ?_, fun hf hn => ?_⟩
  · rw [if_neg (by rw [hhome]; simp [h1, h2]), if_pos hf] at hserve
    obtain ⟨hframe, hidle, hrests, hfault, hstrokes⟩ := finish_clearFault g (toHunting .console s)
    obtain ⟨t, harr, hans, ht⟩ := arrive_served (p := .console) rfl hr hp hserve hframe.ports
    have hgs : t.groupState g = (finish (clearFault g (toHunting .console s))).groupState g := by rw [State.groupState, ht.sector]; rfl
    refine ⟨t, congrArg _ harr, ?_, ?_, ?_, ?_, ?_, fun h => ?_, ht.settings.trans hframe.settings, ht.feed.trans hframe.feed,
      ht.tables.trans hframe.tables, ht.supply.trans hframe.supply⟩
    · rw [hgs]; exact hans
    · rw [hgs]; exact hrests
    · rw [hgs]; exact hidle
    · rw [ht.sector]; exact hfault
    · rw [ht.sector, hstrokes, hsec]
    · rw [ht.sector, hframe.held, hsec]
  · rw [if_neg (by rw [hhome]; simp [hf]), if_neg hf] at hserve
    exact congrArg _ (arrive_serves (k := .clearFault) hr hp rfl hserve)
  · rw [if_pos (hhome.2 ⟨hf, hn⟩)] at hserve
    exact congrArg _ (arrive_serves (k := .clearFault) hr hp rfl hserve)

end Sys2Proof.Machine
end

