-- ==== Sys2Proof/Proofs/Switches.lean ====
section
/-! SUPPORT. The switch inputs and the switch events of a group at rest (SwitchInputs). -/

namespace Sys2Proof.Machine

/-! ### One switch of a group -/

/-- A group with one switch set. -/
def Group.withSwitch (r : Group) (w : SwitchId) (x : Switch) : Group :=
  match w with
  | .strokeEnd => { r with endSw := x }
  | .retracted => { r with retSw := x }

theorem setSwitch_eq (g : Sector) (w : SwitchId) (x : Switch) (s : State) :
    setSwitch g w x s = s.modSector g fun y => { y with group := y.group.withSwitch w x } := rfl

theorem group_setSwitch_eq (g : Sector) (w : SwitchId) (x : Switch) (s : State) :
    ((setSwitch g w x s).sector g).group = (s.sector g).group.withSwitch w x := by rw [setSwitch_eq, sector_modSector_self]

theorem switch_withSwitch (r : Group) (w : SwitchId) (x : Switch) : (r.withSwitch w x).switch w = x := by cases w <;> rfl

theorem state_withSwitch (r : Group) (w : SwitchId) (x : Switch) :
    (r.withSwitch w x).state = r.state ∧ (r.withSwitch w x).fault = r.fault := by cases w <;> exact ⟨rfl, rfl⟩

/-- A switch input timed at the level that its debounced state does not have (R86): the state changes, and the event acts. -/
theorem switchChange_of_timed {g : Sector} {w : SwitchId} {level : Bool} {ms : Nat} {s : State}
    (h : (s.sector g).group.switch w = { state := some !level, timing := some ⟨level, ms⟩ }) (event : State → State) :
    switchChange g w level event s = event (setSwitch g w { state := some level, timing := none } s) := by
  rw [switchChange, if_pos]
  rw [h]; simp [Switch.ready]

/-! ### The inputs (R86, R103) -/

/-- A group whose switches are both known, IDLE and not at home, is in FAULT(SWITCH) (R103). -/
def Group.checkedHome (r : Group) : Group :=
  if r.state = .idle ∧ r.endSw.state ≠ none ∧ r.retSw.state ≠ none ∧ ¬(r.retSw.state = some true ∧ r.endSw.state = some false) then
    r.faulted .switch
  else r

theorem firstState_eq {g : Sector} {w : SwitchId} {level : Bool} {s : State} (h : ((s.sector g).group.switch w).state = none)
    (ht : ((s.sector g).group.switch w).timing.map Timing.level ≠ some !level) :
    firstState g w level s =
      s.modSector g fun x => { x with group := (x.group.withSwitch w { state := some level, timing := none }).checkedHome } := by
  have hset : ∀ f : Group → Group, (setSwitch g w { state := some level, timing := none } s).modGroup g f =
      s.modSector g fun x => { x with group := f (x.group.withSwitch w { state := some level, timing := none }) } := fun f => by
    rw [setSwitch_eq, modGroup_eq, modSector_modSector]
  simp only [firstState, if_pos (show _ ∧ _ from ⟨h, ht⟩)]
  rw [group_setSwitch_eq]
  split
  · next hc =>
    refine (hset _).trans (modSector_congr ?_)
    rw [Group.checkedHome, if_pos]
    · rfl
    · simpa only [Option.isSome_iff_ne_none, and_assoc, and_comm, and_left_comm] using hc
  · next hc =>
    rw [setSwitch_eq]
    refine modSector_congr ?_
    rw [Group.checkedHome, if_neg]
    simpa only [Option.isSome_iff_ne_none, and_assoc, and_comm, and_left_comm] using hc

theorem switch_checkedHome (r : Group) (w : SwitchId) : r.checkedHome.switch w = r.switch w := by
  unfold Group.checkedHome; split
  · cases w <;> rfl
  · rfl

theorem state_checkedHome (r : Group) :
    (r.checkedHome.state, r.checkedHome.fault) =
      if r.state = .idle ∧ r.endSw.state ≠ none ∧ r.retSw.state ≠ none ∧ ¬(r.retSw.state = some true ∧ r.endSw.state = some false) then
        (GroupState.fault, some FaultKind.switch)
      else (r.state, r.fault) := by unfold Group.checkedHome; split <;> rfl

/-- The first debounced state of a switch is taken without an event (R103). -/
theorem firstState_taken {g : Sector} {w : SwitchId} {level : Bool} {s : State} (h : ((s.sector g).group.switch w).state = none)
    (ht : ((s.sector g).group.switch w).timing.map Timing.level ≠ some !level) :
    let t := firstState g w level s
    (t.sector g).group.switch w = { state := some level, timing := none }
      ∧ (t.groupState g, (t.sector g).group.fault) =
        (let ends := if w = .strokeEnd then some level else (s.sector g).group.endSw.state
         let home := if w = .retracted then some level else (s.sector g).group.retSw.state
         if s.groupState g = .idle ∧ ends ≠ none ∧ home ≠ none ∧ ¬(home = some true ∧ ends = some false) then
          (GroupState.fault, some FaultKind.switch)
         else (s.groupState g, (s.sector g).group.fault))
      ∧ ∀ k, (t.sector k).held = (s.sector k).held ∧ (k ≠ g → t.sector k = s.sector k) := by
  have hself := sector_modSector_self s g fun x =>
    { x with group := (x.group.withSwitch w { state := some level, timing := none }).checkedHome }
  have hheld := (Kept.modSector s g (fun x => { x with group := (x.group.withSwitch w { state := some level, timing := none }).checkedHome })
    fun _ => ⟨rfl, rfl⟩).held
  dsimp only
  rw [firstState_eq h ht, State.groupState, hself]
  refine ⟨?_, (state_checkedHome _).trans ?_, fun k => ⟨hheld k, fun e => sector_modSector_ne s _ e⟩⟩
  · rw [switch_checkedHome, switch_withSwitch]
  · cases w <;> rfl

/-! ### A switch taken, its fault noted (R87) -/

/-- A switch's debounced state has been set, and a switch fault is noted where asked for. -/
def switchTaken (g : Sector) (w : SwitchId) (note : Bool) (s : State) : State :=
  let s1 := setSwitch g w { state := some true, timing := none } s
  if note then noteSwitchFault g s1 else s1

/-- What the switch and the note leave of s. -/
structure Taken (g : Sector) (w : SwitchId) (note : Bool) (s t : State) : Prop where
  frame : ∃ x a f, t = { s with sectors := x, alerts := a, alertFull := f }
  group : (t.sector g).group = (s.sector g).group.withSwitch w { state := some true, timing := none }
  table : (t.sector g).table = { (s.sector g).table with
    flags := if note = true ∧ s.enabled g = true then { (s.sector g).table.flags with switchFault := true } else (s.sector g).table.flags }
  rest : t.sector g = { s.sector g with table := (t.sector g).table, group := (t.sector g).group }
  others : ∀ h, h ≠ g → t.sector h = s.sector h
  entered : note = true → s.enabled g = true → ∀ r, Alerted r s → Entered .switchFault (some g) r t
  elsewhere : Elsewhere g s t
  alerts : s.enabled g = false → t.alerts = s.alerts

theorem Taken.switchTaken (g : Sector) (w : SwitchId) (note : Bool) (s : State) : Taken g w note s (switchTaken g w note s) := by
  have h0 : Marked g (s.sector g).table.flags s (setSwitch g w { state := some true, timing := none } s) := (Marked.refl g s).modGroup _
  have hg := group_setSwitch_eq g w { state := some true, timing := none } s
  have he : Elsewhere g s (setSwitch g w { state := some true, timing := none } s) := by rw [setSwitch_eq]; exact .modSector g s _
  have hf : ∃ x a f, setSwitch g w { state := some true, timing := none } s = { s with sectors := x, alerts := a, alertFull := f } := ⟨_, _, _, rfl⟩
  have hen : (setSwitch g w { state := some true, timing := none } s).enabled g = s.enabled g := by rw [State.enabled, h0.sector]; rfl
  unfold Machine.switchTaken; dsimp only
  have ha : (setSwitch g w { state := some true, timing := none } s).alerts = s.alerts := rfl
  generalize setSwitch g w { state := some true, timing := none } s = u at *
  by_cases hn : note = true ∧ s.enabled g = true
  · obtain ⟨h1, h2⟩ := hn
    obtain ⟨hm, -⟩ := h0.noteSwitchFault (hen.trans h2)
    have hnote : noteSwitchFault g u = enterAlert .switchFault (some g) (u.modFlags g fun f => { f with switchFault := true }) := by
      rw [noteSwitchFault, if_pos (hen.trans h2)]
    have hflag : Alerted s (u.modFlags g fun f => { f with switchFault := true }) := h0.alerted.trans (.of_eq rfl rfl)
    rw [if_pos h1]
    refine ⟨?_, ((Same.noteSwitchFault g u).figures g).2.2.2.2.2.2.trans hg, ?_, ?_, hm.others, fun _ _ r hr => ?_, ?_, fun h => absurd h2 (by simp [h])⟩
    · obtain ⟨x, a, f, rfl⟩ := hf
      rw [hnote, enterAlert_eq]; exact ⟨_, _, _, rfl⟩
    · rw [if_pos ⟨h1, h2⟩, hm.sector]
    · rw [hm.sector]
    · rw [hnote]; exact entered_of_alerted (hr.trans hflag) _ _
    · rw [hnote]
      exact (he.trans (.modSector g u fun x => { x with table := { x.table with flags := { x.table.flags with switchFault := true } } })).trans
        (.enterAlert g (by decide) _ _)
  · have hu : (if note then noteSwitchFault g u else u) = u := by
      split
      · next h => rw [noteSwitchFault, if_neg]; rw [hen]; exact fun h' => hn ⟨h, h'⟩
      · rfl
    rw [hu]
    refine ⟨hf, hg, ?_, ?_, h0.others, fun h1 h2 => absurd ⟨h1, h2⟩ hn, he, fun _ => ha⟩
    · rw [if_neg hn, h0.sector]
    · rw [h0.sector]

end Sys2Proof.Machine
end

