-- ==== Sys2Proof/Proofs/SwitchInputs.lean ====
section
/-! SUPPORT. The switch inputs, and the switches lost and taken in IDLE (SwitchInputs). -/

namespace Sys2Proof.Machine

/-! ### The commands at an IDLE group -/

/-- The other switch of the group is on. -/
def Group.otherOn (r : Group) (w : SwitchId) : Prop :=
  (if w = .strokeEnd then r.retSw.state else r.endSw.state) = some true

/-- The command of a switch taken. -/
def takenInstr (g : Sector) (w : SwitchId) : Instr := if w = .strokeEnd then .strokeEndTaken g else .retractedTaken g

theorem Taken.passDue {g : Sector} {w : SwitchId} {note : Bool} {s t : State} (h : Taken g w note s t) : t.passDue = s.passDue := by
  obtain ⟨x, a, f, ht⟩ := h.frame
  rw [ht]

theorem exec_taken {g : Sector} {w : SwitchId} {ms : Nat} {s : State} (hq : Quiet s)
    (hw : (s.sector g).group.switch w = { state := some false, timing := some ⟨true, ms⟩ }) :
    exec (takenInstr g w) s = .next (finish ((if w = .strokeEnd then strokeEndEvent g else retractedEvent g)
      (setSwitch g w { state := some true, timing := none } s))) := by
  have h : exec (takenInstr g w) s = .next (finish (switchChange g w true (if w = .strokeEnd then strokeEndEvent g else retractedEvent g)
      (settleDue s))) := by cases w <;> rfl
  rw [h, settleDue_of_due hq.1, switchChange_of_timed hw]

/-- At an IDLE group the stroke-end switch alone is noted, the retracted switch alone is not (R87, R88). -/
theorem exec_taken_alone {g : Sector} {w : SwitchId} {ms : Nat} {s : State} (hq : Quiet s) (hi : s.groupState g = .idle)
    (hw : (s.sector g).group.switch w = { state := some false, timing := some ⟨true, ms⟩ }) (ho : ¬(s.sector g).group.otherOn w) :
    exec (takenInstr g w) s = .next (switchTaken g w (w = .strokeEnd) s) := by
  have hg := group_setSwitch_eq g w { state := some true, timing := none } s
  have hst : (setSwitch g w { state := some true, timing := none } s).groupState g = .idle := by
    rw [State.groupState, hg, (state_withSwitch _ w _).1]; exact hi
  have hpass := (Taken.switchTaken g w (w = .strokeEnd) s).passDue.trans hq.2
  rw [exec_taken hq hw, ← finish_of_not_due hpass]
  cases w <;> simp only [Group.otherOn, if_true, reduceCtorEq, if_false] at ho <;>
    simp [strokeEndEvent, retractedEvent, hst, hg, Group.withSwitch, ho, switchTaken]

/-- With the other switch on as well the group enters FAULT(SWITCH) (R87, R99). -/
theorem exec_taken_both {g : Sector} {w : SwitchId} {ms : Nat} {s : State} (hq : Quiet s) (hi : s.groupState g = .idle)
    (hw : (s.sector g).group.switch w = { state := some false, timing := some ⟨true, ms⟩ }) (ho : (s.sector g).group.otherOn w) :
    exec (takenInstr g w) s = .next (finish (enterFault g .switch false false (switchTaken g w true s))) := by
  have hg := group_setSwitch_eq g w { state := some true, timing := none } s
  have hst : (setSwitch g w { state := some true, timing := none } s).groupState g = .idle := by
    rw [State.groupState, hg, (state_withSwitch _ w _).1]; exact hi
  rw [exec_taken hq hw]
  cases w <;> simp only [Group.otherOn, if_true, reduceCtorEq, if_false] at ho <;>
    simp [strokeEndEvent, retractedEvent, hst, hg, Group.withSwitch, ho, switchTaken]

/-! ### The entry to FAULT(SWITCH) -/

/-- Without a visit the trim request that is READING becomes WAITING, and the grant pass leaves it (R149). -/
theorem request_faultEntered {g : Sector} {s : State} (h : s.enabled g = true) (hv : s.visit = none) (hp : s.passDue = false)
    (kind : FaultKind) :
    ((finish (enterFault g kind false false s)).sector g).trim.request =
      if (s.sector g).trim.request = .reading then .waiting else (s.sector g).trim.request := by
  obtain ⟨d, hd, hpass⟩ := handOnFault_eq g false false (s.modGroup g fun r => r.faulted kind)
  have hgroup : ((enterFault g kind false false s).sector g).group = (s.sector g).group.faulted kind := by
    rw [((Same.enterFault g kind false false s).figures g).2.2.2.2.2.2, modGroup_eq, sector_modSector_self]
  have hfault : (enterFault g kind false false s).groupState g = .fault := by rw [State.groupState, hgroup]; rfl
  have htold := Repaced.faultTold g false (s.modGroup g fun r => r.faulted kind)
  have htrim : ((faultTold g false (s.modGroup g fun r => r.faulted kind)).sector g).trim = (s.sector g).trim := by
    rw [htold.sector g, modGroup_eq, sector_modSector_self]
  have hvisit : (faultTold g false (s.modGroup g fun r => r.faulted kind)).visit = none :=
    (congrArg (fun x => x.2.2.2.2.2.2.2.2.1) htold.unpaced).trans hv
  have hcases : (s.mode = .climb ∧ (faultTold g false (s.modGroup g fun r => r.faulted kind)).mode = .hold)
      ∨ (faultTold g false (s.modGroup g fun r => r.faulted kind)).passDue = false := by
    by_cases hc : s.mode = .climb
    · exact .inl ⟨hc, mode_faultTold (s := s.modGroup g fun r => r.faulted kind) hc false⟩
    · rw [faultTold_of_not_climb (s := s.modGroup g fun r => r.faulted kind) hc, faultAlerts_eq]
      exact .inr hp
  rw [enterFault_enabled h, hd] at hfault ⊢
  generalize faultTold g false (s.modGroup g fun r => r.faulted kind) = u at *
  obtain ⟨h1, h2, h3, h4⟩ := faultTrim_frame g u
  have hel := Elsewhere.faultTrim g u
  rw [trimOnFault_none hvisit] at hpass hfault ⊢
  rw [htrim] at h4
  generalize faultTrim g u = v at *
  rcases hcases with ⟨-, hm⟩ | hp
  · have hmode : v.mode = .hold := hel.mode.trans hm
    rw [sector_finish (s := { v with passDue := d }) (by show v.mode ≠ _; rw [hmode]; decide) (by rw [hfault]; decide) (by rw [hfault]; decide)]
    exact h4
  · rw [finish_of_not_due (s := { v with passDue := d }) ((hpass rfl).trans (h3.trans hp))]
    exact h4

/-- What a switch taken while the other is on leaves of an IDLE group in an enabled sector: FAULT(SWITCH), with its switch fault (R87, R99). -/
structure SwitchFaulted (g : Sector) (w : SwitchId) (s t : State) : Prop where
  framed : ∃ n, Taken g w true s n ∧ FaultEntered g .switch false n t
  request : s.visit = none → (t.sector g).trim.request =
    if (s.sector g).trim.request = .reading then .waiting else (s.sector g).trim.request
  visit : s.mode = .survey → (s.visit = some (g, .reading) ∧ s.surveyReq = none) ∨ s.visit = some (g, .requested) →
    VisitEnds g .fault s t ∧ ((s.sector g).trim.underWay = false → (t.sector g).trim.result = (s.sector g).trim.result)
      ∧ t.tryUnderWay .before g = false

theorem SwitchFaulted.finish {g : Sector} {s : State} (w : SwitchId) (hp : s.passDue = false) (h : s.enabled g = true) :
    SwitchFaulted g w s (finish (enterFault g .switch false false (switchTaken g w true s))) := by
  have ht := Taken.switchTaken g w true s
  generalize switchTaken g w true s = n at *
  have hen : n.enabled g = true := by rw [State.enabled, ht.table]; exact h
  have htrim : (n.sector g).trim = (s.sector g).trim := by rw [ht.rest]
  obtain ⟨x, a, f, hf⟩ := ht.frame
  have hvisit : n.visit = s.visit := by rw [hf]
  have hreq : n.surveyReq = s.surveyReq := by rw [hf]
  have hmode : n.mode = s.mode := by rw [hf]
  refine ⟨⟨n, ht, .finish hen _ _ _⟩, fun hv => ?_, fun hm hv => ?_⟩
  · rw [request_faultEntered hen (hvisit.trans hv) (ht.passDue.trans hp), htrim]
  · obtain ⟨u, d, hu, helse, u1, u2, u3, -⟩ := enterFault_survey hen (hmode.trans hm) .switch false false
    obtain ⟨v, hv, hend, htries, hres⟩ := trimOnFault_unstroked (g := g) (s := u) (by rw [u1, u2, hvisit, hreq]; exact hv)
    have hpassed := (hend.after (ht.elsewhere.trans helse)).passed (by decide) hm d
    rw [hu, hv]
    refine ⟨hpassed.ends, fun hw => ?_, hpassed.tries htries (by decide)⟩
    rw [u3, htrim] at hres
    exact hpassed.result.trans (hres hw)

/-! ### The statement -/

theorem switchLost (s : State) (g : Sector) (ms : Nat) (hq : Quiet s) :
    ((s.sector g).group.endSw = { state := some true, timing := some ⟨false, ms⟩ } →
      exec (.strokeEndLost g) s = .next (setSwitch g .strokeEnd { state := some false, timing := none } s))
    ∧ ((s.sector g).group.retSw = { state := some true, timing := some ⟨false, ms⟩ } →
      exec (.retractedLost g) s =
        .next (if s.groupState g = .idle ∧ s.enabled g = true then
          enterAlert .switchFault (some g)
            ((setSwitch g .retracted { state := some false, timing := none } s).modFlags g fun f => { f with switchFault := true })
        else setSwitch g .retracted { state := some false, timing := none } s)) := by
  refine ⟨fun h => ?_, fun h => ?_⟩
  · have hexec : exec (.strokeEndLost g) s = .next (finish (switchChange g .strokeEnd false id (settleDue s))) := rfl
    rw [hexec, settleDue_of_due hq.1, switchChange_of_timed (s := s) (g := g) (w := .strokeEnd) (level := false) h]
    exact congrArg _ (finish_of_not_due hq.2)
  · have hexec : exec (.retractedLost g) s = .next (finish (switchChange g .retracted false (retractedLostEvent g) (settleDue s))) := rfl
    rw [hexec, settleDue_of_due hq.1, switchChange_of_timed (s := s) (g := g) (w := .retracted) (level := false) h]
    have hpass : (setSwitch g .retracted { state := some false, timing := none } s).passDue = false := hq.2
    have hst : (setSwitch g .retracted { state := some false, timing := none } s).groupState g = s.groupState g := by
      rw [State.groupState, group_setSwitch_eq]; rfl
    have hen : (setSwitch g .retracted { state := some false, timing := none } s).enabled g = s.enabled g := by
      rw [State.enabled, setSwitch_eq, sector_modSector_self]; rfl
    generalize setSwitch g .retracted { state := some false, timing := none } s = u at *
    refine congrArg Host.Outcome.next ?_
    rw [retractedLostEvent, noteSwitchFault, hst, hen]
    by_cases hi : s.groupState g = .idle <;> by_cases he : s.enabled g = true <;> simp only [hi, he, if_true, if_false, and_self, false_and]
    · rw [finish_of_not_due]; rw [enterAlert_eq]; exact hpass
    all_goals exact finish_of_not_due hpass

/-- The three inputs, whatever the group does (R86, R103). -/
theorem switchInput (s : State) (g : Sector) (w : SwitchId) (level : Bool) (hd : s.due = {}) :
    exec (.switchInputChange g w level) s = .next (inputChange g w level s)
      ∧ exec (.inputReturnsToDebouncedState g w) s = .next (inputReturn g w s)
      ∧ exec (.switchFirstState g w level) s = .next (firstState g w level s) := by
  have h := settleDue_of_due hd
  exact ⟨congrArg (fun u => Host.Outcome.next (inputChange g w level u)) h, congrArg (fun u => Host.Outcome.next (inputReturn g w u)) h,
    congrArg (fun u => Host.Outcome.next (firstState g w level u)) h⟩

/-- With one switch taken and the other on, a disabled sector's group is in FAULT(SWITCH), and nothing else changes (R87, R99). -/
theorem finish_enterFault_disabled {g : Sector} {w : SwitchId} {s : State} (hp : s.passDue = false) (h : s.enabled g = false) :
    finish (enterFault g .switch false false (switchTaken g w true s)) =
      (setSwitch g w { state := some true, timing := none } s).modGroup g fun r => r.faulted .switch := by
  have hen : (setSwitch g w { state := some true, timing := none } s).enabled g = false := by
    rw [State.enabled, setSwitch_eq, sector_modSector_self]; exact h
  have ht : switchTaken g w true s = setSwitch g w { state := some true, timing := none } s := by
    simp only [switchTaken, if_true, noteSwitchFault, hen, Bool.false_eq_true, if_false]
  rw [ht, enterFault_disabled hen]
  exact finish_of_not_due hp

/-- Settles O37: the inputs one equation each, the events by the other switch's state and the sector's enabling. -/
theorem switchInputs : Obligations.SwitchInputs := by
  refine ⟨fun s g w level hd => ?_, fun s g ms hq => switchLost s g ms hq, fun s g w ms hq hi hw => ?_⟩
  · obtain ⟨e1, e2, e3⟩ := switchInput s g w level hd
    rw [e1, e2, e3]
    refine ⟨fun h1 h2 => ?_, fun b tm h1 h2 => ?_, fun h1 h2 => ?_⟩
    · rw [inputChange, if_pos ⟨h1, h2⟩]
    · rw [inputReturn, if_pos (by rw [h1, h2]; exact ⟨rfl, rfl⟩), h1]
    · obtain ⟨k1, k2, k3⟩ := firstState_taken h1 h2
      refine ⟨_, rfl, k1, k2, k3, ?_⟩
      rw [firstState_eq h1 h2]
      exact ⟨rfl, rfl, rfl, rfl, rfl⟩
  · intro c other u
    have hen : u.enabled g = s.enabled g := by
      show (setSwitch g w { state := some true, timing := none } s).enabled g = _
      rw [State.enabled, setSwitch_eq, sector_modSector_self]; rfl
    refine ⟨fun ho => ?_, fun ho hd => ?_, fun ho he => ?_⟩
    · refine (exec_taken_alone hq hi hw ho).trans (congrArg _ ?_)
      show (if decide (w = .strokeEnd) = true then noteSwitchFault g u else u) = _
      rw [noteSwitchFault, hen]
      by_cases hwe : w = .strokeEnd <;> by_cases he : s.enabled g = true <;> simp [hwe, he]
    · exact (exec_taken_both hq hi hw ho).trans (congrArg _ (finish_enterFault_disabled hq.2 hd))
    · obtain ⟨⟨n, ht, hf⟩, hreq, hvis⟩ := SwitchFaulted.finish w hq.2 he
      obtain ⟨x, a, f, hn⟩ := ht.frame
      have hframe := hf.framed
      refine ⟨_, exec_taken_both hq hi hw ho, ?_, ?_, ?_, hf.groupFault s ht.elsewhere.alerted, fun hm hs => ?_, hreq, hvis,
        fun h => ⟨?_, fun e => ?_⟩, ?_, ?_, ?_, ?_, ?_⟩
      · rw [hf.group, ht.group, ← group_setSwitch_eq]; rfl
      · rw [hframe.table, ht.table, if_pos ⟨rfl, he⟩]
      · exact (ht.entered rfl he s (.refl s)).later hf.alerted
      · exact hf.mode (ht.elsewhere.mode.trans hm) (ht.elsewhere.surveyState.trans hs)
      · rw [hframe.layers]
        by_cases e : h = g
        · subst e; rw [ht.rest]
        · rw [ht.others h e]
      · rw [hframe.held, ht.others h e]
      · rw [hframe.settings, hn]; rfl
      · rw [hframe.feed, hn]; rfl
      · rw [hframe.tables, hn]; rfl
      · rw [hframe.supply, hn]
      · rw [hframe.ports, hn]; rfl

end Sys2Proof.Machine
end

