-- ==== Sys2Proof/Proofs/StrokeEnds.lean ====
section
/-! SUPPORT. How a stroke ends in VENTING: home, or in FAULT with the margin set (StrokeEnds). -/

namespace Sys2Proof.Machine

/-! ### The way home (R94) -/

/-- A group that has come home (R94). -/
def Group.home (r : Group) : Group := { r with state := .idle, fault := none, timer := none, windows := 0 }

/-- The trim unit, told that the group of g is IDLE. -/
def homeTold (g : Sector) (s : State) : State := trimOnIdle g (s.modGroup g Group.home)

theorem enterIdle_eq (g : Sector) (s : State) : enterIdle g s = { visitOnIdle g (homeTold g s) with passDue := true } := rfl

theorem trimOnIdle_frame (g : Sector) (s : State) :
    (trimOnIdle g s).visit = s.visit ∧ (trimOnIdle g s).surveyReq = s.surveyReq ∧ Elsewhere g s (trimOnIdle g s)
      ∧ ((trimOnIdle g s).sector g).trim.outcome = (s.sector g).trim.outcome := by
  unfold trimOnIdle; split
  · obtain ⟨-, -, h1, h2, h3⟩ := startBefore_frame g (s.modTrim g fun t => { t with request := .reading })
    refine ⟨h1, h2, ?_, (h3 g).trans ?_⟩
    · refine (Elsewhere.modSector g s fun x => { x with trim := { x.trim with request := .reading } }).trans ?_
      exact (Elsewhere.modSector g _ fun x => { x with trim := { x.trim with before := [] } }).trans (.requestTry g g _ _ _)
    · rw [modTrim_eq, sector_modSector_self]
  · exact ⟨rfl, rfl, .refl g s, rfl⟩

/-- What the way home and the grant pass after it leave (R94, R152). -/
structure CameHome (g : Sector) (s t : State) : Prop where
  framed : Framed s t
  alerted : Alerted s t
  state : t.groupState g = .idle ∨ t.groupState g = .pressurizing
  group : NoSupply s → (t.sector g).group = (s.sector g).group.home
  strokes : (t.sector g).group.strokes = (s.sector g).group.strokes
  visit : ∀ o r, Elsewhere g r s → r.mode = .survey → s.surveyReq = none → s.visit = some (g, .resultMade) →
    (s.sector g).trim.outcome = some o → o ≠ .pending → VisitEnds g o r t

theorem CameHome.finish (g : Sector) (s : State) : CameHome g s (finish (enterIdle g s)) := by
  have hmod : Elsewhere g s (s.modGroup g Group.home) := .modSector g s fun x => { x with group := x.group.home }
  have haside := Aside.trimOnIdle g (s.modGroup g Group.home)
  obtain ⟨t1, t2, t3, t4⟩ := trimOnIdle_frame g (s.modGroup g Group.home)
  have hself : (s.modGroup g Group.home).sector g = { s.sector g with group := (s.sector g).group.home } := sector_modSector_self s g _
  have hend := haside.trans (.visitOnIdle g _)
  have hgroup := (hend.group g).trans (congrArg SectorState.group hself)
  have hframed := (Kept.modGroup s g Group.home).framed.trans hend.toKept.framed
  have halerted : Alerted s _ := hmod.alerted.trans hend.alerted
  have hvisit : ∀ o r, Elsewhere g r s → s.surveyReq = none → s.visit = some (g, .resultMade) → (s.sector g).trim.outcome = some o →
      visitOnIdle g (homeTold g s) = visitEnded (homeTold g s) ∧ Ending g o r (homeTold g s) := fun o r hr hq hv ho => by
    refine ⟨if_pos (.inr (t1.trans hv)), (hr.trans hmod).trans t3, t4.trans ?_, t2.trans hq⟩
    rw [hself]; exact ho
  rw [enterIdle_eq]
  change Framed s (visitOnIdle g (homeTold g s)) at hframed
  change Alerted s (visitOnIdle g (homeTold g s)) at halerted
  change ((visitOnIdle g (homeTold g s)).sector g).group = _ at hgroup
  generalize homeTold g s = h at *
  have hidle : ({ visitOnIdle g h with passDue := true } : State).groupState g = .idle := (congrArg Group.state hgroup).trans rfl
  obtain ⟨k1, -, k3⟩ := (finish_of_idle hidle).kept hidle
  have hpass := (Closes.passSet (visitOnIdle g h) true)
  refine ⟨(hframed.trans hpass.toKept.framed).trans (Kept.finish _).framed, (halerted.trans hpass.alerted).trans (.finish _), k1,
    fun hn => ?_, k3.trans ((congrArg Group.strokes hgroup).trans rfl), fun o r hr hm hq hv ho hne => ?_⟩
  · rw [finish_of_noSupply]
    · exact hgroup
    · exact fun hs => hn (hframed.supply ▸ hs)
  · obtain ⟨he, hend⟩ := hvisit o r hr hq hv ho
    rw [he]
    exact (hend.passed hne hm true).ends

/-! ### The stroke that fails (R10, R99) -/

/-- From s to n the group of g is r and its flags are f; alerts have been entered, and nothing else has changed. -/
structure Brought (g : Sector) (f : StickyFlags) (r : Group) (s n : State) : Prop where
  frame : ∃ x a b, n = { s with sectors := x, alerts := a, alertFull := b }
  sector : n.sector g = { s.sector g with table := { (s.sector g).table with flags := f }, group := r }
  others : ∀ h, h ≠ g → n.sector h = s.sector h
  elsewhere : Elsewhere g s n
  alerts : s.enabled g = false → n.alerts = s.alerts

theorem Brought.refl (g : Sector) (s : State) : Brought g (s.sector g).table.flags (s.sector g).group s s :=
  ⟨⟨_, _, _, rfl⟩, rfl, fun _ _ => rfl, .refl g s, fun _ => rfl⟩

theorem Taken.brought {g : Sector} {w : SwitchId} {note : Bool} {s n : State} (h : Taken g w note s n) :
    Brought g (if note = true ∧ s.enabled g = true then { (s.sector g).table.flags with switchFault := true } else (s.sector g).table.flags)
      ((s.sector g).group.withSwitch w { state := some true, timing := none }) s n :=
  ⟨h.frame, by rw [h.rest, h.table, h.group], h.others, h.elsewhere, h.alerts⟩

/-- The stroke closed into the margin on top of that. -/
structure Margined (g : Sector) (f : StickyFlags) (r : Group) (s m : State) : Prop where
  frame : ∃ x a b, m = { s with sectors := x, alerts := a, alertFull := b }
  sector : m.sector g =
    { s.sector g with table := { (s.sector g).table with margin := r.latched.getD 0, flags := f }, group := r }
  others : ∀ h, h ≠ g → m.sector h = s.sector h
  elsewhere : Elsewhere g s m
  alerts : s.enabled g = false → m.alerts = s.alerts

theorem Brought.margined {g : Sector} {f : StickyFlags} {r : Group} {s n : State} (h : Brought g f r s n) :
    Margined g f r s (closeIntoMargin g n) := by
  obtain ⟨⟨x, a, b, hf⟩, hsec, hoth, hels, hal⟩ := h
  have hclose : closeIntoMargin g n =
      n.modSector g fun x => { x with table := { x.table with margin := (n.sector g).group.latched.getD 0 } } := rfl
  rw [hclose]
  refine ⟨?_, ?_, fun h e => (sector_modSector_ne n _ e).trans (hoth h e), hels.trans (.modSector g n _), hal⟩
  · generalize hv : n.modSector g _ = v
    exact ⟨v.sectors, a, b, by rw [← hv, hf]; rfl⟩
  · rw [sector_modSector_self, hsec]

/-- What the end of a stroke in FAULT and the grant pass after it leave (R10, R99, R152). -/
structure StrokeFailed (g : Sector) (kind : FaultKind) (f : StickyFlags) (r : Group) (s m t : State) : Prop where
  group : (t.sector g).group = r.faulted kind
  table : (t.sector g).table = { (s.sector g).table with margin := r.latched.getD 0, flags := f }
  layers : ∀ h, (t.sector h).layers = (s.sector h).layers
  others : ∀ h, h ≠ g → (t.sector h).held = (s.sector h).held
  enabled : s.enabled g = true → Alerted s m ∧ FaultEntered g kind true m t ∧ m.mode = s.mode ∧ m.surveyState = s.surveyState
  visit : s.enabled g = true → s.mode = .survey → s.surveyReq = none → s.visit = some (g, .stroke) →
    VisitEnds g .fault s t ∧ (t.sector g).trim.result = some (s.rejected g .survey) ∧ Entered .trimRejected (some g) s t
  disabled : s.enabled g = false → t.alerts = s.alerts ∧ t.mode = s.mode ∧ ∀ h, h ≠ g → t.sector h = s.sector h
  settings : t.settings = s.settings
  feed : t.feed = s.feed
  tables : t.tables = s.tables
  supply : t.supply = s.supply
  ports : t.ports = s.ports

theorem StrokeFailed.finish {g : Sector} {f : StickyFlags} {r : Group} {s m : State} (h : Margined g f r s m) (hp : s.passDue = false)
    (kind : FaultKind) : StrokeFailed g kind f r s m (finish (enterFault g kind true true m)) := by
  obtain ⟨x, a, b, hf⟩ := h.frame
  have hen : m.enabled g = s.enabled g := by rw [State.enabled, h.sector]; rfl
  have hdeck : m.settings = s.settings ∧ m.feed = s.feed ∧ m.tables = s.tables ∧ m.supply = s.supply ∧ m.ports = s.ports
      ∧ m.visit = s.visit ∧ m.surveyReq = s.surveyReq ∧ m.minute = s.minute ∧ m.passDue = s.passDue ∧ m.mode = s.mode := by
    rw [hf]; exact ⟨rfl, rfl, rfl, rfl, rfl, rfl, rfl, rfl, rfl, rfl⟩
  obtain ⟨h1, h2, h3, h4, h5, h6, h7, h8, h9, h10⟩ := hdeck
  have hlayers : ∀ k, (m.sector k).layers = (s.sector k).layers := fun k => by
    by_cases e : k = g
    · subst e; rw [h.sector]
    · rw [h.others k e]
  have hrej : m.rejected g .survey = s.rejected g .survey := by
    rw [State.rejected, State.rejected, State.len, State.len, h.sector, h8]
  by_cases he : s.enabled g = true
  · have hm : m.enabled g = true := hen.trans he
    have hfault := FaultEntered.finish hm kind true true
    have hfr := hfault.framed
    refine ⟨by rw [hfault.group, h.sector], by rw [hfr.table, h.sector], fun k => (hfr.layers k).trans (hlayers k),
      fun k e => by rw [hfr.held, h.others k e], fun _ => ⟨h.elsewhere.alerted, hfault, h10, h.elsewhere.surveyState⟩, fun _ hs hq hv => ?_,
      fun hd => absurd he (by simp [hd]), hfr.settings.trans h1, hfr.feed.trans h2, hfr.tables.trans h3, hfr.supply.trans h4, hfr.ports.trans h5⟩
    obtain ⟨u, d, hu, helse, u1, u2, -, u4⟩ := enterFault_survey hm (h10.trans hs) kind true true
    obtain ⟨v, hv', hend, hres, hrejected⟩ := trimOnFault_stroke (g := g) (s := u) (by rw [u1, h6]; exact hv) (by rw [u2, h7]; exact hq)
    have hsu := h.elsewhere.trans helse
    have hpassed := (hend.after hsu).passed (by decide) hs d
    rw [hu, hv']
    exact ⟨hpassed.ends, hpassed.result.trans (hres.trans (by rw [u4, hrej])), (hrejected s hsu.alerted).later hpassed.alerted⟩
  · have hd : s.enabled g = false := by simpa using he
    have ht : Machine.finish (enterFault g kind true true m) = m.modGroup g fun r => r.faulted kind := by
      rw [enterFault_disabled (hen.trans hd)]; exact finish_of_not_due (h9.trans hp)
    have hself : (m.modGroup g fun r => r.faulted kind).sector g = { m.sector g with group := (m.sector g).group.faulted kind } :=
      sector_modSector_self m g _
    have hne : ∀ k, k ≠ g → (m.modGroup g fun r => r.faulted kind).sector k = s.sector k := fun k e =>
      (sector_modSector_ne m (fun x => { x with group := x.group.faulted kind }) e).trans (h.others k e)
    rw [ht]
    refine ⟨by rw [hself, h.sector], by rw [hself, h.sector], fun k => ?_, fun k e => by rw [hne k e], fun he' => absurd he' he,
      fun he' => absurd he' he, fun _ => ⟨h.alerts hd, h10, hne⟩, h1, h2, h3, h4, h5⟩
    by_cases e : k = g
    · subst e; rw [hself]; exact hlayers k
    · rw [hne k e]

/-! ### The commands -/

/-- The retracted switch taken at a VENTING group: a switch fault noted with the stroke-end switch on, then the way home or FAULT (R87, R94). -/
theorem exec_retracted_venting {g : Sector} {ms : Nat} {s : State} (hq : Quiet s) (hs : s.groupState g = .venting)
    (hw : (s.sector g).group.retSw = { state := some false, timing := some ⟨true, ms⟩ }) :
    let n := switchTaken g .retracted ((s.sector g).group.endSw.state == some true) s
    exec (.retractedTaken g) s = .next (finish
      (if (s.sector g).group.failed = true then enterFault g .stall true true (closeIntoMargin g n) else enterIdle g n)) := by
  have hg := group_setSwitch_eq g .retracted { state := some true, timing := none } s
  have hst : (setSwitch g .retracted { state := some true, timing := none } s).groupState g = .venting := by
    rw [State.groupState, hg]; exact hs
  have hexec : exec (.retractedTaken g) s = _ := exec_taken (w := .retracted) hq hw
  rw [hexec, if_neg (by decide), retractedEvent, hst, hg]
  rfl

/-- The expiry of the vent window of a VENTING group whose stroke has failed (R95). -/
theorem exec_vent_failed {g : Sector} {s : State} (hq : Quiet s) (hs : s.groupState g = .venting)
    (ht : (s.sector g).group.timer = some ⟨.vent, 0⟩) (hf : (s.sector g).group.failed = true) :
    exec (.ventWindowExpiry g) s = .next (finish (enterFault g .vent true true (closeIntoMargin g s))) := by
  have h : exec (.ventWindowExpiry g) s = _ := exec_expiry hq ht
  rw [h, timerExpiry, ht]
  show Host.Outcome.next (finish (ventExpiry g s)) = _
  rw [ventExpiry, if_pos hs, if_pos hf]

/-- The ways in which a failed stroke ends, up to the entry to FAULT (R94, R95). -/
theorem exec_fails {s : State} {g : Sector} (hq : Quiet s) (hs : s.groupState g = .venting) (hf : (s.sector g).group.failed = true)
    {c : Instr} {kind : FaultKind}
    (hc : (∃ ms, c = .retractedTaken g ∧ kind = .stall ∧ (s.sector g).group.retSw = { state := some false, timing := some ⟨true, ms⟩ })
      ∨ (c = .ventWindowExpiry g ∧ kind = .vent ∧ (s.sector g).group.timer = some ⟨.vent, 0⟩)) :
    let both := kind = .stall ∧ (s.sector g).group.endSw.state = some true ∧ s.enabled g = true
    ∃ f r n, exec c s = .next (finish (enterFault g kind true true (closeIntoMargin g n))) ∧ Brought g f r s n
      ∧ r = { (s.sector g).group with retSw := if kind = .stall then { state := some true, timing := none } else (s.sector g).group.retSw }
      ∧ f = (if both then { (s.sector g).table.flags with switchFault := true } else (s.sector g).table.flags)
      ∧ (both → ∀ r, Alerted r s → Entered .switchFault (some g) r n) := by
  intro both
  rcases hc with ⟨ms, rfl, rfl, hw⟩ | ⟨rfl, rfl, ht⟩
  · have ht := Taken.switchTaken g .retracted ((s.sector g).group.endSw.state == some true) s
    refine ⟨_, _, _, ?_, ht.brought, rfl, ?_, fun hb => ht.entered (beq_iff_eq.2 hb.2.1) hb.2.2⟩
    · exact (exec_retracted_venting hq hs hw).trans (congrArg (fun t => Host.Outcome.next (finish t)) (if_pos hf))
    · simp only [both, beq_iff_eq, true_and]
  · exact ⟨_, _, s, exec_vent_failed hq hs ht hf, .refl g s, rfl, (if_neg fun hb : both => by cases hb.1).symm,
      fun hb => by cases hb.1⟩

/-- Settles O39: home by the trim unit and the grant pass, or FAULT by the margin and what the fault hands on. -/
theorem strokeEnds : Obligations.StrokeEnds := by
  constructor
  · intro s g ms hq hw hs hf both
    have ht := Taken.switchTaken g .retracted ((s.sector g).group.endSw.state == some true) s
    have hexec := (exec_retracted_venting hq hs hw).trans (congrArg (fun t => Host.Outcome.next (finish t)) (if_neg (by simp [hf])))
    have hb := ht.brought
    have hnote := ht.entered
    generalize switchTaken g .retracted ((s.sector g).group.endSw.state == some true) s = n at *
    have hh := CameHome.finish g n
    have hfr := hh.framed
    obtain ⟨x, a, b, hn⟩ := hb.frame
    have hrg : (n.sector g).group = (s.sector g).group.withSwitch .retracted { state := some true, timing := none } := by rw [hb.sector]
    refine ⟨_, hexec, hh.state, fun hno => ?_, ?_, ?_, fun hboth => ?_, fun o hm hsq hv ho hne => ?_, fun h => ⟨?_, fun e => ?_⟩,
      hfr.settings.trans (by rw [hn]; rfl), hfr.feed.trans (by rw [hn]; rfl), hfr.tables.trans (by rw [hn]; rfl),
      hfr.supply.trans (by rw [hn]), hfr.ports.trans (by rw [hn]; rfl)⟩
    · rw [hh.group (by rw [NoSupply, hn]; exact hno), hrg]; rfl
    · rw [hh.strokes, hrg]; rfl
    · rw [hfr.table, hb.sector]
      simp only [beq_iff_eq, both]
    · exact (hnote (beq_iff_eq.2 hboth.1) hboth.2 s (.refl s)).later hh.alerted
    · refine hh.visit o s hb.elsewhere hm ?_ ?_ ?_ hne
      · rw [hn]; exact hsq
      · rw [hn]; exact hv
      · rw [hb.sector]; exact ho
    · rw [hfr.layers]
      by_cases e : h = g
      · subst e; rw [hb.sector]
      · rw [hb.others h e]
    · rw [hfr.held, hb.others h e]
  · intro s g l hq hs hf ho hl c kind hc both
    obtain ⟨f, r, n, hexec, hb, hr, hflags, hnote⟩ := exec_fails hq hs hf hc
    have ht := StrokeFailed.finish hb.margined hq.2 kind
    have hlen : r.latched.getD 0 = l := by rw [hr]; simp [hl]
    have htable := ht.table
    rw [hlen, hflags] at htable
    refine ⟨_, hexec, ?_, htable, fun h0 => ?_, fun hboth => ?_, fun he => ?_, ht.disabled, fun h => ⟨ht.layers h, ht.others h⟩,
      ht.settings, ht.feed, ht.tables, ht.supply, ht.ports⟩
    · rw [ht.group, hr]; rfl
    · have hopen : (s.sector g).group.openLen = l := by simp [Group.openLen, ho, hl]
      have hclosed : (r.faulted kind).openLen = 0 := rfl
      rw [reach_eq, reach_eq, SectorState.reach, SectorState.reach, SectorState.elev, SectorState.elev, htable, ht.group, hclosed, hopen, h0]
      simp
    · have hclose : Alerted n (closeIntoMargin g n) := .of_eq rfl rfl
      exact (hnote hboth s (.refl s)).later (hclose.trans (ht.enabled hboth.2.2).2.1.alerted)
    · obtain ⟨hm, hfault, hmode, hsurvey⟩ := ht.enabled he
      refine ⟨hfault.groupFault s hm, hfault.suspect rfl s hm, fun hc hn => hfault.mode (hmode.trans hc) (hsurvey.trans hn), fun h1 h2 h3 => ?_⟩
      exact ht.visit he h1 h2 h3

end Sys2Proof.Machine
end

