-- ==== Sys2Proof/Proofs/TimersExpire.lean ====
section
/-! SUPPORT. The window, settle and vent expiries as commands (TimersExpire). -/

namespace Sys2Proof.Machine

/-! ### The pressurize window (R92) -/

theorem exec_window {g : Sector} {s : State} (hq : Quiet s) (ht : (s.sector g).group.timer = some ⟨.window, 0⟩) :
    exec (.pressurizeWindowExpiry g) s = .next (finish (windowExpiry g s)) := by
  have h : exec (.pressurizeWindowExpiry g) s = _ := exec_expiry hq ht
  rw [h, timerExpiry, ht]; rfl

/-- The stroke has failed: VENTING with the failed mark, out of the pressure order (R92, R109). -/
def windowFailed (g : Sector) (s : State) : State :=
  { leavePressure g (s.modGroup g fun r => { r with failed := true, state := .venting, timer := some ⟨.vent, s.deck.vent⟩ }) with
    passDue := true }

theorem windowExpiry_eq {g : Sector} {s : State} (hs : s.groupState g = .pressurizing) :
    windowExpiry g s = if (s.sector g).group.windows < 3 then
        enterAlert .marginalStroke (some g)
          ((s.modGroup g fun r => { r with windows := r.windows + 1, timer := some ⟨.window, s.deck.window⟩ }).modFlags g
            fun f => { f with marginal := true })
      else windowFailed g s := by
  rw [windowExpiry, if_pos hs]; rfl

theorem framed_windowFailed (g : Sector) (s : State) : Framed s (windowFailed g s) :=
  ((Kept.modGroup s g fun r => { r with failed := true, state := .venting, timer := some ⟨.vent, s.deck.vent⟩ }).trans
    ((Kept.pressure _ _).trans (Closes.passSet _ true).toKept)).framed

theorem finish_windowFailed (g : Sector) (s : State) :
    Framed s (finish (windowFailed g s))
      ∧ ((finish (windowFailed g s)).sector g).group =
        { (s.sector g).group with state := .venting, failed := true, timer := some ⟨.vent, s.deck.vent⟩ }
      ∧ g ∉ (finish (windowFailed g s)).pressureOrder := by
  have hgroup : ((windowFailed g s).sector g).group =
      { (s.sector g).group with state := .venting, failed := true, timer := some ⟨.vent, s.deck.vent⟩ } :=
    congrArg SectorState.group (sector_modSector_self s g fun x =>
      { x with group := { x.group with failed := true, state := .venting, timer := some ⟨.vent, s.deck.vent⟩ } })
  have hno : g ∉ (windowFailed g s).pressureOrder := fun hin => by
    simpa using (List.mem_filter.1 (show g ∈ s.pressureOrder.filter fun h => h != g from hin)).2
  have hf := framed_windowFailed g s
  have hsp := SparesAtRest.finish g (windowFailed g s) (.inr (by rw [State.groupState, hgroup]))
  exact ⟨hf.trans (Kept.finish _).framed, hsp.group.trans hgroup, hsp.order hno⟩

/-! ### The settle time (R93, R150) -/

/-- From s to t a trim result of g may have been made, and L set by it; the sensor line is left. -/
structure Measured (g : Sector) (s t : State) : Prop where
  settings : t.settings = s.settings
  feed : t.feed = s.feed
  tables : t.tables = s.tables
  supply : t.supply = s.supply
  ports : t.ports = s.ports
  table : (t.sector g).table = { (s.sector g).table with len := (t.sector g).table.len }
  layers : ∀ h, (t.sector h).layers = (s.sector h).layers
  others : ∀ h, h ≠ g → (t.sector h).held = (s.sector h).held
  line : t.line = s.line ∧ t.waiting = s.waiting

theorem Measured.of_framed {g : Sector} {s t : State} (h : Framed s t) (hl : t.line = s.line ∧ t.waiting = s.waiting) : Measured g s t :=
  ⟨h.settings, h.feed, h.tables, h.supply, h.ports, by rw [h.table], h.layers, fun i _ => h.held i, hl⟩

theorem line_closeTrim (g : Sector) (kind : TrimKind) (code : TrimCode) (s : State) :
    (closeTrim g kind code s).line = s.line ∧ (closeTrim g kind code s).waiting = s.waiting := by cases kind <;> exact ⟨rfl, rfl⟩

theorem line_writeResult (g : Sector) (kind : TrimKind) (code : TrimCode) (n : Nat) (d : Option Int) (s : State) :
    (writeResult g kind code n d s).line = s.line ∧ (writeResult g kind code n d s).waiting = s.waiting := by
  unfold writeResult; dsimp only; split
  · rw [enterAlert_eq]; exact ⟨rfl, rfl⟩
  · exact ⟨rfl, rfl⟩

theorem Measured.makeResult (g : Sector) (kind : TrimKind) (s : State) : Measured g s (makeResult g kind s) := by
  have hclosed : ∀ c n d, Framed s (closeTrim g kind c (writeResult g kind c n d s)) := fun c n d =>
    ((Aside.writeResult g kind c n d s).trans (.closeTrim g kind c _)).toKept.framed
  have hline : ∀ c n d, (closeTrim g kind c (writeResult g kind c n d s)).line = s.line
      ∧ (closeTrim g kind c (writeResult g kind c n d s)).waiting = s.waiting := fun c n d => by
    obtain ⟨h1, h2⟩ := line_closeTrim g kind c (writeResult g kind c n d s)
    obtain ⟨k1, k2⟩ := line_writeResult g kind c n d s
    exact ⟨h1.trans k1, h2.trans k2⟩
  unfold Machine.makeResult; dsimp only
  generalize trimOutcome (s.len g) s.t10 (s.sector g).trim.before (s.sector g).trim.after = r
  have hc := hclosed r.1 r.2.1 r.2.2
  have hl := hline r.1 r.2.1 r.2.2
  generalize closeTrim g kind r.1 (writeResult g kind r.1 r.2.1 r.2.2 s) = u at *
  split
  · exact .of_framed hc hl
  · have hself : (u.modTable g fun t => { t with len := some r.2.1 }).sector g =
        { u.sector g with table := { (u.sector g).table with len := some r.2.1 } } := sector_modSector_self u g _
    have hne : ∀ h, h ≠ g → (u.modTable g fun t => { t with len := some r.2.1 }).sector h = u.sector h := fun h e =>
      sector_modSector_ne u (fun x => { x with table := { x.table with len := some r.2.1 } }) e
    have hw := Repaced.rederive g (u.modTable g fun t => { t with len := some r.2.1 })
    have hdeck : (u.modTable g fun t => { t with len := some r.2.1 }).line = u.line
      ∧ (u.modTable g fun t => { t with len := some r.2.1 }).waiting = u.waiting
      ∧ (u.modTable g fun t => { t with len := some r.2.1 }).settings = u.settings
      ∧ (u.modTable g fun t => { t with len := some r.2.1 }).feed = u.feed
      ∧ (u.modTable g fun t => { t with len := some r.2.1 }).tables = u.tables
      ∧ (u.modTable g fun t => { t with len := some r.2.1 }).supply = u.supply
      ∧ (u.modTable g fun t => { t with len := some r.2.1 }).ports = u.ports := ⟨rfl, rfl, rfl, rfl, rfl, rfl, rfl⟩
    obtain ⟨d1, d2, d3, d4, d5, d6, d7⟩ := hdeck
    generalize u.modTable g (fun t => { t with len := some r.2.1 }) = w at *
    have hwf := hw.framed
    refine ⟨hwf.settings.trans (d3.trans hc.settings), hwf.feed.trans (d4.trans hc.feed), hwf.tables.trans (d5.trans hc.tables),
      hwf.supply.trans (d6.trans hc.supply), hwf.ports.trans (d7.trans hc.ports), ?_, fun h => ?_, fun h e => ?_, ?_, ?_⟩
    · rw [hwf.table, hself, hc.table]
    · rw [hwf.layers]
      by_cases e : h = g
      · subst e; rw [hself]; exact hc.layers h
      · rw [hne h e, hc.layers]
    · rw [hwf.held, hne h e, hc.held]
    · exact (congrArg (fun x => x.2.2.2.2.2.2.2.2.2.1) hw.unpaced).trans (d1.trans hl.1)
    · exact (congrArg (fun x => x.2.2.2.2.2.2.2.2.2.2.1) hw.unpaced).trans (d2.trans hl.2)

/-- Unless all four after-readings have ended good the result is REJECTED, the level difference absent (R146, R150). -/
theorem makeResult_of_missing {g : Sector} {s : State} (h : ∀ a b c d, (s.sector g).trim.after ≠ [some a, some b, some c, some d])
    (kind : TrimKind) : makeResult g kind s = rejectTrim g kind s := by
  have hsum : fourSum (s.sector g).trim.after = none := by
    unfold fourSum; split
    · next he => exact absurd he (h _ _ _ _)
    · rfl
  have ho : trimOutcome (s.len g) s.t10 (s.sector g).trim.before (s.sector g).trim.after = (.rejected, s.len g, none) := by
    rw [trimOutcome, hsum]; cases fourSum (s.sector g).trim.before <;> rfl
  rw [makeResult, ho]; rfl

theorem group_vented (g : Sector) (s : State) :
    ((vented g s).sector g).group = { (s.sector g).group with state := .venting, timer := some ⟨.vent, s.deck.vent⟩ } :=
  congrArg SectorState.group (sector_modSector_self s g fun x =>
    { x with group := { x.group with state := .venting, timer := some ⟨.vent, s.deck.vent⟩ } })

theorem awaiting_vented (g : Sector) (s : State) : (vented g s).awaiting g = s.awaiting g :=
  awaiting_congr rfl (congrArg (·.underWay) (trim_vented g s))

/-- At the end of the settle time a result may be made (R93, R150). -/
theorem Measured.settleExpiry {g : Sector} {s : State} (hs : s.groupState g = .holding) : Measured g (vented g s) (settleExpiry g s) := by
  rw [settleExpiry_eq hs]; split
  · exact .makeResult g _ _
  · exact .of_framed (.refl _) ⟨rfl, rfl⟩

theorem group_settleExpiry {g : Sector} {s : State} (hs : s.groupState g = .holding) :
    ((settleExpiry g s).sector g).group = { (s.sector g).group with state := .venting, timer := some ⟨.vent, s.deck.vent⟩ } := by
  rw [settleExpiry, if_pos hs, endSettle_group]
  exact group_vented g s

/-- What the end of the settle time and the grant pass after it leave (R93). -/
structure SettleEnded (g : Sector) (s t : State) : Prop where
  group : (t.sector g).group = { (s.sector g).group with state := .venting, timer := some ⟨.vent, s.deck.vent⟩ }
  table : (t.sector g).table = { (s.sector g).table with len := (t.sector g).table.len }
  tries : t.tryUnderWay .after g = false
  layers : ∀ h, (t.sector h).layers = (s.sector h).layers
  others : ∀ h, h ≠ g → (t.sector h).held = (s.sector h).held
  settings : t.settings = s.settings
  feed : t.feed = s.feed
  tables : t.tables = s.tables
  supply : t.supply = s.supply
  ports : t.ports = s.ports

theorem SettleEnded.finish {g : Sector} {s : State} (hs : s.groupState g = .holding) : SettleEnded g s (finish (settleExpiry g s)) := by
  have hv := (Closes.vented g s).toKept.framed
  have hm := Measured.settleExpiry hs
  have hg := group_settleExpiry hs
  have htries : (vented g s).tryUnderWay .after g = false := tryUnderWay_abandonTries .after g _
  generalize Machine.settleExpiry g s = u at *
  have hk := (Kept.finish u).framed
  have hsp := SparesAtRest.finish g u (.inr (by rw [State.groupState, hg]))
  refine ⟨hsp.group.trans hg, ?_, ?_, fun h => ?_, fun h e => ?_, hk.settings.trans (hm.settings.trans hv.settings),
    hk.feed.trans (hm.feed.trans hv.feed), hk.tables.trans (hm.tables.trans hv.tables), hk.supply.trans (hm.supply.trans hv.supply),
    hk.ports.trans (hm.ports.trans hv.ports)⟩
  · rw [hk.table, hm.table, hv.table]
  · rw [SameTries.finish u .after g (by decide), State.tryUnderWay, hm.line.1, hm.line.2]; exact htries
  · rw [hk.layers, hm.layers, hv.layers]
  · rw [hk.held, hm.others h e, hv.held]

theorem passDue_rejectTrim (g : Sector) (kind : TrimKind) (s : State) : (rejectTrim g kind s).passDue = s.passDue := by
  have hclose : ∀ u : State, (closeTrim g kind .rejected u).passDue = u.passDue := fun u => by cases kind <;> rfl
  rw [rejectTrim, hclose, writeRejected_eq, enterAlert_eq]; rfl

/-- Where four after-readings have not all ended good the trim that awaits its result is REJECTED (R147, R150). -/
theorem finish_settle_rejected {g : Sector} {s : State} (hp : s.passDue = false) (hs : s.groupState g = .holding)
    (ha : ∀ a b c d, (s.sector g).trim.after ≠ [some a, some b, some c, some d]) {kind : TrimKind} (hk : s.awaiting g = some kind) :
    Rejects g kind s (finish (settleExpiry g s)) ∧ ((finish (settleExpiry g s)).sector g).table = (s.sector g).table := by
  have hv := Closes.vented g s
  have hmake : settleExpiry g s = rejectTrim g kind (vented g s) := by
    rw [settleExpiry_eq hs, awaiting_vented, hk]
    exact makeResult_of_missing (by rw [trim_vented]; exact ha) kind
  have hpass : (rejectTrim g kind (vented g s)).passDue = false := (passDue_rejectTrim g kind _).trans hp
  have hlen : (vented g s).len g = s.len g := by rw [State.len, hv.toKept.framed.table]; rfl
  rw [hmake, finish_of_not_due hpass]
  exact ⟨(Rejects.rejectTrim g kind (vented g s)).from hv.alerted hlen rfl rfl,
    ((Closes.rejectTrim g kind _).toKept.framed.table g).trans (hv.toKept.framed.table g)⟩

/-- Where no trim awaits its result nothing is handed on (R93). -/
theorem finish_settle_plain {g : Sector} {s : State} (hp : s.passDue = false) (hs : s.groupState g = .holding) (hk : s.awaiting g = none) :
    finish (settleExpiry g s) = vented g s := by
  have h : settleExpiry g s = vented g s := by rw [settleExpiry_eq hs, awaiting_vented, hk]
  rw [h]; exact finish_of_not_due hp

theorem exec_settle {g : Sector} {s : State} (hq : Quiet s) (ht : (s.sector g).group.timer = some ⟨.settle, 0⟩) :
    exec (.settleTimeExpiry g) s = .next (finish (settleExpiry g s)) := by
  have h : exec (.settleTimeExpiry g) s = _ := exec_expiry hq ht
  rw [h, timerExpiry, ht]; rfl

/-! ### The vent window of a stroke that has committed (R95) -/

theorem exec_vent_committed {g : Sector} {s : State} (hq : Quiet s) (hs : s.groupState g = .venting)
    (ht : (s.sector g).group.timer = some ⟨.vent, 0⟩) (hf : (s.sector g).group.failed = false) :
    exec (.ventWindowExpiry g) s = .next (finish (enterFault g .vent false true s)) := by
  have h : exec (.ventWindowExpiry g) s = _ := exec_expiry hq ht
  rw [h, timerExpiry, ht]
  show Host.Outcome.next (finish (ventExpiry g s)) = _
  rw [ventExpiry, if_pos hs, if_neg (by simp [hf])]

/-- The group in FAULT(VENT), and every record held kept (R99). -/
theorem ventFault_kept {g : Sector} {s : State} (hp : s.passDue = false) :
    Framed s (finish (enterFault g .vent false true s))
      ∧ ((finish (enterFault g .vent false true s)).sector g).group = (s.sector g).group.faulted .vent := by
  by_cases h : s.enabled g = true
  · have hf := FaultEntered.finish h .vent false true
    exact ⟨hf.framed, hf.group⟩
  · have hself : ((s.modGroup g fun r => r.faulted .vent).sector g).group = (s.sector g).group.faulted .vent := by
      rw [modGroup_eq, sector_modSector_self]
    rw [enterFault_disabled (by simpa using h), finish_of_not_due (s := s.modGroup g fun r => r.faulted .vent) hp]
    exact ⟨(Kept.modGroup s g _).framed, hself⟩

/-- In SURVEY the visit whose result is made ends with FAULT, and the result stands (R152). -/
theorem ventFault_visit {g : Sector} {s : State} (h : s.enabled g = true) (hm : s.mode = .survey) (hq : s.surveyReq = none)
    (hv : s.visit = some (g, .resultMade)) :
    VisitEnds g .fault s (finish (enterFault g .vent false true s))
      ∧ ((s.sector g).trim.underWay = false →
        ((finish (enterFault g .vent false true s)).sector g).trim.result = (s.sector g).trim.result) := by
  obtain ⟨u, d, hu, helse, u1, u2, u3, -⟩ := enterFault_survey h hm .vent false true
  obtain ⟨v, hv', hend, hres⟩ := trimOnFault_resultMade (g := g) (s := u) (u1.trans hv) (u2.trans hq)
  have hpassed := (hend.after helse).passed (by decide) hm d
  rw [hu, hv']
  rw [u3] at hres
  exact ⟨hpassed.ends, fun hw => hpassed.result.trans (hres hw)⟩

/-- Settles O40: each expiry by what it does to the group, and what it hands on to the trim and the visit. -/
theorem timersExpire : Obligations.TimersExpire := by
  intro s g hq
  refine ⟨fun hs ht => ⟨fun hw => ?_, fun hw => ?_⟩, fun hs ht => ?_, fun hs ht hf => ?_⟩
  · rw [exec_window hq ht, windowExpiry_eq hs, if_pos hw, finish_of_not_due]
    rw [enterAlert_eq]; exact hq.2
  · obtain ⟨hframe, hgroup, hno⟩ := finish_windowFailed g s
    refine ⟨_, exec_window hq ht, ?_⟩
    rw [windowExpiry_eq hs, if_neg (by omega)]
    exact ⟨hgroup, hno, hframe.held, hframe.settings, hframe.feed, hframe.tables, hframe.supply, hframe.ports⟩
  · have he := SettleEnded.finish hs
    refine ⟨_, exec_settle hq ht, he.group, he.table, he.tries, ⟨fun ha => ⟨fun hk => ?_, fun hk => ?_⟩, fun hns hnk => ?_⟩,
      fun h => ⟨he.layers h, he.others h⟩, he.settings, he.feed, he.tables, he.supply, he.ports⟩
    · obtain ⟨hr, htab⟩ := finish_settle_rejected hq.2 hs ha (kind := .short) (by rw [State.awaiting, if_neg hk.1, if_pos hk.2])
      exact ⟨⟨htab, hr.entered s (.refl s), hr.result⟩, hr.short rfl⟩
    · obtain ⟨hr, htab⟩ := finish_settle_rejected hq.2 hs ha (kind := .survey) (by rw [State.awaiting, if_pos hk])
      exact ⟨⟨htab, hr.entered s (.refl s), hr.result⟩, hr.survey rfl⟩
    · have haw : s.awaiting g = none := by
        rw [State.awaiting, if_neg hns, if_neg fun h => hnk ⟨hns, h⟩]
      rw [finish_settle_plain hq.2 hs haw]
      exact ⟨(Closes.vented g s).toKept.framed.table g, trim_vented g s, rfl⟩
  · obtain ⟨hframe, hgroup⟩ := ventFault_kept (g := g) hq.2
    refine ⟨_, exec_vent_committed hq hs ht hf, ?_, ?_, ?_, fun h1 h2 h3 h4 => ventFault_visit h1 h2 h3 h4, ?_, hframe.held, hframe.settings,
      hframe.feed, hframe.tables, hframe.supply, hframe.ports⟩
    · rw [State.groupState, hgroup]; rfl
    · rw [hgroup]; rfl
    · rw [hgroup]; rfl
    · rw [hgroup]; rfl

end Sys2Proof.Machine
end

