-- ==== Sys2Proof/Proofs/Allowed.lean ====
section
/-! SUPPORT. A group that a grant pass has granted was eligible, and stays so to the end of the pass (R60 to R62, R66, R73, R89). -/

namespace Sys2Proof.Machine

/-! ### What a grant requires -/

/-- The cure condition with some slack: bottom + L at most the base of the lowest layer that is not READY (R59). -/
def State.CuredTo (s : State) (g : Sector) (slack : Int) : Prop :=
  ∀ l, (s.stack g).find? (fun x => !x.flags.ready) = some l → s.bottom g + s.len g ≤ l.base + slack

/-- The concrete condition (R61, R62). -/
def State.OnConcrete (s : State) (g : Sector) : Prop := s.stack g ≠ [] → s.bottom g + s.len g ≤ s.concreteTop g

/-- What the mode, the requests and the stack must be for a stroke of a kind (R60 to R62, R73); the survey's request is then withdrawn (R113). -/
def State.KindMet (s : State) (g : Sector) : StrokeKind → Prop
  | .paced => s.mode = .climb ∧ 0 < (s.sector g).pace.count ∧ (s.goal = 0 ∨ s.elev g + s.len g ≤ s.goal) ∧ s.CuredTo g 0
      ∧ s.bottom g + s.len g ≤ s.concreteTop g - s.m10
  | .creep => (s.mode = .climb ∨ s.mode = .hold) ∧ s.demanded g = true ∧ s.CuredTo g s.c10 ∧ s.OnConcrete g
  | .survey => s.mode = .survey ∧ s.surveyReq = none ∧ s.CuredTo g 0 ∧ s.OnConcrete g

/-- The group of g has been granted a stroke for which it is eligible (R66, R89, R109). -/
structure State.Allowed (s : State) (g : Sector) : Prop where
  enabled : s.enabled g = true
  established : s.established g = true
  margin : (s.sector g).table.margin = 0
  stroke : ∃ kind, (s.sector g).group.isOpen = true ∧ (s.sector g).group.latched = some (s.len g) ∧ (s.sector g).group.failed = false
    ∧ (s.sector g).group.windows = 1 ∧ (s.sector g).group.timer = some ⟨.window, s.deck.window⟩ ∧ (s.sector g).group.kind = some kind
    ∧ s.KindMet g kind
  tilt : ∀ n ∈ s.nbrSet g, s.enabled n = true → s.established n = true → s.reach g ≤ s.elev n + s.t10
  height : s.reach g ≤ 2500000
  order : g ∈ s.pressureOrder
  supply : s.supply.state = .ready

theorem atMost_cureTerm {s : State} {g : Sector} {slack : Int} :
    atMost (s.bottom g + s.len g) ((s.cureTerm g).map (· + slack)) = true ↔ s.CuredTo g slack := by
  unfold State.CuredTo State.cureTerm lowestUnready
  cases h : (s.stack g).find? fun x => !x.flags.ready <;> simp [atMost]

theorem cureOk_iff {s : State} {g : Sector} : s.cureOk g = true ↔ s.CuredTo g 0 := by
  rw [← atMost_cureTerm, State.cureOk]
  have h : ∀ x : Option Int, x.map (· + 0) = x := fun x => by simp
  rw [h]

theorem concreteOk_iff {s : State} {g : Sector} : s.concreteOk g = true ↔ s.OnConcrete g := by
  simp [State.concreteOk, State.OnConcrete, imp_iff_not_or]

theorem kindMet_paced {s : State} {g : Sector} (hm : s.mode = .climb) (h : s.pacedEligible g = true) :
    s.established g = true ∧ s.KindMet g .paced := by
  simp only [State.pacedEligible, State.pacedTest, State.fillOk, Bool.and_eq_true, Bool.not_eq_true', decide_eq_true_eq, cureOk_iff] at h
  obtain ⟨⟨⟨⟨-, hgoal⟩, hcount⟩, ⟨hest, hcure⟩, hfill⟩, -⟩ := h
  refine ⟨hest, hm, hcount, ?_, hcure, hfill⟩
  simp only [State.isAtGoal, hest, Bool.and_true, Bool.and_eq_false_iff, decide_eq_false_iff_not, not_not, not_lt] at hgoal
  exact hgoal

theorem kindMet_creep {s : State} {g : Sector} (hm : s.mode = .climb ∨ s.mode = .hold) (h : s.creepEligible g = true) :
    s.established g = true ∧ s.KindMet g .creep := by
  simp only [State.creepEligible, State.creepTest, Bool.and_eq_true, atMost_cureTerm, concreteOk_iff] at h
  obtain ⟨⟨-, hdem⟩, ⟨hest, hcure⟩, hconc⟩ := h
  exact ⟨hest, hm, hdem, hcure, hconc⟩

theorem kindMet_survey {s : State} {g : Sector} (hm : s.mode = .survey) (hq : s.surveyReq = none) (h : s.surveyEligible g = true) :
    s.established g = true ∧ s.KindMet g .survey := by
  simp only [State.surveyEligible, State.surveyTest, Bool.and_eq_true, cureOk_iff, concreteOk_iff] at h
  obtain ⟨-, ⟨hest, hcure⟩, hconc⟩ := h
  exact ⟨hest, hm, hq, hcure, hconc⟩

/-! ### What keeps it -/

/-- From s to t, what the conditions of a grant read is kept: tables, stacks and paces, the settings and the supply, the mode, the demands, and that no survey request is pending. -/
structure SameTerms (s t : State) : Prop where
  settings : t.settings = s.settings
  supply : t.supply = s.supply
  table : ∀ g, (t.sector g).table = (s.sector g).table
  layers : ∀ g, (t.sector g).layers = (s.sector g).layers
  pace : ∀ g, (t.sector g).pace = (s.sector g).pace
  mode : t.mode = s.mode
  creepList : t.creepList = s.creepList
  surveyReq : s.surveyReq = none → t.surveyReq = none

theorem SameTerms.of_kept {s t : State} (h : Kept s t) (hm : t.mode = s.mode) (hc : t.creepList = s.creepList)
    (hq : s.surveyReq = none → t.surveyReq = none) : SameTerms s t :=
  ⟨h.settings, h.supply, fun g => (h.tables_eq g).1, fun g => (h.tables_eq g).2, h.pace, hm, hc, hq⟩

section
variable {s t : State} (h : SameTerms s t)
include h

theorem SameTerms.figures (g : Sector) : t.len g = s.len g ∧ t.elev g = s.elev g ∧ t.bottom g = s.bottom g ∧ t.stack g = s.stack g
    ∧ t.concreteTop g = s.concreteTop g ∧ t.enabled g = s.enabled g ∧ t.established g = s.established g := by
  have hd : t.deck = s.deck := congrArg (·.2.2.1) h.settings
  refine ⟨?_, ?_, ?_, ?_, ?_, ?_, ?_⟩
  · rw [State.len, h.table]; rfl
  · rw [State.elev, h.table]; rfl
  · rw [State.bottom, State.elev, h.table, State.h10, hd]; rfl
  · rw [State.stack, h.layers]; rfl
  · rw [State.concreteTop, h.layers]; rfl
  · rw [State.enabled, h.table]; rfl
  · rw [State.established, h.table]; rfl

theorem SameTerms.kindMet {g : Sector} {kind : StrokeKind} (hk : s.KindMet g kind) : t.KindMet g kind := by
  obtain ⟨h1, h2, h3, h4, h5, -, -⟩ := h.figures g
  have hd : t.deck = s.deck := congrArg (·.2.2.1) h.settings
  have hgoal : t.goal = s.goal := congrArg (·.2.2.2.2.2.2.2.1) h.settings
  have hcure : ∀ slack, s.CuredTo g slack → t.CuredTo g slack := fun slack hs => by
    unfold State.CuredTo at *; rwa [h1, h3, h4]
  have hconc : s.OnConcrete g → t.OnConcrete g := fun hs => by
    unfold State.OnConcrete at *; rwa [h1, h3, h4, h5]
  cases kind with
  | paced =>
    obtain ⟨k1, k2, k3, k4, k5⟩ := hk
    exact ⟨h.mode.trans k1, by rw [h.pace]; exact k2, by rw [hgoal, h1, h2]; exact k3, hcure 0 k4, by rw [h1, h3, h5, State.m10, hd]; exact k5⟩
  | creep =>
    obtain ⟨k1, k2, k3, k4⟩ := hk
    refine ⟨by rw [h.mode]; exact k1, by rw [State.demanded, h.creepList]; exact k2, ?_, hconc k4⟩
    rw [State.c10, hd]; exact hcure _ k3
  | survey =>
    obtain ⟨k1, k2, k3, k4⟩ := hk
    exact ⟨h.mode.trans k1, h.surveyReq k2, hcure 0 k3, hconc k4⟩

/-- A granted group whose own group is left alone stays allowed. -/
theorem SameTerms.allowed {g : Sector} (hg : (t.sector g).group = (s.sector g).group) (ho : g ∈ t.pressureOrder) (ha : s.Allowed g) :
    t.Allowed g := by
  have hd : t.deck = s.deck := congrArg (·.2.2.1) h.settings
  obtain ⟨h1, h2, -, -, -, h6, h7⟩ := h.figures g
  have hreach : t.reach g = s.reach g := by rw [State.reach, h2, hg, h.table]; rfl
  obtain ⟨kind, hstroke⟩ := ha.stroke
  obtain ⟨k1, k2, k3, k4, k5, k6, k7⟩ := hstroke
  refine ⟨h6.trans ha.enabled, h7.trans ha.established, by rw [h.table]; exact ha.margin, ⟨kind, ?_⟩, fun n hn he hs => ?_,
    hreach.trans_le ha.height, ho, by rw [h.supply]; exact ha.supply⟩
  · rw [hg, h1, hd]
    exact ⟨k1, k2, k3, k4, k5, k6, h.kindMet k7⟩
  · obtain ⟨-, n2, -, -, -, n6, n7⟩ := h.figures n
    have hn : n ∈ s.nbrSet g := (nbrSet_congr fun k => congrArg (·.nbrs) (h.table k)).1 hn
    rw [hreach, n2, State.t10, hd]
    exact ha.tilt n hn (n6.symm.trans he) (n7.symm.trans hs)

end

/-- The group that a grant goes to is allowed it (R66, R89). -/
theorem allowed_grant {s : State} {g : Sector} {kind : StrokeKind} (hs : s.supply.state = .ready) (hg : s.grantable g = true)
    (hest : s.established g = true) (hk : s.KindMet g kind) : (grant g kind s).Allowed g := by
  have ht := Grants.grant g kind s
  have harb := ht.arbiter
  simp only [State.arbiter, Prod.mk.injEq] at harb
  obtain ⟨hmode, hcreep, horder, hreq, -⟩ := harb
  have hterms : SameTerms s (grant g kind s) := .of_kept ht.toKept hmode hcreep fun h => hreq.trans h
  have hgroup := ht.group
  have hmet := hterms.kindMet hk
  obtain ⟨h1, h2, -, -, -, h6, h7⟩ := hterms.figures g
  obtain ⟨hen, -, hsus, htilt⟩ := grantable_iff.1 hg
  obtain ⟨htilt, hheight⟩ := tiltTest_iff.1 htilt
  have hdeck : (grant g kind s).deck = s.deck := ht.toKept.deck
  have hreach : (grant g kind s).reach g ≤ s.reach g + s.len g := by
    have hopen : ((s.sector g).group.granted (s.len g) s.deck.window kind).openLen = s.len g := rfl
    rw [State.reach, State.reach, h2, hgroup, hopen, hterms.table, hsus]
    omega
  refine ⟨h6.trans hen, h7.trans hest, by rw [hterms.table]; exact hsus, ⟨kind, ?_⟩, fun n hn he hs' => ?_, by omega, ?_, by rw [hterms.supply]; exact hs⟩
  · rw [hgroup, h1, hdeck]
    exact ⟨rfl, rfl, rfl, rfl, rfl, rfl, hmet⟩
  · obtain ⟨-, n2, -, -, -, n6, n7⟩ := hterms.figures n
    have hn : n ∈ s.nbrSet g := (nbrSet_congr fun k => congrArg (·.nbrs) (hterms.table k)).1 hn
    have hle := htilt n hn (n6.symm.trans he) (n7.symm.trans hs')
    rw [n2, State.t10, hdeck]
    exact hreach.trans hle
  · rw [horder]; simp

/-! ### The pass (R110 to R115) -/

/-- PRESSURIZING or STALLED (R109). -/
def State.Pressured (s : State) (g : Sector) : Prop := s.groupState g = .pressurizing ∨ s.groupState g = .stalled

/-- From s to t a group that has come under pressure was granted, and eligible for it. -/
def GrantsOnly (s t : State) : Prop := ∀ g, t.Pressured g → s.Pressured g ∨ (t.groupState g = .pressurizing ∧ t.Allowed g)

theorem pressured_congr {s t : State} {g : Sector} (h : (t.sector g).group = (s.sector g).group) : t.Pressured g ↔ s.Pressured g := by
  rw [State.Pressured, State.groupState, h]; rfl

/-- What leaves the groups and the terms alone does not matter. -/
theorem GrantsOnly.terms {s t u : State} (h : GrantsOnly s t) (hg : ∀ g, (u.sector g).group = (t.sector g).group) (hk : SameTerms t u)
    (ho : u.pressureOrder = t.pressureOrder) : GrantsOnly s u := by
  intro g hp
  refine (h g ((pressured_congr (hg g)).1 hp)).imp id fun ⟨h1, h2⟩ => ⟨?_, ?_⟩
  · rw [State.groupState, hg]; exact h1
  · exact hk.allowed (hg g) (ho ▸ h2.order) h2

theorem GrantsOnly.grant {s t : State} (h : GrantsOnly s t) {g : Sector} {kind : StrokeKind} (hs : t.supply.state = .ready)
    (hg : t.grantable g = true) (hk : t.established g = true ∧ t.KindMet g kind) : GrantsOnly s (grant g kind t) := by
  have ht := Grants.grant g kind t
  have harb := ht.arbiter
  simp only [State.arbiter, Prod.mk.injEq] at harb
  obtain ⟨hmode, hcreep, horder, hreq, -⟩ := harb
  have hterms : SameTerms t (Machine.grant g kind t) := .of_kept ht.toKept hmode hcreep fun h => hreq.trans h
  intro k hp
  by_cases e : k = g
  · subst e
    exact .inr ⟨by rw [State.groupState, ht.group]; rfl, allowed_grant hs hg hk.1 hk.2⟩
  · have hgrp : ((Machine.grant g kind t).sector k).group = (t.sector k).group := by rw [ht.others k e]
    refine (h k ((pressured_congr hgrp).1 hp)).imp id fun ⟨h1, h2⟩ => ⟨?_, ?_⟩
    · rw [State.groupState, hgrp]; exact h1
    · exact hterms.allowed hgrp (by rw [horder]; exact List.mem_append_left _ h2.order) h2

/-- Where the survey request is pending, nothing has been granted yet that would now count (R111, R113). -/
theorem GrantsOnly.blocked {s t : State} (h : GrantsOnly s t) {g k : Sector} (hm : t.mode = .survey) (hq : t.surveyReq = some g) :
    t.Pressured k → s.Pressured k := fun hp => by
  refine (h k hp).resolve_right fun ⟨_, ha⟩ => ?_
  obtain ⟨kind, -, -, -, -, -, -, hk⟩ := ha.stroke
  cases kind with
  | paced => exact absurd (hm.symm.trans hk.1) (by decide)
  | creep => exact hk.1.elim (fun h => absurd (hm.symm.trans h) (by decide)) fun h => absurd (hm.symm.trans h) (by decide)
  | survey => exact absurd (hq.symm.trans hk.2.1) (by simp)

theorem SameTerms.tabled (s : State) (a : Vector (Option Sector) 32) (j : Nat) (l : Bool) : SameTerms s (s.tabled a j l) :=
  ⟨rfl, rfl, fun _ => rfl, fun _ => rfl, fun _ => rfl, rfl, rfl, id⟩

theorem GrantsOnly.service {s t u : State} (h : GrantsOnly s t) (hs : t.canServe = true) (hu : Serves t u) : GrantsOnly s u := by
  have hready : t.supply.state = .ready := by
    simp only [State.canServe, Bool.and_eq_true, decide_eq_true_eq] at hs; exact hs.1
  have htab : ∀ {v : State}, GrantsOnly s v → ∀ a j l, GrantsOnly s (v.tabled a j l) := fun hv a j l =>
    hv.terms (fun _ => rfl) (.tabled _ a j l) rfl
  have hunasked : GrantsOnly s { t with surveyReq := none } :=
    h.terms (fun _ => rfl) ⟨rfl, rfl, fun _ => rfl, fun _ => rfl, fun _ => rfl, rfl, rfl, fun _ => rfl⟩ rfl
  cases hu with
  | none a j l hm => exact htab h a j l
  | idle => exact h
  | resume g hg =>
    have hst := stalled_of_mem hg
    intro k hp
    by_cases e : k = g
    · subst e
      exact (h k (.inr hst)).imp id fun ⟨h1, _⟩ => absurd (h1.symm.trans hst) (by decide)
    · have hgrp : ((resumeGroup g t).sector k).group = (t.sector k).group := congrArg SectorState.group (sector_modSector_ne t _ e)
      refine (h k ((pressured_congr hgrp).1 hp)).imp id fun ⟨h1, h2⟩ => ⟨?_, ?_⟩
      · rw [State.groupState, hgrp]; exact h1
      · exact (SameTerms.of_kept (Kept.modGroup t g _) rfl rfl id).allowed hgrp h2.order h2
  | survey g hm hq he => exact hunasked.grant hready (grantable_of_survey he) (kindMet_survey (s := { t with surveyReq := none }) hm rfl he)
  | blocked g hm hq =>
    intro k hp
    exact .inl (h.blocked hm hq ((pressured_congr ((Aside.visitBlocked g { t with surveyReq := none }).group k)).1 hp))
  | creep g hm he => exact h.grant hready (grantable_of_creep he) (kindMet_creep hm he)
  | paced g a a' j j' l l' hm he =>
    exact htab ((htab h a j l).grant hready (grantable_of_paced he) (kindMet_paced (s := t.tabled a j l) hm he)) a' j' l'

theorem GrantsOnly.refl (s : State) : GrantsOnly s s := fun _ h => .inl h

/-- A grant pass brings only eligible groups under pressure (R111). -/
theorem GrantsOnly.finish {s t : State} (h : GrantsOnly s t) : GrantsOnly s (finish t) :=
  finish_keeps (P := GrantsOnly s) (fun h hs hu => h.service hs hu)
    (fun _ h => h.terms (fun _ => rfl) ⟨rfl, rfl, fun _ => rfl, fun _ => rfl, fun _ => rfl, rfl, rfl, id⟩ rfl) h

theorem GrantsOnly.setPort {s t : State} (h : GrantsOnly s t) (p : PortId) (x : Port) : GrantsOnly s (t.setPort p x) := by
  cases p <;> exact h.terms (fun _ => rfl) ⟨rfl, rfl, fun _ => rfl, fun _ => rfl, fun _ => rfl, rfl, rfl, id⟩ rfl

end Sys2Proof.Machine
end

