-- ==== Sys2Proof/Proofs/Unpressed.lean ====
section
/-! SUPPORT. The operations outside a grant pass bring no group under pressure: faults, timers, commits, switches, the sensor line, the clock and the resets. -/

namespace Sys2Proof.Machine

/-- From s to t no group has come under pressure. -/
def Unpressed (s t : State) : Prop := ∀ g, t.Pressured g → s.Pressured g

theorem Unpressed.refl (s : State) : Unpressed s s := fun _ h => h

theorem Unpressed.trans {s t u : State} (h : Unpressed s t) (k : Unpressed t u) : Unpressed s u := fun g hg => h g (k g hg)

theorem Unpressed.of_group {s t : State} (h : ∀ g, (t.sector g).group = (s.sector g).group) : Unpressed s t :=
  fun g => (pressured_congr (h g)).1

theorem Unpressed.of_same {s t : State} (h : Same s t) : Unpressed s t := .of_group fun g => (h.figures g).2.2.2.2.2.2

theorem Unpressed.of_sectors {s t : State} (h : t.sectors = s.sectors) : Unpressed s t :=
  .of_group fun g => by rw [State.sector, h]; rfl

/-- What follows that leaves the groups alone. -/
theorem Unpressed.then {s t u : State} (h : Unpressed s t) (k : Same t u) : Unpressed s u := h.trans (.of_same k)

/-- A group changed to a state that is not one of the two, or kept in its state. -/
theorem Unpressed.modSector (s : State) (g : Sector) (f : SectorState → SectorState)
    (h : (f (s.sector g)).group.state = (s.sector g).group.state
      ∨ ((f (s.sector g)).group.state ≠ .pressurizing ∧ (f (s.sector g)).group.state ≠ .stalled)) : Unpressed s (s.modSector g f) := by
  intro k hk
  by_cases e : k = g
  · subst e
    rw [State.Pressured, State.groupState, sector_modSector_self] at hk
    rcases h with h | ⟨h1, h2⟩
    · rwa [h] at hk
    · exact (hk.elim h1 h2).elim
  · exact (pressured_congr (by rw [sector_modSector_ne s f e])).1 hk

/-- Every sector changed alike, the group states kept. -/
theorem Unpressed.mapSectors (s : State) (f : SectorState → SectorState) (h : ∀ x, (f x).group.state = x.group.state) :
    Unpressed s (s.mapSectors f) := fun g hg => by
  rwa [State.Pressured, State.groupState, sector_mapSectors, h] at hg

theorem Unpressed.forEach (gs : List Sector) (f : Sector → State → State) (hf : ∀ g s, Unpressed s (f g s)) (s : State) :
    Unpressed s (forEach gs f s) :=
  forEach_keeps (P := Unpressed s) gs f (fun g _ h => h.trans (hf g _)) s (.refl s)

/-! ### Orders, faults and timers (R92 to R95, R97, R99) -/

theorem Unpressed.stallTo (k : Nat) (s : State) : Unpressed s (stallTo k s) := by
  refine .forEach _ _ (fun g t => ?_) s
  unfold stallGroup; split
  · next h =>
    intro k hk
    by_cases e : k = g
    · subst e; exact .inl h
    · exact (pressured_congr (congrArg SectorState.group (sector_modSector_ne t _ e))).1 hk
  · exact .refl t

theorem Unpressed.enterFault (g : Sector) (kind : FaultKind) (m v : Bool) (s : State) : Unpressed s (enterFault g kind m v s) :=
  Unpressed.then (t := s.modGroup g fun r => r.faulted kind)
    (.modSector s g (fun x => { x with group := x.group.faulted kind }) (.inr ⟨by simp [Group.faulted], by simp [Group.faulted]⟩))
    (.enterFault g kind m v s)

theorem Unpressed.closeIntoMargin (g : Sector) (s : State) : Unpressed s (closeIntoMargin g s) :=
  .modSector s g (fun x => { x with table := { x.table with margin := (s.sector g).group.latched.getD 0 } }) (.inl rfl)

theorem Unpressed.windowExpiry (g : Sector) (s : State) : Unpressed s (windowExpiry g s) := by
  by_cases h : s.groupState g = .pressurizing
  · rw [windowExpiry_eq h]; split
    · refine Unpressed.then ?_ ((Same.modFlags _ g _).trans (Aside.enterAlert _ _ _).same)
      exact .modSector s g (fun x => { x with group := { x.group with windows := x.group.windows + 1, timer := some ⟨.window, s.deck.window⟩ } }) (.inl rfl)
    · refine Unpressed.trans (t := s.modGroup g fun r => { r with failed := true, state := .venting, timer := some ⟨.vent, s.deck.vent⟩ })
        (.modSector s g _ (.inr ⟨nofun, nofun⟩)) (.of_sectors rfl)
  · rw [Machine.windowExpiry, if_neg h]; exact .refl s

theorem Unpressed.vented (g : Sector) (s : State) : Unpressed s (vented g s) :=
  Unpressed.trans (t := s.modGroup g fun r => { r with state := .venting, timer := some ⟨.vent, s.deck.vent⟩ })
    (.modSector s g (fun x => { x with group := { x.group with state := .venting, timer := some ⟨.vent, s.deck.vent⟩ } })
      (.inr ⟨by simp, by simp⟩)) (.of_sectors rfl)

theorem Unpressed.makeResult (g : Sector) (kind : TrimKind) (s : State) : Unpressed s (makeResult g kind s) :=
  .of_group (makeResult_group g kind s)

theorem Unpressed.settleExpiry (g : Sector) (s : State) : Unpressed s (settleExpiry g s) := by
  by_cases h : s.groupState g = .holding
  · rw [settleExpiry_eq h]; split
    · exact (Unpressed.vented g s).trans (.makeResult g _ _)
    · exact .vented g s
  · rw [Machine.settleExpiry, if_neg h]; exact .refl s

theorem Unpressed.ventExpiry (g : Sector) (s : State) : Unpressed s (ventExpiry g s) := by
  unfold Machine.ventExpiry; split
  · split
    · exact (Unpressed.closeIntoMargin g s).trans (.enterFault _ _ _ _ _)
    · exact .enterFault _ _ _ _ _
  · exact .refl s

theorem Unpressed.expireIf (g : Sector) (k : TimerKind) {event : State → State} (h : ∀ s, Unpressed s (event s)) (s : State) :
    Unpressed s (expireIf g k event s) := by
  unfold Machine.expireIf; split
  · exact h s
  · exact .refl s

/-! ### The way home, and commits (R90, R93, R94, R100) -/

theorem Unpressed.enterIdle (g : Sector) (s : State) : Unpressed s (enterIdle g s) := by
  have h : Unpressed s (s.modGroup g Group.home) :=
    .modSector s g (fun x => { x with group := x.group.home }) (.inr ⟨by simp [Group.home], by simp [Group.home]⟩)
  rw [enterIdle_eq]
  exact h.then (((Aside.trimOnIdle g _).trans (.visitOnIdle g _)).same.trans (.passSet _ _))

theorem Unpressed.clearFault (g : Sector) (s : State) : Unpressed s (clearFault g s) := by
  have h : Unpressed s (s.modGroup g Group.cleared) :=
    .modSector s g (fun x => { x with group := x.group.cleared }) (.inr ⟨by simp [Group.cleared], by simp [Group.cleared]⟩)
  exact h.then (((Repaced.goalTest _).same.trans (Aside.trimOnIdle g _).same).trans (.passSet _ _))

theorem Unpressed.raiseElev (g : Sector) (n : Nat) (s : State) : Unpressed s (raiseElev g n s) := by
  refine .of_group fun h => ?_
  rw [sector_raiseElev]; split
  · next e => subst e; rfl
  · rfl

theorem Unpressed.commitRise (g : Sector) (s : State) : Unpressed s (commitRise g s) := (Unpressed.raiseElev g _ s).then (.commitRise g s)

theorem Unpressed.commit (g : Sector) (s : State) : Unpressed s (commit g s) := by
  have h0 : Unpressed s (leavePressure g s) := .of_sectors rfl
  have h1 : Unpressed (leavePressure g s) (beforeRise g s) :=
    .modSector _ g (fun x => { x with group := x.group.committed s.deck.settle }) (.inr ⟨by simp [Group.committed], by simp [Group.committed]⟩)
  have h2 := ((h0.trans h1).trans (.commitRise g _)).then ((Aside.startAfter g _).same.trans (.passSet _ true))
  rw [commit_eq]; split
  · exact h2.trans (.settleExpiry g _)
  · exact h2

theorem Unpressed.lateCommit (g : Sector) (s : State) : Unpressed s (lateCommit g s) := by
  have h : Unpressed s (s.modGroup g Group.committedLate) := .modSector s g (fun x => { x with group := x.group.committedLate }) (.inl rfl)
  exact (h.trans (.commitRise g _)).then ((Aside.rejectAwaiting g _).same.trans (.passSet _ true))

/-! ### Switches (R86 to R88, R103) -/

theorem Unpressed.setSwitch (g : Sector) (w : SwitchId) (x : Switch) (s : State) : Unpressed s (setSwitch g w x s) := by
  rw [setSwitch_eq]; exact .modSector s g _ (.inl (state_withSwitch _ w x).1)

theorem Unpressed.switchChange (g : Sector) (w : SwitchId) (l : Bool) {event : State → State} (h : ∀ s, Unpressed s (event s)) (s : State) :
    Unpressed s (switchChange g w l event s) := by
  unfold Machine.switchChange; split
  · exact (Unpressed.setSwitch g w _ s).trans (h _)
  · exact .refl s

theorem Unpressed.inputChange (g : Sector) (w : SwitchId) (l : Bool) (s : State) : Unpressed s (inputChange g w l s) := by
  unfold Machine.inputChange; dsimp only; split
  · exact .setSwitch g w _ s
  · exact .refl s

theorem Unpressed.inputReturn (g : Sector) (w : SwitchId) (s : State) : Unpressed s (inputReturn g w s) := by
  unfold Machine.inputReturn; dsimp only; split
  · exact .setSwitch g w _ s
  · exact .refl s

theorem Unpressed.firstState (g : Sector) (w : SwitchId) (l : Bool) (s : State) : Unpressed s (firstState g w l s) := by
  by_cases h : ((s.sector g).group.switch w).state = none ∧ ((s.sector g).group.switch w).timing.map Timing.level ≠ some !l
  · rw [firstState_eq h.1 h.2]
    refine .modSector s g _ ?_
    have hw := (state_withSwitch (s.sector g).group w { state := some l, timing := none }).1
    show ((s.sector g).group.withSwitch w { state := some l, timing := none }).checkedHome.state = _ ∨ _
    unfold Group.checkedHome; split
    · exact .inr ⟨by simp [Group.faulted], by simp [Group.faulted]⟩
    · exact .inl hw
  · have hs : Machine.firstState g w l s = s := if_neg h
    rw [hs]; exact .refl s

theorem Unpressed.noteIf (g : Sector) (b : Bool) (s : State) : Unpressed s (if b then noteSwitchFault g s else s) := by
  cases b
  · exact .refl s
  · exact .of_same (.noteSwitchFault g s)

theorem Unpressed.strokeEndEvent (g : Sector) (s : State) : Unpressed s (strokeEndEvent g s) := by
  unfold Machine.strokeEndEvent; dsimp only
  have hn := Unpressed.noteIf g ((s.sector g).group.retSw.state == some true) s
  split
  · split
    · exact (Unpressed.of_same (.noteSwitchFault g s)).trans (.enterFault _ _ _ _ _)
    · exact .of_same (.noteSwitchFault g s)
  · exact hn.trans (.commit g _)
  · exact hn.trans (.commit g _)
  · split
    · exact hn.trans (.lateCommit g _)
    · exact hn
  · exact hn
  · exact hn

theorem Unpressed.retractedEvent (g : Sector) (s : State) : Unpressed s (retractedEvent g s) := by
  unfold Machine.retractedEvent; dsimp only
  have hn := Unpressed.noteIf g ((s.sector g).group.endSw.state == some true) s
  split
  · split
    · exact (Unpressed.of_same (.noteSwitchFault g s)).trans (.enterFault _ _ _ _ _)
    · exact .refl s
  · split
    · exact (hn.trans (.closeIntoMargin g _)).trans (.enterFault _ _ _ _ _)
    · exact hn.trans (.enterIdle g _)
  all_goals exact hn

theorem Unpressed.retractedLostEvent (g : Sector) (s : State) : Unpressed s (retractedLostEvent g s) := by
  unfold Machine.retractedLostEvent; split
  · exact .of_same (.noteSwitchFault g s)
  · exact .refl s

/-! ### The sensor line (R43, R44, R143 to R152) -/

theorem Unpressed.afterReading (g : Sector) (v : Option Nat) (s : State) : Unpressed s (afterReading g v s) := by
  have h : Unpressed s (s.modTrim g fun t => { t with after := t.after ++ [v] }) := .of_same (.modTrim s g _)
  unfold Machine.afterReading; dsimp only; split
  · exact h.then (Aside.requestTry _ _ _ _).same
  · split
    · exact h.trans (.makeResult g _ _)
    · exact h

theorem Unpressed.readingEnds (t : Try) (v : Option Nat) (s : State) : Unpressed s (readingEnds t v s) := by
  unfold Machine.readingEnds; split
  · split
    · exact .of_same (.driftReading _ _ s)
    · exact .refl s
  · exact .of_same (Aside.beforeReading _ v s).same
  · exact .afterReading _ v s
  · exact .refl s

theorem Unpressed.tryFailed (t : Try) (s : State) : Unpressed s (tryFailed t s) := by
  unfold Machine.tryFailed; split
  · exact .of_same (Aside.requestTry _ _ _ s).same
  · split
    · exact .of_same (Same.modProbe s _ _)
    · exact .readingEnds t none s

theorem Unpressed.tryEnds (t : Try) {act : State → State} (h : ∀ s, Unpressed s (act s)) (s : State) : Unpressed s (tryEnds t act s) := by
  have h0 : Unpressed s { s with line := none } := .of_sectors rfl
  unfold Machine.tryEnds; dsimp only
  refine Unpressed.then ?_ (Aside.serveLine _).same
  split
  · exact h0.trans (h _)
  · exact h0

theorem Unpressed.probeAnswered (h : Int) (c : Bool) (s : State) : Unpressed s (probeAnswered h c s) := by
  unfold Machine.probeAnswered; split
  · split
    · refine .tryEnds _ (fun u => ?_) s
      cases c
      · exact .of_same (.pollGood _ _ _ u)
      · exact .tryFailed _ u
    · exact .refl s
  · exact .refl s

theorem Unpressed.receiverAnswered (n : Nat) (c : Bool) (s : State) : Unpressed s (receiverAnswered n c s) := by
  unfold Machine.receiverAnswered; split
  · split
    · exact .refl s
    · refine .tryEnds _ (fun u => ?_) s
      cases c
      · exact .readingEnds _ (some n) u
      · exact .tryFailed _ u
  · exact .refl s

theorem Unpressed.tryTimedOut (s : State) : Unpressed s (tryTimedOut s) := by
  unfold Machine.tryTimedOut; split
  · exact .tryEnds _ (fun u => .tryFailed _ u) s
  · exact .refl s

/-! ### The clock, what it makes due, and the resets (R41, R104, R107) -/

theorem Unpressed.takeLapse (s : State) : Unpressed s (takeLapse s) := by
  unfold Machine.takeLapse; split
  · have h : Unpressed s { s with due := { s.due with lapse := false }, supply := { s.supply with state := .lapsed, lapseRunning := false } } :=
      .of_sectors rfl
    exact (h.trans (.stallTo 0 _)).then (Aside.enterAlert _ _ _).same
  · exact .refl s

theorem Unpressed.secondWork (s : State) : Unpressed s (secondWork s) :=
  (Unpressed.mapSectors s (secondTick s.mode) fun _ => rfl).trans (.of_sectors rfl)

theorem Unpressed.minuteWork (s : State) : Unpressed s (minuteWork s) := by
  have h1 : Unpressed s (setTemps (stalenessTest s)) := .of_same ((Same.stalenessTest s).trans (.setTemps _))
  have h2 : ∀ u, Unpressed u (integrate u) := fun u => by
    rw [integrate_eq]
    refine (Unpressed.mapSectors u (.matured u.mixes) fun x => ?_).then (.handOnReady u _)
    unfold SectorState.matured; split <;> rfl
  exact ((h1.trans (h2 _)).then (Aside.driftCheck _).same).then (.dueSet _ _)

theorem Unpressed.warmReset (s : State) : Unpressed s (warmReset s) := by
  have h1 : Unpressed s (resetRecords s) := fun g hg => by
    have hne : ((resetRecords s).sector g).group.state ≠ .pressurizing ∧ ((resetRecords s).sector g).group.state ≠ .stalled := by
      rw [sector_resetRecords]
      show (resetGroup s.deck.vent (s.sector g).group).state ≠ .pressurizing ∧ (resetGroup s.deck.vent (s.sector g).group).state ≠ .stalled
      unfold resetGroup; split <;> simp_all [ventGroup]
    exact (hg.elim hne.1 hne.2).elim
  exact h1.then ((((Same.alertClosed s _).trans (.deriveGoal _)).trans (Repaced.raiseDemands _).same).trans (.passSet _ _))

end Sys2Proof.Machine
end

