-- ==== Sys2Proof/Proofs/GrantsAreEligible.lean ====
section
/-! SUPPORT. Every command grants only to groups that are eligible (GrantsAreEligible). -/

namespace Sys2Proof.Machine

/-! ### The requests -/

theorem Unpressed.grantsOnly {s t : State} (h : Unpressed s t) : GrantsOnly s t := fun g hg => .inl (h g hg)

theorem GrantsOnly.of_same {s t : State} (h : Same s t) : GrantsOnly s t := (Unpressed.of_same h).grantsOnly

theorem GrantsOnly.of_eq {s t : State} (h : t = s) : GrantsOnly s t := h ▸ .refl s

/-- The end of an event that brought no group under pressure. -/
theorem Unpressed.finish {s t : State} (h : Unpressed s t) : GrantsOnly s (Machine.finish t) := h.grantsOnly.finish

theorem Unpressed.then_grants {s t u : State} (h : Unpressed s t) (k : GrantsOnly t u) : GrantsOnly s u := fun g hg => (k g hg).imp (h g) id

theorem GrantsOnly.serveDeckWrite (d : DeckBlock) (s : State) : GrantsOnly s (serveDeckWrite d s).1 := by
  unfold Machine.serveDeckWrite; split
  · exact .refl s
  · dsimp only; split
    · exact .refl s
    · have h0 : Unpressed s { s with deck := s.deckTaken d, deckWritten := true } := .of_sectors rfl
      exact (h0.then (((Same.handOnDeck s _).trans (.noteClamped _ none _)).trans (Aside.completenessTest _).same)).finish

theorem GrantsOnly.serveSectorWrite (i : Nat) (f : SectorFields) (s : State) : GrantsOnly s (serveSectorWrite i f s).1 := by
  have write : ∀ g ns m, GrantsOnly s (takeSectorWrite g ns m f s).1 := fun g ns m => by
    unfold takeSectorWrite; dsimp only; split
    · exact .refl s
    · refine Unpressed.finish (Unpressed.then ?_ (((Same.handOnSector g s _).trans (.noteClamped _ _ _)).trans (Aside.completenessTest _).same))
      exact .modSector s g (fun x => { x with table := _ }) (.inl rfl)
  unfold Machine.serveSectorWrite; split
  · exact .refl s
  · split
    · split
      · exact .refl s
      · split
        · exact .refl s
        · exact write _ _ _
    · exact .refl s

theorem GrantsOnly.serveMixWrite (i : Nat) (f : MixFields) (s : State) : GrantsOnly s (serveMixWrite i f s).1 := by
  unfold Machine.serveMixWrite; split
  · exact .refl s
  · split
    · next m line _ _ =>
      have h0 : ∀ b : MixBlock, Unpressed s { s with mixes := s.mixes.set m.val b } := fun b => .of_sectors rfl
      have h1 : ∀ u, Unpressed u (retest m u) := fun u => by
        rw [retest_eq]; exact (Unpressed.mapSectors u (.retested m u.mixes) fun _ => rfl).then (.handOnReady u _)
      exact (((h0 _).trans (h1 _)).then (((Same.unservedCheck s _).trans (.noteClamped _ none _)).trans (Aside.completenessTest _).same)).finish
    · exact .refl s

theorem GrantsOnly.serveSweepWrite (f : SweepFields) (s : State) : GrantsOnly s (serveSweepWrite f s).1 := by
  unfold Machine.serveSweepWrite; split
  · exact .refl s
  · split
    · next order mode _ _ =>
      split
      · exact .refl s
      · have h : Unpressed s { s with sweep := { written := true, order := order, start := f.start, mode := mode }, queue := [], sweepCount := 0, lastSweep := none } :=
          .of_sectors rfl
        exact (h.then (Aside.completenessTest _).same).finish
    · exact .refl s

theorem GrantsOnly.serveSetRate (n : Nat) (s : State) : GrantsOnly s (serveSetRate n s).1 := by
  have h : ∀ r, Same s (takeRate n r s) := by
    intro r
    unfold takeRate; split
    · exact .refl s
    · exact Same.trans (t := { s with rate := r }) (.of_eq rfl rfl) (.forEach _ _ (fun g t => .modPace t g _) _)
  exact .of_same ((h _).trans (.noteClamped _ _ _))

theorem GrantsOnly.serveSetGoal (n : Nat) (s : State) : GrantsOnly s (serveSetGoal n s).1 := by
  have h : ∀ v, Same s (forEach allSectors updateGoal { s with goal := v }) := fun v =>
    Same.trans (t := { s with goal := v }) (.of_eq rfl rfl) (.forEach _ _ (fun g t => (Repaced.updateGoal g t).same) _)
  exact (Unpressed.of_same (((h _).trans (Repaced.goalTest _).same).trans (.noteClamped _ _ _))).finish

theorem GrantsOnly.serveSetPlane (n : Nat) (s : State) : GrantsOnly s (serveSetPlane n s).1 :=
  .of_same (Same.trans (t := { s with plane := clampNat 0 2500000 n }) (.of_eq rfl rfl) (.noteClamped _ _ _))

theorem GrantsOnly.serveSetCreepSet (gs : List Nat) (s : State) : GrantsOnly s (serveSetCreepSet gs s).1 := by
  unfold Machine.serveSetCreepSet; split
  · exact .refl s
  · next set _ =>
    split
    · exact .refl s
    · have h : ∀ es, Unpressed s { s with creepSet := sectorSet set, creepList := es } := fun _ => .of_sectors rfl
      dsimp only
      refine Unpressed.finish ?_
      split
      · exact (h _).then (Repaced.raiseDemands _).same
      · exact h s.creepList

theorem GrantsOnly.serveEstablish (n e : Nat) (s : State) : GrantsOnly s (serveEstablish n e s).1 := by
  unfold Machine.serveEstablish; split
  · exact .refl s
  · next g _ =>
    dsimp only; split
    · exact .refl s
    · have h0 : ∀ v, Unpressed s (s.modTable g fun r => { r with elev := some v, margin := 0 }) := fun v =>
        .modSector s g (fun x => { x with table := { x.table with elev := some v, margin := 0 } }) (.inl rfl)
      exact ((h0 _).then (((Same.rebase g _).trans (Repaced.rederive g _).same).trans (Aside.completenessTest _).same)).finish

theorem GrantsOnly.serveAdjust (n c : Nat) (s : State) : GrantsOnly s (serveAdjust n c s).1 := by
  unfold Machine.serveAdjust; split
  · exact .refl s
  · next g _ =>
    split
    · exact .refl s
    · have h0 : Unpressed s (unmargined g s) := .modSector s g (fun x => { x with table := { x.table with margin := 0 } }) (.inl rfl)
      exact ((h0.trans (.raiseElev g _ _)).then ((Repaced.rederive g _).same.trans (.passSet _ true))).finish

theorem GrantsOnly.serveClearFlags (n : Nat) (b : Byte) (s : State) : GrantsOnly s (serveClearFlags n b s).1 := by
  unfold Machine.serveClearFlags; split
  · exact .of_same (.forEach _ _ (fun g t => .modFlags t g _) s)
  · split
    · exact .refl s
    · next g _ => exact .of_same (Same.modFlags s g fun f => f.clear b)

theorem GrantsOnly.serveClearFault (n : Nat) (s : State) : GrantsOnly s (serveClearFault n s).1 := by
  unfold Machine.serveClearFault; split
  · exact .refl s
  · split
    · exact .refl s
    · split
      · exact .refl s
      · dsimp only; split
        · exact (Unpressed.clearFault _ s).finish
        · exact .refl s

theorem GrantsOnly.finishHold (s : State) : GrantsOnly s (Machine.finish (enterHold s)) := (Unpressed.of_same (Repaced.enterHold s).same).finish

theorem GrantsOnly.finishStandby (s : State) : GrantsOnly s (Machine.finish (enterStandby s)) := (Unpressed.of_same (Aside.enterStandby s).same).finish

theorem GrantsOnly.serveStart (s : State) : GrantsOnly s (serveStart s).1 := by
  have h : GrantsOnly s (Machine.finish (enterClimb s)) := (Unpressed.of_same (Repaced.enterClimb s).same).finish
  unfold Machine.serveStart; split
  · exact h
  · exact h
  all_goals exact .refl s

theorem GrantsOnly.serveHold (s : State) : GrantsOnly s (serveHold s).1 := by
  unfold Machine.serveHold; split
  · exact .finishHold s
  all_goals exact .refl s

theorem GrantsOnly.servePark (s : State) : GrantsOnly s (servePark s).1 := by
  unfold Machine.servePark; split
  · split
    · exact .refl s
    · exact .finishStandby s
  all_goals exact .refl s

theorem Unpressed.enterHalt (s : State) : Unpressed s (enterHalt s) := by
  have h1 : Unpressed s (Machine.stallTo 0 { s with mode := .halt, beforeHalt := some s.mode }) :=
    Unpressed.trans (t := { s with mode := .halt, beforeHalt := some s.mode }) (.of_sectors rfl) (.stallTo 0 _)
  have h2 : ∀ u, Same u (if s.mode = .climb then stopCounters u else u) := by
    intro u; split
    · exact (Repaced.stopCounters u).same
    · exact .refl u
  have h3 : ∀ u, Same u (if s.mode = .survey then stopSurvey u else u) := by
    intro u; split
    · exact (Aside.stopSurvey u).same
    · exact .refl u
  exact h1.then (((h2 _).trans (h3 _)).trans (.passSet _ _))

theorem GrantsOnly.serveStop (s : State) : GrantsOnly s (serveStop s).1 := by
  unfold Machine.serveStop; split
  iterate 4 · exact (Unpressed.enterHalt s).finish
  all_goals exact .refl s

theorem GrantsOnly.serveResume (s : State) : GrantsOnly s (serveResume s).1 := by
  unfold Machine.serveResume; split
  · unfold leaveHalt; split
    iterate 2 · exact .finishHold s
    iterate 2 · exact .finishStandby s
    all_goals exact .refl s
  all_goals exact .refl s

theorem GrantsOnly.serveSurveyStart (s : State) : GrantsOnly s (serveSurveyStart s).1 := by
  unfold Machine.serveSurveyStart; split
  · exact .refl s
  · split
    · exact .refl s
    · exact (Unpressed.of_same (Aside.beginSurvey s).same).finish

theorem GrantsOnly.serveEndSurvey (s : State) : GrantsOnly s (serveEndSurvey s).1 := by
  unfold Machine.serveEndSurvey; split
  · exact .refl s
  · split
    · exact .refl s
    · exact (Unpressed.of_same (Aside.endSurvey s).same).finish

theorem GrantsOnly.serveTrimSector (n : Nat) (s : State) : GrantsOnly s (serveTrimSector n s).1 := by
  unfold Machine.serveTrimSector; split
  · exact .refl s
  · split
    · exact .refl s
    · exact .of_same (Aside.askTrim _ s).same

theorem Unpressed.joinLayer (g : Sector) (l : Layer) (s : State) : Unpressed s (joinLayer g l s) :=
  .modSector s g (.joined l) (.inl rfl)

theorem GrantsOnly.serveLayerRestore (f : RestoreFields) (s : State) : GrantsOnly s (serveLayerRestore f s).1 := by
  unfold Machine.serveLayerRestore; split
  · dsimp only; split
    · exact .refl s
    · exact ((Unpressed.joinLayer _ _ s).then (.passSet _ true)).finish
  · exact .refl s

theorem GrantsOnly.serveLoadTable (s : State) : GrantsOnly s (serveLoadTable s).1 := by
  unfold Machine.serveLoadTable; split
  · exact .refl s
  · have h : Same s { s with loadPending := true } := .of_eq rfl rfl
    exact (Unpressed.of_same (h.trans (Repaced.checkLoad _).same)).finish

theorem GrantsOnly.serveSupplyState (m k : Nat) (p : Option Nat) (s : State) : GrantsOnly s (serveSupplyState m k p s).1 := by
  have h : ∀ st cap pr, Unpressed s (takeReport st cap pr s) := by
    intro st cap pr
    have h1 : Unpressed s { s with supply := { state := st, cap := cap, pressure := pr, lapse := 0, lapseRunning := true } } := .of_sectors rfl
    exact (h1.trans (.stallTo _ _)).then (.passSet _ _)
  unfold Machine.serveSupplyState; split
  · exact .refl s
  · exact (h _ _ _).finish

theorem GrantsOnly.servePlaced (n k : Nat) (b : Option Nat) (s : State) : GrantsOnly s (servePlaced n k b s).1 := by
  unfold Machine.servePlaced; split
  · exact .refl s
  · next t _ =>
    split
    · exact .of_same (.serveAbandon n s)
    · unfold placeUnder; split
      · exact .of_same (.placeRefused t s)
      · exact ((Unpressed.joinLayer t.sector _ s).then
          ((((Same.dropNamed t _).trans (.noteLate t _)).trans (.layerAlerts t.sector _ _)).trans (.passSet _ true))).finish

/-- A request grants only to eligible groups. -/
theorem GrantsOnly.serveRequest (r : Request) (s : State) : GrantsOnly s (serveRequest r s).1 := by
  cases r with
  | deckWrite f => exact .serveDeckWrite f s
  | sectorWrite i f => exact .serveSectorWrite i f s
  | mixWrite i f => exact .serveMixWrite i f s
  | sweepWrite f => exact .serveSweepWrite f s
  | profileRead b i => exact .of_eq (serveProfileRead_state b i s)
  | setRate v => exact .serveSetRate v s
  | setGoal v => exact .serveSetGoal v s
  | setPlane v => exact .serveSetPlane v s
  | setCreepSet gs => exact .serveSetCreepSet gs s
  | establish g e => exact .serveEstablish g e s
  | adjust g c => exact .serveAdjust g c s
  | clearFlags g f => exact .serveClearFlags g f s
  | clearFault g => exact .serveClearFault g s
  | start => exact .serveStart s
  | hold => exact .serveHold s
  | park => exact .servePark s
  | stop => exact .serveStop s
  | resume => exact .serveResume s
  | restart => exact .refl s
  | survey => exact .serveSurveyStart s
  | endSurvey => exact .serveEndSurvey s
  | trimSector g => exact .serveTrimSector g s
  | layerRestore f => exact .serveLayerRestore f s
  | setLayerCursor g p => exact .of_same (.serveSetCursor g p s)
  | readLayer => exact .of_same (.serveReadLayer s)
  | readReleaseLog i n => exact .of_eq (serveReadLog_state i n s)
  | writeArbTable xs => exact .of_same (.serveWriteTable xs s)
  | loadArbTable => exact .serveLoadTable s
  | readArbTable n => exact .of_eq (serveReadTable_state n s)
  | readFeed p g => exact .of_eq (serveReadFeed_state p g s)
  | sectorStatus g => exact .of_eq (serveSectorStatus_state g s)
  | deckStatus => exact .refl s
  | readAlerts i n => exact .of_eq (serveReadAlerts_state i n s)
  | ackAlerts n => exact .of_same (.serveAckAlerts n s)
  | supplyState m k p => exact .serveSupplyState m k p s
  | requestFeed l n => exact .of_same (.serveRequestFeed l n s)
  | placed n k b => exact .servePlaced n k b s
  | abandon n => exact .of_same (.serveAbandon n s)
  | ticketQuery n => exact .of_eq (serveTicketQuery_state n s)

/-! ### The ports -/

theorem GrantsOnly.takeFrame (p : PortId) (f : Frame) (s : State) : GrantsOnly s (takeFrame p f s) := by
  have hcheck : GrantsOnly s (checkRequest p f s).1 := by
    have hdef : checkRequest p f s = match kindOf f.kind with
      | none => refuse s .unknown
      | some k => if roleOf k ≠ p then refuse s .role else match parsePayload k f.payload with
        | none => refuse s .length
        | some r => Machine.serveRequest r s := rfl
    rw [hdef]; split
    · exact .refl s
    · split
      · exact .refl s
      · split
        · exact .refl s
        · exact .serveRequest _ s
  exact hcheck.setPort p _

theorem GrantsOnly.deliver (p : PortId) (f : Frame) (s : State) : GrantsOnly s (deliver p f s) := by
  unfold Machine.deliver; dsimp only; split
  · exact .takeFrame p f s
  · exact .of_same (.setPort s p _)
  · exact .of_same (.setPort s p _)

theorem GrantsOnly.delivered (p : PortId) (f : Frame) (s : State) : GrantsOnly s (Machine.deliver p f (toHunting p s)) :=
  (Unpressed.of_same (.toHunting p s)).then_grants (.deliver p f _)

theorem GrantsOnly.frameByte (p : PortId) (bytes : List Byte) (s : State) : GrantsOnly s (frameByte p bytes s) := by
  unfold Machine.frameByte; split
  · exact .of_same (.setPort s p _)
  · exact .of_same (.toHunting p s)
  · exact .delivered p _ s

theorem GrantsOnly.receiveByte (p : PortId) (b : Byte) (s : State) : GrantsOnly s (receiveByte p b s) := by
  unfold Machine.receiveByte; split
  · split
    · exact .of_same (.setPort s p _)
    · exact .refl s
  · exact .frameByte p _ s

theorem GrantsOnly.answerDone (p : PortId) (s : State) : GrantsOnly s (answerDone p s) := by
  unfold Machine.answerDone; dsimp only; split
  · exact .refl s
  · split
    · exact (Unpressed.warmReset s).grantsOnly
    · split
      · exact (Unpressed.of_same (.setPort s p _)).then_grants (.takeFrame p _ _)
      · exact .of_same (.setPort s p _)

/-! ### The clock and every command -/

theorem Unpressed.finishDue {s t : State} (h : Unpressed s t) : GrantsOnly s (Machine.finishDue t) := by
  unfold Machine.finishDue; split
  · exact h.finish
  · exact h.grantsOnly

/-- A clock event that no timer's expiry precedes has one pass, its last act (R110, log 15). -/
theorem GrantsOnly.clockEvent {s : State} (hq : Quiet s) (ht : ∀ g k, (s.sector g).group.timer ≠ some ⟨k, 0⟩) (b : Bool) :
    GrantsOnly s (clockEvent b s) := by
  rw [clockEvent_of_running hq fun g ⟨k, hk⟩ => ht g k hk]
  dsimp only
  generalize (b || decide (59 ≤ s.second)) = m
  have h1 : Unpressed s (secondWork (advanceClock m s)) := (Unpressed.of_same (.advanceClock m s)).trans (.secondWork _)
  generalize secondWork (advanceClock m s) = v at h1 ⊢
  have h2 : Unpressed s (if v.second % 10 = 0 then pollRound v else v) := by
    split
    · exact h1.then (Aside.pollRound v).same
    · exact h1
  split
  · exact (h2.trans (.minuteWork _)).finishDue
  · exact h2.finishDue

/-- The steps that a clock event has made due (log 2). -/
def dueSteps : List Instr := [.paceCounterExpiry, .dwellLimitReached, .bondRisk, .supplyLapse, .ticketExpiry, .expiredEntryAging]

theorem exec_dueStep_grantsOnly {c : Instr} {s t : State} (hc : c ∈ dueSteps) (h : exec c s = .next t) : GrantsOnly s t := by
  have due : ∀ {u : State}, Unpressed s u → (.next (finishDue u) : Result) = .next t → GrantsOnly s t := by rintro u k ⟨⟩; exact k.finishDue
  simp only [dueSteps, List.mem_cons, List.not_mem_nil, or_false] at hc
  rcases hc with rfl | rfl | rfl | rfl | rfl | rfl
  · exact due (.of_same (.takePace s)) h
  · exact due (.of_same (.takeDwell s)) h
  · exact due (.of_same (.takeBond s)) h
  · exact due (.takeLapse s) h
  · exact due (.of_same (.takeExpiry s)) h
  · exact due (.of_same (.takeAging s)) h

/-- Every command on a state with no clock work left for it (log 2). -/
theorem exec_grantsOnly {c : Instr} {s t : State} (hq : Quiet s)
    (ht : c = .secondEvent ∨ c = .minuteEvent → ∀ h k, (s.sector h).group.timer ≠ some ⟨k, 0⟩) (h : exec c s = .next t) : GrantsOnly s t := by
  have taken : ∀ {u : State}, GrantsOnly (settleDue s) u → (.next u : Result) = .next t → GrantsOnly s t := by
    rintro u k ⟨⟩; rwa [settleDue_of_due hq.1] at k
  have quiet : ∀ {u : State}, Unpressed (settleDue s) u → (.next u : Result) = .next t → GrantsOnly s t := fun k => taken k.grantsOnly
  have passed : ∀ {u : State}, Unpressed (settleDue s) u → (.next (finish u) : Result) = .next t → GrantsOnly s t := fun k => taken k.finish
  have clock : ∀ {u : State}, GrantsOnly s u → (.next u : Result) = .next t → GrantsOnly s t := by rintro u k ⟨⟩; exact k
  cases c with
  | powerOnReset =>
    refine clock (Unpressed.grantsOnly fun g hg => ?_) h
    rw [State.Pressured, State.groupState, sector_powerOn] at hg
    exact absurd hg (by decide)
  | warmReset => exact quiet (.warmReset _) h
  | answerSent p => exact taken (.answerDone p _) h
  | frameDiscarded p d => exact taken (.frameByte p d _) h
  | frameByteTimeout p => exact quiet (.of_same (.toHunting p _)) h
  | startByte p b => exact taken (.receiveByte p b _) h
  | switchInputChange g w l => exact quiet (.inputChange g w l _) h
  | switchFirstState g w l => exact quiet (.firstState g w l _) h
  | inputReturnsToDebouncedState g w => exact quiet (.inputReturn g w _) h
  | strokeEndTaken g => exact passed (.switchChange g .strokeEnd true (.strokeEndEvent g) _) h
  | strokeEndLost g => exact passed (.switchChange g .strokeEnd false .refl _) h
  | retractedTaken g => exact passed (.switchChange g .retracted true (.retractedEvent g) _) h
  | retractedLost g => exact passed (.switchChange g .retracted false (.retractedLostEvent g) _) h
  | pressurizeWindowExpiry g => exact passed (.expireIf g .window (.windowExpiry g) _) h
  | settleTimeExpiry g => exact passed (.expireIf g .settle (.settleExpiry g) _) h
  | ventWindowExpiry g => exact passed (.expireIf g .vent (.ventExpiry g) _) h
  | secondEvent => exact clock (.clockEvent hq (ht (.inl rfl)) false) h
  | minuteEvent => exact clock (.clockEvent hq (ht (.inr rfl)) true) h
  | paceCounterExpiry => exact exec_dueStep_grantsOnly (by simp [dueSteps]) h
  | dwellLimitReached => exact exec_dueStep_grantsOnly (by simp [dueSteps]) h
  | bondRisk => exact exec_dueStep_grantsOnly (by simp [dueSteps]) h
  | supplyLapse => exact exec_dueStep_grantsOnly (by simp [dueSteps]) h
  | ticketExpiry => exact exec_dueStep_grantsOnly (by simp [dueSteps]) h
  | expiredEntryAging => exact exec_dueStep_grantsOnly (by simp [dueSteps]) h
  | probeAnswer n b => exact passed (.probeAnswered n b _) h
  | receiverAnswer n b => exact passed (.receiverAnswered _ b _) h
  | sensorTryTimeout => exact passed (.tryTimedOut _) h
  | _ => exact taken (.delivered _ _ _) h

/-- Settles O41: a group that comes under pressure was granted by the command's one pass, and allowed it to the end of the pass; the laws of the stacks are not needed. -/
theorem grantsAreEligible : Obligations.GrantsAreEligible := by
  intro c s t g _ _ hq ht h hp hst hg cured onConcrete
  have hgrants : GrantsOnly s t := hq.elim (fun hq => exec_grantsOnly hq ht h) fun hc => exec_dueStep_grantsOnly hc h
  obtain ⟨-, ha⟩ := (hgrants g (.inl hg)).resolve_left fun hs => hs.elim hp hst
  obtain ⟨kind, h1, h2, h3, h4, h5, h6, h7⟩ := ha.stroke
  refine ⟨ha.enabled, ha.established, ha.margin, ⟨h1, h2, h3, h4, _, h5, rfl, Nat.le_refl _, Nat.le_succ _⟩, ha.tilt, ha.height, ?_,
    ha.order, ha.supply⟩
  cases kind with
  | paced => exact .inl ⟨h6, h7⟩
  | creep => exact .inr (.inl ⟨h6, h7⟩)
  | survey => exact .inr (.inr ⟨h6, h7.1, h7.2.2⟩)

end Sys2Proof.Machine
end

