-- ==== Sys2Proof/Proofs/PaceOutsideSurvey.lean ====
section
/-! SUPPORT. The law of the pacing unit is not kept by itself: where a survey runs in CLIMB, which the law of the survey excludes, its last visit leaves CLIMB with the pace counters running (SurveyAndRangesKept). -/

namespace Sys2Proof.Machine

/-- Sector 0 in use, its pace counter running, its group on the way home with the retracted switch about to be taken. -/
def cominghome : SectorState :=
  { table := { enabled := true, elev := some 0 }
    pace := { running := true, counter := 5 }
    group := { state := .venting, retSw := { state := some false, timing := some ⟨true, 50⟩ } } }

/-- A deck in CLIMB that keeps the law of the pacing unit, and breaks that of the survey: a survey is RUNNING, and sector 0 is under its last visit (R151). -/
def surveyInClimb : State :=
  { State.reset with
    mode := .climb, surveyState := .running, visit := some (0, .resultMade), pending := [.retractedTaken 0]
    sectors := (Vector.replicate 24 {}).set 0 cominghome }

theorem paceLaw_surveyInClimb : PaceLaw surveyInClimb := by unfold PaceLaw; decide +kernel

/-- The state after RETRACTED_TAKEN: the group is IDLE, its visit and with it the survey end, and the deck is in STANDBY (R94, R152, R153). -/
def surveyLeft : State :=
  finish (switchChange 0 .retracted true (retractedEvent 0) (settleDue { surveyInClimb with pending := [] }))

theorem step_surveyInClimb : step surveyInClimb = .next surveyLeft := rfl

theorem mode_surveyLeft : surveyLeft.mode = .standby := by decide +kernel

theorem running_surveyLeft : (surveyLeft.sector 0).pace.running = true := by decide +kernel

/-- Refutes O59: PaceLaw is not kept without SurveyLaw. In a deck in CLIMB with a survey RUNNING, a state no run reaches, the end of the last visit enters STANDBY (R153), an entry that stops no pace counter. -/
theorem not_surveyAndRangesKept : ¬ Obligations.SurveyAndRangesKept := by
  rintro ⟨-, hpace, -⟩
  obtain ⟨-, hcounter, -⟩ := hpace _ _ paceLaw_surveyInClimb step_surveyInClimb 0
  obtain ⟨hclimb, -⟩ := hcounter.1 running_surveyLeft
  exact absurd (mode_surveyLeft.symm.trans hclimb) (by decide)

end Sys2Proof.Machine
end

