-- ==== Sys2Proof/Proofs/Lineup.lean ====
section
/-! SUPPORT. The operations that write neither the pressure order nor the supply record, one frame lemma each: all but grants, commits, the window expiry, the supply report, its lapse, the clock and the resets. -/

namespace Sys2Proof.Machine

/-- From s to t the pressure order and the supply record are kept. -/
abbrev Lineup (s t : State) : Prop := t.pressureOrder = s.pressureOrder ∧ t.supply = s.supply

theorem Repaced.lineup {s t : State} (h : Repaced s t) : Lineup s t :=
  ⟨congrArg (·.2.2.2.2.2.1) h.unpaced, h.supply⟩

theorem lineup_forEach {gs : List Sector} {f : Sector → State → State} (h : ∀ g s, Lineup s (f g s)) (s : State) :
    Lineup s (forEach gs f s) :=
  forEach_keeps (P := Lineup s) gs f (fun g t ht => ⟨(h g t).1.trans ht.1, (h g t).2.trans ht.2⟩) s ⟨rfl, rfl⟩

/-! ### One sector's records, the ports and the alert list -/

@[simp] theorem lineup_modTable (s : State) (g : Sector) (f : SectorRec → SectorRec) : Lineup s (s.modTable g f) := ⟨rfl, rfl⟩
@[simp] theorem lineup_modLayers (s : State) (g : Sector) (f : LayerTable → LayerTable) : Lineup s (s.modLayers g f) := ⟨rfl, rfl⟩
@[simp] theorem lineup_modProbe (s : State) (g : Sector) (f : Probe → Probe) : Lineup s (s.modProbe g f) := ⟨rfl, rfl⟩
@[simp] theorem lineup_modPace (s : State) (g : Sector) (f : Pace → Pace) : Lineup s (s.modPace g f) := ⟨rfl, rfl⟩
@[simp] theorem lineup_modGroup (s : State) (g : Sector) (f : Group → Group) : Lineup s (s.modGroup g f) := ⟨rfl, rfl⟩
@[simp] theorem lineup_modTrim (s : State) (g : Sector) (f : Trim → Trim) : Lineup s (s.modTrim g f) := ⟨rfl, rfl⟩
@[simp] theorem lineup_modFlags (s : State) (g : Sector) (f : StickyFlags → StickyFlags) : Lineup s (s.modFlags g f) := ⟨rfl, rfl⟩
@[simp] theorem lineup_setTicket (s : State) (g : Sector) (t : Option Ticket) : Lineup s (s.setTicket g t) := ⟨rfl, rfl⟩

@[simp] theorem lineup_enterAlert (k : AlertKind) (g : Option Sector) (s : State) : Lineup s (enterAlert k g s) := by
  rw [enterAlert_eq]; exact ⟨rfl, rfl⟩

/-! ### The sensor line -/

@[simp] theorem lineup_serveLine (s : State) : Lineup s (serveLine s) := by unfold serveLine; split <;> simp [Lineup]

@[simp] theorem lineup_requestTry (k : TryKind) (g : Sector) (n : Nat) (s : State) : Lineup s (requestTry k g n s) := by
  simp [Lineup, requestTry]

@[simp] theorem lineup_abandonTries (p : Try → Bool) (s : State) : Lineup s (abandonTries p s) := ⟨rfl, rfl⟩

/-! ### The level trim unit and the survey -/

@[simp] theorem lineup_setOutcome (g : Sector) (o : VisitOutcome) (s : State) : Lineup s (setOutcome g o s) := ⟨rfl, rfl⟩

@[simp] theorem lineup_abandonBefore (g : Sector) (s : State) : Lineup s (abandonBefore g s) := ⟨rfl, rfl⟩

@[simp] theorem lineup_startBefore (g : Sector) (s : State) : Lineup s (startBefore g s) := by simp [Lineup, startBefore]

@[simp] theorem lineup_writeResult (g : Sector) (kind : TrimKind) (c : TrimCode) (n : Nat) (d : Option Int) (s : State) :
    Lineup s (writeResult g kind c n d s) := by
  unfold writeResult; dsimp only; split <;> simp [Lineup]

@[simp] theorem lineup_writeRejected (g : Sector) (kind : TrimKind) (s : State) : Lineup s (writeRejected g kind s) := by
  simp [Lineup, writeRejected]

@[simp] theorem lineup_closeTrim (g : Sector) (kind : TrimKind) (c : TrimCode) (s : State) : Lineup s (closeTrim g kind c s) := by
  cases kind <;> exact ⟨rfl, rfl⟩

@[simp] theorem lineup_rejectAwaiting (g : Sector) (s : State) : Lineup s (rejectAwaiting g s) := by
  unfold rejectAwaiting; split <;> simp [Lineup]

@[simp] theorem lineup_startAfter (g : Sector) (s : State) : Lineup s (startAfter g s) := by unfold startAfter; split <;> simp [Lineup]

@[simp] theorem lineup_trimOnIdle (g : Sector) (s : State) : Lineup s (trimOnIdle g s) := by unfold trimOnIdle; split <;> simp [Lineup]

@[simp] theorem lineup_trimOnGrant (g : Sector) (kind : StrokeKind) (s : State) : Lineup s (trimOnGrant g kind s) := by
  have hv : ∀ u : State, Lineup u (if kind = .survey then { u with visit := some (g, .stroke) } else u) := by
    intro u; split <;> simp [Lineup]
  unfold trimOnGrant; dsimp only
  rw [Lineup, (hv _).1, (hv _).2]
  split <;> simp

@[simp] theorem lineup_dropTrimRequests (s : State) : Lineup s (dropTrimRequests s) := ⟨rfl, rfl⟩

@[simp] theorem lineup_enterStandby (s : State) : Lineup s (enterStandby s) := ⟨rfl, rfl⟩

@[simp] theorem lineup_completenessTest (s : State) : Lineup s (completenessTest s) := by
  unfold completenessTest enterUnset; repeat' split
  all_goals simp [Lineup]

@[simp] theorem lineup_surveyDone (s : State) : Lineup s (surveyDone s) := by simp [Lineup, surveyDone]

@[simp] theorem lineup_beginVisits (gs : List Sector) (s : State) : Lineup s (beginVisits gs s) := by
  induction gs generalizing s with
  | nil => exact lineup_surveyDone s
  | cons g gs ih =>
    unfold beginVisits; repeat' split
    all_goals simp [Lineup, ih]

@[simp] theorem lineup_visitEnded (s : State) : Lineup s (visitEnded s) := by unfold visitEnded; dsimp only; split <;> simp [Lineup]

@[simp] theorem lineup_visitBlocked (g : Sector) (s : State) : Lineup s (visitBlocked g s) := by simp [Lineup, visitBlocked]

@[simp] theorem lineup_visitOnIdle (g : Sector) (s : State) : Lineup s (visitOnIdle g s) := by unfold visitOnIdle; split <;> simp [Lineup]

@[simp] theorem lineup_visitOnFault (g : Sector) (s : State) : Lineup s (visitOnFault g s) := by
  unfold visitOnFault; repeat' split
  all_goals simp [Lineup]

@[simp] theorem lineup_trimOnFault (g : Sector) (s : State) : Lineup s (trimOnFault g s) := by
  unfold trimOnFault; dsimp only
  rw [Lineup, (lineup_visitOnFault g _).1, (lineup_visitOnFault g _).2]
  repeat' split
  all_goals simp

@[simp] theorem lineup_abortPending (s : State) : Lineup s (abortPending s) := lineup_forEach (fun g t => lineup_setOutcome g _ t) s

@[simp] theorem lineup_abortVisit (s : State) : Lineup s (abortVisit s) := by unfold abortVisit; split <;> simp [Lineup]

@[simp] theorem lineup_stopSurvey (s : State) : Lineup s (stopSurvey s) := by simp [Lineup, stopSurvey]

@[simp] theorem lineup_beginSurvey (s : State) : Lineup s (beginSurvey s) := by
  unfold beginSurvey freshOutcomes; simp [Lineup]

@[simp] theorem lineup_endSurvey (s : State) : Lineup s (endSurvey s) := by unfold endSurvey; dsimp only; split <;> simp [Lineup]

@[simp] theorem lineup_askTrim (g : Sector) (s : State) : Lineup s (askTrim g s) := by
  unfold askTrim; dsimp only; repeat' split
  all_goals simp [Lineup]

@[simp] theorem lineup_driftReading (g : Sector) (v : Nat) (s : State) : Lineup s (driftReading g v s) := by
  unfold driftReading; dsimp only; repeat' split
  all_goals simp [Lineup]

@[simp] theorem lineup_beforeReading (g : Sector) (v : Option Nat) (s : State) : Lineup s (beforeReading g v s) := by
  unfold beforeReading visitReadingsTaken beforeTaken; dsimp only; repeat' split
  all_goals simp [Lineup]

end Sys2Proof.Machine
end

