-- ==== Sys2Proof/Proofs/Pressure.lean ====
section
/-! SUPPORT. The law of the pressure order and of the capacity (R108, R109): what leaves it alone, what a group does to it that leaves pressure, is granted or is resumed, and what a cut of the capacity stalls; a grant pass keeps it. -/

namespace Sys2Proof.Machine

/-! ### The number of groups PRESSURIZING -/

theorem numPressurizing_le {s t : State} (h : ∀ g, t.groupState g = .pressurizing → s.groupState g = .pressurizing) :
    t.numPressurizing ≤ s.numPressurizing :=
  (List.monotone_filter_right _ fun g => by simpa using h g).length_le

theorem numPressurizing_congr {s t : State} (h : ∀ g, t.groupState g = s.groupState g) : t.numPressurizing = s.numPressurizing := by
  simp only [State.numPressurizing, h]

/-- One more group PRESSURIZING. -/
theorem numPressurizing_succ {s t : State} {g : Sector} (hs : s.groupState g ≠ .pressurizing) (ht : t.groupState g = .pressurizing)
    (h : ∀ k, k ≠ g → t.groupState k = s.groupState k) : t.numPressurizing = s.numPressurizing + 1 := by
  have hperm := List.perm_cons_erase (mem_allSectors g)
  have hrest : (allSectors.erase g).filter (fun k => t.groupState k == .pressurizing)
      = (allSectors.erase g).filter (fun k => s.groupState k == .pressurizing) :=
    List.filter_congr fun k hk => by rw [h k (List.Nodup.mem_erase_iff nodup_allSectors |>.1 hk).1]
  simp only [State.numPressurizing, (hperm.filter _).length_eq, List.filter_cons, ht, hrest]
  simp [hs]

/-! ### What leaves the law alone -/

/-- The law of the pressure order (R109): it holds exactly the groups PRESSURIZING or STALLED, once each. -/
def OrderLaw (s : State) : Prop := s.pressureOrder.Nodup ∧ ∀ g, g ∈ s.pressureOrder ↔ s.Pressured g

theorem pressureLaw_iff {s : State} :
    PressureLaw s ↔ OrderLaw s ∧ s.numPressurizing ≤ s.capacity ∧ s.supply.cap ≤ 8 :=
  ⟨fun ⟨h1, h2, h3, h4⟩ => ⟨⟨h1, h2⟩, h3, h4⟩, fun ⟨⟨h1, h2⟩, h3, h4⟩ => ⟨h1, h2, h3, h4⟩⟩

/-- The law of the pressure order, once it holds of s, holds of t. -/
def Presses (s t : State) : Prop := PressureLaw s → PressureLaw t

theorem Presses.refl (s : State) : Presses s s := id

theorem Presses.trans {s t u : State} (h : Presses s t) (k : Presses t u) : Presses s u := k ∘ h

theorem Presses.forEach (gs : List Sector) (f : Sector → State → State) (hf : ∀ g s, Presses s (f g s)) (s : State) :
    Presses s (forEach gs f s) :=
  forEach_keeps (P := Presses s) gs f (fun g _ h => h.trans (hf g _)) s (.refl s)

/-- From s to t nothing that the law reads has changed. -/
structure Calm (s t : State) : Prop where
  order : t.pressureOrder = s.pressureOrder
  state : t.supply.state = s.supply.state
  cap : t.supply.cap = s.supply.cap
  group : ∀ g, t.groupState g = s.groupState g

theorem Calm.capacity {s t : State} (h : Calm s t) : t.capacity = s.capacity := by rw [State.capacity, h.state, h.cap]; rfl

theorem Calm.of_lineup {s t : State} (h : Lineup s t) (hg : ∀ g, (t.sector g).group.state = (s.sector g).group.state) : Calm s t :=
  ⟨h.1, by rw [h.2], by rw [h.2], hg⟩

theorem Calm.of_same {s t : State} (hs : Same s t) (h : Lineup s t) : Calm s t :=
  .of_lineup h fun g => by rw [(hs.figures g).2.2.2.2.2.2]

theorem Calm.of_sectors {s t : State} (h : Lineup s t) (hs : t.sectors = s.sectors) : Calm s t :=
  .of_lineup h fun g => by rw [State.sector, hs]; rfl

theorem Calm.presses {s t : State} (h : Calm s t) : Presses s t := by
  rintro ⟨h1, h2, h3, h4⟩
  refine ⟨h.order ▸ h1, fun g => ?_, ?_, h.cap ▸ h4⟩
  · rw [h.order, h.group]; exact h2 g
  · rw [h.capacity, numPressurizing_congr h.group]; exact h3

theorem Presses.of_same {s t : State} (hs : Same s t) (h : Lineup s t) : Presses s t := (Calm.of_same hs h).presses

theorem Presses.of_aside {s t : State} (hs : Aside s t) (h : Lineup s t) : Presses s t := .of_same hs.same h

theorem Presses.of_repaced {s t : State} (h : Repaced s t) : Presses s t := .of_same h.same h.lineup

theorem Presses.of_sectors {s t : State} (h : Lineup s t) (hs : t.sectors = s.sectors) : Presses s t := (Calm.of_sectors h hs).presses

theorem Presses.passSet (s : State) (d : Bool) : Presses s { s with passDue := d } := .of_sectors ⟨rfl, rfl⟩ rfl

/-- A change of one sector's records that keeps its group's state. -/
theorem Presses.modSector (s : State) (g : Sector) (f : SectorState → SectorState)
    (h : (f (s.sector g)).group.state = (s.sector g).group.state) : Presses s (s.modSector g f) := by
  refine Calm.presses (t := s.modSector g f) (.of_lineup ⟨rfl, rfl⟩ fun k => ?_)
  rw [sector_modSector]; split
  · next e => subst e; exact h
  · rfl

/-- Every sector changed alike, the group states kept. -/
theorem Presses.mapSectors (s : State) (f : SectorState → SectorState) (h : ∀ x, (f x).group.state = x.group.state) :
    Presses s (s.mapSectors f) :=
  Calm.presses (t := s.mapSectors f) (.of_lineup ⟨rfl, rfl⟩ fun g => by rw [sector_mapSectors, h])

/-! ### A group that moves (R109) -/

/-- A group that is neither PRESSURIZING nor STALLED any more leaves the pressure order. -/
theorem Presses.leave {s t : State} {g : Sector} (ho : t.pressureOrder = s.pressureOrder.filter fun h => h != g) (hs : t.supply = s.supply)
    (hg : ¬t.Pressured g) (hk : ∀ k, k ≠ g → t.groupState k = s.groupState k) : Presses s t := by
  rintro ⟨h1, h2, h3, h4⟩
  refine ⟨ho ▸ h1.filter _, fun k => ?_, ?_, hs ▸ h4⟩
  · by_cases e : k = g
    · subst e; exact iff_of_false (by simp [ho]) hg
    · rw [ho, hk k e, ← h2 k]; simp [e]
  · have hcap : t.capacity = s.capacity := by rw [State.capacity, hs]; rfl
    refine hcap ▸ (numPressurizing_le fun k hp => ?_).trans h3
    by_cases e : k = g
    · subst e; exact absurd (.inl hp) hg
    · rw [← hk k e]; exact hp

/-- A group moves among the states that are neither PRESSURIZING nor STALLED. -/
theorem Presses.modGroup (s : State) (g : Sector) (f : SectorState → SectorState) (hs : ¬s.Pressured g)
    (hf : (f (s.sector g)).group.state ≠ .pressurizing ∧ (f (s.sector g)).group.state ≠ .stalled) : Presses s (s.modSector g f) := by
  intro law
  have hout : s.pressureOrder.filter (fun h => h != g) = s.pressureOrder :=
    List.filter_eq_self.2 fun k hk => by
      have hne : k ≠ g := by rintro rfl; exact hs ((law.2.1 k).1 hk)
      simpa using hne
  refine Presses.leave hout.symm rfl ?_ (fun k e => ?_) law
  · rw [State.Pressured, State.groupState, sector_modSector_self]; exact fun h => h.elim hf.1 hf.2
  · rw [State.groupState, sector_modSector_ne s f e]; rfl

/-- While capacity is free a group that is not PRESSURIZING comes to be; one that was not STALLED joins the order (R89, R98). -/
theorem Presses.start {s t : State} {g : Sector} (hc : s.canServe = true) (hs : t.supply = s.supply)
    (hg : t.groupState g = .pressurizing) (hk : ∀ k, k ≠ g → t.groupState k = s.groupState k)
    (ho : (¬s.Pressured g ∧ t.pressureOrder = s.pressureOrder ++ [g]) ∨ (s.groupState g = .stalled ∧ t.pressureOrder = s.pressureOrder)) :
    Presses s t := by
  rintro ⟨h1, h2, h3, h4⟩
  have hfree : s.numPressurizing < s.capacity := by
    simp only [State.canServe, Bool.and_eq_true, decide_eq_true_eq] at hc; exact hc.2
  have hcap : t.capacity = s.capacity := by rw [State.capacity, hs]; rfl
  have hne : s.groupState g ≠ .pressurizing := by
    rcases ho with ⟨ho, -⟩ | ⟨ho, -⟩
    · exact fun h => ho (.inl h)
    · rw [ho]; exact nofun
  refine ⟨?_, fun k => ?_, ?_, hs ▸ h4⟩
  · rcases ho with ⟨hp, ho⟩ | ⟨-, ho⟩
    · have hnot : g ∉ s.pressureOrder := fun h => hp ((h2 g).1 h)
      rw [ho]; exact h1.append (by simp) (by simpa using hnot)
    · exact ho ▸ h1
  · by_cases e : k = g
    · subst e
      have hmem : k ∈ t.pressureOrder := by
        rcases ho with ⟨-, ho⟩ | ⟨hst, ho⟩
        · simp [ho]
        · rw [ho]; exact (h2 k).2 (.inr hst)
      exact iff_of_true hmem (.inl hg)
    · rw [hk k e, ← h2 k]
      rcases ho with ⟨-, ho⟩ | ⟨-, ho⟩ <;> simp [ho, e]
  · rw [hcap, numPressurizing_succ hne hg hk]; exact hfree

/-! ### The grant pass (R110 to R115) -/

theorem Presses.grants {s u v t : State} {g : Sector} {kind : StrokeKind} (hc : s.canServe = true) (hg : s.grantable g = true)
    (hu : Lineup s u) (hus : u.sectors = s.sectors) (h : Grants g kind u v) (ht : Lineup v t) (hts : t.sectors = v.sectors) : Presses s t := by
  have hsec : ∀ k, u.sector k = s.sector k := fun k => by rw [State.sector, hus]; rfl
  have htsec : ∀ k, t.sector k = v.sector k := fun k => by rw [State.sector, hts]; rfl
  have hidle := (grantable_iff.1 hg).2.1
  have horder : v.pressureOrder = u.pressureOrder ++ [g] := congrArg (·.2.2.1) h.arbiter
  refine .start (g := g) hc (ht.2.trans (h.supply.trans hu.2)) ?_ (fun k e => ?_) (.inl ⟨?_, ?_⟩)
  · rw [State.groupState, htsec, h.group]; rfl
  · rw [State.groupState, htsec, h.others k e, hsec]; rfl
  · rw [State.Pressured, hidle]; simp
  · rw [ht.1, horder, hu.1]

/-- Every service keeps the law. -/
theorem Serves.presses {s t : State} (hc : s.canServe = true) (h : Serves s t) : Presses s t := by
  cases h with
  | none a j l => exact .of_sectors ⟨rfl, rfl⟩ rfl
  | idle => exact .refl s
  | resume g hg =>
    refine .start (g := g) hc rfl ?_ (fun k e => ?_) (.inr ⟨stalled_of_mem hg, rfl⟩)
    · exact congrArg (·.group.state) (sector_modSector_self s g _)
    · exact congrArg (·.group.state) (sector_modSector_ne s _ e)
  | survey g _ _ he => exact .grants hc (grantable_of_survey he) (u := { s with surveyReq := .none }) ⟨rfl, rfl⟩ rfl (.grant g .survey _) ⟨rfl, rfl⟩ rfl
  | blocked g =>
    have unasked : Presses s { s with surveyReq := .none } := .of_sectors ⟨rfl, rfl⟩ rfl
    exact unasked.trans (.of_aside (.visitBlocked g _) (lineup_visitBlocked g _))
  | creep g _ he => exact .grants hc (grantable_of_creep he) ⟨rfl, rfl⟩ rfl (.grant g .creep s) ⟨rfl, rfl⟩ rfl
  | paced g a a' j j' l l' _ he => exact .grants hc (grantable_of_paced he) (u := s.tabled a j l) ⟨rfl, rfl⟩ rfl (.grant g .paced _) ⟨rfl, rfl⟩ rfl

theorem Presses.finish (s : State) : Presses s (finish s) := fun law =>
  finish_keeps (P := PressureLaw) (fun ht hc hu => Serves.presses hc hu ht) (fun t => Presses.passSet t false) law

/-! ### Stalls down to a capacity (R97, R108) -/

/-- The groups PRESSURIZING in the order in which they came under pressure. -/
def State.pressing (s : State) : List Sector := s.pressureOrder.filter fun g => s.groupState g == .pressurizing

theorem mem_pressing {s : State} {g : Sector} : g ∈ s.pressing ↔ g ∈ s.pressureOrder ∧ s.groupState g = .pressurizing := by
  simp [State.pressing]

theorem OrderLaw.nodup_pressing {s : State} (h : OrderLaw s) : s.pressing.Nodup := h.1.filter _

/-- Under the law of the order the groups PRESSURIZING are counted in it. -/
theorem OrderLaw.numPressurizing {s : State} (h : OrderLaw s) : s.numPressurizing = s.pressing.length := by
  refine ((List.perm_ext_iff_of_nodup (nodup_allSectors.filter _) h.nodup_pressing).2 fun g => ?_).length_eq
  rw [mem_pressing, List.mem_filter, and_iff_right (mem_allSectors g), beq_iff_eq, h.2 g]
  exact ⟨fun hp => ⟨.inl hp, hp⟩, And.right⟩

/-- A cut takes the newest groups of the order, those past the capacity (R108). -/
theorem OrderLaw.mem_toStall {s : State} (h : OrderLaw s) (k : Nat) (g : Sector) : g ∈ s.toStall k ↔ g ∈ s.pressing.drop k := by
  show g ∈ s.pressing.reverse.take (s.numPressurizing - k) ↔ _
  rw [h.numPressurizing, List.take_reverse, List.mem_reverse]
  by_cases hk : k ≤ s.pressing.length
  · rw [Nat.sub_sub_self hk]
  · have hk : s.pressing.length ≤ k := Nat.le_of_not_le hk
    rw [Nat.sub_eq_zero_of_le hk, Nat.sub_zero, List.drop_length, List.drop_eq_nil_of_le hk]

/-- What a cut makes of each sector. -/
theorem OrderLaw.sector_stallTo {s : State} (h : OrderLaw s) (k : Nat) (g : Sector) :
    (stallTo k s).sector g = if g ∈ s.pressing.drop k then (s.sector g).stalled else s.sector g := by
  have hnodup : (s.toStall k).Nodup := (List.nodup_reverse.2 h.nodup_pressing).sublist (List.take_sublist _ _)
  rw [stallTo, sector_forEach_own hnodup (own := fun g => (s.sector g).stalled)]
  · simp only [h.mem_toStall]
  · intro g t; rw [stallGroup_frame]; rfl
  · intro g h t hne; rw [sector_stallGroup, if_neg hne]
  · intro g _ t _ hs; rw [sector_stallGroup, if_pos rfl, hs]

@[simp] theorem lineup_stallTo (k : Nat) (s : State) : Lineup s (stallTo k s) := by
  rw [stallTo_frame]; exact ⟨rfl, rfl⟩

theorem OrderLaw.groupState_stallTo {s : State} (h : OrderLaw s) (k : Nat) (g : Sector) :
    (stallTo k s).groupState g = if g ∈ s.pressing.drop k then .stalled else s.groupState g := by
  rw [State.groupState, h.sector_stallTo]; split
  · next hg =>
    have hp : (s.sector g).group.state = .pressurizing := (mem_pressing.1 (List.mem_of_mem_drop hg)).2
    rw [SectorState.stalled, if_pos hp]
  · rfl

/-- A cut keeps the law of the order. -/
theorem OrderLaw.stallTo {s : State} (h : OrderLaw s) (k : Nat) : OrderLaw (stallTo k s) := by
  rw [OrderLaw, (lineup_stallTo k s).1]
  refine ⟨h.1, fun g => ?_⟩
  rw [h.2 g, State.Pressured, State.Pressured, h.groupState_stallTo]; split
  · next hg => exact iff_of_true (.inl (mem_pressing.1 (List.mem_of_mem_drop hg)).2) (.inr rfl)
  · rfl

/-- A cut leaves the oldest groups PRESSURIZING, as many as the capacity. -/
theorem OrderLaw.pressing_stallTo {s : State} (h : OrderLaw s) (k : Nat) : (Machine.stallTo k s).pressing = s.pressing.take k := by
  have hdisj : ∀ g ∈ s.pressing.take k, g ∉ s.pressing.drop k := fun g hg hd =>
    List.disjoint_take_drop h.nodup_pressing (Nat.le_refl k) hg hd
  have hcut : (Machine.stallTo k s).pressing = s.pressing.filter fun g => decide (g ∉ s.pressing.drop k) := by
    rw [State.pressing, (lineup_stallTo k s).1]
    conv_rhs => rw [State.pressing, List.filter_filter]
    refine List.filter_congr fun g _ => ?_
    rw [h.groupState_stallTo]; split <;> simp_all [State.pressing]
  rw [hcut]
  conv_lhs => rw [← List.take_append_drop k s.pressing, List.filter_append]
  rw [List.filter_eq_self.2, List.filter_eq_nil_iff.2, List.append_nil]
  · intro g hg; simpa using hg
  · intro g hg; simpa using hdisj g hg

theorem OrderLaw.numPressurizing_stallTo {s : State} (h : OrderLaw s) (k : Nat) :
    (Machine.stallTo k s).numPressurizing = min k s.numPressurizing := by
  rw [(h.stallTo k).numPressurizing, h.pressing_stallTo, List.length_take, h.numPressurizing]

/-- Stalled down to its capacity, a state that keeps the law of the order keeps the whole law. -/
theorem OrderLaw.cut {s : State} (h : OrderLaw s) (h8 : s.supply.cap ≤ 8) {k : Nat} (hk : k ≤ s.capacity) :
    PressureLaw (Machine.stallTo k s) := by
  obtain ⟨-, hs⟩ := lineup_stallTo k s
  refine pressureLaw_iff.2 ⟨h.stallTo k, ?_, hs ▸ h8⟩
  rw [h.numPressurizing_stallTo, State.capacity, hs]
  exact (Nat.min_le_left _ _).trans hk

end Sys2Proof.Machine
end

