-- ==== Sys2Proof/Proofs/PressureEvents.lean ====
section
/-! SUPPORT. The events that keep the law of the pressure order (R108, R109): faults and timers, commits and the way home, the switches, the sensor line, what a clock event makes due, the clock and the warm reset. -/

namespace Sys2Proof.Machine

theorem Lineup.trans {s t u : State} (h : Lineup s t) (k : Lineup t u) : Lineup s u := ⟨k.1.trans h.1, k.2.trans h.2⟩

theorem Presses.of_group {s t : State} (h : Lineup s t) (hg : ∀ g, (t.sector g).group = (s.sector g).group) : Presses s t :=
  (Calm.of_lineup h fun g => by rw [hg]).presses

theorem Presses.of_eq {s t : State} (h : t = s) : Presses s t := h ▸ .refl s

theorem Presses.enterAlert (k : AlertKind) (g : Option Sector) (s : State) : Presses s (enterAlert k g s) :=
  .of_aside (.enterAlert k g s) (lineup_enterAlert k g s)

/-! ### FAULT (R99) -/

theorem lineup_enterFault (g : Sector) (kind : FaultKind) (m v : Bool) (s : State) : Lineup s (enterFault g kind m v s) := by
  have h2 : ∀ u : State, Lineup u (if m then Machine.enterAlert .suspectPosition (some g) u else u) := by
    intro u; split <;> simp [Lineup]
  have h4 : ∀ u : State, Lineup u (if u.mode = .climb then enterHold u else u) := by
    intro u; split
    · exact (Repaced.enterHold u).lineup
    · exact ⟨rfl, rfl⟩
  have handed : ∀ u : State, Lineup u (handOnFault g m v u) := by
    intro u
    have h5 := (((lineup_enterAlert .groupFault (some g) u).trans (h2 _)).trans (Repaced.goalTest _).lineup).trans
      ((h4 _).trans (lineup_trimOnFault g _))
    unfold handOnFault; dsimp only; split
    · exact h5
    · exact h5
  unfold enterFault; dsimp only; split
  · exact (lineup_modGroup s g _).trans (handed _)
  · exact ⟨rfl, rfl⟩

/-- A group enters FAULT from a state that is neither PRESSURIZING nor STALLED. -/
theorem Presses.enterFault {g : Sector} {s : State} (h : ¬s.Pressured g) (kind : FaultKind) (m v : Bool) :
    Presses s (enterFault g kind m v s) := by
  have hf : Presses s (s.modGroup g fun r => r.faulted kind) :=
    .modGroup s g (fun x => { x with group := x.group.faulted kind }) h ⟨nofun, nofun⟩
  exact hf.trans (.of_same (.enterFault g kind m v s) (lineup_enterFault g kind m v s))

theorem not_pressured {s : State} {g : Sector} {st : GroupState} (h : s.groupState g = st)
    (hst : st ≠ .pressurizing ∧ st ≠ .stalled) : ¬s.Pressured g := by
  rw [State.Pressured, h]; exact fun hp => hp.elim hst.1 hst.2

theorem Presses.closeIntoMargin (g : Sector) (s : State) : Presses s (closeIntoMargin g s) :=
  .modSector s g (fun x => { x with table := { x.table with margin := (s.sector g).group.latched.getD 0 } }) rfl

/-- A stroke in VENTING fails for good. -/
theorem Presses.failStroke {g : Sector} {s : State} (h : s.groupState g = .venting) (kind : FaultKind) (m v : Bool) :
    Presses s (Machine.enterFault g kind m v (Machine.closeIntoMargin g s)) := by
  have hv : (Machine.closeIntoMargin g s).groupState g = .venting := by
    rw [Machine.closeIntoMargin, modTable_eq, State.groupState, sector_modSector_self]; exact h
  exact (Presses.closeIntoMargin g s).trans (.enterFault (not_pressured hv ⟨nofun, nofun⟩) kind m v)

@[simp] theorem lineup_noteSwitchFault (g : Sector) (s : State) : Lineup s (noteSwitchFault g s) := by
  unfold noteSwitchFault; split <;> simp [Lineup]

theorem Presses.noteSwitchFault (g : Sector) (s : State) : Presses s (noteSwitchFault g s) :=
  .of_same (.noteSwitchFault g s) (lineup_noteSwitchFault g s)

/-! ### Timer expiries (R92, R93, R95) -/

theorem Presses.windowExpiry (g : Sector) (s : State) : Presses s (windowExpiry g s) := by
  by_cases h : s.groupState g = .pressurizing
  · rw [windowExpiry_eq h]; split
    · have hw : Presses s (s.modGroup g fun r => { r with windows := r.windows + 1, timer := some ⟨.window, s.deck.window⟩ }) :=
        .modSector s g (fun x => { x with group := { x.group with windows := x.group.windows + 1, timer := some ⟨.window, s.deck.window⟩ } }) rfl
      exact hw.trans ((Presses.of_same (.modFlags _ g _) (lineup_modFlags _ g _)).trans (.enterAlert _ _ _))
    · have hsec := sector_modSector s g (f := fun x =>
        { x with group := { x.group with failed := true, state := .venting, timer := some ⟨.vent, s.deck.vent⟩ } })
      refine .leave (g := g) rfl rfl (not_pressured (st := .venting) ?_ ⟨nofun, nofun⟩) fun k e => congrArg (·.group.state) ((hsec k).trans (if_neg e))
      exact congrArg (·.group.state) ((hsec g).trans (if_pos rfl))
  · rw [Machine.windowExpiry, if_neg h]; exact .refl s

theorem lineup_makeResult (g : Sector) (kind : TrimKind) (s : State) : Lineup s (makeResult g kind s) := by
  unfold makeResult; dsimp only; split
  · simp [Lineup]
  · refine Lineup.trans ?_ (Repaced.rederive g _).lineup
    simp [Lineup]

theorem Presses.makeResult (g : Sector) (kind : TrimKind) (s : State) : Presses s (makeResult g kind s) :=
  .of_group (lineup_makeResult g kind s) (makeResult_group g kind s)

theorem Presses.settleExpiry (g : Sector) (s : State) : Presses s (settleExpiry g s) := by
  by_cases h : s.groupState g = .holding
  · have hv : Presses s (vented g s) := by
      have hm : Presses s (s.modGroup g fun r => { r with state := .venting, timer := some ⟨.vent, s.deck.vent⟩ }) :=
        .modGroup s g (fun x => { x with group := { x.group with state := .venting, timer := some ⟨.vent, s.deck.vent⟩ } })
          (not_pressured h ⟨nofun, nofun⟩) ⟨nofun, nofun⟩
      exact hm.trans (.of_sectors ⟨rfl, rfl⟩ rfl)
    rw [settleExpiry_eq h]; split
    · exact hv.trans (.makeResult g _ _)
    · exact hv
  · rw [Machine.settleExpiry, if_neg h]; exact .refl s

theorem Presses.ventExpiry (g : Sector) (s : State) : Presses s (ventExpiry g s) := by
  unfold Machine.ventExpiry; split
  · next h =>
    split
    · exact .failStroke h _ _ _
    · exact .enterFault (not_pressured h ⟨nofun, nofun⟩) _ _ _
  · exact .refl s

theorem Presses.timerExpiry (g : Sector) (s : State) : Presses s (timerExpiry g s) := by
  unfold Machine.timerExpiry; split
  · exact .windowExpiry g s
  · exact .settleExpiry g s
  · exact .ventExpiry g s
  · exact .refl s

theorem Presses.expireIf (g : Sector) (k : TimerKind) {event : State → State} (h : ∀ s, Presses s (event s)) (s : State) :
    Presses s (expireIf g k event s) := by
  unfold Machine.expireIf; split
  · exact h s
  · exact .refl s

/-! ### The way home, and commits (R90, R93, R94, R100) -/

theorem Presses.enterIdle {g : Sector} {s : State} (h : s.groupState g = .venting) : Presses s (enterIdle g s) := by
  have hh : Presses s (s.modGroup g Group.home) :=
    .modGroup s g (fun x => { x with group := x.group.home }) (not_pressured h ⟨nofun, nofun⟩) ⟨nofun, nofun⟩
  rw [enterIdle_eq]
  exact hh.trans (((Presses.of_aside (.trimOnIdle g _) (lineup_trimOnIdle g _)).trans
    (.of_aside (.visitOnIdle g _) (lineup_visitOnIdle g _))).trans (.passSet _ true))

theorem Presses.clearFault {g : Sector} {s : State} (h : s.groupState g = .fault) : Presses s (clearFault g s) := by
  have hc : Presses s (s.modGroup g Group.cleared) :=
    .modGroup s g (fun x => { x with group := x.group.cleared }) (not_pressured h ⟨nofun, nofun⟩) ⟨nofun, nofun⟩
  exact hc.trans (((Presses.of_repaced (.goalTest _)).trans (.of_aside (.trimOnIdle g _) (lineup_trimOnIdle g _))).trans (.passSet _ true))

theorem lineup_raiseElev (g : Sector) (n : Nat) (s : State) : Lineup s (raiseElev g n s) := by rw [raiseElev_eq]; exact ⟨rfl, rfl⟩

theorem Presses.raiseElev (g : Sector) (n : Nat) (s : State) : Presses s (raiseElev g n s) := by
  refine .of_group (lineup_raiseElev g n s) fun h => ?_
  rw [sector_raiseElev]; split
  · next e => subst e; rfl
  · rfl

theorem Presses.commitRise (g : Sector) (s : State) : Presses s (commitRise g s) := by
  have demand : ∀ u : State, Lineup u (removeDemand g u) := fun _ => ⟨rfl, rfl⟩
  have spent : ∀ u : State, Lineup u (rederive g (removeDemand g (consumeRequest g u))) := fun u =>
    ((Repaced.consumeRequest g u).lineup.trans (demand _)).trans (Repaced.rederive g _).lineup
  have hl := (lineup_modPace (Machine.raiseElev g ((s.sector g).group.latched.getD 0) s) g fun p => { p with dwell := 0 }).trans (spent _)
  exact (Presses.raiseElev g _ s).trans (.of_same (.commitRise g s) hl)

theorem Presses.commit (g : Sector) (s : State) : Presses s (commit g s) := by
  have hb : Presses s (beforeRise g s) := by
    refine .leave (g := g) rfl rfl ?_ fun k e => congrArg (·.group.state) (sector_modSector_ne _ _ e)
    refine not_pressured (st := .holding) ?_ ⟨nofun, nofun⟩
    exact congrArg (·.group.state) (sector_modSector_self _ g _)
  have hr := (hb.trans (.commitRise g _)).trans ((Presses.of_aside (.startAfter g _) (lineup_startAfter g _)).trans (.passSet _ true))
  rw [commit_eq]; split
  · exact hr.trans (.settleExpiry g _)
  · exact hr

theorem Presses.lateCommit (g : Sector) (s : State) : Presses s (lateCommit g s) := by
  have h : Presses s (s.modGroup g Group.committedLate) := .modSector s g (fun x => { x with group := x.group.committedLate }) rfl
  exact (h.trans (.commitRise g _)).trans ((Presses.of_aside (.rejectAwaiting g _) (lineup_rejectAwaiting g _)).trans (.passSet _ true))

/-! ### Switches (R86 to R88, R103) -/

theorem Presses.setSwitch (g : Sector) (w : SwitchId) (x : Switch) (s : State) : Presses s (setSwitch g w x s) := by
  rw [setSwitch_eq]; exact .modSector s g _ (state_withSwitch _ w x).1

theorem Presses.switchChange (g : Sector) (w : SwitchId) (l : Bool) {event : State → State} (h : ∀ s, Presses s (event s)) (s : State) :
    Presses s (switchChange g w l event s) := by
  unfold Machine.switchChange; split
  · exact (Presses.setSwitch g w _ s).trans (h _)
  · exact .refl s

theorem Presses.inputChange (g : Sector) (w : SwitchId) (l : Bool) (s : State) : Presses s (inputChange g w l s) := by
  unfold Machine.inputChange; dsimp only; split
  · exact .setSwitch g w _ s
  · exact .refl s

theorem Presses.inputReturn (g : Sector) (w : SwitchId) (s : State) : Presses s (inputReturn g w s) := by
  unfold Machine.inputReturn; dsimp only; split
  · exact .setSwitch g w _ s
  · exact .refl s

theorem Presses.firstState (g : Sector) (w : SwitchId) (l : Bool) (s : State) : Presses s (firstState g w l s) := by
  unfold Machine.firstState; dsimp only; split
  · refine (Presses.setSwitch g w ⟨some l, none⟩ s).trans ?_
    split
    · next h =>
      obtain ⟨-, -, hidle, -⟩ := h
      exact .modGroup _ g _ (not_pressured hidle ⟨nofun, nofun⟩) ⟨nofun, nofun⟩
    · exact .refl _
  · exact .refl s

/-- A switch fault noted or not: the law is kept, and so is every group. -/
theorem Presses.noteIf (g : Sector) (b : Bool) (s : State) :
    Presses s (if b then Machine.noteSwitchFault g s else s)
      ∧ (if b then Machine.noteSwitchFault g s else s).groupState g = s.groupState g := by
  cases b
  · exact ⟨.refl s, rfl⟩
  · exact ⟨.noteSwitchFault g s, by rw [State.groupState, if_pos rfl, ((Same.noteSwitchFault g s).figures g).2.2.2.2.2.2]; rfl⟩

theorem Presses.strokeEndEvent (g : Sector) (s : State) : Presses s (strokeEndEvent g s) := by
  obtain ⟨hn, -⟩ := Presses.noteIf g ((s.sector g).group.retSw.state == some true) s
  have noted := (Presses.noteIf g true s).2
  unfold Machine.strokeEndEvent; dsimp only; split
  · next h =>
    split
    · exact (Presses.noteSwitchFault g s).trans (.enterFault (not_pressured (noted.trans h) ⟨nofun, nofun⟩) _ _ _)
    · exact .noteSwitchFault g s
  · exact hn.trans (.commit g _)
  · exact hn.trans (.commit g _)
  · split
    · exact hn.trans (.lateCommit g _)
    · exact hn
  · exact hn
  · exact hn

theorem Presses.retractedEvent (g : Sector) (s : State) : Presses s (retractedEvent g s) := by
  obtain ⟨hn, hs⟩ := Presses.noteIf g ((s.sector g).group.endSw.state == some true) s
  have noted := (Presses.noteIf g true s).2
  unfold Machine.retractedEvent; dsimp only; split
  · next h =>
    split
    · exact (Presses.noteSwitchFault g s).trans (.enterFault (not_pressured (noted.trans h) ⟨nofun, nofun⟩) _ _ _)
    · exact .refl s
  · next h =>
    split
    · exact hn.trans (.failStroke (hs.trans h) _ _ _)
    · exact hn.trans (.enterIdle (hs.trans h))
  all_goals exact hn

theorem Presses.retractedLostEvent (g : Sector) (s : State) : Presses s (retractedLostEvent g s) := by
  unfold Machine.retractedLostEvent; split
  · exact .noteSwitchFault g s
  · exact .refl s

/-! ### The sensor line (R43, R44, R143 to R152) -/

theorem Presses.requestTry (k : TryKind) (g : Sector) (n : Nat) (s : State) : Presses s (requestTry k g n s) :=
  .of_aside (.requestTry k g n s) (lineup_requestTry k g n s)

theorem Presses.afterReading (g : Sector) (v : Option Nat) (s : State) : Presses s (afterReading g v s) := by
  have h : Presses s (s.modTrim g fun t => { t with after := t.after ++ [v] }) := .of_aside (.modTrim s g _) (lineup_modTrim s g _)
  unfold Machine.afterReading; dsimp only; split
  · exact h.trans (.requestTry _ _ _ _)
  · split
    · exact h.trans (.makeResult g _ _)
    · exact h

theorem Presses.readingEnds (t : Try) (v : Option Nat) (s : State) : Presses s (readingEnds t v s) := by
  unfold Machine.readingEnds; split
  · split
    · exact .of_same (.driftReading _ _ s) (lineup_driftReading _ _ s)
    · exact .refl s
  · exact .of_aside (.beforeReading _ v s) (lineup_beforeReading _ v s)
  · exact .afterReading _ v s
  · exact .refl s

theorem Presses.tryFailed (t : Try) (s : State) : Presses s (tryFailed t s) := by
  unfold Machine.tryFailed; split
  · exact .requestTry _ _ _ s
  · split
    · exact .of_same (Same.modProbe s _ _) (lineup_modProbe s _ _)
    · exact .readingEnds t none s

theorem Presses.pollGood (g : Sector) (a : Nat) (h : Int) (s : State) : Presses s (pollGood g a h s) := by
  refine .of_same (.pollGood g a h s) ?_
  unfold Machine.pollGood; dsimp only; split <;> simp [Lineup]

theorem Presses.tryEnds (t : Try) {act : State → State} (h : ∀ s, Presses s (act s)) (s : State) : Presses s (tryEnds t act s) := by
  have h0 : Presses s { s with line := none } := .of_sectors ⟨rfl, rfl⟩ rfl
  unfold Machine.tryEnds; dsimp only
  refine Presses.trans ?_ (.of_aside (.serveLine _) (lineup_serveLine _))
  split
  · exact h0.trans (h _)
  · exact h0

theorem Presses.probeAnswered (h : Int) (c : Bool) (s : State) : Presses s (probeAnswered h c s) := by
  unfold Machine.probeAnswered; split
  · split
    · refine .tryEnds _ (fun u => ?_) s
      cases c
      · exact .pollGood _ _ _ u
      · exact .tryFailed _ u
    · exact .refl s
  · exact .refl s

theorem Presses.receiverAnswered (n : Nat) (c : Bool) (s : State) : Presses s (receiverAnswered n c s) := by
  unfold Machine.receiverAnswered; split
  · split
    · exact .refl s
    · refine .tryEnds _ (fun u => ?_) s
      cases c
      · exact .readingEnds _ (some n) u
      · exact .tryFailed _ u
  · exact .refl s

theorem Presses.tryTimedOut (s : State) : Presses s (tryTimedOut s) := by
  unfold Machine.tryTimedOut; split
  · exact .tryEnds _ (fun u => .tryFailed _ u) s
  · exact .refl s

/-! ### What a clock event makes due (R70, R77, R79, R107, R137, R138) -/

theorem Presses.takeAging (s : State) : Presses s (takeAging s) := by
  refine .of_same (.takeAging s) ?_
  unfold Machine.takeAging; split <;> exact ⟨rfl, rfl⟩

theorem lineup_expireTickets (s : State) : Lineup s (expireTickets s) := by
  have h : ∀ es u, Lineup u (List.foldl expireTicket u es) := by
    intro es
    induction es with
    | nil => exact fun u => ⟨rfl, rfl⟩
    | cons e es ih =>
      intro u
      have he : Lineup u (expireTicket u e) := by simp [Lineup, expireTicket, closeTicket]
      exact he.trans (ih _)
  exact h s.expiring s

theorem Presses.takeExpiry (s : State) : Presses s (takeExpiry s) := by
  unfold Machine.takeExpiry; split
  · have hd : ∀ u : State, Presses u { u with due := { u.due with expiry := false } } := fun u => .of_sectors ⟨rfl, rfl⟩ rfl
    exact ((Presses.takeAging s).trans (hd _)).trans (.of_same (.expireTickets _) (lineup_expireTickets _))
  · exact .refl s

theorem lineup_raiseBond (g : Sector) (s : State) : Lineup s (raiseBond g s) := by simp [Lineup, raiseBond]

theorem Presses.takeBond (s : State) : Presses s (takeBond s) :=
  .of_same (.takeBond s) (lineup_forEach (fun g t => lineup_raiseBond g t) { s with due := { s.due with bond := [] } })

/-- At the lapse every group PRESSURIZING is STALLED, so that the capacity 0 is kept (R107, R108). -/
theorem Presses.takeLapse (s : State) : Presses s (takeLapse s) := by
  unfold Machine.takeLapse; split
  · intro law
    obtain ⟨horder, -, hcap⟩ := pressureLaw_iff.1 law
    generalize hu : ({ s with due := { s.due with lapse := false }, supply := { s.supply with state := .lapsed, lapseRunning := false } } : State) = u
    have horder : OrderLaw u := hu ▸ horder
    have hcap : u.supply.cap ≤ 8 := hu ▸ hcap
    exact Presses.enterAlert _ _ _ (horder.cut hcap (Nat.zero_le _))
  · exact .refl s

theorem Presses.takeDwell (s : State) : Presses s (takeDwell s) := by
  unfold Machine.takeDwell; split
  · have hd : Presses s { s with due := { s.due with dwell := false } } := .of_sectors ⟨rfl, rfl⟩ rfl
    exact hd.trans (.of_repaced (.raiseDemands _))
  · exact .refl s

theorem lineup_paceExpiry (g : Sector) (s : State) : Lineup s (paceExpiry g s) := by
  unfold paceExpiry startCounter; dsimp only; repeat' split
  all_goals simp [Lineup]

theorem Presses.takePace (s : State) : Presses s (takePace s) := by
  refine .of_same (.takePace s) ?_
  unfold Machine.takePace; split
  · exact lineup_forEach (fun g t => lineup_paceExpiry g t) { s with due := { s.due with pace := false } }
  · exact ⟨rfl, rfl⟩

theorem Presses.finishDue (s : State) : Presses s (finishDue s) := by
  unfold Machine.finishDue; split
  · exact .finish s
  · exact .refl s

theorem Presses.settleDue (s : State) : Presses s (settleDue s) := by
  unfold Machine.settleDue; split
  · exact .refl s
  · exact (((Presses.takeAging s).trans (.takeExpiry _)).trans ((Presses.takeBond _).trans (.takeLapse _))).trans
      (((Presses.takeDwell _).trans (.takePace _)).trans (.finish _))

/-! ### The clock (R41, R42) -/

theorem Presses.expireTimers (s : State) : Presses s (expireTimers s) :=
  .forEach _ _ (fun g t => (Presses.timerExpiry g t).trans (.finish _)) s

theorem Presses.secondWork (s : State) : Presses s (secondWork s) := by
  refine (Presses.mapSectors s (secondTick s.mode) fun _ => rfl).trans (Calm.presses ?_)
  exact ⟨rfl, rfl, rfl, fun _ => rfl⟩

theorem Presses.advanceClock (b : Bool) (s : State) : Presses s (advanceClock b s) := by
  cases b <;> exact .of_sectors ⟨rfl, rfl⟩ rfl

theorem lineup_handOnReady (b s : State) : Lineup s (handOnReady b s) := by unfold handOnReady; split <;> exact ⟨rfl, rfl⟩

theorem Presses.handOnReady (b s : State) : Presses s (handOnReady b s) := .of_same (.handOnReady b s) (lineup_handOnReady b s)

theorem Presses.integrate (s : State) : Presses s (integrate s) := by
  rw [integrate_eq]
  refine (Presses.mapSectors s (.matured s.mixes) fun x => ?_).trans (.handOnReady s _)
  unfold SectorState.matured; split <;> rfl

theorem Presses.minuteWork (s : State) : Presses s (minuteWork s) := by
  have stale : Presses s (stalenessTest s) :=
    .of_same (.stalenessTest s) (lineup_forEach (fun g t => by simp [Lineup, makeStale]) s)
  have temps : ∀ u, Presses u (setTemps u) := fun u => .of_same (.setTemps u) (lineup_forEach (fun g t => lineup_modProbe t g _) u)
  have drift : ∀ u, Presses u (driftCheck u) := fun u => .of_aside (.driftCheck u) (lineup_forEach (fun g t => lineup_requestTry _ g _ t) u)
  have due : ∀ (u : State) d, Presses u { u with due := d } := fun _ _ => .of_sectors ⟨rfl, rfl⟩ rfl
  exact (((stale.trans (temps _)).trans (.integrate _)).trans (drift _)).trans (due _ _)

theorem Presses.pollRound (s : State) : Presses s (pollRound s) :=
  .of_aside (.pollRound s) (lineup_forEach (fun g t => lineup_requestTry _ g _ t) s)

theorem Presses.clockEvent (b : Bool) (s : State) : Presses s (clockEvent b s) := by
  have h0 := (Presses.settleDue s).trans (.expireTimers _)
  unfold Machine.clockEvent; dsimp only
  generalize Machine.expireTimers (Machine.settleDue s) = u at h0
  generalize (b || decide (59 ≤ u.second)) = m
  have h1 := (h0.trans (.advanceClock m u)).trans (.secondWork _)
  generalize Machine.secondWork (Machine.advanceClock m u) = v at h1
  have h2 : Presses s (if v.second % 10 = 0 then Machine.pollRound v else v) := by
    split
    · exact h1.trans (.pollRound v)
    · exact h1
  refine Presses.trans ?_ (.finishDue _)
  split
  · exact h2.trans (.minuteWork _)
  · exact h2

/-! ### The resets (R104, R105, R157) -/

theorem pressured_resetRecords (s : State) (g : Sector) : ¬(resetRecords s).Pressured g := by
  rw [State.Pressured, State.groupState, sector_resetRecords]
  show ¬((resetGroup s.deck.vent (s.sector g).group).state = .pressurizing ∨ (resetGroup s.deck.vent (s.sector g).group).state = .stalled)
  unfold resetGroup; split <;> simp_all [ventGroup]

/-- After a warm reset no group is under pressure, and the pressure order is empty. -/
theorem pressureLaw_resetRecords (s : State) : PressureLaw (resetRecords s) := by
  have hnone : (resetRecords s).numPressurizing = 0 := numPressurizing_eq_zero fun g h => pressured_resetRecords s g (.inl h)
  refine ⟨List.nodup_nil, fun g => iff_of_false List.not_mem_nil (pressured_resetRecords s g), ?_, Nat.zero_le _⟩
  rw [hnone]; exact Nat.zero_le _

theorem Presses.warmReset (s : State) : Presses s (warmReset s) := fun _ => by
  have alerts : ∀ u, Presses u (alertClosed s u) := fun u => .of_same (.alertClosed s u) (lineup_forEach (fun g t => lineup_enterAlert _ _ t) u)
  have goal : ∀ u, Presses u (deriveGoal u) := fun u => .of_same (.deriveGoal u) (lineup_forEach (fun g t => lineup_modPace t g _) u)
  exact (((alerts _).trans (goal _)).trans ((Presses.of_repaced (.raiseDemands _)).trans (.passSet _ false))) (pressureLaw_resetRecords s)

theorem Presses.powerOn (s : State) : Presses s (powerOn s) := fun _ =>
  Presses.of_sectors (s := State.reset) (t := Machine.powerOn s) ⟨rfl, rfl⟩ rfl pressureLaw_reset

end Sys2Proof.Machine
end

