-- ==== Sys2Proof/Proofs/PressureLawKept.lean ====
section
/-! SUPPORT. The requests, the ports and every command keep the law of the pressure order (PressureLawKept). -/

namespace Sys2Proof.Machine

/-! ### The profile and the run parameters -/

@[simp] theorem lineup_noteClamped (c : Bool) (g : Option Sector) (s : State) : Lineup s (noteClamped c g s) := by
  unfold noteClamped; split <;> simp [Lineup]

theorem Presses.noteClamped (c : Bool) (g : Option Sector) (s : State) : Presses s (noteClamped c g s) :=
  .of_same (.noteClamped c g s) (lineup_noteClamped c g s)

theorem Presses.completenessTest (s : State) : Presses s (completenessTest s) :=
  .of_aside (.completenessTest s) (lineup_completenessTest s)

theorem lineup_rebase (g : Sector) (s : State) : Lineup s (rebase g s) := ⟨rfl, rfl⟩

theorem lineup_handOnDeck (b s : State) : Lineup s (handOnDeck b s) := by
  have h1 : Lineup s (if b.deck.height ≠ s.deck.height then forEach (allSectors.filter fun g => s.established g) rebase s else s) := by
    split
    · exact lineup_forEach (fun g t => lineup_rebase g t) s
    · exact ⟨rfl, rfl⟩
  exact (h1.trans (lineup_forEach (fun g t => (Repaced.rederive g t).lineup) _)).trans (lineup_forEach (fun g t => lineup_raiseBond g t) _)

theorem Presses.serveDeckWrite (d : DeckBlock) (s : State) : Presses s (serveDeckWrite d s).1 := by
  unfold Machine.serveDeckWrite; split
  · exact .refl s
  · dsimp only; split
    · exact .refl s
    · have h0 : Presses s { s with deck := s.deckTaken d, deckWritten := true } := .of_sectors ⟨rfl, rfl⟩ rfl
      exact ((h0.trans (.of_same (.handOnDeck s _) (lineup_handOnDeck s _))).trans
        ((Presses.noteClamped _ none _).trans (.completenessTest _))).trans (.finish _)

theorem lineup_changeEnable (g : Sector) (b : Bool) (s : State) : Lineup s (changeEnable g b s) := by
  unfold changeEnable leaveQueue; dsimp only; split <;> simp [Lineup]

theorem lineup_unservedCheck (b s : State) : Lineup s (unservedCheck b s) := lineup_forEach (fun _ t => lineup_enterAlert _ _ t) s

theorem lineup_handOnSector (g : Sector) (b s : State) : Lineup s (handOnSector g b s) := by
  have h1 : Lineup s (if b.enabled g = s.enabled g then s else changeEnable g (s.enabled g) s) := by
    split
    · exact ⟨rfl, rfl⟩
    · exact lineup_changeEnable g _ s
  exact (h1.trans (Repaced.rederive g _).lineup).trans (lineup_unservedCheck b _)

theorem Presses.serveSectorWrite (i : Nat) (f : SectorFields) (s : State) : Presses s (serveSectorWrite i f s).1 := by
  have write : ∀ g ns m, Presses s (takeSectorWrite g ns m f s).1 := fun g ns m => by
    unfold takeSectorWrite; dsimp only; split
    · exact .refl s
    · refine Presses.trans ?_ (((Presses.of_same (.handOnSector g s _) (lineup_handOnSector g s _)).trans
        ((Presses.noteClamped _ _ _).trans (.completenessTest _))).trans (.finish _))
      exact .modSector s g (fun x => { x with table := _ }) rfl
  unfold Machine.serveSectorWrite; split
  · exact .refl s
  · split
    · split
      · exact .refl s
      · split
        · exact .refl s
        · exact write _ _ _
    · exact .refl s

theorem Presses.retest (m : MixClass) (s : State) : Presses s (retest m s) := by
  rw [retest_eq]; exact (Presses.mapSectors s (.retested m s.mixes) fun _ => rfl).trans (.handOnReady s _)

theorem Presses.serveMixWrite (i : Nat) (f : MixFields) (s : State) : Presses s (serveMixWrite i f s).1 := by
  unfold Machine.serveMixWrite; split
  · exact .refl s
  · split
    · next m line _ _ =>
      have h0 : ∀ b : MixBlock, Presses s { s with mixes := s.mixes.set m.val b } := fun b => .of_sectors ⟨rfl, rfl⟩ rfl
      exact ((((h0 _).trans (.retest m _)).trans (.of_same (.unservedCheck s _) (lineup_unservedCheck s _))).trans
        ((Presses.noteClamped _ none _).trans (.completenessTest _))).trans (.finish _)
    · exact .refl s

theorem Presses.serveSweepWrite (f : SweepFields) (s : State) : Presses s (serveSweepWrite f s).1 := by
  unfold Machine.serveSweepWrite; split
  · exact .refl s
  · split
    · next order mode _ _ =>
      split
      · exact .refl s
      · have h : Presses s { s with sweep := { written := true, order := order, start := f.start, mode := mode }, queue := [], sweepCount := 0, lastSweep := none } :=
          .of_sectors ⟨rfl, rfl⟩ rfl
        exact (h.trans (.completenessTest _)).trans (.finish _)
    · exact .refl s

theorem Presses.serveSetRate (n : Nat) (s : State) : Presses s (serveSetRate n s).1 := by
  have h : ∀ r, Presses s (takeRate n r s) := by
    intro r
    unfold takeRate; split
    · exact .refl s
    · have h0 : Presses s { s with rate := r } := .of_sectors ⟨rfl, rfl⟩ rfl
      exact h0.trans (.forEach _ _ (fun g t => .of_same (.modPace t g _) (lineup_modPace t g _)) _)
  exact (h _).trans (.noteClamped _ _ _)

theorem Presses.serveSetGoal (n : Nat) (s : State) : Presses s (serveSetGoal n s).1 := by
  have h : ∀ v, Presses s (Machine.forEach allSectors updateGoal { s with goal := v }) := fun v => by
    have h0 : Presses s { s with goal := v } := .of_sectors ⟨rfl, rfl⟩ rfl
    exact h0.trans (.forEach _ _ (fun g t => .of_repaced (.updateGoal g t)) _)
  exact ((h _).trans ((Presses.of_repaced (.goalTest _)).trans (.noteClamped _ _ _))).trans (.finish _)

theorem Presses.serveSetPlane (n : Nat) (s : State) : Presses s (serveSetPlane n s).1 := by
  have h0 : Presses s { s with plane := clampNat 0 2500000 n } := .of_sectors ⟨rfl, rfl⟩ rfl
  exact h0.trans (.noteClamped _ _ _)

theorem Presses.serveSetCreepSet (gs : List Nat) (s : State) : Presses s (serveSetCreepSet gs s).1 := by
  unfold Machine.serveSetCreepSet; split
  · exact .refl s
  · next set _ =>
    split
    · exact .refl s
    · have h : ∀ es, Presses s { s with creepSet := sectorSet set, creepList := es } := fun _ => .of_sectors ⟨rfl, rfl⟩ rfl
      dsimp only
      refine Presses.trans ?_ (.finish _)
      split
      · exact (h _).trans (.of_repaced (.raiseDemands _))
      · exact h s.creepList

/-! ### Sectors, faults and modes -/

theorem Presses.serveEstablish (n e : Nat) (s : State) : Presses s (serveEstablish n e s).1 := by
  unfold Machine.serveEstablish; split
  · exact .refl s
  · next g _ =>
    dsimp only; split
    · exact .refl s
    · have h0 : ∀ v, Presses s (s.modTable g fun r => { r with elev := some v, margin := 0 }) := fun v =>
        .modSector s g (fun x => { x with table := { x.table with elev := some v, margin := 0 } }) rfl
      exact (((h0 _).trans (.of_same (.rebase g _) (lineup_rebase g _))).trans
        ((Presses.of_repaced (.rederive g _)).trans (.completenessTest _))).trans (.finish _)

theorem Presses.serveAdjust (n c : Nat) (s : State) : Presses s (serveAdjust n c s).1 := by
  unfold Machine.serveAdjust; split
  · exact .refl s
  · next g _ =>
    split
    · exact .refl s
    · have h0 : Presses s (unmargined g s) := .modSector s g (fun x => { x with table := { x.table with margin := 0 } }) rfl
      exact ((h0.trans (.raiseElev g _ _)).trans ((Presses.of_repaced (.rederive g _)).trans (.passSet _ true))).trans (.finish _)

theorem Presses.serveClearFlags (n : Nat) (b : Byte) (s : State) : Presses s (serveClearFlags n b s).1 := by
  have clear : ∀ g (t : State), Presses t (t.modFlags g fun f => f.clear b) := fun g t => .of_same (.modFlags t g _) (lineup_modFlags t g _)
  unfold Machine.serveClearFlags; split
  · exact .forEach _ _ clear s
  · split
    · exact .refl s
    · exact clear _ s

theorem Presses.serveClearFault (n : Nat) (s : State) : Presses s (serveClearFault n s).1 := by
  unfold Machine.serveClearFault; split
  · exact .refl s
  · split
    · exact .refl s
    · split
      · exact .refl s
      · dsimp only; split
        · next h => exact (Presses.clearFault h).trans (.finish _)
        · exact .refl s

theorem Presses.finishHold (s : State) : Presses s (Machine.finish (enterHold s)) := (Presses.of_repaced (.enterHold s)).trans (.finish _)

theorem Presses.finishStandby (s : State) : Presses s (Machine.finish (enterStandby s)) :=
  (Presses.of_aside (.enterStandby s) (lineup_enterStandby s)).trans (.finish _)

theorem Presses.serveStart (s : State) : Presses s (serveStart s).1 := by
  have h : Presses s (Machine.finish (enterClimb s)) := (Presses.of_repaced (.enterClimb s)).trans (.finish _)
  unfold Machine.serveStart; split
  · exact h
  · exact h
  all_goals exact .refl s

theorem Presses.serveHold (s : State) : Presses s (serveHold s).1 := by
  unfold Machine.serveHold; split
  · exact .finishHold s
  all_goals exact .refl s

theorem Presses.servePark (s : State) : Presses s (servePark s).1 := by
  unfold Machine.servePark; split
  · split
    · exact .refl s
    · exact .finishStandby s
  all_goals exact .refl s

/-- At the entry to HALT every group PRESSURIZING is STALLED (R108, R164). -/
theorem Presses.enterHalt (s : State) : Presses s (enterHalt s) := by
  have h1 : Presses s (Machine.stallTo 0 { s with mode := .halt, beforeHalt := some s.mode }) := fun law => by
    obtain ⟨horder, -, hcap⟩ := pressureLaw_iff.1 law
    exact OrderLaw.cut (s := { s with mode := .halt, beforeHalt := some s.mode }) horder hcap (Nat.zero_le _)
  have h2 : ∀ u, Presses u (if s.mode = .climb then stopCounters u else u) := by
    intro u; split
    · exact .of_repaced (.stopCounters u)
    · exact .refl u
  have h3 : ∀ u, Presses u (if s.mode = .survey then stopSurvey u else u) := by
    intro u; split
    · exact .of_aside (.stopSurvey u) (lineup_stopSurvey u)
    · exact .refl u
  exact (h1.trans (h2 _)).trans ((h3 _).trans (.passSet _ true))

theorem Presses.serveStop (s : State) : Presses s (serveStop s).1 := by
  unfold Machine.serveStop; split
  iterate 4 · exact (Presses.enterHalt s).trans (.finish _)
  all_goals exact .refl s

theorem Presses.serveResume (s : State) : Presses s (serveResume s).1 := by
  unfold Machine.serveResume; split
  · unfold leaveHalt; split
    iterate 2 · exact .finishHold s
    iterate 2 · exact .finishStandby s
    all_goals exact .refl s
  all_goals exact .refl s

theorem Presses.serveSurveyStart (s : State) : Presses s (serveSurveyStart s).1 := by
  unfold Machine.serveSurveyStart; split
  · exact .refl s
  · split
    · exact .refl s
    · exact (Presses.of_aside (.beginSurvey s) (lineup_beginSurvey s)).trans (.finish _)

theorem Presses.serveEndSurvey (s : State) : Presses s (serveEndSurvey s).1 := by
  unfold Machine.serveEndSurvey; split
  · exact .refl s
  · split
    · exact .refl s
    · exact (Presses.of_aside (.endSurvey s) (lineup_endSurvey s)).trans (.finish _)

theorem Presses.serveTrimSector (n : Nat) (s : State) : Presses s (serveTrimSector n s).1 := by
  unfold Machine.serveTrimSector; split
  · exact .refl s
  · split
    · exact .refl s
    · exact .of_aside (.askTrim _ s) (lineup_askTrim _ s)

/-! ### Layers, tables, the supply and the feed -/

theorem Presses.joinLayer (g : Sector) (l : Layer) (s : State) : Presses s (joinLayer g l s) := .modSector s g (.joined l) rfl

theorem Presses.serveLayerRestore (f : RestoreFields) (s : State) : Presses s (serveLayerRestore f s).1 := by
  unfold Machine.serveLayerRestore; split
  · dsimp only; split
    · exact .refl s
    · exact ((Presses.joinLayer _ _ s).trans (.passSet _ true)).trans (.finish _)
  · exact .refl s

theorem Presses.serveSetCursor (n p : Nat) (s : State) : Presses s (serveSetCursor n p s).1 := by
  unfold Machine.serveSetCursor; split
  · split
    · exact .of_sectors ⟨rfl, rfl⟩ rfl
    · exact .refl s
  · exact .refl s

theorem Presses.serveReadLayer (s : State) : Presses s (serveReadLayer s).1 := by
  have h : ∀ g p, Presses s (advanceCursor g p s) := by
    intro g p; unfold advanceCursor; split <;> exact .of_sectors ⟨rfl, rfl⟩ rfl
  unfold Machine.serveReadLayer; split
  · exact .refl s
  · split
    · exact .refl s
    · exact h _ _

theorem Presses.serveWriteTable (xs : List Nat) (s : State) : Presses s (serveWriteTable xs s).1 := by
  unfold Machine.serveWriteTable; split
  · exact .refl s
  · split
    · exact .refl s
    · exact .of_sectors ⟨rfl, rfl⟩ rfl

theorem Presses.serveLoadTable (s : State) : Presses s (serveLoadTable s).1 := by
  unfold Machine.serveLoadTable; split
  · exact .refl s
  · have h : Presses s { s with loadPending := true } := .of_sectors ⟨rfl, rfl⟩ rfl
    exact (h.trans (.of_repaced (.checkLoad _))).trans (.finish _)

/-- A report's capacity is at most 8, and the groups above it are STALLED (R106, R108). -/
theorem Presses.takeReport (m : SupplyMode) {k : Nat} (hk : k ≤ 8) (p : Option Nat) (s : State) : Presses s (takeReport m k p s) := fun law => by
  obtain ⟨horder, -⟩ := pressureLaw_iff.1 law
  exact Presses.passSet _ true
    (OrderLaw.cut (s := { s with supply := { state := m, cap := k, pressure := p, lapse := 0, lapseRunning := true } }) horder hk (Nat.le_refl _))

theorem Presses.serveSupplyState (m k : Nat) (p : Option Nat) (s : State) : Presses s (serveSupplyState m k p s).1 := by
  unfold Machine.serveSupplyState; split
  · exact .refl s
  · exact (Presses.takeReport _ (Nat.min_le_right _ _) _ s).trans (.finish _)

theorem Presses.setTicket (g : Sector) (t : Option Ticket) (s : State) : Presses s (s.setTicket g t) :=
  .of_same (.setTicket s g t) (lineup_setTicket s g t)

theorem Presses.dropNamed (t : Named) (s : State) : Presses s (dropNamed t s) := by
  unfold Machine.dropNamed; split
  · exact .of_sectors ⟨rfl, rfl⟩ rfl
  · exact .setTicket _ none s

theorem Presses.serveRequestFeed (l n : Nat) (s : State) : Presses s (serveRequestFeed l n s).1 := by
  have issue : ∀ line g (u : State), Presses u (issueTicket line g u) := fun line g u =>
    (Presses.setTicket g _ u).trans (.of_sectors ⟨rfl, rfl⟩ rfl)
  have walk : ∀ line gs k (u : State), Presses u (feedWalk line gs k u).1 := by
    intro line gs
    induction gs with
    | nil => intro k u; cases k <;> exact .refl u
    | cons g gs ih =>
      intro k u
      cases k with
      | zero => exact .refl u
      | succ k =>
        unfold feedWalk; split
        · exact (issue line g u).trans (ih _ _)
        · exact ih _ u
  have built : Presses s (if s.queue.isEmpty then buildSweep s else s) := by
    split
    · exact .of_sectors ⟨rfl, rfl⟩ rfl
    · exact .refl s
  unfold Machine.serveRequestFeed; split
  · exact .refl s
  · split
    · exact .refl s
    · unfold feedFrom; dsimp only
      generalize (if s.queue.isEmpty then buildSweep s else s) = u at built
      split
      · exact built
      · exact built.trans (walk _ _ _ _)

theorem Presses.serveAbandon (n : Nat) (s : State) : Presses s (serveAbandon n s).1 := by
  unfold Machine.serveAbandon; split
  · exact .refl s
  · dsimp only; split
    · exact .dropNamed _ s
    · exact (Presses.dropNamed _ s).trans (.of_sectors ⟨rfl, rfl⟩ rfl)

theorem lineup_noteLate (t : Named) (s : State) : Lineup s (noteLate t s) := by unfold noteLate; split <;> simp [Lineup]

theorem Presses.noteLate (t : Named) (s : State) : Presses s (noteLate t s) := .of_same (.noteLate t s) (lineup_noteLate t s)

theorem Presses.placeRefused (t : Named) (s : State) : Presses s (placeRefused t s).1 := by
  have queue : ∀ u, Presses u (leaveQueue t.sector u) := fun u => .of_sectors ⟨rfl, rfl⟩ rfl
  exact (((Presses.dropNamed t s).trans (queue _)).trans (.of_same (.modFlags _ _ _) (lineup_modFlags _ _ _))).trans
    ((Presses.noteLate t _).trans (.enterAlert _ _ _))

theorem Presses.layerAlerts (g : Sector) (l : Layer) (s : State) : Presses s (layerAlerts g l s) := by
  refine .of_same (.layerAlerts g l s) ?_
  unfold Machine.layerAlerts; dsimp only; repeat' split
  all_goals simp [Lineup]

theorem Presses.servePlaced (n k : Nat) (b : Option Nat) (s : State) : Presses s (servePlaced n k b s).1 := by
  unfold Machine.servePlaced; split
  · exact .refl s
  · next t _ =>
    split
    · exact .serveAbandon n s
    · unfold placeUnder; split
      · exact .placeRefused t s
      · exact (((Presses.joinLayer t.sector _ s).trans (.dropNamed t _)).trans
          ((Presses.noteLate t _).trans ((Presses.layerAlerts t.sector _ _).trans (.passSet _ true)))).trans (.finish _)

/-- A request keeps the law of the pressure order. -/
theorem Presses.serveRequest (r : Request) (s : State) : Presses s (serveRequest r s).1 := by
  cases r with
  | deckWrite f => exact .serveDeckWrite f s
  | sectorWrite i f => exact .serveSectorWrite i f s
  | mixWrite i f => exact .serveMixWrite i f s
  | sweepWrite f => exact .serveSweepWrite f s
  | profileRead b i => exact .of_eq (serveProfileRead_state b i s)
  | setRate v => exact .serveSetRate v s
  | setGoal v => exact .serveSetGoal v s
  | setPlane v => exact .serveSetPlane v s
  | setCreepSet gs => exact .serveSetCreepSet gs s
  | establish g e => exact .serveEstablish g e s
  | adjust g c => exact .serveAdjust g c s
  | clearFlags g f => exact .serveClearFlags g f s
  | clearFault g => exact .serveClearFault g s
  | start => exact .serveStart s
  | hold => exact .serveHold s
  | park => exact .servePark s
  | stop => exact .serveStop s
  | resume => exact .serveResume s
  | restart => exact .refl s
  | survey => exact .serveSurveyStart s
  | endSurvey => exact .serveEndSurvey s
  | trimSector g => exact .serveTrimSector g s
  | layerRestore f => exact .serveLayerRestore f s
  | setLayerCursor g p => exact .serveSetCursor g p s
  | readLayer => exact .serveReadLayer s
  | readReleaseLog i n => exact .of_eq (serveReadLog_state i n s)
  | writeArbTable xs => exact .serveWriteTable xs s
  | loadArbTable => exact .serveLoadTable s
  | readArbTable n => exact .of_eq (serveReadTable_state n s)
  | readFeed p g => exact .of_eq (serveReadFeed_state p g s)
  | sectorStatus g => exact .of_eq (serveSectorStatus_state g s)
  | deckStatus => exact .refl s
  | readAlerts i n => exact .of_eq (serveReadAlerts_state i n s)
  | ackAlerts n => exact .of_sectors ⟨rfl, rfl⟩ rfl
  | supplyState m k p => exact .serveSupplyState m k p s
  | requestFeed l n => exact .serveRequestFeed l n s
  | placed n k b => exact .servePlaced n k b s
  | abandon n => exact .serveAbandon n s
  | ticketQuery n => exact .of_eq (serveTicketQuery_state n s)

/-! ### The ports -/

theorem Presses.setPort (s : State) (p : PortId) (x : Port) : Presses s (s.setPort p x) := by
  cases p <;> exact .of_sectors ⟨rfl, rfl⟩ rfl

theorem Presses.takeFrame (p : PortId) (f : Frame) (s : State) : Presses s (takeFrame p f s) := by
  have hcheck : Presses s (checkRequest p f s).1 := by
    unfold checkRequest; split
    · exact .refl s
    · split
      · exact .refl s
      · split
        · exact .refl s
        · exact .serveRequest _ s
  exact hcheck.trans (.setPort _ p _)

theorem Presses.deliver (p : PortId) (f : Frame) (s : State) : Presses s (deliver p f s) := by
  unfold Machine.deliver; dsimp only; split
  · exact .takeFrame p f s
  · exact .setPort s p _
  · exact .setPort s p _

theorem Presses.delivered (p : PortId) (f : Frame) (s : State) : Presses s (Machine.deliver p f (toHunting p s)) :=
  (Presses.setPort s p _).trans (.deliver p f _)

theorem Presses.frameByte (p : PortId) (bytes : List Byte) (s : State) : Presses s (frameByte p bytes s) := by
  unfold Machine.frameByte; split
  · exact .setPort s p _
  · exact .setPort s p _
  · exact .delivered p _ s

theorem Presses.receiveByte (p : PortId) (b : Byte) (s : State) : Presses s (receiveByte p b s) := by
  unfold Machine.receiveByte; split
  · split
    · exact .setPort s p _
    · exact .refl s
  · exact .frameByte p _ s

theorem Presses.answerDone (p : PortId) (s : State) : Presses s (answerDone p s) := by
  unfold Machine.answerDone; dsimp only; split
  · exact .refl s
  · split
    · exact .warmReset s
    · split
      · exact (Presses.setPort s p _).trans (.takeFrame p _ _)
      · exact .setPort s p _

/-! ### Every command -/

theorem exec_presses {c : Instr} {s t : State} (h : exec c s = .next t) : Presses s t := by
  have taken : ∀ {u : State}, Presses (settleDue s) u → (.next u : Result) = .next t → Presses s t := by
    rintro u k ⟨⟩; exact (Presses.settleDue s).trans k
  have passed : ∀ {u : State}, Presses (settleDue s) u → (.next (finish u) : Result) = .next t → Presses s t :=
    fun k => taken (k.trans (.finish _))
  have clock : ∀ {u : State}, Presses s u → (.next u : Result) = .next t → Presses s t := by rintro u k ⟨⟩; exact k
  have due : ∀ {u : State}, Presses s u → (.next (finishDue u) : Result) = .next t → Presses s t := fun k => clock (k.trans (.finishDue _))
  cases c with
  | powerOnReset => exact clock (.powerOn s) h
  | warmReset => exact taken (.warmReset _) h
  | answerSent p => exact taken (.answerDone p _) h
  | frameDiscarded p d => exact taken (.frameByte p d _) h
  | frameByteTimeout p => exact taken (.setPort _ p _) h
  | startByte p b => exact taken (.receiveByte p b _) h
  | switchInputChange g w l => exact taken (.inputChange g w l _) h
  | switchFirstState g w l => exact taken (.firstState g w l _) h
  | inputReturnsToDebouncedState g w => exact taken (.inputReturn g w _) h
  | strokeEndTaken g => exact passed (.switchChange g .strokeEnd true (.strokeEndEvent g) _) h
  | strokeEndLost g => exact passed (.switchChange g .strokeEnd false .refl _) h
  | retractedTaken g => exact passed (.switchChange g .retracted true (.retractedEvent g) _) h
  | retractedLost g => exact passed (.switchChange g .retracted false (.retractedLostEvent g) _) h
  | pressurizeWindowExpiry g => exact passed (.expireIf g .window (.windowExpiry g) _) h
  | settleTimeExpiry g => exact passed (.expireIf g .settle (.settleExpiry g) _) h
  | ventWindowExpiry g => exact passed (.expireIf g .vent (.ventExpiry g) _) h
  | secondEvent => exact clock (.clockEvent false s) h
  | minuteEvent => exact clock (.clockEvent true s) h
  | paceCounterExpiry => exact due (.takePace s) h
  | dwellLimitReached => exact due (.takeDwell s) h
  | bondRisk => exact due (.takeBond s) h
  | supplyLapse => exact due (.takeLapse s) h
  | ticketExpiry => exact due (.takeExpiry s) h
  | expiredEntryAging => exact due (.takeAging s) h
  | probeAnswer n b => exact passed (.probeAnswered n b _) h
  | receiverAnswer n b => exact passed (.receiverAnswered _ b _) h
  | sensorTryTimeout => exact passed (.tryTimedOut _) h
  | _ => exact taken (.delivered _ _ _) h

/-- Settles O58: every command keeps the law, group by group that comes under pressure or leaves it, and by the cuts of the capacity. -/
theorem pressureLawKept : Obligations.PressureLawKept := by
  intro s t law h
  unfold step at h
  split at h
  · cases h; exact law
  · next c rest _ =>
    have queue : Presses s { s with pending := rest } := .of_sectors ⟨rfl, rfl⟩ rfl
    exact exec_presses h (queue law)

end Sys2Proof.Machine
end

