-- ==== Sys2Proof/Proofs/SupplyReports.lean ====
section
/-! SUPPORT. A SUPPLY STATE as the record and the stalls leave it, the pass still to run; the report itself (SupplyReport). -/

namespace Sys2Proof.Machine

/-! ### The report on the wire -/

/-- The pressure of a report on the wire, two bytes or none (R106). -/
def pressureB (press : Option Nat) : List Byte :=
  match press with
  | some b => be16 b
  | none => []

theorem parse_supplyState (st : Byte) {k : Nat} (hk : k < 256) {press : Option Nat} (hp : ∀ b ∈ press, b < 65536) :
    parsePayload .supplyState ([st, byteOf k] ++ pressureB press) = some (.supplyState st.toNat k press) := by
  have hbyte : (byteOf k).toNat = k := by rw [byteOf_toNat, Nat.mod_eq_of_lt hk]
  cases press with
  | none => show some (Request.supplyState st.toNat (byteOf k).toNat none) = _; rw [hbyte]
  | some b =>
    show some (Request.supplyState st.toNat (byteOf k).toNat (some (u16 (byteOf (b / 256)) (byteOf b)))) = _
    rw [hbyte, u16_be16 (hp b rfl)]

/-- A report was limited when its capacity is above 8 or its pressure above 400 (R106). -/
theorem limited_iff (k : Nat) (press : Option Nat) :
    (min k 8 ≠ k ∨ press.map (min · 400) ≠ press) ↔ (8 < k ∨ ∃ b ∈ press, 400 < b) := by
  refine or_congr (by omega) ?_
  cases press with
  | none => simp
  | some b => simp

/-- The supply state that a report says (11.4). -/
def saidState (ready : Bool) : SupplyMode := if ready then .ready else .notReady

/-- The answer to a report, by the state it leaves (R106). -/
def reportReply (ready : Bool) (k : Nat) (press : Option Nat) (t : State) : Reply :=
  let limited := decide (8 < k ∨ ∃ b ∈ press, 400 < b)
  ⟨okOr limited,
    (if limited then [(saidState ready).code] ++ figB (min k 8) ++ optB 2 ((press.map (min · 400)).map figB) else [])
      ++ [(saidState ready).code] ++ figB (min k 8) ++ figB t.numPressurizing ++ figB t.numStalled ++ figB t.numWaiting⟩

/-! ### The record and the stalls -/

/-- The supply record once it has taken a report. -/
def State.reported (s : State) (ready : Bool) (k : Nat) (press : Option Nat) : State :=
  { s with supply :=
    { state := saidState ready, cap := min k 8, pressure := press.map (min · 400), lapse := 0, lapseRunning := true } }

/-- The groups above the capacity STALLED, the pass owed (R106, R108). -/
def State.cutBack (s : State) (ready : Bool) (k : Nat) (press : Option Nat) : State :=
  { stallTo (if ready then min k 8 else 0) (s.reported ready k press) with passDue := true }

theorem capacity_reported (s : State) (ready : Bool) (k : Nat) (press : Option Nat) :
    (s.reported ready k press).capacity = if ready then min k 8 else 0 := by cases ready <;> rfl

theorem takeReport_eq (s : State) (ready : Bool) (k : Nat) (press : Option Nat) :
    takeReport (saidState ready) (min k 8) (press.map (min · 400)) s = s.cutBack ready k press := by
  rw [State.cutBack, ← capacity_reported s ready k press]; rfl

theorem supply_cutBack (s : State) (ready : Bool) (k : Nat) (press : Option Nat) :
    (s.cutBack ready k press).supply = (s.reported ready k press).supply := (lineup_stallTo _ _).2

theorem serveSupplyState_eq (ready : Bool) (k : Nat) (press : Option Nat) (s : State) :
    serveSupplyState (if ready then (1 : Byte) else 0).toNat k press s =
      (finish (s.cutBack ready k press), reportReply ready k press (finish (s.cutBack ready k press))) := by
  have hsaid : toSupply (if ready then (1 : Byte) else 0).toNat = some (saidState ready) := by cases ready <;> rfl
  have hsupply := (Kept.finish (s.cutBack ready k press)).supply.trans (supply_cutBack s ready k press)
  simp only [serveSupplyState, hsaid, takeReport_eq, hsupply, limited_iff, reportReply, supplyEcho, demandB, State.reported,
    List.append_assoc, decide_eq_true_eq]

/-- A report that comes to rest runs its pass and is answered (R106). -/
theorem exec_supplyState (s : State) (ready : Bool) {k : Nat} {press : Option Nat} (hr : Rest .supply s) (hk : k < 256)
    (hp : ∀ b ∈ press, b < 65536) :
    ∃ x, exec (.supplyState .supply ([if ready then 1 else 0, byteOf k] ++ pressureB press)) s =
        .next ((finish ((toHunting .supply s).cutBack ready k press)).setPort .supply x)
      ∧ Answers .supply .supplyState (reportReply ready k press (finish ((toHunting .supply s).cutBack ready k press))) s
          ((finish ((toHunting .supply s).cutBack ready k press)).setPort .supply x) := by
  have hports : (finish ((toHunting .supply s).cutBack ready k press)).ports = (toHunting .supply s).ports := by
    rw [(Kept.finish _).ports, State.cutBack, stallTo_frame]; rfl
  obtain ⟨x, harr, hans⟩ := arrive_setPort (p := .supply) (k := .supplyState) rfl hr (parse_supplyState _ hk hp)
    (serveSupplyState_eq ready k press (toHunting .supply s)) hports
  exact ⟨x, congrArg Host.Outcome.next harr, hans⟩

/-! ### What the stalls leave -/

/-- The groups that a cut takes, in the order of pressure, and the group records of all. -/
theorem OrderLaw.group_stallTo {s : State} (h : OrderLaw s) (k : Nat) (g : Sector) :
    ((Machine.stallTo k s).sector g).group =
      if g ∈ s.pressing.drop k then { (s.sector g).group with state := .stalled, timer := none } else (s.sector g).group := by
  rw [h.sector_stallTo]; split
  · next hg =>
    have hp : (s.sector g).group.state = .pressurizing := (mem_pressing.1 (List.mem_of_mem_drop hg)).2
    rw [SectorState.stalled, if_pos hp]
  · rfl

theorem kept_stalled (k : Nat) (s : State) (g : Sector) :
    ((stallTo k s).sector g).held = (s.sector g).held ∧ ((stallTo k s).sector g).pace = (s.sector g).pace := by
  refine forEach_keeps (P := fun t => (t.sector g).held = (s.sector g).held ∧ (t.sector g).pace = (s.sector g).pace) _ stallGroup
    (fun h t ht => ?_) s ⟨rfl, rfl⟩
  rw [sector_stallGroup]; split
  · next e => subst e; exact ht
  · exact ht

/-- A pass that finds no capacity free serves nothing (R111). -/
theorem finish_of_full {s : State} (h : s.canServe = false) : finish s = { s with passDue := false } := by
  have hpass : ∀ n, grantPass n s = s := fun n => by cases n <;> simp [grantPass, h]
  unfold finish; split
  · rw [hpass]
  · next e => simp only [Bool.not_eq_true] at e; rw [← e]

/-- A report of a capacity that is taken up, or of no supply, leaves the pass nothing to serve (R108, R111). -/
theorem finish_cutBack {s : State} (law : OrderLaw s) {ready : Bool} {k : Nat} (press : Option Nat)
    (h : ready = true → min k 8 ≤ s.numPressurizing) :
    finish (s.cutBack ready k press) =
      { stallTo (if ready then min k 8 else 0) (s.reported ready k press) with passDue := false } := by
  have hlaw : OrderLaw (s.reported ready k press) := law
  refine finish_of_full (s := s.cutBack ready k press) ?_
  cases ready with
  | false => simp [State.canServe, supply_cutBack, State.reported, saidState]
  | true =>
    have hcap : (s.cutBack true k press).capacity = min k 8 := by rw [State.capacity, supply_cutBack]; rfl
    have hnum : (s.cutBack true k press).numPressurizing = min k 8 :=
      (hlaw.numPressurizing_stallTo (min k 8)).trans (Nat.min_eq_left (h rfl))
    simp [State.canServe, hcap, hnum]

/-! ### SUPPLY STATE -/

/-- Settles O30: the stalls leave at most the capacity, the pass keeps that law, and with the capacity taken up it serves nothing. -/
theorem supplyReport : Obligations.SupplyReport := by
  intro s ready k press hr law hk hp
  obtain ⟨x, hexec, hans⟩ := exec_supplyState s ready hr hk hp
  obtain ⟨u, hu⟩ : ∃ u, u = toHunting .supply s := ⟨_, rfl⟩
  have hlaw : PressureLaw u := hu ▸ law
  obtain ⟨horder, -⟩ := pressureLaw_iff.1 hlaw
  have hreported : OrderLaw (u.reported ready k press) := horder
  have hnum : u.numPressurizing = s.numPressurizing := by rw [hu]; rfl
  have hfull := finish_cutBack (k := k) (ready := ready) horder press
  have hkept := Kept.finish (u.cutBack ready k press)
  have hsupply := hkept.supply.trans (supply_cutBack u ready k press)
  have hbound : (finish (u.cutBack ready k press)).numPressurizing ≤ if ready then min k 8 else 0 := by
    have hend : PressureLaw (finish (u.cutBack ready k press)) := by
      rw [← takeReport_eq]
      exact (Presses.takeReport _ (Nat.min_le_right k 8) _ u).trans (.finish _) hlaw
    obtain ⟨-, hle, -⟩ := pressureLaw_iff.1 hend
    rwa [State.capacity, hsupply, ← State.capacity, capacity_reported] at hle
  have hframe := stallTo_frame (if ready then min k 8 else 0) (u.reported ready k press)
  have hmode : (stallTo (if ready then min k 8 else 0) (u.reported ready k press)).mode = u.mode := by rw [hframe]; rfl
  have hgroup := hreported.group_stallTo (if ready then min k 8 else 0)
  have hsector := kept_stalled (if ready then min k 8 else 0) (u.reported ready k press)
  have hdata : ∀ g, ((finish (u.cutBack ready k press)).sector g).held = (u.sector g).held
      ∧ ((finish (u.cutBack ready k press)).sector g).pace = (u.sector g).pace := fun g =>
    ⟨(hkept.held g).trans (hsector g).1, (hkept.pace g).trans (hsector g).2⟩
  rw [← hu] at hexec hans
  have hrest : (finish (u.cutBack ready k press)).settings = u.settings ∧ (finish (u.cutBack ready k press)).feed = u.feed
      ∧ (finish (u.cutBack ready k press)).tables = u.tables := by
    rw [hkept.settings, hkept.feed, hkept.tables, State.cutBack, hframe]; exact ⟨rfl, rfl, rfl⟩
  generalize finish (u.cutBack ready k press) = w at *
  subst hu
  refine ⟨_, hexec, hsupply, hans, hbound, fun hready hle => ?_, fun hready => ?_, hdata, hrest⟩
  · subst hready
    rw [hfull fun _ => hle]
    exact ⟨hmode, (lineup_stallTo _ _).1, hgroup⟩
  · subst hready
    rw [hfull nofun]
    refine ⟨hmode, fun g => (hgroup g).trans (if_congr ?_ rfl rfl)⟩
    show g ∈ (State.pressing _).drop 0 ↔ _
    rw [List.drop_zero, mem_pressing]
    exact ⟨And.right, fun h => ⟨(horder.2 g).2 (.inl h), h⟩⟩

end Sys2Proof.Machine
end

