-- ==== Sys2Proof/Proofs/StopResume.lean ====
section
/-! SUPPORT. What STOP makes of a survey, the entry to HALT; STOP and RESUME (StopAndResume). -/

namespace Sys2Proof.Machine

/-! ### A survey stopped (R153) -/

/-- The visit of g is under way, its stroke not granted. -/
abbrev State.awaitsStroke (s : State) (g : Sector) : Prop := s.visit = some (g, .reading) ∨ s.visit = some (g, .requested)

/-- The visit of g is under way, its stroke granted. -/
abbrev State.hasStroke (s : State) (g : Sector) : Prop := s.visit = some (g, .stroke) ∨ s.visit = some (g, .resultMade)

theorem awaitsVisit_iff {s : State} {g : Sector} :
    s.awaitsVisit g = true ↔ s.pends g ∧ ¬s.awaitsStroke g ∧ ¬s.hasStroke g := by
  rw [State.awaitsVisit, Bool.and_eq_true, beq_iff_eq, bne_iff_ne]
  refine and_congr_right' ?_
  rcases hv : s.visit with - | ⟨h, p⟩
  · simp [State.awaitsStroke, State.hasStroke, hv]
  · cases p <;> simp [State.awaitsStroke, State.hasStroke, hv]

theorem sector_abortPending (s : State) (g : Sector) :
    (abortPending s).sector g = if s.awaitsVisit g = true then (s.sector g).ended .aborted else s.sector g := by
  refine (sector_forEach_modSector (nodup_allSectors.filter _) (fun _ => SectorState.ended .aborted) s g).trans (if_congr ?_ rfl rfl)
  rw [List.mem_filter, and_iff_right (mem_allSectors g)]

theorem abortPending_frame (s : State) : abortPending s = { s with sectors := (abortPending s).sectors } :=
  forEach_modSector_eq _ (fun _ => SectorState.ended .aborted) s

theorem abortVisit_of_awaitsStroke {s : State} {g : Sector} (h : s.awaitsStroke g) :
    abortVisit s = { abandonBefore g (setOutcome g .aborted s) with visit := none, surveyReq := none } := by
  rcases h with h | h <;> rw [abortVisit, h]

theorem abortVisit_of_not_awaitsStroke {s : State} (h : ∀ g, ¬s.awaitsStroke g) : abortVisit s = s := by
  unfold abortVisit; split
  · next g hv => exact absurd (.inl hv) (h g)
  · next g hv => exact absurd (.inr hv) (h g)
  · rfl

theorem outcome_abandonBefore (g : Sector) (s : State) (h : Sector) :
    ((abandonBefore g s).sector h).trim.outcome = (s.sector h).trim.outcome := by
  rw [abandonBefore, modTrim_eq, sector_modSector]; split
  · next e => subst e; rfl
  · rfl

/-- Before-readings abandoned are under way no more. -/
theorem tryUnderWay_abandonBefore (g : Sector) (s : State) : (abandonBefore g s).tryUnderWay .before g = false :=
  tryUnderWay_abandonTries .before g s

/-- What STOP makes of a survey: the sectors still to be visited and a visit without a stroke ABORTED, a visit with one running on. -/
structure SurveyStopped (s t : State) : Prop where
  surveyState : t.surveyState = .none
  surveyReq : t.surveyReq = none
  cut : (∃ g, s.awaitsStroke g) → t.visit = none
  kept : (∀ g, ¬s.awaitsStroke g) → t.visit = s.visit
  outcome : ∀ g, (t.sector g).trim.outcome =
    if s.awaitsStroke g ∨ (s.pends g ∧ ¬s.hasStroke g) then some .aborted else (s.sector g).trim.outcome
  tries : ∀ g, s.awaitsStroke g → t.tryUnderWay .before g = false

theorem awaitsStroke_unique {s : State} {g h : Sector} (hg : s.awaitsStroke g) (hh : s.awaitsStroke h) : h = g := by
  rcases hg with hg | hg <;> rcases hh with hh | hh <;> rw [hg] at hh <;> cases hh <;> rfl

theorem SurveyStopped.stopSurvey (s : State) : SurveyStopped s (stopSurvey s) := by
  have hvisit : (abortPending s).visit = s.visit := by rw [abortPending_frame]
  have hcut : ∀ g, (abortPending s).awaitsStroke g ↔ s.awaitsStroke g := fun g => by rw [State.awaitsStroke, hvisit]
  have hpend : ∀ g, ((abortPending s).sector g).trim.outcome =
      if s.awaitsVisit g = true then some .aborted else (s.sector g).trim.outcome := fun g => by
    rw [sector_abortPending, apply_ite (fun x : SectorState => x.trim.outcome)]; rfl
  by_cases h : ∃ g, s.awaitsStroke g
  · obtain ⟨g, hg⟩ := h
    rw [Machine.stopSurvey, abortVisit_of_awaitsStroke ((hcut g).2 hg)]
    refine ⟨rfl, rfl, fun _ => rfl, fun hn => absurd hg (hn g), fun k => ?_, fun k hk => ?_⟩
    · refine (outcome_abandonBefore g _ k).trans ?_
      rw [sector_setOutcome, apply_ite (fun x : SectorState => x.trim.outcome), hpend k]
      by_cases e : k = g
      · subst e; rw [if_pos rfl, if_pos (.inl hg)]; rfl
      · have hk : ¬s.awaitsStroke k := fun hk => e (awaitsStroke_unique hg hk)
        rw [if_neg e]
        exact if_congr (by rw [awaitsVisit_iff]; simp only [hk, not_false_eq_true, true_and, false_or]) rfl rfl
    · obtain rfl := awaitsStroke_unique hg hk
      exact tryUnderWay_abandonBefore k _
  · have h : ∀ g, ¬s.awaitsStroke g := fun g hg => h ⟨g, hg⟩
    rw [Machine.stopSurvey, abortVisit_of_not_awaitsStroke fun g hg => h g ((hcut g).1 hg)]
    refine ⟨rfl, rfl, fun ⟨g, hg⟩ => absurd hg (h g), fun _ => hvisit, fun k => ?_, fun k hk => absurd hk (h k)⟩
    refine (hpend k).trans (if_congr ?_ rfl rfl)
    rw [awaitsVisit_iff]; simp only [h k, not_false_eq_true, true_and, false_or]

/-! ### The entry to HALT (R164) -/

/-- In HALT a pass serves nothing (R111). -/
theorem finish_halt {s : State} (h : s.mode = .halt) : finish s = { s with passDue := false } := by
  have hserve : serveOne s = (s, false) := by simp [serveOne, h, DeckMode.permitsResume, DeckMode.permitsCreep]
  have hpass : grantPass passFuel s = s := by simp [grantPass, passFuel, hserve]
  unfold finish; split
  · rw [hpass]
  · next e => simp only [Bool.not_eq_true] at e; rw [← e]

theorem demands_stopSurvey (s : State) : (stopSurvey s).demands = s.demands := by
  have hpend : (abortPending s).demands = s.demands := by rw [abortPending_frame]; rfl
  have hvisit : ∀ u : State, (abortVisit u).demands = u.demands := fun u => by unfold abortVisit; split <;> rfl
  exact (hvisit _).trans hpend

/-- In HALT, every PRESSURIZING group STALLED. -/
def State.halted (s : State) : State := stallTo 0 { s with mode := .halt, beforeHalt := some s.mode }

theorem OrderLaw.sector_halted {s : State} (h : OrderLaw s) (g : Sector) : s.halted.sector g = (s.sector g).stalled :=
  sector_stallTo_zero (s := { s with mode := .halt, beforeHalt := some s.mode }) h.1 (fun g hg => (h.2 g).2 (.inl hg)) g

theorem halted_frame (s : State) :
    s.halted = { s with mode := .halt, beforeHalt := some s.mode, sectors := s.halted.sectors } := stallTo_frame _ _

/-- What the entry to HALT leaves: the mode left, the groups STALLED, the counters stopped from CLIMB, a survey stopped (R108, R153, R164). -/
structure Halted (s t : State) : Prop where
  mode : t.mode = .halt
  beforeHalt : t.beforeHalt = some s.mode
  creepList : t.creepList = s.creepList
  pressureOrder : t.pressureOrder = s.pressureOrder
  survey : s.mode = .survey → SurveyStopped s t
  sector : ∀ g, (t.sector g).group =
        (if s.groupState g = .pressurizing then { (s.sector g).group with state := .stalled, timer := none } else (s.sector g).group)
      ∧ (t.sector g).pace = (if s.mode = .climb then { (s.sector g).pace with running := false, counter := 0 } else (s.sector g).pace)
      ∧ (t.sector g).held = (s.sector g).held
  settings : t.settings = s.settings
  feed : t.feed = s.feed
  tables : t.tables = s.tables
  supply : t.supply = s.supply
  ports : t.ports = s.ports

theorem Halted.passSet {s t : State} (h : Halted s t) (d : Bool) : Halted s { t with passDue := d } := by
  obtain ⟨h1, h2, h3, h4, h5, h6, h7, h8, h9, h10, h11⟩ := h
  refine ⟨h1, h2, h3, h4, fun hm => ?_, h6, h7, h8, h9, h10, h11⟩
  obtain ⟨k1, k2, k3, k4, k5, k6⟩ := h5 hm
  exact ⟨k1, k2, k3, k4, k5, k6⟩

/-- Outside SURVEY and CLIMB the entry to HALT is the mode and the stalls. -/
theorem Halted.halted {s : State} (law : OrderLaw s) (hs : s.mode ≠ .survey) (hc : s.mode ≠ .climb) : Halted s s.halted := by
  have hsec := law.sector_halted
  rw [halted_frame] at hsec ⊢
  refine ⟨rfl, rfl, rfl, rfl, fun hm => absurd hm hs, fun g => ?_, rfl, rfl, rfl, rfl, rfl⟩
  rw [hsec, if_neg hc]
  exact ⟨rfl, rfl, rfl⟩

/-- From CLIMB the counters stop as well (R69). -/
theorem Halted.stopCounters {s : State} (law : OrderLaw s) (hc : s.mode = .climb) : Halted s (stopCounters s.halted) := by
  have hsec : ∀ g, (Machine.stopCounters s.halted).sector g =
      { (s.sector g).stalled with pace := { (s.sector g).pace with running := false, counter := 0 } } := fun g => by
    rw [Machine.stopCounters, sector_mapSectors, law.sector_halted]; rfl
  rw [halted_frame] at hsec ⊢
  refine ⟨rfl, rfl, rfl, rfl, fun hm => ?_, fun g => ?_, rfl, rfl, rfl, rfl, rfl⟩
  · rw [hc] at hm; cases hm
  · rw [hsec, if_pos hc]
    exact ⟨rfl, rfl, rfl⟩

/-- From SURVEY the survey is stopped as well (R153). -/
theorem Halted.stopSurvey {s : State} (law : OrderLaw s) (hm : s.mode = .survey) : Halted s (stopSurvey s.halted) := by
  have hsec := law.sector_halted
  have hframe := halted_frame s
  have hsurvey := SurveyStopped.stopSurvey s.halted
  have haside := Aside.stopSurvey s.halted
  have hdemands := demands_stopSurvey s.halted
  have hlineup := (lineup_stopSurvey s.halted).1
  generalize Machine.stopSurvey s.halted = t at *
  simp only [State.demands, Prod.mk.injEq] at hdemands
  obtain ⟨hmode, hlist⟩ := hdemands
  refine ⟨hmode.trans (by rw [hframe]), haside.beforeHalt.trans (by rw [hframe]), hlist.trans (by rw [hframe]),
    hlineup.trans (by rw [hframe]), fun _ => ?_, fun g => ?_, haside.settings.trans (by rw [hframe]; rfl),
    haside.feed.trans (by rw [hframe]; rfl), haside.tables.trans (by rw [hframe]; rfl), haside.supply.trans (by rw [hframe]),
    haside.ports.trans (by rw [hframe]; rfl)⟩
  · have hvisit : s.halted.visit = s.visit := by rw [hframe]
    have htrim : ∀ g, (s.halted.sector g).trim = (s.sector g).trim := fun g => by rw [hsec]; rfl
    obtain ⟨k1, k2, k3, k4, k5, k6⟩ := hsurvey
    simp only [State.awaitsStroke, State.hasStroke, State.pends, hvisit, htrim] at k3 k4 k5 k6
    exact ⟨k1, k2, k3, k4, k5, k6⟩
  · have hc : s.mode ≠ .climb := by rw [hm]; decide
    rw [haside.group, haside.pace, haside.held, hsec, if_neg hc]
    exact ⟨rfl, rfl, rfl⟩

theorem Halted.enterHalt {s : State} (law : OrderLaw s) : Halted s (enterHalt s) := by
  show Halted s { (if s.mode = .survey then Machine.stopSurvey (if s.mode = .climb then Machine.stopCounters s.halted else s.halted)
    else if s.mode = .climb then Machine.stopCounters s.halted else s.halted) with passDue := true }
  refine Halted.passSet ?_ true
  by_cases hs : s.mode = .survey
  · have hc : s.mode ≠ .climb := by rw [hs]; decide
    rw [if_pos hs, if_neg hc]; exact .stopSurvey law hs
  · rw [if_neg hs]; split
    · next hc => exact .stopCounters law hc
    · next hc => exact .halted law hs hc

theorem Halted.finish_enterHalt {s : State} (law : OrderLaw s) : Halted s (finish (Machine.enterHalt s)) := by
  have h := Halted.enterHalt law
  rw [finish_halt h.mode]; exact h.passSet false

/-! ### The entry to STANDBY with groups in flight (R159) -/

/-- What RESUME to STANDBY leaves, the pass having resumed groups alone (R111, R165). -/
structure Rested (s t : State) : Prop where
  mode : t.mode = .standby
  beforeHalt : t.beforeHalt = s.beforeHalt
  creepList : t.creepList = []
  request : ∀ g, (t.sector g).trim.request = .none
  held : ∀ g, (t.sector g).held = (s.sector g).held
  settings : t.settings = s.settings
  feed : t.feed = s.feed
  tables : t.tables = s.tables
  supply : t.supply = s.supply

theorem Rested.finish_enterStandby (s : State) : Rested s (finish (enterStandby s)) := by
  have ha := Aside.enterStandby s
  have hk := ha.toKept.trans (.finish (enterStandby s))
  have hr : Resumed (enterStandby s) (finish (enterStandby s)) := .finish ⟨nofun, nofun, nofun⟩
  obtain ⟨x, d, hf⟩ := hr.frame
  refine ⟨by rw [hf]; rfl, hk.beforeHalt, by rw [hf]; rfl, fun g => ?_, hk.held, hk.settings, hk.feed, hk.tables, hk.supply⟩
  rw [hr.sector g]; exact request_enterStandby s g

/-! ### STOP and RESUME -/

theorem serveStop_eq {s : State} (h : s.mode = .standby ∨ s.mode = .survey ∨ s.mode = .climb ∨ s.mode = .hold) :
    serveStop s = modeReply .ok (finish (enterHalt s)) := by
  rcases h with h | h | h | h <;> rw [serveStop, h]

theorem serveResume_hold {s : State} {m : DeckMode} (h : s.mode = .halt) (hb : s.beforeHalt = some m) (hm : m = .climb ∨ m = .hold) :
    serveResume s = modeReply .ok (finish (enterHold s)) := by
  rcases hm with rfl | rfl <;> rw [serveResume, h, leaveHalt, hb]

theorem serveResume_standby {s : State} {m : DeckMode} (h : s.mode = .halt) (hb : s.beforeHalt = some m) (hm : m = .standby ∨ m = .survey) :
    serveResume s = modeReply .ok (finish (enterStandby s)) := by
  rcases hm with rfl | rfl <;> rw [serveResume, h, leaveHalt, hb]

/-- The answer of a mode command that left a mode before HALT. -/
theorem modeReply_eq {s : State} {m : DeckMode} (hb : s.beforeHalt = some m) (st : Status) :
    modeReply st s = (s, ⟨st, [s.mode.code, 1, m.code]⟩) := by
  rw [modeReply, beforeHaltB, hb]; rfl

/-- Settles O20: STOP is the entry to HALT, where a pass serves nothing; RESUME is the entry to HOLD or to STANDBY by the mode before HALT. -/
theorem stopAndResume : Obligations.StopAndResume := by
  refine ⟨fun s hr law => ⟨fun hm => ?_, fun hm => ?_⟩, fun s m hr hm hb hms => ?_⟩
  · obtain ⟨u, hu⟩ : ∃ u, u = toHunting .console s := ⟨_, rfl⟩
    have hmode : u.mode = s.mode := by rw [hu]; rfl
    have hlaw : OrderLaw u := hu ▸ (pressureLaw_iff.1 law).1
    have hserve : serveRequest .stop u = serveStop u := rfl
    have hh := Halted.finish_enterHalt hlaw
    rw [serveStop_eq (hmode.symm ▸ hm), modeReply_eq hh.beforeHalt, hh.mode, hmode] at hserve
    generalize finish (enterHalt u) = w at *
    subst hu
    obtain ⟨x, harr, hans⟩ := arrive_setPort (p := .console) (k := .stop) (d := []) rfl hr rfl hserve hh.ports
    exact ⟨_, congrArg Host.Outcome.next harr, hans, hh.mode, hh.beforeHalt, hh.creepList, hh.pressureOrder,
      fun hs => ⟨(hh.survey hs).surveyState, (hh.survey hs).surveyReq, (hh.survey hs).cut, (hh.survey hs).kept,
        fun g => ⟨(hh.survey hs).outcome g, (hh.survey hs).tries g⟩⟩,
      hh.sector, hh.settings, hh.feed, hh.tables, hh.supply⟩
  · have hserve : serveRequest .stop (toHunting .console s) = modeReply .ok (toHunting .console s) := by
      show serveStop _ = _
      rw [serveStop, show (toHunting .console s).mode = .halt from hm]
    exact congrArg Host.Outcome.next (arrive_modeReply (k := .stop) hm hr rfl hserve)
  · obtain ⟨u, hu⟩ : ∃ u, u = toHunting .console s := ⟨_, rfl⟩
    have humode : u.mode = .halt := by rw [hu]; exact hm
    have hubefore : u.beforeHalt = some m := by rw [hu]; exact hb
    have hserve : serveRequest .resume u = serveResume u := rfl
    have hcases : (m = .climb ∨ m = .hold) ∨ (m = .standby ∨ m = .survey) := or_assoc.2 hms
    rcases hcases with hk | hk
    · have hh := HoldEntered.finish_enterHold u
      have hports : (finish (enterHold u)).ports = u.ports := (Kept.finish _).ports.trans (Repaced.enterHold u).ports
      rw [serveResume_hold humode hubefore hk, modeReply_eq (hh.beforeHalt.trans hubefore)] at hserve
      generalize finish (enterHold u) = w at *
      subst hu
      obtain ⟨x, harr, hans⟩ := arrive_setPort (p := .console) (k := .resume) (d := []) rfl hr rfl hserve hports
      have ht := hh.setPorts (q := .console) (y := x)
      refine ⟨_, congrArg Host.Outcome.next harr, hans, ht.beforeHalt.trans hb, fun _ => ⟨ht.mode, fun g => by rw [ht.pace g], ht.demands⟩,
        fun hn => ?_, ht.held, ht.settings, ht.feed, ht.tables, ht.supply⟩
      rcases hk with rfl | rfl <;> simp at hn
    · have hh := Rested.finish_enterStandby u
      have hports : (finish (enterStandby u)).ports = u.ports := (Kept.finish _).ports.trans (Aside.enterStandby u).ports
      rw [serveResume_standby humode hubefore hk, modeReply_eq (hh.beforeHalt.trans hubefore)] at hserve
      generalize finish (enterStandby u) = w at *
      subst hu
      obtain ⟨x, harr, hans⟩ := arrive_setPort (p := .console) (k := .resume) (d := []) rfl hr rfl hserve hports
      refine ⟨_, congrArg Host.Outcome.next harr, hans, hh.beforeHalt.trans hb, fun hn => ?_,
        fun _ => ⟨hh.mode, hh.creepList, hh.request⟩, hh.held, hh.settings, hh.feed, hh.tables, hh.supply⟩
      rcases hk with rfl | rfl <;> simp at hn

end Sys2Proof.Machine
end

