-- ==== Sys2Proof/Proofs/Scans.lean ====
section
/-! SUPPORT. The tables, the scan pointer and the pending load, which grants and visits leave alone; the 32 slots a paced scan examines, and what it makes of them (R115, R117). -/

namespace Sys2Proof.Machine

/-! ### What leaves the tables and the pointer alone -/

/-- The active table, the scan pointer and the mark of a pending load. -/
def State.rota (s : State) : Vector (Option Sector) 32 × Nat × Bool := (s.active, s.scanPtr, s.loadPending)

@[simp] theorem rota_enterAlert (k : AlertKind) (g : Option Sector) (s : State) : (enterAlert k g s).rota = s.rota := by
  rw [enterAlert_eq]; rfl

theorem rota_surveyDone (s : State) : (surveyDone s).rota = s.rota := (rota_enterAlert _ _ _).trans rfl

theorem rota_startBefore (g : Sector) (s : State) : (startBefore g s).rota = s.rota := by
  rw [startBefore, requestTry_frame]; rfl

theorem rota_beginVisits (gs : List Sector) (s : State) : (beginVisits gs s).rota = s.rota := by
  induction gs generalizing s with
  | nil => exact rota_surveyDone s
  | cons g gs ih =>
    unfold beginVisits; split
    · split
      · exact ih _
      · exact rota_startBefore g _
    · exact ih s

@[simp] theorem rota_visitEnded (s : State) : (visitEnded s).rota = s.rota := by
  unfold visitEnded; dsimp only; split
  · exact rota_beginVisits _ _
  · rfl
  · rfl

theorem rota_visitBlocked (g : Sector) (s : State) : (visitBlocked g s).rota = s.rota := rota_visitEnded _

theorem rota_writeRejected (g : Sector) (kind : TrimKind) (s : State) : (writeRejected g kind s).rota = s.rota := by
  rw [writeRejected_eq, rota_enterAlert]; rfl

theorem rota_trimOnGrant (g : Sector) (kind : StrokeKind) (s : State) : (trimOnGrant g kind s).rota = s.rota := by
  have visit : ∀ u : State, State.rota (if kind = .survey then { u with visit := some (g, .stroke) } else u) = u.rota := by
    intro u; split <;> rfl
  unfold trimOnGrant
  rw [visit]
  split
  · rfl
  · rfl
  · exact rota_writeRejected _ _ _
  · exact rota_writeRejected _ _ _

@[simp] theorem rota_grant (g : Sector) (kind : StrokeKind) (s : State) : (grant g kind s).rota = s.rota := rota_trimOnGrant g kind _

theorem rota_serveSurvey (g : Sector) (s : State) : (serveSurvey g s).rota = s.rota := by
  unfold serveSurvey; dsimp only; split
  · exact rota_grant g .survey { s with surveyReq := none }
  · exact rota_visitBlocked g { s with surveyReq := none }

/-! ### The slots of a scan (R115) -/

/-- The state whose active table the i-th slot of a scan is read from: past slot 31 a pending load has been taken. -/
def State.tableAt (s : State) (i : Nat) : State := if s.loadPending = true ∧ 32 ≤ s.scanPtr + i then takeLoad s else s

/-- What the i-th slot of a scan names. -/
def State.nameAt (s : State) (i : Nat) : Option Sector := (s.tableAt i).slot ((s.scanPtr + i) % 32)

/-- The i-th slot of a scan names a group that can be granted. -/
def State.offers (s : State) (i : Nat) : Prop := ∃ g, s.nameAt i = some g ∧ s.pacedEligible g = true

theorem pacedEligible_tableAt (s : State) (i : Nat) (g : Sector) : (s.tableAt i).pacedEligible g = s.pacedEligible g := by
  unfold State.tableAt; split <;> rfl

theorem filter_nameAt {s : State} {i : Nat} (h : ¬s.offers i) :
    (((s.tableAt i).slot ((s.scanPtr + i) % 32)).filter fun g => (s.tableAt i).pacedEligible g) = none := by
  rw [Option.filter_eq_none_iff]
  intro g hg he
  exact h ⟨g, hg, (pacedEligible_tableAt s i g).symm.trans he⟩

theorem tableAt_succ {s : State} {i : Nat} (h : s.scanPtr + i ≠ 31) : s.tableAt (i + 1) = s.tableAt i := by
  unfold State.tableAt
  exact if_congr (and_congr_right' (by omega)) rfl rfl

theorem tableAt_boundary {s : State} {i : Nat} (h : s.scanPtr + i = 31) : passBoundary (s.tableAt i) = s.tableAt (i + 1) := by
  have hi : s.tableAt i = s := if_neg fun hc => by omega
  rw [hi, passBoundary, State.tableAt]
  exact if_congr (by rw [and_iff_left]; omega) rfl rfl

/-- A scan that has found nothing in its first i slots goes on from the slot after. -/
theorem pacedScan_at {s : State} (hp : s.scanPtr < 32) {i : Nat} (hi : i < 32) (h : ∀ k < i, ¬s.offers k) :
    pacedScan 32 s.scanPtr s = pacedScan (32 - i) ((s.scanPtr + i) % 32) (s.tableAt i) := by
  induction i with
  | zero => rw [State.tableAt, if_neg (by omega), Nat.add_zero, Nat.mod_eq_of_lt hp]
  | succ i ih =>
    rw [ih (by omega) fun k hk => h k (by omega), show 32 - i = (32 - (i + 1)) + 1 by omega, pacedScan,
      filter_nameAt (h i (by omega))]
    simp only [show ¬32 - (i + 1) = 0 by omega, if_false]
    by_cases hb : s.scanPtr + i = 31
    · rw [if_pos (by omega), tableAt_boundary hb]
      congr 1; omega
    · rw [if_neg (by omega), tableAt_succ hb]
      congr 1; omega

/-- A scan that finds nothing leaves the tables as the round boundary leaves them. -/
theorem pacedScan_none {s : State} (hp : s.scanPtr < 32) (h : ∀ i < 32, ¬s.offers i) :
    pacedScan 32 s.scanPtr s = (s.tableAt 31, false) := by
  rw [pacedScan_at hp (i := 31) (by decide) fun k hk => h k (by omega), show 32 - 31 = 0 + 1 from rfl, pacedScan,
    filter_nameAt (h 31 (by decide))]
  rfl

/-- What a scan leaves that grants g in its i-th slot. -/
def State.scanned (s : State) (g : Sector) (i : Nat) : State :=
  let t := { grant g .paced (s.tableAt i) with scanPtr := (s.scanPtr + i + 1) % 32 }
  if s.scanPtr + i = 31 then passBoundary t else t

/-- A scan grants in the first slot that offers a group. -/
theorem pacedScan_first {s : State} (hp : s.scanPtr < 32) {i : Nat} (hi : i < 32) {g : Sector} (hg : s.nameAt i = some g)
    (he : s.pacedEligible g = true) (h : ∀ k < i, ¬s.offers k) : pacedScan 32 s.scanPtr s = (s.scanned g i, true) := by
  have hf : (((s.tableAt i).slot ((s.scanPtr + i) % 32)).filter fun g => (s.tableAt i).pacedEligible g) = some g :=
    Option.filter_eq_some_iff.2 ⟨hg, (pacedEligible_tableAt s i g).trans he⟩
  rw [pacedScan_at hp hi h, show 32 - i = (31 - i) + 1 by omega, pacedScan, hf, State.scanned]
  simp only [show ((s.scanPtr + i) % 32 = 31) = (s.scanPtr + i = 31) from propext (by omega),
    show ((s.scanPtr + i) % 32 + 1) % 32 = (s.scanPtr + i + 1) % 32 by omega]

/-- A scan finds nothing, or grants in its first slot that offers a group. -/
theorem pacedScan_cases {s : State} (hp : s.scanPtr < 32) :
    ((∀ i < 32, ¬s.offers i) ∧ pacedScan 32 s.scanPtr s = (s.tableAt 31, false))
      ∨ ∃ i g, i < 32 ∧ s.pacedEligible g = true ∧ pacedScan 32 s.scanPtr s = (s.scanned g i, true) := by
  classical
  by_cases h : ∃ i, i < 32 ∧ s.offers i
  · obtain ⟨hi, g, hg, he⟩ := Nat.find_spec h
    refine .inr ⟨Nat.find h, g, hi, he, pacedScan_first hp hi hg he fun k hk ho => ?_⟩
    exact Nat.find_min h hk ⟨hk.trans hi, ho⟩
  · have h : ∀ i < 32, ¬s.offers i := fun i hi ho => h ⟨i, hi, ho⟩
    exact .inl ⟨h, pacedScan_none hp h⟩

/-! ### Without a pending load -/

theorem tableAt_of_not_pending {s : State} (h : s.loadPending = false) (i : Nat) : s.tableAt i = s :=
  if_neg fun hc => by rw [h] at hc; cases hc.1

theorem scanned_of_not_pending {s : State} (h : s.loadPending = false) (g : Sector) (i : Nat) :
    s.scanned g i = { grant g .paced s with scanPtr := (s.scanPtr + i + 1) % 32 } := by
  have hl : (grant g .paced s).loadPending = false := (congrArg (·.2.2) (rota_grant g .paced s)).trans h
  simp [State.scanned, tableAt_of_not_pending h, passBoundary, hl]

end Sys2Proof.Machine
end

