-- ==== Sys2Proof/Proofs/ArbTables.lean ====
section
/-! SUPPORT. A table spelled in bytes, the pass of a state with no paced request; the arbitration tables (ArbTables). -/

namespace Sys2Proof.Machine

/-! ### A table on the wire (R116) -/

theorem toSlot_slotB (x : Option Sector) : toSlot (slotB x).toNat = some x := by
  cases x with
  | none => rfl
  | some g =>
    have hg : (byteOf g.val).toNat ≠ 255 := by rw [byteOf_toNat]; omega
    simp only [slotB, toSlot, if_neg hg, toSector_byte, Option.map_some]

/-- The slots of a table read back. -/
theorem toSlots_slotB (xs : List (Option Sector)) : toSlots (byteNats (xs.map slotB)) = some xs := by
  induction xs with
  | nil => rfl
  | cons x xs ih =>
    have ih : toSlots (List.map BitVec.toNat (xs.map slotB)) = some xs := ih
    simp only [byteNats, List.map_cons, toSlots, toSlot_slotB, ih]

theorem toTable_toList (v : Vector (Option Sector) 32) : toTable v.toList = v := by
  ext i hi : 1
  simp [toTable]

theorem parse_writeArbTable (v : Vector (Option Sector) 32) :
    parsePayload .writeArbTable (v.toList.map slotB) = some (.writeArbTable (byteNats (v.toList.map slotB))) := by
  simp [parsePayload]

theorem holdsEnabled_iff {s : State} {table : List (Option Sector)} :
    s.holdsEnabled table = true ↔ ∀ g, s.enabled g = true → some g ∈ table := by
  simp only [State.holdsEnabled, State.enabledSectors, List.all_filter, List.all_eq_true, mem_allSectors, true_imp_iff]
  refine forall_congr' fun g => ?_
  cases s.enabled g <;> simp

theorem serveWriteTable_eq {v : Vector (Option Sector) 32} {s : State}
    (h : s.loadPending = true → ∀ g, s.enabled g = true → some g ∈ v.toList) :
    serveWriteTable (byteNats (v.toList.map slotB)) s = ({ s with shadow := v }, ⟨.ok, []⟩) := by
  have hno : ¬(s.loadPending = true ∧ (!s.holdsEnabled v.toList) = true) := fun ⟨hl, hn⟩ => by
    rw [holdsEnabled_iff.2 (h hl)] at hn; cases hn
  simp only [serveWriteTable, toSlots_slotB, if_neg hno, toTable_toList]

/-! ### The load (R117) -/

theorem noRequests_iff {s : State} : s.noRequests = true ↔ ∀ g, (s.sector g).pace.count = 0 := by
  simp [State.noRequests, mem_allSectors]

theorem pacedEligible_of_count {s : State} {g : Sector} (h : (s.sector g).pace.count = 0) : s.pacedEligible g = false := by
  simp [State.pacedEligible, h]

/-- A service with no paced request and no load pending leaves the tables and the pointer alone. -/
theorem rota_serveOne {s : State} (hl : s.loadPending = false) (hp : s.scanPtr < 32) (hc : ∀ g, (s.sector g).pace.count = 0) :
    (serveOne s).1.rota = s.rota := by
  have hscan : pacedScan 32 s.scanPtr s = (s, false) := by
    have hnone : ∀ i < 32, ¬s.offers i := fun i _ ⟨g, _, he⟩ => by
      rw [pacedEligible_of_count (hc g)] at he; cases he
    rw [pacedScan_none hp hnone, tableAt_of_not_pending hl]
  unfold serveOne; split
  · rfl
  · split
    · exact rota_serveSurvey _ s
    · split
      · exact rota_grant _ _ s
      · split
        · rw [hscan]
        · rfl

/-- With no paced request and no load pending the end of an event leaves the tables and the pointer alone. -/
theorem rota_finish {s : State} (hl : s.loadPending = false) (hp : s.scanPtr < 32) (hc : ∀ g, (s.sector g).pace.count = 0) :
    (finish s).rota = s.rota := by
  have hpass : Kept s (grantPass passFuel s) ∧ (grantPass passFuel s).rota = s.rota := by
    refine grantPass_keeps (P := fun t => Kept s t ∧ t.rota = s.rota) (fun t ⟨hk, ht⟩ _ => ?_) passFuel s ⟨.refl s, rfl⟩
    have hl' : t.loadPending = false := (congrArg (·.2.2) ht).trans hl
    have hp' : t.scanPtr < 32 := (congrArg (·.2.1) ht).trans_lt hp
    exact ⟨hk.trans (.serveOne t), (rota_serveOne hl' hp' fun g => by rw [hk.pace, hc]).trans ht⟩
  unfold finish; split
  · exact hpass.2
  · rfl

/-- The load taken at once: the shadow table is active, a pass owed (R117). -/
def State.loaded (s : State) : State := { takeLoad s with passDue := true }

theorem serveLoadTable_of_none {s : State} (h : ∀ g, s.enabled g = true → some g ∈ s.shadow.toList)
    (hc : ∀ g, (s.sector g).pace.count = 0) : serveLoadTable s = (finish s.loaded, ⟨.ok, []⟩) := by
  have hcheck : checkLoad { s with loadPending := true } = s.loaded := by
    have hn : State.noRequests { s with loadPending := true } = true := noRequests_iff.2 hc
    rw [checkLoad, hn]; rfl
  rw [serveLoadTable, holdsEnabled_iff.2 h, hcheck]; rfl

theorem serveLoadTable_of_some {s : State} (hd : s.passDue = false) (h : ∀ g, s.enabled g = true → some g ∈ s.shadow.toList)
    (hc : ∃ g, (s.sector g).pace.count ≠ 0) : serveLoadTable s = ({ s with loadPending := true }, ⟨.ok, []⟩) := by
  have hcheck : checkLoad { s with loadPending := true } = { s with loadPending := true } := by
    have hn : State.noRequests { s with loadPending := true } = false :=
      Bool.eq_false_iff.2 fun hn => by
        obtain ⟨g, hg⟩ := hc
        exact hg (noRequests_iff.1 hn g)
    rw [checkLoad, hn]; rfl
  rw [serveLoadTable, holdsEnabled_iff.2 h, hcheck, finish_of_not_due (s := { s with loadPending := true }) hd]; rfl

theorem serveLoadTable_incomplete {s : State} (h : ∃ g, s.enabled g = true ∧ some g ∉ s.shadow.toList) :
    serveLoadTable s = (s, ⟨.incomplete, []⟩) := by
  have hn : s.holdsEnabled s.shadow.toList = false := Bool.eq_false_iff.2 fun hn => by
    obtain ⟨g, he, hm⟩ := h
    exact hm (holdsEnabled_iff.1 hn g he)
  rw [serveLoadTable, hn]; rfl

/-- Settles O27: a load taken at once leaves no paced request to scan for, so its pass keeps the table and the pointer. -/
theorem arbTables : Obligations.ArbTables := by
  intro s hr
  refine ⟨fun v hv => ?_, fun h => ⟨fun hc => ?_, fun hc => ?_⟩, fun h => ?_⟩
  · exact congrArg Host.Outcome.next (arrive_serves (k := .writeArbTable) (t := { s with shadow := v }) hr (parse_writeArbTable v) rfl
      (serveWriteTable_eq (s := toHunting .console s) hv))
  · obtain ⟨u, hu⟩ : ∃ u, u = toHunting .console s := ⟨_, rfl⟩
    have huc : ∀ g, (u.sector g).pace.count = 0 := hu ▸ hc
    have hserve : serveRequest .loadArbTable u = (finish u.loaded, ⟨.ok, []⟩) :=
      serveLoadTable_of_none (by rw [hu]; exact h) huc
    have hrota : (finish u.loaded).rota = u.loaded.rota := rota_finish rfl (Nat.zero_lt_succ 31) huc
    simp only [State.rota, Prod.mk.injEq] at hrota
    obtain ⟨hactive, hptr, hload⟩ := hrota
    have hk := Kept.finish u.loaded
    generalize finish u.loaded = w at *
    subst hu
    obtain ⟨x, harr, hans⟩ := arrive_setPort (p := .console) (k := .loadArbTable) (d := []) rfl hr rfl hserve hk.ports
    exact ⟨_, congrArg Host.Outcome.next harr, hans, hactive, hptr, hload, fun g => ⟨hk.held g, hk.pace g⟩, hk.settings, hk.feed,
      hk.tables, hk.supply⟩
  · exact congrArg Host.Outcome.next (arrive_serves (k := .loadArbTable) (t := { s with loadPending := true }) hr rfl rfl
      (serveLoadTable_of_some (s := toHunting .console s) hr.1.2 h hc))
  · exact congrArg Host.Outcome.next (arrive_serves (k := .loadArbTable) (t := s) hr rfl rfl
      (serveLoadTable_incomplete (s := toHunting .console s) h))

end Sys2Proof.Machine
end

