-- ==== Sys2Proof/Proofs/PacedScans.lean ====
section
/-! SUPPORT. A pass of one service in CLIMB; the paced scan (PacedScan). -/

namespace Sys2Proof.Machine

/-! ### What a scan names and leaves -/

theorem slot_eq (s : State) (j : Nat) : s.slot j = (s.active.toList[j]?).join := by
  unfold State.slot; split
  · next h => simp [h]
  · next h => simp [h]

/-- What the i-th slot of a scan names, the shadow table standing for the active one past slot 31 (R115, R117). -/
theorem nameAt_eq {s : State} (hp : s.scanPtr < 32) {i : Nat} (hi : i < 32) : s.nameAt i =
    if s.scanPtr + i < 32 then s.slot (s.scanPtr + i)
    else if s.loadPending = true then (s.shadow.toList[s.scanPtr + i - 32]?).join else s.slot (s.scanPtr + i - 32) := by
  unfold State.nameAt State.tableAt
  by_cases h : s.scanPtr + i < 32
  · rw [if_pos h, if_neg (by omega), Nat.mod_eq_of_lt h]
  · rw [if_neg h, show (s.scanPtr + i) % 32 = s.scanPtr + i - 32 by omega]
    by_cases hl : s.loadPending = true
    · rw [if_pos hl, if_pos ⟨hl, by omega⟩, slot_eq]; rfl
    · rw [if_neg hl, if_neg fun hc => hl hc.1]

theorem tableAt_eq (s : State) (i : Nat) : ∃ a j l, s.tableAt i = s.tabled a j l := by
  unfold State.tableAt; split
  · exact ⟨_, _, _, rfl⟩
  · exact ⟨s.active, s.scanPtr, s.loadPending, rfl⟩

/-- A grant by a scan changes nothing more but the tables and the pointer. -/
theorem scanned_eq (s : State) (g : Sector) (i : Nat) : ∃ a j l, s.scanned g i = (grant g .paced (s.tableAt i)).tabled a j l := by
  unfold State.scanned; dsimp only; split
  · obtain ⟨a, j, l, h⟩ := passBoundary_eq { grant g .paced (s.tableAt i) with scanPtr := (s.scanPtr + i + 1) % 32 }
    exact ⟨a, j, l, h⟩
  · exact ⟨_, _, _, rfl⟩

/-- The pointer stands past the slot that was granted, and a pending load has been taken if the scan has passed the round boundary. -/
theorem rota_scanned {s : State} {g : Sector} {i : Nat} :
    (s.scanned g i).scanPtr = (s.scanPtr + i + 1) % 32
      ∧ ((s.scanned g i).active, (s.scanned g i).loadPending) =
        if s.loadPending = true ∧ 31 ≤ s.scanPtr + i then (s.shadow, false) else (s.active, s.loadPending) := by
  have hrota := rota_grant g .paced (s.tableAt i)
  have hshadow : (grant g .paced (s.tableAt i)).shadow = (s.tableAt i).shadow :=
    congrArg (·.1) (Kept.grant g .paced (s.tableAt i)).tables
  simp only [State.rota, Prod.mk.injEq] at hrota
  obtain ⟨hactive, -, hload⟩ := hrota
  unfold State.scanned; dsimp only
  by_cases hb : s.scanPtr + i = 31
  · have ht : s.tableAt i = s := if_neg fun hc => by omega
    rw [ht] at hactive hload hshadow ⊢
    rw [if_pos hb, passBoundary]
    by_cases hl : s.loadPending = true
    · rw [if_pos (hload.trans hl), if_pos ⟨hl, by omega⟩]
      exact ⟨by rw [hb]; rfl, congrArg (·, false) hshadow⟩
    · rw [if_neg fun hc => hl (hload.symm.trans hc), if_neg fun hc => hl hc.1]
      exact ⟨rfl, Prod.ext hactive hload⟩
  · rw [if_neg hb]
    refine ⟨rfl, (Prod.ext hactive hload : _ = ((s.tableAt i).active, (s.tableAt i).loadPending)).trans ?_⟩
    unfold State.tableAt
    by_cases hc : s.loadPending = true ∧ 32 ≤ s.scanPtr + i
    · rw [if_pos hc, if_pos ⟨hc.1, by omega⟩]; rfl
    · rw [if_neg hc, if_neg fun h => hc ⟨h.1, by omega⟩]

/-- Past the scan the tables are loaded, or as they were. -/
theorem tableAt_kept (s : State) (i : Nat) :
    (s.tableAt i).sectors = s.sectors ∧ (s.tableAt i).pressureOrder = s.pressureOrder
      ∧ ((s.tableAt i).active, (s.tableAt i).loadPending, (s.tableAt i).scanPtr) =
        if s.loadPending = true ∧ 32 ≤ s.scanPtr + i then (s.shadow, false, 0) else (s.active, s.loadPending, s.scanPtr) := by
  unfold State.tableAt; split <;> exact ⟨rfl, rfl, rfl⟩

/-- What a grant by a scan makes of the sectors and the pressure order (R89, R109). -/
structure ScanGrants (g : Sector) (s t : State) : Prop where
  group : (t.sector g).group = (s.sector g).group.granted (s.len g) s.deck.window .paced
  held : ∀ h, (t.sector h).held = (s.sector h).held
  others : ∀ h, h ≠ g → t.sector h = s.sector h
  pressureOrder : t.pressureOrder = s.pressureOrder ++ [g]

theorem ScanGrants.scanned (s : State) (g : Sector) (i : Nat) : ScanGrants g s (s.scanned g i) := by
  obtain ⟨a, j, l, hs⟩ := scanned_eq s g i
  obtain ⟨a', j', l', ht⟩ := tableAt_eq s i
  have hg := Grants.grant g .paced (s.tabled a' j' l')
  rw [hs, ht]
  generalize grant g .paced (s.tabled a' j' l') = v at *
  exact ⟨hg.group, hg.held, hg.others, congrArg (·.2.2.1) hg.arbiter⟩

/-! ### A pass of one service -/

theorem stallTo_of_le {s : State} {k : Nat} (h : s.numPressurizing ≤ k) : stallTo k s = s := by
  rw [stallTo, State.toStall, Nat.sub_eq_zero_of_le h, List.take_zero]; rfl

theorem stalledList_eq_nil {s : State} (h : ∀ g, s.groupState g ≠ .stalled) : s.stalledList = [] :=
  List.filter_eq_nil_iff.2 fun g _ => by simpa using h g

/-- In CLIMB, with nothing to resume and no demand to grant, a service is a paced scan (R111). -/
theorem serveOne_of_scan {s : State} (hm : s.mode = .climb) (hs : s.stalledList = []) (hc : ∀ e ∈ s.creepList, s.creepEligible e.sector = false) :
    serveOne s = pacedScan 32 s.scanPtr s := by
  have hcreep : ((s.creepList.map CreepEntry.sector).find? fun g => s.creepEligible g) = none := by
    simpa [List.find?_eq_none] using hc
  simp [serveOne, hm, hs, DeckMode.permitsResume, DeckMode.permitsCreep, hcreep]

theorem grantPass_of_served {s t : State} (hc : s.canServe = true) (h : serveOne s = (t, true)) (n : Nat) :
    grantPass (n + 1) s = grantPass n t := by
  simp only [grantPass, hc, h, if_true]

theorem grantPass_of_unserved {s t : State} (hc : s.canServe = true) (h : serveOne s = (t, false)) (n : Nat) :
    grantPass (n + 1) s = t := by
  simp only [grantPass, hc, h, if_true]

theorem grantPass_of_full {s : State} (hc : s.canServe = false) (n : Nat) : grantPass n s = s := by
  cases n with
  | zero => rfl
  | succ n => simp [grantPass, hc]

theorem finish_owed (s : State) (h : s.passDue = true) : finish s = { grantPass passFuel s with passDue := false } := by
  rw [finish, if_pos h]

/-- With capacity for one stroke and none under pressure, the pass is one scan. -/
theorem finish_of_scan {s : State} (hd : s.passDue = true) (hm : s.mode = .climb) (hst : ∀ g, s.groupState g ≠ .pressurizing ∧ s.groupState g ≠ .stalled)
    (hc : ∀ e ∈ s.creepList, s.creepEligible e.sector = false) (hr : s.supply.state = .ready) (h1 : s.supply.cap = 1) :
    (∀ t, pacedScan 32 s.scanPtr s = (t, false) → finish s = { t with passDue := false })
      ∧ ∀ i g, s.pacedEligible g = true → pacedScan 32 s.scanPtr s = (s.scanned g i, true) →
        finish s = { s.scanned g i with passDue := false } := by
  have hnum : s.numPressurizing = 0 := numPressurizing_eq_zero fun g => (hst g).1
  have hcap : s.capacity = 1 := by rw [State.capacity, if_pos hr, h1]
  have hfree : s.canServe = true := by simp [State.canServe, hr, hnum, hcap]
  have hserve := serveOne_of_scan hm (stalledList_eq_nil fun g => (hst g).2) hc
  rw [finish_owed s hd, passFuel]
  refine ⟨fun t ht => ?_, fun i g he ht => ?_⟩
  · rw [grantPass_of_unserved hfree (hserve.trans ht)]
  · have hg := Grants.grant g .paced (s.tableAt i)
    have hsec : ∀ h, (s.tableAt i).sector h = s.sector h := fun h => by unfold State.tableAt; split <;> rfl
    have hfull : (s.scanned g i).canServe = false := by
      obtain ⟨a, j, l, hscan⟩ := scanned_eq s g i
      have hsupply : (s.scanned g i).supply = s.supply := by
        rw [hscan]; exact hg.supply.trans (by unfold State.tableAt; split <;> rfl)
      have hone : (s.scanned g i).numPressurizing = s.numPressurizing + 1 := by
        rw [hscan]
        refine numPressurizing_succ (g := g) (hst g).1 ?_ fun k e => ?_
        · exact congrArg Group.state hg.group
        · exact congrArg (·.group.state) ((hg.others k e).trans (hsec k))
      have hcap' : (s.scanned g i).capacity = 1 := by rw [State.capacity, hsupply, ← State.capacity, hcap]
      simp [State.canServe, hone, hnum, hcap']
    rw [grantPass_of_served hfree (hserve.trans ht), grantPass_of_full hfull]

/-! ### A report that stalls no group -/

/-- s with the supply record, the supply port and the mark of a pass set. -/
def State.supplied (s : State) (x : Port) (y : Supply) (d : Bool) : State := { s with supplyPort := x, supply := y, passDue := d }

theorem pacedEligible_supplied (s : State) (x : Port) (y : Supply) (d : Bool) (g : Sector) :
    (s.supplied x y d).pacedEligible g = s.pacedEligible g := rfl

theorem creepEligible_supplied (s : State) (x : Port) (y : Supply) (d : Bool) (g : Sector) :
    (s.supplied x y d).creepEligible g = s.creepEligible g := rfl

/-- A report of supply that leaves no group above its capacity sets the record and owes a pass, nothing more. -/
theorem exec_supplyState_of_le {s : State} {k : Nat} (hr : Rest .supply s) (hk : k < 256) (h : s.numPressurizing ≤ min k 8) :
    ∃ x y z, exec (.supplyState .supply [1, byteOf k]) s = .next ((finish (s.supplied x y true)).setPort .supply z)
      ∧ y.state = .ready ∧ y.cap = min k 8 := by
  obtain ⟨z, hexec, -⟩ := exec_supplyState s true (press := none) hr hk nofun
  have hnum : (toHunting .supply s).numPressurizing ≤ min k 8 := h
  have hcut : (toHunting .supply s).cutBack true k none = { (toHunting .supply s).reported true k none with passDue := true } := by
    rw [State.cutBack, if_pos rfl, stallTo_of_le (s := (toHunting .supply s).reported true k none) hnum]
  rw [hcut] at hexec
  exact ⟨_, _, z, hexec, rfl, rfl⟩

/-! The model's own function has the name that the obligation gives its theorem, which stands in a namespace of its own. -/

namespace Scans

/-- Settles O43: the pass is one scan, whose grant takes the capacity up. -/
theorem pacedScan : Obligations.PacedScan := by
  intro s hr hm hp hst hc p name eligible
  have hnum : s.numPressurizing = 0 := numPressurizing_eq_zero fun g => (hst g).1
  obtain ⟨x, y, z, hexec, hready, hcap⟩ := exec_supplyState_of_le (k := 1) hr (by decide) (by rw [hnum]; decide)
  have hsec : ∀ h, (s.supplied x y true).sector h = s.sector h := fun _ => rfl
  have hkept : (s.supplied x y true).deck = s.deck ∧ (s.supplied x y true).pressureOrder = s.pressureOrder
      ∧ (s.supplied x y true).shadow = s.shadow ∧ (s.supplied x y true).active = s.active
      ∧ (s.supplied x y true).scanPtr = p ∧ (s.supplied x y true).loadPending = s.loadPending
      ∧ (s.supplied x y true).sectors = s.sectors := ⟨rfl, rfl, rfl, rfl, rfl, rfl, rfl⟩
  have hname : ∀ i < 32, (s.supplied x y true).nameAt i = name i := fun i hi => nameAt_eq (s := s.supplied x y true) hp hi
  have heligible := pacedEligible_supplied s x y true
  have hoffers : ∀ i < 32, (s.supplied x y true).offers i ↔ eligible i := fun i hi => by
    simp only [State.offers, hname i hi, heligible]; rfl
  have hscans := finish_of_scan (s := s.supplied x y true) rfl hm hst (fun e he => (creepEligible_supplied s x y true _).trans (hc e he))
    hready hcap
  generalize s.supplied x y true = q at *
  obtain ⟨hwindow, horder, hshadow, hactive, hptr, hload, hsectors'⟩ := hkept
  obtain ⟨hnothing, hfound⟩ := hscans
  refine ⟨fun i g hi hg he hfirst => ?_, fun hnone => ?_⟩
  · have hscan := pacedScan_first (hptr.trans_lt hp) hi ((hname i hi).trans hg) ((heligible g).trans he)
      fun k hk ho => hfirst k hk ((hoffers k (hk.trans hi)).1 ho)
    rw [hfound i g ((heligible g).trans he) hscan] at hexec
    obtain ⟨hend, htables⟩ := rota_scanned (s := q) (g := g) (i := i)
    have hg := ScanGrants.scanned q g i
    rw [hptr] at hend htables
    rw [hshadow, hactive, hload] at htables
    generalize q.scanned g i = v at *
    obtain ⟨hgroup, hheld, hothers, hpress⟩ := hg
    simp only [State.len, hsec, hwindow, horder] at hgroup hheld hothers hpress
    exact ⟨_, hexec, hgroup, fun h => ⟨hheld h, hothers h⟩, hpress, hend, htables⟩
  · rw [hnothing _ (pacedScan_none (hptr.trans_lt hp) fun i hi ho => hnone i hi ((hoffers i hi).1 ho))] at hexec
    obtain ⟨hsectors, hpress, htables⟩ := tableAt_kept q 31
    rw [hptr, hshadow, hactive, hload] at htables
    generalize q.tableAt 31 = v at *
    exact ⟨_, hexec, hsectors.trans hsectors', hpress.trans horder, htables.trans (if_congr (and_congr_right' (by omega)) rfl rfl)⟩

end Scans

end Sys2Proof.Machine
end

