-- ==== Sys2Proof/Proofs/Served.lean ====
section
/-! SUPPORT. What one service finds and what it makes of the pressure order and the stalled list, no table load being pending (R111 to R115). -/

namespace Sys2Proof.Machine

/-! ### What one service finds -/

/-- Nothing is left to serve (R111): no group to resume, no survey request, no demand and no slot whose group can be granted. -/
structure State.Exhausted (s : State) : Prop where
  resumes : s.mode.permitsResume = true → s.stalledList = []
  survey : s.mode = .survey → s.surveyReq = none
  creep : s.mode = .climb ∨ s.mode = .hold → ∀ e ∈ s.creepList, s.creepEligible e.sector = false
  paced : s.mode = .climb → ∀ j g, s.slot j = some g → s.pacedEligible g = false

/-- What a service makes of s when it finds a candidate: the oldest STALLED group resumed, and only with none left a request or a grant. -/
inductive Served (s : State) : State → Prop
  | resume (g : Sector) (rest : List Sector) (hm : s.mode.permitsResume = true) (hs : s.stalledList = g :: rest) : Served s (resumeGroup g s)
  | survey (g : Sector) (hs : s.stalledList = []) (hm : s.mode = .survey) (hq : s.surveyReq = some g) (he : s.surveyEligible g = true) :
      Served s (grant g .survey { s with surveyReq := .none })
  | blocked (g : Sector) (hs : s.stalledList = []) (hm : s.mode = .survey) (hq : s.surveyReq = some g) (he : s.surveyEligible g = false) :
      Served s (visitBlocked g { s with surveyReq := .none })
  | creep (g : Sector) (hs : s.stalledList = []) (hm : s.mode = .climb ∨ s.mode = .hold) (he : s.creepEligible g = true) :
      Served s (grant g .creep s)
  | paced (g : Sector) (j : Nat) (hs : s.stalledList = []) (hm : s.mode = .climb) (hj : j < 32) (he : s.pacedEligible g = true) :
      Served s { grant g .paced s with scanPtr := j }

theorem permitsCreep_iff {m : DeckMode} : m.permitsCreep = true ↔ m = .climb ∨ m = .hold := by cases m <;> decide

theorem permitsResume_iff {m : DeckMode} : m.permitsResume = true ↔ m = .standby ∨ m = .survey ∨ m = .climb ∨ m = .hold := by
  cases m <;> decide

/-- A scan that offers nothing has examined every slot of the table. -/
theorem not_eligible_of_no_offer {s : State} (hl : s.loadPending = false) (hp : s.scanPtr < 32) (h : ∀ i < 32, ¬s.offers i) {j : Nat} {g : Sector}
    (hj : s.slot j = some g) : s.pacedEligible g = false := by
  have hlt : j < 32 := by
    by_contra hn
    rw [State.slot, dif_neg hn] at hj; cases hj
  refine Bool.eq_false_iff.2 fun he => h ((j + 32 - s.scanPtr) % 32) (Nat.mod_lt _ (by decide)) ⟨g, ?_, he⟩
  rw [State.nameAt, tableAt_of_not_pending hl, ← hj]
  congr 1; omega

/-- With no table load pending a service finds a candidate, or leaves the state as it is. -/
theorem serveOne_cases {s : State} (hl : s.loadPending = false) (hp : s.scanPtr < 32) :
    (∃ t, serveOne s = (t, true) ∧ Served s t) ∨ (serveOne s = (s, false) ∧ s.Exhausted) := by
  unfold serveOne; split
  · next g hg =>
    split at hg
    · next hm =>
      obtain ⟨rest, hs⟩ := List.head?_eq_some_iff.1 hg
      exact .inl ⟨_, rfl, .resume g rest hm hs⟩
    · cases hg
  · next hnone =>
    have hresumes : s.mode.permitsResume = true → s.stalledList = [] := fun hm => by
      rw [if_pos hm] at hnone; exact List.head?_eq_none_iff.1 hnone
    have hstalled : ∀ {m : DeckMode}, s.mode = m → m.permitsResume = true → s.stalledList = [] := fun hm hr => hresumes (hm ▸ hr)
    split
    · next g hg =>
      split at hg
      · next hm =>
        refine .inl ⟨_, rfl, ?_⟩
        cases he : s.surveyEligible g with
        | true => rw [serveSurvey, if_pos he]; exact .survey g (hstalled hm rfl) hm hg he
        | false => rw [serveSurvey, if_neg (by rw [he]; decide)]; exact .blocked g (hstalled hm rfl) hm hg he
      · cases hg
    · next hreq =>
      have hsurvey : s.mode = .survey → s.surveyReq = .none := fun hm => by rwa [if_pos hm] at hreq
      split
      · next g hg =>
        split at hg
        · next hc =>
          have hm := permitsCreep_iff.1 hc
          refine .inl ⟨_, rfl, .creep g (hresumes (permitsResume_iff.2 (.inr (.inr hm)))) hm (List.find?_some hg)⟩
        · cases hg
      · next hdemand =>
        have hcreep : s.mode = .climb ∨ s.mode = .hold → ∀ e ∈ s.creepList, s.creepEligible e.sector = false := fun hm => by
          rw [if_pos (permitsCreep_iff.2 hm)] at hdemand
          simpa [List.find?_eq_none] using hdemand
        split
        · next hm =>
          rcases pacedScan_cases hp with ⟨hno, hscan⟩ | ⟨i, g, -, he, hscan⟩
          · rw [hscan, tableAt_of_not_pending hl]
            exact .inr ⟨rfl, hresumes, hsurvey, hcreep, fun _ j g hj => not_eligible_of_no_offer hl hp hno hj⟩
          · rw [hscan, scanned_of_not_pending hl]
            exact .inl ⟨_, rfl, .paced g _ (hstalled hm rfl) hm (Nat.mod_lt _ (by decide)) he⟩
        · next hm => exact .inr ⟨rfl, hresumes, hsurvey, hcreep, fun hc => absurd hc hm⟩

/-! ### The stalled list after a service -/

theorem mem_stalledList {s : State} {g : Sector} : g ∈ s.stalledList ↔ g ∈ s.pressureOrder ∧ s.groupState g = .stalled := by
  simp [State.stalledList]

/-- The oldest STALLED group resumed, the others stay in their order (R98). -/
theorem stalledList_resumeGroup {s : State} (hn : s.pressureOrder.Nodup) {g : Sector} {rest : List Sector} (hs : s.stalledList = g :: rest) :
    (resumeGroup g s).stalledList = rest := by
  have hnodup : (g :: rest).Nodup := hs ▸ hn.filter _
  have hrest : s.stalledList.filter (fun h => h != g) = rest := by
    rw [hs, List.filter_cons_of_neg (by simp), List.filter_eq_self]
    intro h hh
    have hne : h ≠ g := by rintro rfl; exact (List.nodup_cons.1 hnodup).1 hh
    simpa using hne
  rw [← hrest, State.stalledList, State.stalledList, List.filter_filter]
  refine List.filter_congr fun h _ => ?_
  by_cases e : h = g
  · subst e
    have hp : (resumeGroup h s).groupState h = .pressurizing := congrArg (·.group.state) (sector_modSector_self s h _)
    simp [hp]
  · have hp : (resumeGroup g s).groupState h = s.groupState h := congrArg (·.group.state) (sector_modSector_ne s _ e)
    simp [hp, e]

/-- From s to t the group of g has joined the pressure order with a new stroke (R89, R109), no load being pending. -/
structure Joins (g : Sector) (s t : State) : Prop extends Kept s t where
  grantable : s.grantable g = true
  state : t.groupState g = .pressurizing
  others : ∀ h, h ≠ g → t.sector h = s.sector h
  order : t.pressureOrder = s.pressureOrder ++ [g]
  mode : t.mode = s.mode
  surveyReq : s.surveyReq = none → t.surveyReq = none
  loadPending : t.loadPending = s.loadPending
  scanPtr : s.scanPtr < 32 → t.scanPtr < 32

theorem Joins.grant {s : State} {g : Sector} (he : s.grantable g = true) (kind : StrokeKind) : Joins g s (grant g kind s) := by
  have hrota := rota_grant g kind s
  obtain ⟨hk, hgroup, hothers, harb⟩ := Grants.grant g kind s
  simp only [State.arbiter, State.rota, Prod.mk.injEq] at harb hrota
  obtain ⟨hmode, -, horder, hreq, -⟩ := harb
  obtain ⟨-, hptr, hload⟩ := hrota
  exact ⟨hk, he, congrArg Group.state hgroup, hothers, horder, hmode, fun h => hreq.trans h, hload, fun h => hptr.trans_lt h⟩

theorem Kept.of_unasked {s t : State} (h : Kept { s with surveyReq := none } t) : Kept s t :=
  Kept.trans (t := { s with surveyReq := none }) ⟨rfl, rfl, rfl, rfl, rfl, rfl, rfl, rfl, rfl, fun _ => rfl, fun _ => rfl⟩ h

/-- It is all the same whether a survey request is withdrawn before. -/
theorem Joins.of_unasked {s t : State} {g : Sector} (h : Joins g { s with surveyReq := none } t) : Joins g s t := by
  obtain ⟨hk, he, hstate, hothers, horder, hmode, hreq, hload, hptr⟩ := h
  exact ⟨hk.of_unasked, he, hstate, hothers, horder, hmode, fun _ => hreq rfl, hload, hptr⟩

theorem Joins.moved {s t : State} {g : Sector} (h : Joins g s t) {j : Nat} (hj : j < 32) : Joins g s { t with scanPtr := j } := by
  obtain ⟨hk, he, hstate, hothers, horder, hmode, hreq, hload, -⟩ := h
  exact ⟨hk.trans ⟨rfl, rfl, rfl, rfl, rfl, rfl, rfl, rfl, rfl, fun _ => rfl, fun _ => rfl⟩, he, hstate, hothers, horder, hmode, hreq, hload, fun _ => hj⟩

/-- A group that joins adds none to the stalled list. -/
theorem Joins.stalledList {s t : State} {g : Sector} (h : Joins g s t) (hs : s.stalledList = []) : t.stalledList = [] := by
  refine List.eq_nil_iff_forall_not_mem.2 fun k hk => ?_
  obtain ⟨hmem, hst⟩ := mem_stalledList.1 hk
  by_cases e : k = g
  · subst e; rw [h.state] at hst; cases hst
  · have hst : s.groupState k = .stalled := by rw [State.groupState, ← h.others k e]; exact hst
    have hmem : k ∈ s.pressureOrder := by rw [h.order] at hmem; simpa [e] using hmem
    have : k ∈ s.stalledList := mem_stalledList.2 ⟨hmem, hst⟩
    rw [hs] at this; cases this

/-- A service that does not resume a group has a group join, or withdraws the survey request. -/
theorem Served.cases {s t : State} (h : Served s t) :
    (∃ g rest, s.mode.permitsResume = true ∧ s.stalledList = g :: rest ∧ t = resumeGroup g s)
      ∨ (s.stalledList = [] ∧ s.mode.permitsResume = true ∧ ∃ g, Joins g s t)
      ∨ ∃ g, s.mode = .survey ∧ s.surveyReq = some g ∧ t = visitBlocked g { s with surveyReq := none } := by
  cases h with
  | resume g rest hm hs => exact .inl ⟨g, rest, hm, hs, rfl⟩
  | survey g hs hm _ he =>
    exact .inr (.inl ⟨hs, by rw [hm]; rfl, g, Joins.of_unasked (.grant (s := { s with surveyReq := none }) (grantable_of_survey he) .survey)⟩)
  | blocked g hs hm hq => exact .inr (.inr ⟨g, hm, hq, rfl⟩)
  | creep g hs hm he => exact .inr (.inl ⟨hs, permitsResume_iff.2 (.inr (.inr hm)), g, .grant (grantable_of_creep he) .creep⟩)
  | paced g j hs hm hj he => exact .inr (.inl ⟨hs, by rw [hm]; rfl, g, (Joins.grant (grantable_of_paced he) .paced).moved hj⟩)

end Sys2Proof.Machine
end

