-- ==== Sys2Proof/Proofs/GrantPasses.lean ====
section
/-! SUPPORT. A whole grant pass: what it has resumed and granted so far, and that it ends with the capacity taken up or nothing left to serve (R110 to R114); GrantPassServes. -/

namespace Sys2Proof.Machine

/-! ### A pass under way -/

/-- A group resumed with a full window (R98). -/
def Group.resumed (r : Group) (window : Nat) : Group := { r with state := .pressurizing, timer := some ⟨.window, window⟩ }

/-- A pass that began at s has come to t: the first n STALLED groups are resumed, and the groups of new have joined the pressure order, those only with no group left to resume. -/
structure Passing (s t : State) (n : Nat) (new : List Sector) : Prop extends Kept s t where
  law : PressureLaw t
  order : t.pressureOrder = s.pressureOrder ++ new
  stalled : t.stalledList = s.stalledList.drop n
  resumed : ∀ g ∈ s.stalledList.take n, (t.sector g).group = (s.sector g).group.resumed s.deck.window
  waiting : ∀ g ∈ s.stalledList.drop n, (t.sector g).group = (s.sector g).group
  joined : ∀ g ∈ new, t.groupState g = .pressurizing
  last : new ≠ [] → t.stalledList = []
  loadPending : t.loadPending = false
  scanPtr : t.scanPtr < 32
  mode : t.mode = s.mode ∨ (s.mode = .survey ∧ t.mode = .standby ∧ t.surveyReq = none)
  idle : s.mode.permitsResume = false → n = 0 ∧ new = []

theorem Passing.start {s : State} (law : PressureLaw s) (hl : s.loadPending = false) (hp : s.scanPtr < 32) : Passing s s 0 [] :=
  ⟨.refl s, law, (List.append_nil _).symm, rfl, by simp, fun _ _ => rfl, by simp, by simp, hl, hp, .inl rfl, fun _ => ⟨rfl, rfl⟩⟩

theorem Passing.nodup {s t : State} {n : Nat} {new : List Sector} (h : Passing s t n new) : s.stalledList.Nodup := by
  have hn := h.law.1
  rw [h.order] at hn
  exact (List.nodup_append.1 hn).1.filter _

theorem Passing.resume {s t : State} {n : Nat} {new : List Sector} (h : Passing s t n new) (hm : t.mode.permitsResume = true) {g : Sector}
    {rest : List Sector} (hs : t.stalledList = g :: rest) (law : PressureLaw (resumeGroup g t)) :
    Passing s (resumeGroup g t) (n + 1) new := by
  have hdrop : s.stalledList.drop n = g :: rest := h.stalled ▸ hs
  have hrest : s.stalledList.drop (n + 1) = rest := by rw [← List.tail_drop, hdrop]; rfl
  have htake : s.stalledList.take (n + 1) = s.stalledList.take n ++ [g] := by
    rw [List.take_add, hdrop]; rfl
  have hnew : new = [] := by
    by_contra hn
    have := h.last hn
    rw [hs] at this; cases this
  have hnodup : (s.stalledList.take n ++ g :: rest).Nodup := by
    rw [← hdrop, List.take_append_drop]; exact h.nodup
  obtain ⟨-, hgrest, hdisj⟩ := List.nodup_append.1 hnodup
  have hself : ((resumeGroup g t).sector g).group = (t.sector g).group.resumed t.deck.window :=
    congrArg SectorState.group (sector_modSector_self t g _)
  have hne : ∀ k, k ≠ g → (resumeGroup g t).sector k = t.sector k := fun k e => sector_modSector_ne t _ e
  refine ⟨h.toKept.trans (.modGroup t g _), law, h.order, (stalledList_resumeGroup h.law.1 hs).trans hrest.symm, fun k hk => ?_,
    fun k hk => ?_, by simp [hnew], by simp [hnew], h.loadPending, h.scanPtr, h.mode, fun hi => ?_⟩
  · rw [htake, List.mem_append, List.mem_singleton] at hk
    rcases hk with hk | rfl
    · rw [hne k (hdisj k hk g List.mem_cons_self)]
      exact h.resumed k hk
    · rw [hself, h.waiting k (hdrop ▸ List.mem_cons_self), h.toKept.deck]
  · rw [hrest] at hk
    have e : k ≠ g := by rintro rfl; exact (List.nodup_cons.1 hgrest).1 hk
    rw [hne k e]
    exact h.waiting k (hdrop ▸ List.mem_cons_of_mem g hk)
  · rcases h.mode with hmode | ⟨hmode, -⟩
    · rw [hmode, hi] at hm; cases hm
    · rw [hmode] at hi; cases hi

theorem Passing.join {s t u : State} {n : Nat} {new : List Sector} (h : Passing s t n new) (hm : t.mode.permitsResume = true)
    (hs : t.stalledList = []) {g : Sector} (hj : Joins g t u) (law : PressureLaw u) : Passing s u n (new ++ [g]) := by
  have hidle : t.groupState g = .idle := (grantable_iff.1 hj.grantable).2.1
  have hother : ∀ k, t.groupState k ≠ .idle → u.sector k = t.sector k := fun k hk =>
    hj.others k fun e => hk (e ▸ hidle)
  have hlist := hj.stalledList hs
  have hdrop : s.stalledList.drop n = [] := h.stalled ▸ hs
  refine ⟨h.toKept.trans hj.toKept, law, by rw [hj.order, h.order, List.append_assoc], by rw [hlist, hdrop], fun k hk => ?_, by simp [hdrop],
    fun k hk => ?_, fun _ => hlist, hj.loadPending.trans h.loadPending, hj.scanPtr h.scanPtr, ?_, fun hi => ?_⟩
  · have hp : t.groupState k = .pressurizing := congrArg Group.state (h.resumed k hk)
    rw [hother k (by rw [hp]; decide)]
    exact h.resumed k hk
  · rcases List.mem_append.1 hk with hk | hk
    · have hp := h.joined k hk
      rw [State.groupState, hother k (by rw [hp]; decide)]
      exact hp
    · rw [List.mem_singleton.1 hk]; exact hj.state
  · rw [hj.mode]
    exact h.mode.imp_right fun ⟨h1, h2, h3⟩ => ⟨h1, h2, hj.surveyReq h3⟩
  · rcases h.mode with hmode | ⟨hmode, -⟩
    · rw [hmode, hi] at hm; cases hm
    · rw [hmode] at hi; cases hi

theorem Passing.blocked {s t : State} {n : Nat} {new : List Sector} (h : Passing s t n new) (hm : t.mode = .survey) (g : Sector)
    (law : PressureLaw (visitBlocked g { t with surveyReq := none })) : Passing s (visitBlocked g { t with surveyReq := none }) n new := by
  have ha : Aside { t with surveyReq := none } (visitBlocked g { t with surveyReq := none }) := .visitBlocked g _
  have hl := (lineup_visitBlocked g { t with surveyReq := none }).1
  have hrota := rota_visitBlocked g { t with surveyReq := none }
  have hend := visitEnded_mode (setOutcome g .blocked { t with surveyReq := none })
  rw [← visitBlocked] at hend
  generalize visitBlocked g { t with surveyReq := none } = u at *
  simp only [State.rota, Prod.mk.injEq] at hrota
  obtain ⟨-, hptr, hload⟩ := hrota
  obtain ⟨hmode, hreq⟩ := hend
  have hgroup : ∀ k, (u.sector k).group = (t.sector k).group := ha.group
  have hlist : u.stalledList = t.stalledList := by
    simp only [State.stalledList, State.groupState, hgroup, hl]
  refine ⟨h.toKept.trans ha.toKept.of_unasked, law, hl.trans h.order, hlist.trans h.stalled,
    fun k hk => (hgroup k).trans (h.resumed k hk), fun k hk => (hgroup k).trans (h.waiting k hk),
    fun k hk => (congrArg Group.state (hgroup k)).trans (h.joined k hk), fun hn => hlist.trans (h.last hn), hload.trans h.loadPending,
    hptr.trans_lt h.scanPtr, ?_, h.idle⟩
  have hs : s.mode = .survey := by
    rcases h.mode with hs | ⟨hs, -⟩
    · exact hs.symm.trans hm
    · exact hs
  rcases hmode with hmode | hmode
  · exact .inl (hmode.trans (hm.trans hs.symm))
  · exact .inr ⟨hs, hmode, hreq rfl⟩

theorem Passing.served {s t u : State} {n : Nat} {new : List Sector} (h : Passing s t n new) (hs : Served t u) (law : PressureLaw u) :
    ∃ n' new', Passing s u n' new' := by
  rcases hs.cases with ⟨g, rest, hm, hl, rfl⟩ | ⟨hl, hm, g, hj⟩ | ⟨g, hm, -, rfl⟩
  · exact ⟨n + 1, new, h.resume hm hl law⟩
  · exact ⟨n, new ++ [g], h.join hm hl hj law⟩
  · exact ⟨n, new, h.blocked hm g law⟩

/-! ### Its end -/

/-- The services a pass can still make: one for each unit of free capacity, and one that withdraws the survey request. -/
def State.servicesLeft (s : State) : Nat := (s.capacity - s.numPressurizing) + if s.surveyReq = none then 0 else 1

theorem capacity_of_supply {s t : State} (h : t.supply = s.supply) : t.capacity = s.capacity := by rw [State.capacity, h]; rfl

/-- Every service leaves fewer to make. -/
theorem Served.servicesLeft {s t : State} (h : Served s t) (hc : s.canServe = true) : t.servicesLeft < s.servicesLeft := by
  have hfree : s.numPressurizing < s.capacity := by
    simp only [State.canServe, Bool.and_eq_true, decide_eq_true_eq] at hc; exact hc.2
  have more : t.supply = s.supply → t.numPressurizing = s.numPressurizing + 1 → (s.surveyReq = none → t.surveyReq = none) →
      t.servicesLeft < s.servicesLeft := fun hsupply hnum hreq => by
    rw [State.servicesLeft, State.servicesLeft, capacity_of_supply hsupply, hnum]
    by_cases hq : s.surveyReq = none
    · rw [if_pos hq, if_pos (hreq hq)]; omega
    · rw [if_neg hq]; split <;> omega
  rcases h.cases with ⟨g, rest, -, hl, rfl⟩ | ⟨-, -, g, hj⟩ | ⟨g, -, hq, rfl⟩
  · have hst : s.groupState g = .stalled := stalled_of_mem (hl ▸ List.mem_cons_self)
    refine more rfl (numPressurizing_succ (g := g) (by rw [hst]; decide) ?_ fun k e => ?_) id
    · exact congrArg (·.group.state) (sector_modSector_self s g _)
    · exact congrArg (·.group.state) (sector_modSector_ne s _ e)
  · have hidle := (grantable_iff.1 hj.grantable).2.1
    exact more hj.supply (numPressurizing_succ (g := g) (by rw [hidle]; decide) hj.state fun k e => congrArg (·.group.state) (hj.others k e))
      hj.surveyReq
  · have ha : Aside { s with surveyReq := none } (visitBlocked g { s with surveyReq := none }) := .visitBlocked g _
    have hnum : (visitBlocked g { s with surveyReq := none }).numPressurizing = s.numPressurizing :=
      numPressurizing_congr fun k => congrArg Group.state (ha.group k)
    have hreq : (visitBlocked g { s with surveyReq := none }).surveyReq = none := (visitEnded_mode _).2 rfl
    rw [State.servicesLeft, State.servicesLeft, capacity_of_supply (s := s) ha.supply, hnum, if_pos hreq, hq, if_neg nofun]
    omega

/-- A pass ends with no capacity free or nothing left to serve (R111). -/
theorem Passing.grantPass {s t : State} {n : Nat} {new : List Sector} {fuel : Nat} (h : Passing s t n new) (hf : t.servicesLeft < fuel) :
    ∃ n' new', Passing s (grantPass fuel t) n' new' ∧ ((grantPass fuel t).canServe = false ∨ (grantPass fuel t).Exhausted) := by
  induction fuel generalizing t n new with
  | zero => omega
  | succ fuel ih =>
    cases hc : t.canServe with
    | false => rw [grantPass_of_full hc]; exact ⟨n, new, h, .inl hc⟩
    | true =>
      rcases serveOne_cases h.loadPending h.scanPtr with ⟨u, hu, hs⟩ | ⟨hu, hx⟩
      · rw [grantPass_of_served hc hu]
        have law : PressureLaw u := by
          have := Serves.presses hc (service_serveOne t) h.law
          rwa [hu] at this
        obtain ⟨n', new', h'⟩ := h.served hs law
        exact ih h' (by have := hs.servicesLeft hc; omega)
      · rw [grantPass_of_unserved hc hu]; exact ⟨n, new, h, .inr hx⟩

/-! ### The survey request (R113) -/

theorem grantPass_of_unasked {s : State} (h : s.Unasked) (hs : s.stalledList = []) (n : Nat) : grantPass n s = s := by
  obtain ⟨hc, hh, hq⟩ := h
  have hserve : serveOne s = (s, false) := by
    have hcreep : s.mode.permitsCreep = false := Bool.eq_false_iff.2 fun h => (permitsCreep_iff.1 h).elim hc hh
    have hreq : (if s.mode = .survey then s.surveyReq else none) = none := by split <;> simp_all
    simp [serveOne, hs, hreq, hcreep, hc]
  cases n with
  | zero => rfl
  | succ n => simp [Machine.grantPass, hserve]

/-- With no group to resume the survey request is the first that a pass in SURVEY serves, and the last. -/
theorem grantPass_survey {s : State} {g : Sector} (hm : s.mode = .survey) (hs : s.stalledList = []) (hc : s.canServe = true)
    (hq : s.surveyReq = some g) (n : Nat) : grantPass (n + 1) s = grantPass n (serveSurvey g s) :=
  grantPass_of_served hc (by simp [serveOne, hm, hs, hq, DeckMode.permitsResume]) n

theorem grantPass_survey_granted {s : State} {g : Sector} (hm : s.mode = .survey) (hs : s.stalledList = []) (hc : s.canServe = true)
    (hq : s.surveyReq = some g) (he : s.surveyEligible g = true) (n : Nat) :
    grantPass (n + 1) s = grant g .survey { s with surveyReq := none } := by
  have hj : Joins g { s with surveyReq := none } (grant g .survey { s with surveyReq := none }) :=
    .grant (s := { s with surveyReq := none }) (grantable_of_survey he) .survey
  have hun : (grant g .survey { s with surveyReq := none }).Unasked := by
    have hmode : (grant g .survey { s with surveyReq := none }).mode = .survey := hj.mode.trans hm
    refine ⟨?_, ?_, fun _ => hj.surveyReq rfl⟩ <;> rw [hmode] <;> decide
  rw [grantPass_survey hm hs hc hq, serveSurvey, if_pos he, grantPass_of_unasked hun (hj.stalledList hs)]

theorem grantPass_survey_blocked {s : State} {g : Sector} (hm : s.mode = .survey) (hs : s.stalledList = []) (hc : s.canServe = true)
    (hq : s.surveyReq = some g) (he : s.surveyEligible g = false) (n : Nat) :
    grantPass (n + 1) s = visitBlocked g { s with surveyReq := none } := by
  have ha : Aside { s with surveyReq := none } (visitBlocked g { s with surveyReq := none }) := .visitBlocked g _
  have hun : (visitBlocked g { s with surveyReq := none }).Unasked := unasked_visitEnded hm rfl
  have hlist : (visitBlocked g { s with surveyReq := none }).stalledList = [] := by
    rw [← hs]
    simp only [State.stalledList, State.groupState, ha.group, (lineup_visitBlocked g { s with surveyReq := none }).1]; rfl
  rw [grantPass_survey hm hs hc hq, serveSurvey, if_neg (by rw [he]; decide), grantPass_of_unasked hun hlist]

/-- The SURVEY stroke granted, the visit has its stroke (R113, R152). -/
theorem survey_granted {s : State} (hm : s.mode = .survey) (g : Sector) :
    (grant g .survey { s with surveyReq := none }).groupState g = .pressurizing
      ∧ ((grant g .survey { s with surveyReq := none }).sector g).group.kind = some .survey
      ∧ (grant g .survey { s with surveyReq := none }).visit = some (g, .stroke)
      ∧ (grant g .survey { s with surveyReq := none }).surveyReq = none
      ∧ (grant g .survey { s with surveyReq := none }).mode = .survey := by
  have hg := Grants.grant g .survey { s with surveyReq := none }
  exact ⟨congrArg Group.state hg.group, congrArg Group.kind hg.group, rfl, congrArg (·.2.2.2.1) hg.arbiter,
    (congrArg Prod.fst hg.arbiter).trans hm⟩

theorem Ending.blocked (g : Sector) (s : State) : Ending g .blocked s (setOutcome g .blocked { s with surveyReq := none }) := by
  refine ⟨Elsewhere.trans (t := { s with surveyReq := none }) ?_ (.setOutcome g .blocked _), ?_, rfl⟩
  · exact .update g s s.visit none s.line s.waiting s.pressureOrder s.passDue
  · rw [sector_setOutcome, if_pos rfl]; rfl

theorem visitEnds_blocked (g : Sector) (s : State) : VisitEnds g .blocked s (visitBlocked g { s with surveyReq := none }) :=
  (Ending.blocked g s).visitEnds (by decide)

/-! ### SUPPLY STATE and the pass it runs -/

/-- A capacity that is taken up already lets the pass serve nothing (R106, R108). -/
theorem exec_supplyState_full {s : State} {k : Nat} (hr : Rest .supply s) (law : OrderLaw s) (hk : k < 256) (h : min k 8 ≤ s.numPressurizing) :
    ∃ t, exec (.supplyState .supply [1, byteOf k]) s = .next t ∧ t.pressureOrder = s.pressureOrder ∧ t.numPressurizing = min k 8
      ∧ ∀ g ∈ s.stalledList, (t.sector g).group = (s.sector g).group := by
  obtain ⟨z, hexec, -⟩ := exec_supplyState s true (press := none) hr hk nofun
  have hlaw : OrderLaw (toHunting .supply s) := law
  have hreported : OrderLaw ((toHunting .supply s).reported true k none) := law
  have hfin : finish ((toHunting .supply s).cutBack true k none) =
      { stallTo (min k 8) ((toHunting .supply s).reported true k none) with passDue := false } := finish_cutBack hlaw none fun _ => h
  rw [hfin] at hexec
  have horder := (lineup_stallTo (min k 8) ((toHunting .supply s).reported true k none)).1
  have hnum := hreported.numPressurizing_stallTo (min k 8)
  have hgroup := hreported.group_stallTo (min k 8)
  generalize stallTo (min k 8) ((toHunting .supply s).reported true k none) = v at *
  refine ⟨_, hexec, horder, hnum.trans (Nat.min_eq_left h), fun g hg => (hgroup g).trans (if_neg fun hin => ?_)⟩
  have hp : s.groupState g = .pressurizing := (mem_pressing.1 (List.mem_of_mem_drop hin)).2
  rw [stalled_of_mem hg] at hp; cases hp

/-- It is all the same what the supply records and the supply ports of s and t hold, and which pass is owed. -/
theorem VisitEnds.of_supplied {g : Sector} {o : VisitOutcome} {s t : State} {x x' : Port} {y y' : Supply} {d d' : Bool}
    (h : VisitEnds g o (s.supplied x y d) t) : VisitEnds g o s (t.supplied x' y' d') := h

theorem Exhausted.supplied {s : State} (h : s.Exhausted) (x : Port) (y : Supply) (d : Bool) : (s.supplied x y d).Exhausted :=
  ⟨h.resumes, h.survey, fun hm e he => (creepEligible_supplied s x y d _).trans (h.creep hm e he),
    fun hm j g hj => (pacedEligible_supplied s x y d g).trans (h.paced hm j g hj)⟩

/-- Where a pass that has nothing left to serve has come from s. -/
theorem Passing.exhausted {s t : State} {n : Nat} {new : List Sector} (h : Passing s t n new) (hx : t.Exhausted)
    (hm : s.mode = .standby ∨ s.mode = .survey ∨ s.mode = .climb ∨ s.mode = .hold) :
    t.stalledList = [] ∧ (s.mode = .survey → t.surveyReq = none)
      ∧ (s.mode = .climb ∨ s.mode = .hold → ∀ e ∈ t.creepList, t.creepEligible e.sector = false)
      ∧ (s.mode = .climb → ∀ j g, t.slot j = some g → t.pacedEligible g = false) := by
  rcases h.mode with hmode | ⟨hs, ht, hreq⟩
  · rw [← hmode] at hm ⊢
    exact ⟨hx.resumes (permitsResume_iff.2 hm), hx.survey, hx.creep, hx.paced⟩
  · refine ⟨hx.resumes (by rw [ht]; rfl), fun _ => hreq, fun hc => ?_, fun hc => ?_⟩ <;> rw [hs] at hc
    · exact absurd hc (by decide)
    · exact absurd hc (by decide)

/-- The pass of a report that leaves capacity free. -/
theorem finish_supplied {s : State} (law : PressureLaw s) (hl : s.loadPending = false) (hp : s.scanPtr < 32) {k : Nat}
    (h : s.numPressurizing < min k 8) (x : Port) {y : Supply} (hready : y.state = .ready) (hcap : y.cap = min k 8) :
    ∃ t n new, finish (s.supplied x y true) = { t with passDue := false } ∧ Passing (s.supplied x y true) t n new
      ∧ (t.numPressurizing < min k 8 → t.Exhausted)
      ∧ ∀ g, s.mode = .survey → s.stalledList = [] → s.surveyReq = some g →
        (s.surveyEligible g = true → t = grant g .survey { s.supplied x y true with surveyReq := none })
        ∧ (s.surveyEligible g = false → t = visitBlocked g { s.supplied x y true with surveyReq := none }) := by
  have hcapacity : (s.supplied x y true).capacity = min k 8 := by
    rw [State.capacity]; exact (if_pos hready).trans hcap
  have hfree : (s.supplied x y true).canServe = true := by
    have hnum : (s.supplied x y true).numPressurizing < min k 8 := h
    have hstate : (s.supplied x y true).supply.state = .ready := hready
    simp [State.canServe, hstate, hcapacity, hnum]
  have hlaw : PressureLaw (s.supplied x y true) := by
    obtain ⟨horder, -, -⟩ := pressureLaw_iff.1 law
    refine pressureLaw_iff.2 ⟨horder, ?_, hcap.trans_le (Nat.min_le_right _ _)⟩
    rw [hcapacity]; exact Nat.le_of_lt h
  have hfuel : (s.supplied x y true).servicesLeft < passFuel := by
    rw [State.servicesLeft, hcapacity, passFuel]; split <;> omega
  obtain ⟨n, new, hpass, hend⟩ := (Passing.start hlaw hl hp).grantPass hfuel
  refine ⟨_, n, new, finish_owed _ rfl, hpass, fun hlt => hend.resolve_left fun hfull => ?_, fun g hm hs hq => ⟨fun he => ?_, fun he => ?_⟩⟩
  · have hstate : (grantPass passFuel (s.supplied x y true)).supply.state = .ready := by rw [hpass.supply]; exact hready
    have hcap' := (capacity_of_supply hpass.supply).trans hcapacity
    simp [State.canServe, hstate, hcap'] at hfull
    omega
  · exact grantPass_survey_granted (s := s.supplied x y true) hm hs hfree hq he 49
  · exact grantPass_survey_blocked (s := s.supplied x y true) hm hs hfree hq he 49

/-- Settles O42: a taken-up capacity serves nothing; else the pass resumes from the oldest group on, then grants, and ends with the capacity taken up or nothing left. -/
theorem grantPassServes : Obligations.GrantPassServes := by
  intro s k hr law hrange hk hl resumes
  by_cases hfull : min k 8 ≤ s.numPressurizing
  · obtain ⟨t, hexec, horder, hnum, hgroup⟩ := exec_supplyState_full hr (pressureLaw_iff.1 law).1 hk hfull
    exact ⟨t, 0, [], hexec, by simp, hgroup, fun _ => ⟨rfl, rfl⟩, by rw [horder, List.append_nil], by simp, by simp,
      fun hlt => absurd hlt (by omega), fun _ _ _ hlt => absurd hlt (by omega)⟩
  · have hlt : s.numPressurizing < min k 8 := Nat.lt_of_not_le hfull
    have hptr : s.scanPtr < 32 := by
      obtain ⟨-, -, -, -, -, -, hptr, -⟩ := hrange; exact hptr
    obtain ⟨x, y, z, hexec, hready, hcap⟩ := exec_supplyState_of_le hr hk (Nat.le_of_lt hlt)
    obtain ⟨t, n, new, hfin, hpass, hend, hsurvey⟩ := finish_supplied law hl hptr hlt x hready hcap
    have hidle : ¬resumes → n = 0 ∧ new = [] := fun hn =>
      hpass.idle (Bool.eq_false_iff.2 fun hm => hn (permitsResume_iff.1 hm))
    rw [hfin] at hexec
    have hexec : exec (.supplyState .supply [1, byteOf k]) s = .next (t.supplied z t.supply false) := hexec
    refine ⟨_, n, new, hexec, hpass.resumed, hpass.waiting, hidle, hpass.order, hpass.joined, hpass.last, fun hfree hm => ?_,
      fun g hm hs _ hq _ => ⟨fun he => ?_, fun he => ?_⟩⟩
    · exact hpass.exhausted (hend hfree) hm
    · have ht := survey_granted (s := s.supplied x y true) hm g
      rw [← (hsurvey g hm hs hq).1 he] at ht
      exact ht
    · have ht := visitEnds_blocked g (s.supplied x y true)
      have hl := (lineup_visitBlocked g { s.supplied x y true with surveyReq := none }).1
      rw [← (hsurvey g hm hs hq).2 he] at ht hl
      exact ⟨ht.of_supplied, hl⟩

end Sys2Proof.Machine
end
